-- ==== Sys2Proof/Word.lean ====
section
/-! DEFINITION. The word types of the DEFLATE CORE: the 32-bit register word (spec/00_scope.md R7, REG_WIDTH) and the byte of
the input, the window and the output (spec/20_memory.md R57, R60). -/

namespace Sys2Proof

/-- A host-visible register's word, 32 bits (R7 REG_WIDTH). -/
abbrev Word := BitVec 32

/-- One byte of the input, of the history window, of the output (R57, R60). -/
abbrev Byte := BitVec 8

end Sys2Proof
end

