-- ==== Sys2Proof/Syntax.lean ====
section
/-! DEFINITION. The instructions: one constructor for every row of spec/opcode_table.json, in the table's order (spec/30_encoding.md
R103). Five formats: CTRL, the command words the host writes (R80, R81); BLOCK_HDR, CL_SYM, LIT_SYM and DIST_SYM, the operations
the DEFLATE stream selects after Huffman resolution (R88, R91, R93, R95). An operand that follows a symbol in the stream (its
extra bits, R92 and R94) is read by the instruction's meaning and is no argument here. -/

namespace Sys2Proof

/-- The five formats of the opcode table (R103). A key of one format says nothing about the others: which format is read next
is a matter of where the sequencer stands. -/
inductive Format where
  | ctrl
  | blockHdr
  | clSym
  | litSym
  | distSym
  deriving DecidableEq, Repr

/-- One constructor per row of the opcode table. -/
inductive Instr where
  /-- NOP, OP 0 (R133). -/
  | nop
  /-- RESET_CTX, OP 1 (R134). -/
  | resetCtx
  /-- READ_BITS, OP 2, with its NBITS and KEEP fields as written (R145); NBITS may be illegal (R132). -/
  | readBits (nbits : BitVec 6) (keep : Bool)
  /-- BUILD_TABLE, OP 3, with its TSEL and NSYM fields as written (R155); either may be illegal (R132). -/
  | buildTable (tsel : BitVec 2) (nsym : BitVec 9)
  /-- DECODE_SYMBOL, OP 4, with its TSEL field as written (R166); it may be illegal (R132). -/
  | decodeSymbol (tsel : BitVec 2)
  /-- DECODE_HEADER, OP 5 (R180). -/
  | decodeHeader
  /-- DECODE_BLOCK, OP 6 (R206). -/
  | decodeBlock
  /-- DECODE_STREAM, OP 7 (R208). -/
  | decodeStream
  /-- A reserved command, OP 8 to 15 (R135). -/
  | reservedOp (op : BitVec 4)
  /-- Block header with BTYPE 0 (R187). -/
  | btype0Stored (bfinal : Bool)
  /-- Block header with BTYPE 1 (R187). -/
  | btype1Fixed (bfinal : Bool)
  /-- Block header with BTYPE 2, the dynamic block (R186). -/
  | btype2Dynamic (bfinal : Bool)
  /-- Block header with BTYPE 3 (R187). -/
  | btype3Reserved (bfinal : Bool)
  /-- Meta-symbol 0 to 15: a literal code length (R175). -/
  | clLen (len : BitVec 4)
  /-- Meta-symbol 16: repeat the previous length (R176). -/
  | clRepeatPrev
  /-- Meta-symbol 17: a short run of zero lengths (R177). -/
  | clZeroShort
  /-- Meta-symbol 18: a long run of zero lengths (R178). -/
  | clZeroLong
  /-- LIT symbol 0 to 255: a literal byte (R188). -/
  | lit (byte : Byte)
  /-- LIT symbol 256: end of block (R189). -/
  | eob
  /-- LIT symbol 257: length code 0 (R190, R192). -/
  | len257
  /-- LIT symbol 258: length code 1 (R190, R192). -/
  | len258
  /-- LIT symbol 259: length code 2 (R190, R192). -/
  | len259
  /-- LIT symbol 260: length code 3 (R190, R192). -/
  | len260
  /-- LIT symbol 261: length code 4 (R190, R192). -/
  | len261
  /-- LIT symbol 262: length code 5 (R190, R192). -/
  | len262
  /-- LIT symbol 263: length code 6 (R190, R192). -/
  | len263
  /-- LIT symbol 264: length code 7 (R190, R192). -/
  | len264
  /-- LIT symbol 265: length code 8 (R190, R192). -/
  | len265
  /-- LIT symbol 266: length code 9 (R190, R192). -/
  | len266
  /-- LIT symbol 267: length code 10 (R190, R192). -/
  | len267
  /-- LIT symbol 268: length code 11 (R190, R192). -/
  | len268
  /-- LIT symbol 269: length code 12 (R190, R192). -/
  | len269
  /-- LIT symbol 270: length code 13 (R190, R192). -/
  | len270
  /-- LIT symbol 271: length code 14 (R190, R192). -/
  | len271
  /-- LIT symbol 272: length code 15 (R190, R192). -/
  | len272
  /-- LIT symbol 273: length code 16 (R190, R192). -/
  | len273
  /-- LIT symbol 274: length code 17 (R190, R192). -/
  | len274
  /-- LIT symbol 275: length code 18 (R190, R192). -/
  | len275
  /-- LIT symbol 276: length code 19 (R190, R192). -/
  | len276
  /-- LIT symbol 277: length code 20 (R190, R192). -/
  | len277
  /-- LIT symbol 278: length code 21 (R190, R192). -/
  | len278
  /-- LIT symbol 279: length code 22 (R190, R192). -/
  | len279
  /-- LIT symbol 280: length code 23 (R190, R192). -/
  | len280
  /-- LIT symbol 281: length code 24 (R190, R192). -/
  | len281
  /-- LIT symbol 282: length code 25 (R190, R192). -/
  | len282
  /-- LIT symbol 283: length code 26 (R190, R192). -/
  | len283
  /-- LIT symbol 284: length code 27 (R190, R192). -/
  | len284
  /-- LIT symbol 285: length code 28 (R190, R192). -/
  | len285
  /-- LIT symbol 286 or 287, reserved (R193). -/
  | litReserved (sym : BitVec 9)
  /-- DIST symbol 0 (R194, R195). -/
  | dist0
  /-- DIST symbol 1 (R194, R195). -/
  | dist1
  /-- DIST symbol 2 (R194, R195). -/
  | dist2
  /-- DIST symbol 3 (R194, R195). -/
  | dist3
  /-- DIST symbol 4 (R194, R195). -/
  | dist4
  /-- DIST symbol 5 (R194, R195). -/
  | dist5
  /-- DIST symbol 6 (R194, R195). -/
  | dist6
  /-- DIST symbol 7 (R194, R195). -/
  | dist7
  /-- DIST symbol 8 (R194, R195). -/
  | dist8
  /-- DIST symbol 9 (R194, R195). -/
  | dist9
  /-- DIST symbol 10 (R194, R195). -/
  | dist10
  /-- DIST symbol 11 (R194, R195). -/
  | dist11
  /-- DIST symbol 12 (R194, R195). -/
  | dist12
  /-- DIST symbol 13 (R194, R195). -/
  | dist13
  /-- DIST symbol 14 (R194, R195). -/
  | dist14
  /-- DIST symbol 15 (R194, R195). -/
  | dist15
  /-- DIST symbol 16 (R194, R195). -/
  | dist16
  /-- DIST symbol 17 (R194, R195). -/
  | dist17
  /-- DIST symbol 18 (R194, R195). -/
  | dist18
  /-- DIST symbol 19 (R194, R195). -/
  | dist19
  /-- DIST symbol 20 (R194, R195). -/
  | dist20
  /-- DIST symbol 21 (R194, R195). -/
  | dist21
  /-- DIST symbol 22 (R194, R195). -/
  | dist22
  /-- DIST symbol 23 (R194, R195). -/
  | dist23
  /-- DIST symbol 24 (R194, R195). -/
  | dist24
  /-- DIST symbol 25 (R194, R195). -/
  | dist25
  /-- DIST symbol 26 (R194, R195). -/
  | dist26
  /-- DIST symbol 27 (R194, R195). -/
  | dist27
  /-- DIST symbol 28 (R194, R195). -/
  | dist28
  /-- DIST symbol 29 (R194, R195). -/
  | dist29
  /-- DIST symbol 30 or 31, reserved (R196). -/
  | distReserved (sym : BitVec 5)
  deriving DecidableEq, Repr

end Sys2Proof
end

