-- ==== Sys2Proof/WellFormed.lean ====
section
/-! DEFINITION. Which instructions are well formed: an argument stands for the row it belongs to (spec/30_encoding.md R81, R93,
R95, R103). A command's illegal operand (R82) does NOT make it ill formed: such a command word exists, decodes, and raises
ILLEGAL_COMMAND when it is performed (spec/40_control.md R132; see Machine/Operands.lean). -/

namespace Sys2Proof

/-- The instruction is one that its row of the opcode table has: a reserved command's OP is 8 to 15 (R81, R135), a reserved LIT
symbol is 286 or 287 (R93), a reserved DIST symbol is 30 or 31 (R95). Every other argument fills its field. -/
def Instr.wellFormed : Instr → Bool
  | .reservedOp op => decide (8 ≤ op.toNat)
  | .litReserved sym => decide (sym.toNat = 286 ∨ sym.toNat = 287)
  | .distReserved sym => decide (sym.toNat = 30 ∨ sym.toNat = 31)
  | .nop | .resetCtx | .readBits _ _ | .buildTable _ _ | .decodeSymbol _ | .decodeHeader | .decodeBlock
  | .decodeStream | .btype0Stored _ | .btype1Fixed _ | .btype2Dynamic _ | .btype3Reserved _ | .clLen _
  | .clRepeatPrev | .clZeroShort | .clZeroLong | .lit _ | .eob | .len257 | .len258 | .len259 | .len260 | .len261
  | .len262 | .len263 | .len264 | .len265 | .len266 | .len267 | .len268 | .len269 | .len270 | .len271 | .len272
  | .len273 | .len274 | .len275 | .len276 | .len277 | .len278 | .len279 | .len280 | .len281 | .len282 | .len283
  | .len284 | .len285 | .dist0 | .dist1 | .dist2 | .dist3 | .dist4 | .dist5 | .dist6 | .dist7 | .dist8 | .dist9
  | .dist10 | .dist11 | .dist12 | .dist13 | .dist14 | .dist15 | .dist16 | .dist17 | .dist18 | .dist19 | .dist20
  | .dist21 | .dist22 | .dist23 | .dist24 | .dist25 | .dist26 | .dist27 | .dist28 | .dist29 => true

/-- The instruction is a command word's (format CTRL, R80); the others are operations of the stream. -/
def Instr.isCommand : Instr → Bool
  | .nop | .resetCtx | .readBits _ _ | .buildTable _ _ | .decodeSymbol _ | .decodeHeader | .decodeBlock
  | .decodeStream | .reservedOp _ => true
  | .btype0Stored _ | .btype1Fixed _ | .btype2Dynamic _ | .btype3Reserved _ | .clLen _ | .clRepeatPrev | .clZeroShort
  | .clZeroLong | .lit _ | .eob | .len257 | .len258 | .len259 | .len260 | .len261 | .len262 | .len263 | .len264
  | .len265 | .len266 | .len267 | .len268 | .len269 | .len270 | .len271 | .len272 | .len273 | .len274 | .len275
  | .len276 | .len277 | .len278 | .len279 | .len280 | .len281 | .len282 | .len283 | .len284 | .len285
  | .litReserved _ | .dist0 | .dist1 | .dist2 | .dist3 | .dist4 | .dist5 | .dist6 | .dist7 | .dist8 | .dist9
  | .dist10 | .dist11 | .dist12 | .dist13 | .dist14 | .dist15 | .dist16 | .dist17 | .dist18 | .dist19 | .dist20
  | .dist21 | .dist22 | .dist23 | .dist24 | .dist25 | .dist26 | .dist27 | .dist28 | .dist29 | .distReserved _ => false

end Sys2Proof
end

