-- ==== Sys2Proof/Decode.lean ====
section
/-! DEFINITION. The decoder and the encoder (spec/30_encoding.md R80 to R103; spec/opcode_table.json). The decoder is total: every
key of every format is an instruction or is refused by name. A command word is 32 bits (R80); a stream key is the symbol AFTER
Huffman resolution (R103), given here as a number in a 32-bit word. The formats overlap in their numbers, and no bit of a key
says its format: the sequencer's phase does (Machine/Sequencer.lean). -/

namespace Sys2Proof

/-- Why a key or a byte sequence is no instruction. -/
inductive DecodeError where
  /-- Fewer than the four bytes of a command word. -/
  | shortWord
  /-- The block header key has more than its 3 bits (R88). -/
  | noBlockHeader
  /-- 19 or above: no symbol of the 19-symbol meta-alphabet (R90, R91). -/
  | noMetaSymbol
  /-- 288 or above: no symbol of the LIT alphabet (R93). -/
  | noLitSymbol
  /-- 32 or above: no symbol of the DIST alphabet (R95). -/
  | noDistSymbol
  deriving DecidableEq, Repr

/-! ## Fields of a command word (R80, R82: unsigned, not scaled) -/

/-- OP, bits [3:0] (R80). -/
def ctrlOp (w : Word) : BitVec 4 := w.extractLsb' 0 4

/-- NBITS, bits [9:4] (R80). -/
def ctrlNbits (w : Word) : BitVec 6 := w.extractLsb' 4 6

/-- KEEP, bit [10] (R80). -/
def ctrlKeep (w : Word) : Bool := w.getLsbD 10

/-- TSEL, bits [13:12] (R80). -/
def ctrlTsel (w : Word) : BitVec 2 := w.extractLsb' 12 2

/-- NSYM, bits [24:16] (R80). -/
def ctrlNsym (w : Word) : BitVec 9 := w.extractLsb' 16 9

/-! ## The decoder -/

/-- A command word (R81). Reserved bits and the fields a command does not use are dropped (R83). -/
def decodeCtrl (w : Word) : Instr :=
  match (ctrlOp w).toNat with
  | 0 => .nop
  | 1 => .resetCtx
  | 2 => .readBits (ctrlNbits w) (ctrlKeep w)
  | 3 => .buildTable (ctrlTsel w) (ctrlNsym w)
  | 4 => .decodeSymbol (ctrlTsel w)
  | 5 => .decodeHeader
  | 6 => .decodeBlock
  | 7 => .decodeStream
  | _ => .reservedOp (ctrlOp w)

/-- A block header key H = BFINAL + 2*BTYPE, 3 bits (R88, R103). -/
def decodeBlockHdr (key : Nat) : Except DecodeError Instr :=
  let bfinal := decide (key % 2 = 1)
  match key / 2 with
  | 0 => .ok (.btype0Stored bfinal)
  | 1 => .ok (.btype1Fixed bfinal)
  | 2 => .ok (.btype2Dynamic bfinal)
  | 3 => .ok (.btype3Reserved bfinal)
  | _ => .error .noBlockHeader

/-- A meta-symbol, 0 to 18 (R91). -/
def decodeClSym (key : Nat) : Except DecodeError Instr :=
  if key ≤ 15 then .ok (.clLen (BitVec.ofNat 4 key))
  else match key with
    | 16 => .ok .clRepeatPrev
    | 17 => .ok .clZeroShort
    | 18 => .ok .clZeroLong
    | _ => .error .noMetaSymbol

/-- The length codes in the order of their symbols 257 to 285 (R93, R192). -/
def lengthCodes : List Instr :=
  [
   .len257, .len258, .len259, .len260, .len261, .len262, .len263, .len264, .len265, .len266, .len267, .len268,
   .len269, .len270, .len271, .len272, .len273, .len274, .len275, .len276, .len277, .len278, .len279, .len280,
   .len281, .len282, .len283, .len284, .len285]

/-- A LIT symbol, 0 to 287 (R93). -/
def decodeLitSym (key : Nat) : Except DecodeError Instr :=
  if key ≤ 255 then .ok (.lit (BitVec.ofNat 8 key))
  else if key = 256 then .ok .eob
  else match lengthCodes[key - 257]? with
    | some i => .ok i
    | none => if key ≤ 287 then .ok (.litReserved (BitVec.ofNat 9 key)) else .error .noLitSymbol

/-- The distance codes in the order of their symbols 0 to 29 (R95, R195). -/
def distanceCodes : List Instr :=
  [
   .dist0, .dist1, .dist2, .dist3, .dist4, .dist5, .dist6, .dist7, .dist8, .dist9, .dist10, .dist11, .dist12,
   .dist13, .dist14, .dist15, .dist16, .dist17, .dist18, .dist19, .dist20, .dist21, .dist22, .dist23, .dist24,
   .dist25, .dist26, .dist27, .dist28, .dist29]

/-- A DIST symbol, 0 to 31 (R95). -/
def decodeDistSym (key : Nat) : Except DecodeError Instr :=
  match distanceCodes[key]? with
  | some i => .ok i
  | none => if key ≤ 31 then .ok (.distReserved (BitVec.ofNat 5 key)) else .error .noDistSymbol

/-- The instruction a key of a format stands for (R103). -/
def decode (f : Format) (key : Word) : Except DecodeError Instr :=
  match f with
  | .ctrl => .ok (decodeCtrl key)
  | .blockHdr => decodeBlockHdr key.toNat
  | .clSym => decodeClSym key.toNat
  | .litSym => decodeLitSym key.toNat
  | .distSym => decodeDistSym key.toNat

/-- The register word four bytes make, the lowest address first: little-endian (spec/20_memory.md R63). -/
def wordOfBytes (b0 b1 b2 b3 : Byte) : Word := b3 ++ b2 ++ b1 ++ b0

/-- The four bytes of a register word, the lowest address first (R63). -/
def bytesOfWord (w : Word) : List Byte :=
  [w.extractLsb' 0 8, w.extractLsb' 8 8, w.extractLsb' 16 8, w.extractLsb' 24 8]

/-- A command word from the bytes that hold it, and the bytes after it (R63, R80: every command is one 32-bit word). -/
def decodeCtrlBytes : List Byte → Except DecodeError (Instr × List Byte)
  | b0 :: b1 :: b2 :: b3 :: rest => .ok (decodeCtrl (wordOfBytes b0 b1 b2 b3), rest)
  | _ => .error .shortWord

/-! ## The host's question about a row of the opcode table -/

/-- Which format a bare table word is read in. The host's word carries no format and the table's five key spaces overlap, so
one of the rows that a number could stand for must be taken: the named commands and 8 first, then the longer of the fixed
masks. DESIGN CHOICE (log entry 15). The machine itself never asks this: its phase gives the format. -/
def tableFormat (nbits w : Nat) : Format :=
  if nbits ≤ 8 then
    if w ≤ 8 then .ctrl
    else if w ≤ 15 then .distSym
    else if w ≤ 18 then .clSym
    else if w ≤ 31 then .distSym
    else .ctrl
  else if nbits ≤ 16 then
    if 18 ≤ w ∧ w ≤ 29 then .distSym
    else if w ≤ 287 then .litSym
    else .ctrl
  else .ctrl

/-- The instruction the decoder reads from a table word of `nbits` bits (every bit above them 0). A command word is laid out as
its four bytes and decoded from them; a stream key is decoded as the number it is. -/
def decodeTableWord (nbits w : Nat) : Option Instr :=
  if 2 ^ 32 ≤ w then none
  else match tableFormat nbits w with
    | .ctrl => match decodeCtrlBytes (bytesOfWord (BitVec.ofNat 32 w)) with
      | .ok (i, _) => some i
      | .error _ => none
    | f => match decode f (BitVec.ofNat 32 w) with
      | .ok i => some i
      | .error _ => none

/-! ## The encoder -/

/-- The format an instruction's row belongs to (R103). -/
def Instr.format : Instr → Format
  | .nop | .resetCtx | .readBits _ _ | .buildTable _ _ | .decodeSymbol _ | .decodeHeader | .decodeBlock
  | .decodeStream | .reservedOp _ => .ctrl
  | .btype0Stored _ | .btype1Fixed _ | .btype2Dynamic _ | .btype3Reserved _ => .blockHdr
  | .clLen _ | .clRepeatPrev | .clZeroShort | .clZeroLong => .clSym
  | .lit _ | .eob | .len257 | .len258 | .len259 | .len260 | .len261 | .len262 | .len263 | .len264 | .len265
  | .len266 | .len267 | .len268 | .len269 | .len270 | .len271 | .len272 | .len273 | .len274 | .len275 | .len276
  | .len277 | .len278 | .len279 | .len280 | .len281 | .len282 | .len283 | .len284 | .len285 | .litReserved _ => .litSym
  | .dist0 | .dist1 | .dist2 | .dist3 | .dist4 | .dist5 | .dist6 | .dist7 | .dist8 | .dist9 | .dist10 | .dist11
  | .dist12 | .dist13 | .dist14 | .dist15 | .dist16 | .dist17 | .dist18 | .dist19 | .dist20 | .dist21 | .dist22
  | .dist23 | .dist24 | .dist25 | .dist26 | .dist27 | .dist28 | .dist29 | .distReserved _ => .distSym

/-- The key of a block header, BFINAL + 2*BTYPE (R88). -/
def blockHdrKey (bfinal : Bool) (btype : BitVec 2) : Word := 0#29 ++ btype ++ BitVec.ofBool bfinal

/-- The word of an instruction: a command's word with its unused fields 0 (R80, R81, R100), or a stream operation's key
(R88, R91, R93, R95). -/
def encode : Instr → Word
  | .nop => 0#32
  | .resetCtx => 1#32
  | .readBits nbits keep => 0#21 ++ BitVec.ofBool keep ++ nbits ++ 2#4
  | .buildTable tsel nsym => 0#7 ++ nsym ++ 0#2 ++ tsel ++ 0#8 ++ 3#4
  | .decodeSymbol tsel => 0#18 ++ tsel ++ 0#8 ++ 4#4
  | .decodeHeader => 5#32
  | .decodeBlock => 6#32
  | .decodeStream => 7#32
  | .reservedOp op => op.setWidth 32
  | .btype0Stored bfinal => blockHdrKey bfinal 0
  | .btype1Fixed bfinal => blockHdrKey bfinal 1
  | .btype2Dynamic bfinal => blockHdrKey bfinal 2
  | .btype3Reserved bfinal => blockHdrKey bfinal 3
  | .clLen len => len.setWidth 32
  | .clRepeatPrev => 16#32
  | .clZeroShort => 17#32
  | .clZeroLong => 18#32
  | .lit byte => byte.setWidth 32
  | .eob => 256#32
  | .len257 => 257#32
  | .len258 => 258#32
  | .len259 => 259#32
  | .len260 => 260#32
  | .len261 => 261#32
  | .len262 => 262#32
  | .len263 => 263#32
  | .len264 => 264#32
  | .len265 => 265#32
  | .len266 => 266#32
  | .len267 => 267#32
  | .len268 => 268#32
  | .len269 => 269#32
  | .len270 => 270#32
  | .len271 => 271#32
  | .len272 => 272#32
  | .len273 => 273#32
  | .len274 => 274#32
  | .len275 => 275#32
  | .len276 => 276#32
  | .len277 => 277#32
  | .len278 => 278#32
  | .len279 => 279#32
  | .len280 => 280#32
  | .len281 => 281#32
  | .len282 => 282#32
  | .len283 => 283#32
  | .len284 => 284#32
  | .len285 => 285#32
  | .litReserved sym => sym.setWidth 32
  | .dist0 => 0#32
  | .dist1 => 1#32
  | .dist2 => 2#32
  | .dist3 => 3#32
  | .dist4 => 4#32
  | .dist5 => 5#32
  | .dist6 => 6#32
  | .dist7 => 7#32
  | .dist8 => 8#32
  | .dist9 => 9#32
  | .dist10 => 10#32
  | .dist11 => 11#32
  | .dist12 => 12#32
  | .dist13 => 13#32
  | .dist14 => 14#32
  | .dist15 => 15#32
  | .dist16 => 16#32
  | .dist17 => 17#32
  | .dist18 => 18#32
  | .dist19 => 19#32
  | .dist20 => 20#32
  | .dist21 => 21#32
  | .dist22 => 22#32
  | .dist23 => 23#32
  | .dist24 => 24#32
  | .dist25 => 25#32
  | .dist26 => 26#32
  | .dist27 => 27#32
  | .dist28 => 28#32
  | .dist29 => 29#32
  | .distReserved sym => sym.setWidth 32

end Sys2Proof
end

