-- ==== Sys2Proof/Config.lean ====
section
/-! DEFINITION. What an implementation fixes (spec/00_scope.md R7, spec/93_implementation_defined.md I2, I5). The spec calls WINDOW_SIZE
and INPUT_MAX parameters that a model takes as arguments; they stand in a record of plain data that the state carries and no
step changes (log entry 8); so does REG_BASE, the address of the register block, which the spec leaves to the platform (spec/20_memory.md
R64, spec/93_implementation_defined.md I3; log entry 21). The spec leaves no RESULT undefined, so there is no free value and no opaque
constant here. -/

namespace Sys2Proof

/-- The two parameters of R7, and REG_BASE (spec/20_memory.md R64). -/
structure Params where
  /-- WINDOW_SIZE, W: the number of bytes of the history window. -/
  windowSize : Nat
  /-- INPUT_MAX: the largest number of bytes an attached input may have. -/
  inputMax : Nat
  /-- REG_BASE: where the register block begins in the host's address space. -/
  regBase : Nat
  deriving DecidableEq, Repr

/-- This hardware's parameters: W = 32768 (R7, D5) and INPUT_MAX = 2^32 - 1 (R7, D23). REG_BASE is open (D2): DESIGN CHOICE 0, on which
no claim rests (log entry 21). -/
def Params.hardware : Params := { windowSize := 32768, inputMax := 2 ^ 32 - 1, regBase := 0 }

/-- What R7 asks of the parameters: W is a power of two, at least 32768, and INPUT_MAX is at most 2^32 - 1. W = 2^32 and above
are left out because HIST_COUNT, a 32-bit register that saturates at W (R45), could not hold W (log entry 8). REG_BASE may be any address. -/
abbrev Params.Legal (p : Params) : Prop :=
  (∃ k, k < 32 ∧ 15 ≤ k ∧ p.windowSize = 2 ^ k) ∧ p.inputMax ≤ 2 ^ 32 - 1

end Sys2Proof
end

