-- ==== Sys2Proof/Machine/State.lean ====
section
/-! DEFINITION. The state of the DEFLATE CORE as plain data: every piece of state of spec/10_state.md (sections 3 to 6, reset values in
R49), the sequencer's working state within a command (R48), and the host's side of the interface (spec/70_reset_and_hazards.md
R247). INVENTORY.md lists each field with its rule. The block has no general-purpose register and no program counter (R22, R23). -/

namespace Sys2Proof.Machine

/-! ## Flags and diagnostic registers -/

/-- STATUS (R27). BUSY is 1 exactly while a command is in progress, so it is read off the sequencer's phase (log entry 13). -/
structure Status where
  done : Bool
  error : Bool
  streamEnd : Bool
  errcode : BitVec 4
  deriving DecidableEq, Repr

/-- HDR: the header fields of the most recent block or header (R35). -/
structure Hdr where
  bfinal : BitVec 1
  btype : BitVec 2
  hlit : BitVec 5
  hdist : BitVec 5
  hclen : BitVec 4
  deriving DecidableEq, Repr

/-- ERRINFO: detail of the error that set ERROR (R36). -/
structure ErrInfo where
  subcause : BitVec 8
  value : BitVec 16
  deriving DecidableEq, Repr

/-- TBL_ADDR: what LEN_DATA and CODE_DATA address (R37). -/
structure TblAddr where
  index : BitVec 9
  tsel : BitVec 2
  deriving DecidableEq, Repr

/-! ## The five units' state -/

/-- The Bit Reader's state: BITBUF, BITCNT and the input position IN_COUNT (R29, R32; spec/41_bitreader.md R141). -/
structure Reader where
  bitbuf : BitVec 40
  bitcnt : BitVec 6
  inCount : Word
  deriving DecidableEq, Repr

/-- The output side: OUT, OUT_COUNT, HIST_COUNT and the history window WIN (R33, R44, R45, R47). WIN is a list of (window
address, byte) pairs with strictly rising addresses; an address that is not listed has no value (log entry 3). -/
structure Output where
  out : List Byte
  outCount : Word
  histCount : Word
  win : List Host.Cell
  deriving DecidableEq, Repr

/-- Which of the three code-length arrays and decode tables: CL (0), LIT (1), DIST (2) (R7 TABLES, R26 TSEL). -/
inductive TableId where
  | cl
  | lit
  | dist
  deriving DecidableEq, Repr

/-- The three code-length arrays (R41). -/
structure Lens where
  cl : Vector (BitVec 3) 19
  lit : Vector (BitVec 4) 288
  dist : Vector (BitVec 4) 32
  deriving DecidableEq, Repr

/-- A built decode table: its snapshot TL_t of code lengths; N_t is the snapshot's length, and everything else is a function of
the snapshot (R42, R43). -/
structure DecodeTable where
  lens : List (BitVec 4)
  deriving DecidableEq, Repr

/-- The three built decode tables T_CL, T_LIT and T_DIST (R42). -/
structure Tables where
  cl : DecodeTable
  lit : DecodeTable
  dist : DecodeTable
  deriving DecidableEq, Repr

/-! ## The sequencer's working state within a command (R48) -/

/-- The decoder accumulator ACC and its bit count K (R48; spec/43_huffman_decoder.md R161). -/
structure Decoder where
  acc : BitVec 15
  k : BitVec 4
  deriving DecidableEq, Repr

/-- Where the sequencer stands: between commands, or about to read a symbol of one of the stream's formats. The model's own
field (log entry 2): a command is one atomic transition (R20), so no host access ever finds a phase other than idle. -/
inductive Phase where
  | idle
  | blockHdr
  | clSym
  | litSym
  | distSym
  deriving DecidableEq, Repr

/-- Which of the three stream-decoding commands is running (log entry 2). -/
inductive Cmd where
  | header
  | block
  | stream
  deriving DecidableEq, Repr

/-- The working state within a command. -/
structure Work where
  phase : Phase
  cmd : Cmd
  /-- ACC and K (R48). -/
  dec : Decoder
  /-- The header decoder's position i in the code-length sequence (R174). -/
  seqIndex : Nat
  /-- HLIT + 257 of the header being decoded (R174). -/
  nlit : Nat
  /-- HDIST + 1 of the header being decoded (R174). -/
  ndist : Nat
  /-- A copy's remaining length (R48, R200). -/
  copyLen : Nat
  /-- A copy's distance (R48, R200). -/
  copyDist : Nat
  /-- The current block's BFINAL (R48, R186). -/
  bfinal : Bool
  /-- The bytes the current command has emitted (R186 emitted, R208 total). -/
  emitted : Nat
  deriving DecidableEq, Repr

/-- The working state between commands: immaterial by R48 and R49, and zero in this model (log entry 4). -/
def Work.idle : Work :=
  { phase := .idle, cmd := .header, dec := { acc := 0, k := 0 }, seqIndex := 0, nlit := 0, ndist := 0,
    copyLen := 0, copyDist := 0, bfinal := false, emitted := 0 }

/-! ## The host's side (spec/70_reset_and_hazards.md R247) -/

/-- One access or action of the host. An address is the host's; the register block begins at REG_BASE (spec/20_memory.md R64). -/
inductive HostAccess where
  /-- A write of `width` bits at byte address `address` (R62, R63). -/
  | write (width : Nat) (address : Nat) (value : Word)
  /-- A read of `width` bits at byte address `address` (R62, R63). -/
  | read (width : Nat) (address : Nat)
  /-- ATTACH: the byte sequence becomes INPUT (R46, spec/30_encoding.md R101). -/
  | attach (bytes : List Byte)
  /-- Hardware reset, which happens only between commands (R240). -/
  | hardwareReset
  deriving DecidableEq, Repr

/-- Whether a command has been issued in the context, and whether INPUT was replaced after that: the host must keep INPUT
unchanged while a context is in use (spec/20_memory.md R70; log entry 6). The model's own field. -/
inductive InputDuty where
  | fresh
  | inUse
  | replaced
  deriving DecidableEq, Repr

/-- The host's side of the interface. The model's own fields (log entries 1, 5 and 6). -/
structure HostPort where
  /-- The accesses the host has yet to make, oldest first (R66: host program order). -/
  pending : List HostAccess
  /-- The word the host's most recent register read returned. -/
  readData : Word
  duty : InputDuty
  deriving DecidableEq, Repr

/-! ## The state -/

/-- One block instance: one decode context (R21, spec/00_scope.md R14) and its host's side. -/
structure State where
  status : Status
  /-- RESULT (R28). -/
  result : Word
  reader : Reader
  output : Output
  /-- BLOCK_COUNT (R34). -/
  blockCount : Word
  hdr : Hdr
  errinfo : ErrInfo
  tblAddr : TblAddr
  lens : Lens
  tables : Tables
  /-- INPUT, or none attached (R46, R49). -/
  input : Option (List Byte)
  work : Work
  host : HostPort
  /-- The parameters of spec/00_scope.md R7; no step changes them (log entry 8). -/
  params : Params
  deriving DecidableEq, Repr

/-- STATUS at reset: all 0 (R49). -/
def Status.reset : Status := { done := false, error := false, streamEnd := false, errcode := 0 }

/-- HDR at reset: 0 (R49). -/
def Hdr.reset : Hdr := { bfinal := 0, btype := 0, hlit := 0, hdist := 0, hclen := 0 }

/-- ERRINFO at reset: 0 (R49). -/
def ErrInfo.reset : ErrInfo := { subcause := 0, value := 0 }

/-- BITBUF, BITCNT and IN_COUNT at reset: 0 (R49). -/
def Reader.reset : Reader := { bitbuf := 0, bitcnt := 0, inCount := 0 }

/-- OUT, OUT_COUNT and HIST_COUNT at reset: empty and 0; no window entry has a value (R49; log entry 3). -/
def Output.reset : Output := { out := [], outCount := 0, histCount := 0, win := [] }

/-- The code-length arrays at reset: every entry 0 (R49). -/
def Lens.reset : Lens :=
  { cl := Vector.replicate 19 0, lit := Vector.replicate 288 0, dist := Vector.replicate 32 0 }

/-- An empty decode table: N_t = 0 (R42). -/
def DecodeTable.empty : DecodeTable := { lens := [] }

/-- The decode tables at reset: empty (R49). -/
def Tables.reset : Tables := { cl := .empty, lit := .empty, dist := .empty }

/-- The machine right after hardware reset (R49, R240): idle, no INPUT attached, no host access pending. -/
def State.reset : State :=
  { status := .reset, result := 0, reader := .reset, output := .reset, blockCount := 0, hdr := .reset,
    errinfo := .reset, tblAddr := { index := 0, tsel := 0 }, lens := .reset, tables := .reset, input := none,
    work := .idle, host := { pending := [], readData := 0, duty := .fresh }, params := .hardware }

/-! ## Why a step stops -/

/-- The machine's stops. The block's own errors are NOT here: they are state (spec/60_exceptions.md R220). Every fault below
stands only for states that no run from reset reaches; each is safe (the machine stops where nothing is said). -/
inductive Fault where
  /-- A copy reads a window entry that nothing has written. Raised by the distance codes DIST_0 to DIST_29. The spec says no
  rule can observe such an entry (R44), since dist <= HIST_COUNT. Safe (log entry 3). -/
  | windowEntryUnwritten
  /-- A command's step budget ran out before the command ended. Raised by DECODE_HEADER, DECODE_BLOCK and DECODE_STREAM. Every
  command ends (spec/40_control.md R136) when INPUT has at most INPUT_MAX bytes. Safe (log entry 9). -/
  | commandDoesNotEnd
  /-- The decoded symbol is no symbol of its alphabet. Raised by the sequencer's symbol fetch; the alphabets have 19, 288 and 32
  symbols (spec/00_scope.md R7), so no built table gives one. Safe (log entry 10). -/
  | symbolOutsideAlphabet
  /-- A command word where a stream operation is due. Raised by the sequencer: a command cannot be issued while a command is in
  progress (spec/93_implementation_defined.md I22, stuck). Safe (log entry 14). -/
  | commandInProgress
  deriving DecidableEq, Repr

/-- The model's refusals. -/
inductive Refusal where
  /-- An instruction that has no meaning yet; raised only by exec's refused arms. Safe. -/
  | notModelled (mnemonic : String)
  /-- ATTACH of more than INPUT_MAX bytes: a launch with a larger INPUT is refused (spec/93_implementation_defined.md I5).
  Raised by the host's access. Safe (log entry 7). -/
  | inputTooLarge
  /-- A command that calls InByte, in a context whose INPUT the host replaced after the context's first command and before
  RESET_CTX: the block has no rule for it, and a model gives it no move (spec/20_memory.md R70, spec/70_reset_and_hazards.md R247).
  A command that calls no InByte runs. Raised by the host's access, never by an instruction. Safe (log entry 6). -/
  | inputReplacedInContext
  deriving DecidableEq, Repr

/-! ## Results of the units' primitives -/

/-- What a primitive of the command pseudocode gives: a value and the state after it, or the state in which it raised an error
and so ended the command (spec/00_scope.md R11). -/
inductive Res (α : Type) where
  | ok (a : α) (s : State)
  | raised (s : State)
  deriving DecidableEq, Repr

/-- What the Bit Reader gives: a value, or that the input is exhausted, with the reader's state after it (R142, R144). -/
inductive ReadOutcome where
  | read (v : Nat) (r : Reader)
  | exhausted (r : Reader)
  deriving DecidableEq, Repr

/-- How the Huffman decoder leaves its traversing state: resolved, invalid (spec/43_huffman_decoder.md R161), or cut off by the
end of the input. -/
inductive Traversal where
  | resolved (sym : Nat) (d : Decoder) (r : Reader)
  | invalid (d : Decoder) (r : Reader)
  | exhausted (d : Decoder) (r : Reader)
  deriving DecidableEq, Repr

/-- What the machine does next: run an instruction in a state, or settle in a state without running one, or stop. -/
inductive Fetched where
  | run (i : Instr) (s : State)
  | settled (s : State)
  | fault (f : Fault)
  | refused (r : Refusal)
  deriving DecidableEq, Repr

/-- The outcome of one step of this machine. -/
abbrev StepOutcome := Host.Outcome State Fault Refusal

end Sys2Proof.Machine
end

