-- ==== Sys2Proof/Machine/Flags.lean ====
section
/-! DEFINITION. The flags (spec/10_state.md R24, R27): the STATUS word, when DONE, ERROR and STREAM_END change, and the error codes of
spec/60_exceptions.md R214. -/

namespace Sys2Proof.Machine

/-- The errors the block can raise (R214). INVALID_HEADER, code 1, is the host's alone and is none of them
(spec/00_scope.md R5). -/
inductive ErrorKind where
  | unsupportedBlockType
  | invalidCode
  | invalidSymbol
  | inputExhausted
  | invalidDistance
  | illegalCommand
  deriving DecidableEq, Repr

/-- ERRCODE of an error (R214). -/
def errorCode : ErrorKind → BitVec 4
  | .unsupportedBlockType => 2
  | .invalidCode => 3
  | .invalidSymbol => 4
  | .inputExhausted => 5
  | .invalidDistance => 6
  | .illegalCommand => 7

/-- STATUS.BUSY: a command is in progress (R27). -/
def State.busy (s : State) : Bool := !decide (s.work.phase = .idle)

/-- The STATUS word: BUSY [0], DONE [1], ERROR [2], STREAM_END [3], ERRCODE [11:8], every other bit 0 (R25, R27). -/
def statusWord (s : State) : Word :=
  0#20 ++ s.status.errcode ++ 0#4 ++ BitVec.ofBool s.status.streamEnd ++ BitVec.ofBool s.status.error
    ++ BitVec.ofBool s.status.done ++ BitVec.ofBool s.busy

/-- STATUS.DONE <- 0: a command is accepted (spec/40_control.md R130). -/
def clearDone (s : State) : State := { s with status := { s.status with done := false } }

/-- STATUS.DONE <- 1: the command has completed without error (R130). The sequencer is idle again. -/
def complete (s : State) : State := { s with status := { s.status with done := true }, work := .idle }

/-- STATUS.STREAM_END <- 1 (spec/45_block_decoder.md R186, R189). -/
def markStreamEnd (s : State) : State := { s with status := { s.status with streamEnd := true } }

end Sys2Proof.Machine
end

