-- ==== Sys2Proof/Machine/Ops.lean ====
section
/-! DEFINITION. The named operations over memory, ports and registers: the window's memory (spec/20_memory.md R57), the byte-source
port (R55), Emit (R58), raising an error and the return from one (spec/60_exceptions.md R220, R223), and the writes of the
registers that several commands share. -/

namespace Sys2Proof.Machine

/-! ## The history window as memory (R57, spec/10_state.md R44)

A list of (address, byte) pairs. CANONICAL FORM: addresses strictly rise and lie below W. An address that is not listed has no
value (the window's contents after reset are unspecified, R44, R49; log entry 3), so no listed entry can equal it. -/

/-- The canonical form of a window of `w` bytes. -/
abbrev Memory.wf (w : Nat) (m : List Host.Cell) : Prop :=
  m.Pairwise (fun c d => c.1 < d.1) ∧ ∀ c ∈ m, c.1 < w

/-- MemRead(a, 1): the byte at address `a`; none where nothing has been written (R57). -/
def Memory.read (a : Nat) : List Host.Cell → Option Byte
  | [] => none
  | (x, b) :: rest => if x = a then some b else Memory.read a rest

/-- MemWrite(a, 1, v): the window with byte `v` at address `a`, in its place in the rising order (R57). -/
def Memory.write (a : Nat) (v : Byte) : List Host.Cell → List Host.Cell
  | [] => [(a, v)]
  | (x, b) :: rest =>
    if a < x then (a, v) :: (x, b) :: rest
    else if a = x then (a, v) :: rest
    else (x, b) :: Memory.write a v rest

/-! ## The byte-source port (R55) -/

/-- The bytes the port serves: INPUT, and no byte while none is attached (spec/70_reset_and_hazards.md R242). -/
def inputBytes (s : State) : List Byte := s.input.getD []

/-- InByte: the byte at IN_COUNT and the reader with IN_COUNT advanced, or none (exhausted) with no effect (R55, R61). -/
def inByte (input : List Byte) (r : Reader) : Option (Byte × Reader) :=
  match input[r.inCount.toNat]? with
  | some b => some (b, { r with inCount := r.inCount + 1 })
  | none => none

/-- The stream bits that are still to be consumed: those buffered and those of the bytes not yet taken. It is
8 * |INPUT| - STREAM_POS (spec/10_state.md R23) while IN_COUNT is at most |INPUT|. -/
def bitsLeft (input : List Byte) (r : Reader) : Nat :=
  8 * (input.length - r.inCount.toNat) + r.bitcnt.toNat

/-! ## The byte-sink port and the window -/

/-- Emit(b), its four effects (R58), for a window of `w` bytes. -/
def emitByte (w : Nat) (b : Byte) (o : Output) : Output :=
  { out := o.out ++ [b],
    win := Memory.write (o.outCount.toNat % w) b o.win,
    outCount := o.outCount + 1,
    histCount := BitVec.ofNat 32 (min (o.histCount.toNat + 1) w) }

/-- The window address `dist` bytes behind the next write: (OUT_COUNT - dist) mod W, a non-negative residue (R59). -/
def windowAddr (w : Nat) (dist : Nat) (o : Output) : Nat :=
  (((o.outCount.toNat : Int) - (dist : Int)) % (w : Int)).toNat

/-- Copy(len, dist), one byte at a time, each read after the write before it (spec/45_block_decoder.md R200,
spec/20_memory.md R67). None where it would read a window entry that nothing has written. -/
def copyBytes (w : Nat) (dist : Nat) : Nat → Output → Option Output
  | 0, o => some o
  | len + 1, o =>
    match Memory.read (windowAddr w dist o) o.win with
    | none => none
    | some b => copyBytes w dist len (emitByte w b o)

/-! ## Taking an error, and the return from one -/

/-- raise E(sub, value) (R220): ERROR, ERRCODE and ERRINFO are written and the command ends. DONE and RESULT are not touched,
nothing else of the host-visible state is written, and no effect before this point is undone (R221). -/
def raise (e : ErrorKind) (sub : BitVec 8) (value : BitVec 16) (s : State) : State :=
  { s with
    status := { s.status with error := true, errcode := errorCode e },
    errinfo := { subcause := sub, value := value },
    work := .idle }

/-- The return from an error and the start of a new context, which RESET_CTX performs (spec/40_control.md R134, R223): every
piece of the context takes its reset value except INPUT, TBL_ADDR and the window (spec/70_reset_and_hazards.md R243). -/
def newContext (s : State) : State :=
  { s with
    status := .reset, result := 0, reader := .reset,
    output := { Output.reset with win := s.output.win },
    blockCount := 0, hdr := .reset, errinfo := .reset, lens := .reset, tables := .reset, work := .idle }

/-- Hardware reset (R240, R49): every piece of state at its reset value and no INPUT attached. What the host still has to do,
what it last read, and the parameters are not the block's. -/
def hardwareResetState (s : State) : State :=
  { State.reset with host := { s.host with duty := .fresh }, params := s.params }

/-! ## Results -/

/-- A value of `n` unbounded bits stored into RESULT keeps its low 32 bits (spec/00_scope.md R9), and the command is complete
(R130). -/
def completeWith (v : Nat) (s : State) : State := complete { s with result := BitVec.ofNat 32 v }

/-- One primitive after another: an error ends the whole command (spec/00_scope.md R11). -/
def Res.andThen {α β : Type} (x : Res α) (f : α → State → Res β) : Res β :=
  match x with
  | .ok a s => f a s
  | .raised s => .raised s

/-- A primitive as a step: the state after it, whether or not it raised an error. -/
def Res.toOutcome {α : Type} (x : Res α) (f : α → State → StepOutcome) : StepOutcome :=
  match x with
  | .ok a s => f a s
  | .raised s => .next s

end Sys2Proof.Machine
end

