-- ==== Sys2Proof/Machine/Operands.lean ====
section
/-! DEFINITION. The commands' operand forms (spec/30_encoding.md R81, R82; spec/40_control.md R132) and the tables an operand selects
(spec/10_state.md R26, R41, R42). Every operand is an immediate, read as an unsigned number. -/

namespace Sys2Proof.Machine

/-- The table a TSEL field selects; none for 3 (R26). -/
def tableOfTsel (tsel : BitVec 2) : Option TableId :=
  match tsel.toNat with
  | 0 => some .cl
  | 1 => some .lit
  | 2 => some .dist
  | _ => none

/-- A table's number: 0 CL, 1 LIT, 2 DIST (R26; SUBCAUSE of INVALID_CODE, spec/43_huffman_decoder.md R164). -/
def tableNumber : TableId → BitVec 8
  | .cl => 0
  | .lit => 1
  | .dist => 2

/-- SIZE(t): 19, 288, 32 (R132). -/
def tableSize : TableId → Nat
  | .cl => 19
  | .lit => 288
  | .dist => 32

/-- READ_BITS: 1 <= NBITS <= 32 (R132). -/
def readBitsLegal (nbits : BitVec 6) : Bool := decide (1 ≤ nbits.toNat ∧ nbits.toNat ≤ 32)

/-- BUILD_TABLE: the table and the symbol count, where TSEL <= 2 and 1 <= NSYM <= SIZE (R132). -/
def buildTableOperands (tsel : BitVec 2) (nsym : BitVec 9) : Option (TableId × Nat) :=
  match tableOfTsel tsel with
  | some t => if 1 ≤ nsym.toNat ∧ nsym.toNat ≤ tableSize t then some (t, nsym.toNat) else none
  | none => none

/-! ## The code-length arrays and the decode tables -/

/-- The whole of LEN_t as 4-bit lengths, in the order of the symbols (R41). -/
def lenArray (l : Lens) : TableId → List (BitVec 4)
  | .cl => l.cl.toList.map (BitVec.setWidth 4)
  | .lit => l.lit.toList
  | .dist => l.dist.toList

/-- LEN_t[i] <- v: LEN_CL keeps 3 bits of it; an index past the array is no entry (R38, R41). -/
def setLen (t : TableId) (i : Nat) (v : BitVec 4) (l : Lens) : Lens :=
  match t with
  | .cl => { l with cl := l.cl.setIfInBounds i (v.setWidth 3) }
  | .lit => { l with lit := l.lit.setIfInBounds i v }
  | .dist => { l with dist := l.dist.setIfInBounds i v }

/-- T_t (R42). -/
def getTable (ts : Tables) : TableId → DecodeTable
  | .cl => ts.cl
  | .lit => ts.lit
  | .dist => ts.dist

/-- T_t replaced whole (R42). -/
def setTable (t : TableId) (d : DecodeTable) (ts : Tables) : Tables :=
  match t with
  | .cl => { ts with cl := d }
  | .lit => { ts with lit := d }
  | .dist => { ts with dist := d }

/-! ## Accepting a command (R130, R131, R132) -/

/-- The dispatch of an accepted command: while ERROR = 1 the write is ignored (R131); else DONE <- 0, the sub-cause that
`illegal` gives raises ILLEGAL_COMMAND with VALUE = OP, and with none the command is performed (R130). -/
def acceptCommand (op : BitVec 4) (illegal : Option (BitVec 8)) (perform : State → StepOutcome) (s : State) : StepOutcome :=
  if s.status.error then .next s
  else match illegal with
    | some sub => .next (raise .illegalCommand sub (op.setWidth 16) (clearDone s))
    | none => perform (clearDone s)

end Sys2Proof.Machine
end

