-- ==== Sys2Proof/Machine/BitReader.lean ====
section
/-! DEFINITION. The Bit Reader, LSB first (spec/41_bitreader.md): the primitive ReadBits (R142) and the command READ_BITS (R145). -/

namespace Sys2Proof.Machine

/-- A byte put above the buffered bits: BITBUF | (zext_40(r) << BITCNT), BITCNT + 8 (R142). -/
def pushByte (b : Byte) (r : Reader) : Reader :=
  { r with bitbuf := r.bitbuf ||| (b.setWidth 40 <<< r.bitcnt.toNat), bitcnt := r.bitcnt + 8 }

/-- The refill loop of R142, while BITCNT < n: the reader with enough bits, or the reader at the point where the input ran out
(R144). The first argument bounds the refills; four always suffice for n <= 32 (R143). -/
def refill (input : List Byte) : Nat → Nat → Reader → Except Reader Reader
  | 0, _, r => .ok r
  | fuel + 1, n, r =>
    if n ≤ r.bitcnt.toNat then .ok r
    else match inByte input r with
      | none => .error r
      | some (b, r') => refill input fuel n (pushByte b r')

/-- BITBUF[n-1:0], the low n bits of the buffer, the earliest-read bit least significant (R142). -/
def peekBits (n : Nat) (r : Reader) : Nat := (r.bitbuf.extractLsb' 0 n).toNat

/-- BITBUF >> n, BITCNT - n (R142). -/
def dropBits (n : Nat) (r : Reader) : Reader :=
  { r with bitbuf := r.bitbuf >>> n, bitcnt := r.bitcnt - BitVec.ofNat 6 n }

/-- ReadBits(n, keep) on the reader (R142); 1 <= n <= 32. -/
def readerRead (input : List Byte) (n : Nat) (keep : Bool) (r : Reader) : ReadOutcome :=
  match refill input 4 n r with
  | .error r' => .exhausted r'
  | .ok r' => .read (peekBits n r') (if keep then r' else dropBits n r')

/-- ReadBits(n, keep) (R142): INPUT_EXHAUSTED(0, 0) when the input runs out (R144). -/
def readBits (n : Nat) (keep : Bool) (s : State) : Res Nat :=
  match readerRead (inputBytes s) n keep s.reader with
  | .read v r => .ok v { s with reader := r }
  | .exhausted r => .raised (raise .inputExhausted 0 0 { s with reader := r })

/-- A field of `n` extra bits: no read and the value 0 when its width is 0 (R148). -/
def readExtra (n : Nat) (s : State) : Res Nat :=
  if n = 0 then .ok 0 s else readBits n false s

/-- READ_BITS (R145): RESULT <- the bits read, zero-extended. NBITS outside 1..32 is ILLEGAL_COMMAND (2) (R132). -/
def execReadBits (nbits : BitVec 6) (keep : Bool) (s : State) : StepOutcome :=
  acceptCommand 2 (if readBitsLegal nbits then none else some 2)
    (fun s => (readBits nbits.toNat keep s).toOutcome fun v s => .next (completeWith v s)) s

end Sys2Proof.Machine
end

