-- ==== Sys2Proof/Machine/Builder.lean ====
section
/-! DEFINITION. The Canonical Code Builder (spec/42_canonical_builder.md): the primitive Build (R151) and the command BUILD_TABLE (R155). A
built table is its snapshot of code lengths; its counts, codes and longest length are functions of the snapshot (spec/10_state.md
R42, R43). -/

namespace Sys2Proof.Machine

/-- count[L]: how many symbols have length L; count[0] = 0 (R151 a). -/
def lengthCount (lens : List (BitVec 4)) (l : Nat) : Nat :=
  if l = 0 then 0 else (lens.filter fun x => decide (x.toNat = l)).length

/-- The loop of R151 b: from `code` and the counts count[0], count[1], ..., the first codes next[1], next[2], ... -/
def firstCodesFrom (code : Nat) : List Nat → List Nat
  | [] => []
  | c :: rest => ((code + c) <<< 1) :: firstCodesFrom ((code + c) <<< 1) rest

/-- next[0..15] before any assignment; next[0] is never used (R151 b). -/
def firstCodes (lens : List (BitVec 4)) : List Nat :=
  0 :: firstCodesFrom 0 ((List.range 15).map (lengthCount lens))

/-- The walk of R151 c over the symbols in ascending order: CODE_t[s] <- next[L]; next[L] <- next[L] + 1. A symbol of length 0
has no code; 0 stands in its place. -/
def assignCodes : List Nat → List (BitVec 4) → List Nat
  | _, [] => []
  | next, l :: rest =>
    if l.toNat = 0 then 0 :: assignCodes next rest
    else next.getD l.toNat 0 :: assignCodes (next.modify l.toNat (· + 1)) rest

/-- CODE_t[0..N-1] (R151): unbounded integers; at most 287 * 2^14 (R154). -/
def canonicalCodes (lens : List (BitVec 4)) : List Nat := assignCodes (firstCodes lens) lens

/-- MAXLEN_t: the longest length, 0 for a table with no symbol of nonzero length (R151, spec/10_state.md R40). -/
def maxLen (d : DecodeTable) : Nat := d.lens.foldl (fun m l => max m l.toNat) 0

/-- The number of symbols with a nonzero length, which Build returns (R151). -/
def usedSymbols (lens : List (BitVec 4)) : Nat := (lens.filter fun x => decide (x.toNat ≠ 0)).length

/-- The snapshot LEN_t[0..N-1] (R151). -/
def snapshot (l : Lens) (t : TableId) (n : Nat) : DecodeTable := { lens := (lenArray l t).take n }

/-- Build(t, N) (R151): T_t is replaced whole by the snapshot. -/
def buildTable (t : TableId) (n : Nat) (s : State) : State :=
  { s with tables := setTable t (snapshot s.lens t n) s.tables }

/-- BUILD_TABLE (R155): RESULT <- the number of symbols with a nonzero length. An illegal TSEL or NSYM is ILLEGAL_COMMAND (2)
(R132). -/
def execBuildTable (tsel : BitVec 2) (nsym : BitVec 9) (s : State) : StepOutcome :=
  match buildTableOperands tsel nsym with
  | none => acceptCommand 3 (some 2) .next s
  | some (t, n) =>
    acceptCommand 3 none (fun s => .next (completeWith (usedSymbols (snapshot s.lens t n).lens) (buildTable t n s))) s

end Sys2Proof.Machine
end

