-- ==== Sys2Proof/Machine/Huffman.lean ====
section
/-! DEFINITION. The Huffman Symbol Decoder (spec/43_huffman_decoder.md): the resolution map (R160), the three-state machine (R161, R162), the
primitive DecodeSym (R163) and the command DECODE_SYMBOL (R166). -/

namespace Sys2Proof.Machine

/-- The pairs (TL_t[s], CODE_t[s]) in the order of the symbols. -/
def codeTable (d : DecodeTable) : List (Nat × Nat) :=
  (d.lens.map BitVec.toNat).zip (canonicalCodes d.lens)

/-- M_t(k, c): the symbol of length k, not 0, whose code is c (R160); no two symbols share a key, so the first is the only one. -/
def resolve (codes : List (Nat × Nat)) (k c : Nat) : Option Nat :=
  if k = 0 then none else codes.findIdx? fun e => decide (e.1 = k ∧ e.2 = c)

/-- One bit into the decoder: ACC <- (ACC << 1) | b, K <- K + 1 (R162); the first bit read ends up most significant. -/
def pushBit (b : Nat) (d : Decoder) : Decoder :=
  { acc := (d.acc <<< 1) ||| BitVec.ofNat 15 b, k := d.k + 1 }

/-- The traversing state (R161, R162). The number is MAXLEN_t - K: at 0 the machine is invalid, before another bit is read
(R164); else one bit is read by ReadBits(1, 0) and the map is asked. -/
def traverse (input : List Byte) (codes : List (Nat × Nat)) : Nat → Decoder → Reader → Traversal
  | 0, d, r => .invalid d r
  | left + 1, d, r =>
    match readerRead input 1 false r with
    | .exhausted r' => .exhausted d r'
    | .read b r' =>
      let d' := pushBit b d
      match resolve codes d'.k.toNat d'.acc.toNat with
      | some sym => .resolved sym d' r'
      | none => traverse input codes left d' r'

/-- The reader and the decoder's ACC and K written back. -/
def setDecoder (d : Decoder) (r : Reader) (s : State) : State :=
  { s with reader := r, work := { s.work with dec := d } }

/-- DecodeSym(t) (R163). ACC and K start at 0 for every symbol (R161, spec/70_reset_and_hazards.md R252). INVALID_CODE(t, 0) when
no code matches (R164); INPUT_EXHAUSTED(0, 0) when the input runs out (spec/41_bitreader.md R144). -/
def decodeSym (t : TableId) (s : State) : Res Nat :=
  match traverse (inputBytes s) (codeTable (getTable s.tables t)) (maxLen (getTable s.tables t))
      { acc := 0, k := 0 } s.reader with
  | .resolved sym d r => .ok sym (setDecoder d r s)
  | .invalid d r => .raised (raise .invalidCode (tableNumber t) 0 (setDecoder d r s))
  | .exhausted d r => .raised (raise .inputExhausted 0 0 (setDecoder d r s))

/-- DECODE_SYMBOL (R166): RESULT <- the raw symbol, with no range check (D29). TSEL 3 is ILLEGAL_COMMAND (2) (R132). -/
def execDecodeSymbol (tsel : BitVec 2) (s : State) : StepOutcome :=
  match tableOfTsel tsel with
  | none => acceptCommand 4 (some 2) .next s
  | some t => acceptCommand 4 none (fun s => (decodeSym t s).toOutcome fun sym s => .next (completeWith sym s)) s

end Sys2Proof.Machine
end

