-- ==== Sys2Proof/Machine/Header.lean ====
section
/-! DEFINITION. The Dynamic Header Decoder (spec/44_header_decoder.md): the fields before the code-length sequence (R171 to R173), and the
operations of the CL alphabet (R175 to R179). The while loop of R174 is the sequencer's: it decodes a meta-symbol and runs its
operation until the position reaches the total. -/

namespace Sys2Proof.Machine

/-- PERM: the order in which the CL lengths are transmitted (spec/30_encoding.md R90, R172). -/
def clPermutation : List Nat := [16, 17, 18, 0, 8, 7, 9, 6, 10, 5, 11, 4, 12, 3, 13, 2, 14, 1, 15]

/-- total = HLIT + 257 + HDIST + 1 (R174, R179). -/
def headerTotal (w : Work) : Nat := w.nlit + w.ndist

/-! ## Steps 1 to 5 -/

/-- `LEN_CL[PERM[i]] <- ReadBits(3, 0)` for the given symbols in order (R172). -/
def readClLens : List Nat → State → Res Unit
  | [], s => .ok () s
  | sym :: rest, s =>
    (readBits 3 false s).andThen fun v s =>
      readClLens rest { s with lens := setLen .cl sym (BitVec.ofNat 4 v) s.lens }

/-- LEN_CL cleared, then HCLEN + 4 lengths read in permutation order (R172). -/
def readClArray (hclen : Nat) (s : State) : Res Unit :=
  readClLens (clPermutation.take (hclen + 4)) { s with lens := { s.lens with cl := Vector.replicate 19 0 } }

/-- LEN_LIT and LEN_DIST cleared, the sequence position at 0, the next symbol a meta-symbol (R174). -/
def enterLengths (hlit hdist : Nat) (s : State) : State :=
  { s with
    lens := { s.lens with lit := Vector.replicate 288 0, dist := Vector.replicate 32 0 },
    work := { s.work with phase := .clSym, seqIndex := 0, nlit := hlit + 257, ndist := hdist + 1 } }

/-- The header up to the code-length sequence: HLIT, HDIST and HCLEN, each stored in HDR as soon as it is read (R171), the CL
lengths (R172), Build(CL, 19) (R173), and the arrays cleared (R174). -/
def beginHeader (s : State) : Res Unit :=
  (readBits 5 false s).andThen fun hlit s =>
  (readBits 5 false { s with hdr := { s.hdr with hlit := BitVec.ofNat 5 hlit } }).andThen fun hdist s =>
  (readBits 4 false { s with hdr := { s.hdr with hdist := BitVec.ofNat 5 hdist } }).andThen fun hclen s =>
  (readClArray hclen { s with hdr := { s.hdr with hclen := BitVec.ofNat 4 hclen } }).andThen fun _ s =>
  .ok () (enterLengths hlit hdist (buildTable .cl 19 s))

/-! ## The code-length sequence (R179: one sequence over both alphabets) -/

/-- Put(j, v) (R174). -/
def putLen (nlit j : Nat) (v : BitVec 4) (l : Lens) : Lens :=
  if j < nlit then setLen .lit j v l else setLen .dist (j - nlit) v l

/-- Get(j) (R174). -/
def getLen (nlit j : Nat) (l : Lens) : BitVec 4 :=
  if j < nlit then (l.lit.toList[j]?).getD 0 else (l.dist.toList[j - nlit]?).getD 0

/-- `for j in 0..r-1: Put(i + j, v)` (R174). -/
def putRun (nlit : Nat) : Nat → Nat → BitVec 4 → Lens → Lens
  | 0, _, _, l => l
  | r + 1, i, v, l => putRun nlit r (i + 1) v (putLen nlit i v l)

/-- Step 7, once the position has reached the total: Build(LIT, nlit), Build(DIST, ndist) (R174). DECODE_HEADER then completes
with the total (R180); in a block the LIT symbols follow (spec/45_block_decoder.md R185). -/
def endHeader (s : State) : State :=
  let built := buildTable .dist s.work.ndist (buildTable .lit s.work.nlit s)
  match s.work.cmd with
  | .header => completeWith (headerTotal s.work) built
  | .block | .stream => { built with work := { built.work with phase := .litSym } }

/-- `r` copies of the length `v` stored at the position, which moves past them; the loop of R174 ends at the total. -/
def storeLens (r : Nat) (v : BitVec 4) (s : State) : State :=
  let stored := { s with
    lens := putRun s.work.nlit r s.work.seqIndex v s.lens,
    work := { s.work with seqIndex := s.work.seqIndex + r } }
  if headerTotal stored.work ≤ stored.work.seqIndex then endHeader stored else stored

/-- A run: `base + ReadBits(extra, 0)` copies of `v`, or INVALID_SYMBOL(4, m) before any entry is written when the run would
pass the total (R174, D12). -/
def lengthRun (metaSym : BitVec 16) (base extra : Nat) (v : BitVec 4) (s : State) : StepOutcome :=
  (readBits extra false s).toOutcome fun e s =>
    if headerTotal s.work < s.work.seqIndex + (base + e) then .next (raise .invalidSymbol 4 metaSym s)
    else .next (storeLens (base + e) v s)

/-- CL_LEN, meta-symbols 0 to 15: store the length and advance by 1 (R175). -/
def execClLen (len : BitVec 4) (s : State) : StepOutcome := .next (storeLens 1 len s)

/-- CL_REPEAT_PREV, meta-symbol 16: 3 + ReadBits(2) copies of the previous length; at position 0 INVALID_SYMBOL(3, 16), before
the extra bits are read (R176). -/
def execClRepeatPrev (s : State) : StepOutcome :=
  if s.work.seqIndex = 0 then .next (raise .invalidSymbol 3 16 s)
  else lengthRun 16 3 2 (getLen s.work.nlit (s.work.seqIndex - 1) s.lens) s

/-- CL_ZERO_SHORT, meta-symbol 17: 3 + ReadBits(3) zero lengths (R177). -/
def execClZeroShort (s : State) : StepOutcome := lengthRun 17 3 3 0 s

/-- CL_ZERO_LONG, meta-symbol 18: 11 + ReadBits(7) zero lengths (R178). -/
def execClZeroLong (s : State) : StepOutcome := lengthRun 18 11 7 0 s

end Sys2Proof.Machine
end

