-- ==== Sys2Proof/Machine/Literals.lean ====
section
/-! DEFINITION. The block header operations (spec/45_block_decoder.md R186, R187) and the operations of the LIT alphabet: literals (R188),
end of block (R189), the length codes (R190 to R192) and the reserved symbols (R193). -/

namespace Sys2Proof.Machine

/-! ## BLOCK_HDR: HDR.BFINAL and HDR.BTYPE are written as the two fields are read (see fetchBlockHdr) -/

/-- BTYPE0_STORED: UNSUPPORTED_BLOCK_TYPE(0, 0) (R187). -/
def execBtype0Stored (_bfinal : Bool) (s : State) : StepOutcome := .next (raise .unsupportedBlockType 0 0 s)

/-- BTYPE1_FIXED: UNSUPPORTED_BLOCK_TYPE(0, 1) (R187). -/
def execBtype1Fixed (_bfinal : Bool) (s : State) : StepOutcome := .next (raise .unsupportedBlockType 0 1 s)

/-- BTYPE2_DYNAMIC: the dynamic header up to its code-length sequence (R186, spec/44_header_decoder.md R174). The block's BFINAL
is kept until its end of block (spec/10_state.md R48). -/
def execBtype2Dynamic (bfinal : Bool) (s : State) : StepOutcome :=
  (beginHeader { s with work := { s.work with bfinal := bfinal } }).toOutcome fun _ s => .next s

/-- BTYPE3_RESERVED: UNSUPPORTED_BLOCK_TYPE(0, 3) (R187). -/
def execBtype3Reserved (_bfinal : Bool) (s : State) : StepOutcome := .next (raise .unsupportedBlockType 0 3 s)

/-! ## LIT_SYM -/

/-- LIT, symbols 0 to 255: Emit(s) (R188). -/
def execLit (byte : Byte) (s : State) : StepOutcome :=
  .next { s with
    output := emitByte s.params.windowSize byte s.output,
    work := { s.work with emitted := s.work.emitted + 1 } }

/-- EOB, symbol 256 (R189): BLOCK_COUNT rises; STREAM_END <- 1 if the block's BFINAL is 1. DECODE_STREAM goes on with the next
block's header unless BFINAL is 1 (R208); else the command completes with the bytes it emitted (R206, R208). -/
def execEob (s : State) : StepOutcome :=
  let counted := { s with blockCount := s.blockCount + 1 }
  let ended := if s.work.bfinal then markStreamEnd counted else counted
  if s.work.cmd = .stream ∧ s.work.bfinal = false then
    .next { ended with work := { ended.work with phase := .blockHdr } }
  else .next (completeWith s.work.emitted ended)

/-- A LEN symbol: len = base + extra bits; a distance symbol follows (R190, R194). -/
def lengthCode (base extra : Nat) (s : State) : StepOutcome :=
  (readExtra extra s).toOutcome fun e s =>
    .next { s with work := { s.work with copyLen := base + e, phase := .distSym } }

/-- LEN_257: length 3 (R190, R192). -/
def execLen257 (s : State) : StepOutcome := lengthCode 3 0 s

/-- LEN_258: length 4 (R190, R192). -/
def execLen258 (s : State) : StepOutcome := lengthCode 4 0 s

/-- LEN_259: length 5 (R190, R192). -/
def execLen259 (s : State) : StepOutcome := lengthCode 5 0 s

/-- LEN_260: length 6 (R190, R192). -/
def execLen260 (s : State) : StepOutcome := lengthCode 6 0 s

/-- LEN_261: length 7 (R190, R192). -/
def execLen261 (s : State) : StepOutcome := lengthCode 7 0 s

/-- LEN_262: length 8 (R190, R192). -/
def execLen262 (s : State) : StepOutcome := lengthCode 8 0 s

/-- LEN_263: length 9 (R190, R192). -/
def execLen263 (s : State) : StepOutcome := lengthCode 9 0 s

/-- LEN_264: length 10 (R190, R192). -/
def execLen264 (s : State) : StepOutcome := lengthCode 10 0 s

/-- LEN_265: length 11 to 12 (R190, R192). -/
def execLen265 (s : State) : StepOutcome := lengthCode 11 1 s

/-- LEN_266: length 13 to 14 (R190, R192). -/
def execLen266 (s : State) : StepOutcome := lengthCode 13 1 s

/-- LEN_267: length 15 to 16 (R190, R192). -/
def execLen267 (s : State) : StepOutcome := lengthCode 15 1 s

/-- LEN_268: length 17 to 18 (R190, R192). -/
def execLen268 (s : State) : StepOutcome := lengthCode 17 1 s

/-- LEN_269: length 19 to 22 (R190, R192). -/
def execLen269 (s : State) : StepOutcome := lengthCode 19 2 s

/-- LEN_270: length 23 to 26 (R190, R192). -/
def execLen270 (s : State) : StepOutcome := lengthCode 23 2 s

/-- LEN_271: length 27 to 30 (R190, R192). -/
def execLen271 (s : State) : StepOutcome := lengthCode 27 2 s

/-- LEN_272: length 31 to 34 (R190, R192). -/
def execLen272 (s : State) : StepOutcome := lengthCode 31 2 s

/-- LEN_273: length 35 to 42 (R190, R192). -/
def execLen273 (s : State) : StepOutcome := lengthCode 35 3 s

/-- LEN_274: length 43 to 50 (R190, R192). -/
def execLen274 (s : State) : StepOutcome := lengthCode 43 3 s

/-- LEN_275: length 51 to 58 (R190, R192). -/
def execLen275 (s : State) : StepOutcome := lengthCode 51 3 s

/-- LEN_276: length 59 to 66 (R190, R192). -/
def execLen276 (s : State) : StepOutcome := lengthCode 59 3 s

/-- LEN_277: length 67 to 82 (R190, R192). -/
def execLen277 (s : State) : StepOutcome := lengthCode 67 4 s

/-- LEN_278: length 83 to 98 (R190, R192). -/
def execLen278 (s : State) : StepOutcome := lengthCode 83 4 s

/-- LEN_279: length 99 to 114 (R190, R192). -/
def execLen279 (s : State) : StepOutcome := lengthCode 99 4 s

/-- LEN_280: length 115 to 130 (R190, R192). -/
def execLen280 (s : State) : StepOutcome := lengthCode 115 4 s

/-- LEN_281: length 131 to 162 (R190, R192). -/
def execLen281 (s : State) : StepOutcome := lengthCode 131 5 s

/-- LEN_282: length 163 to 194 (R190, R192). -/
def execLen282 (s : State) : StepOutcome := lengthCode 163 5 s

/-- LEN_283: length 195 to 226 (R190, R192). -/
def execLen283 (s : State) : StepOutcome := lengthCode 195 5 s

/-- LEN_284: length 227 to 258 (R190, R192). -/
def execLen284 (s : State) : StepOutcome := lengthCode 227 5 s

/-- LEN_285: length 258 (R190, R192). -/
def execLen285 (s : State) : StepOutcome := lengthCode 258 0 s

/-- LIT_RESERVED, symbols 286 and 287: INVALID_SYMBOL(1, s) (R193). -/
def execLitReserved (sym : BitVec 9) (s : State) : StepOutcome := .next (raise .invalidSymbol 1 (sym.setWidth 16) s)

end Sys2Proof.Machine
end

