-- ==== Sys2Proof/Machine/Distances.lean ====
section
/-! DEFINITION. The operations of the DIST alphabet (spec/45_block_decoder.md R194 to R200): distance codes with their extra bits (R195,
R197), the distance check (R198), the copy (R200), and the reserved symbols (R196). -/

namespace Sys2Proof.Machine

/-- Copy(len, dist) with the pending length (R200); the bytes count as emitted (R186), and LIT symbols follow. -/
def copyMatch (dist : Nat) (s : State) : StepOutcome :=
  match copyBytes s.params.windowSize dist s.work.copyLen s.output with
  | none => .fault .windowEntryUnwritten
  | some o =>
    .next { s with
      output := o,
      work := { s.work with
        emitted := s.work.emitted + s.work.copyLen, copyLen := 0, copyDist := dist, phase := .litSym } }

/-- A distance symbol: dist = base + extra bits (R197); INVALID_DISTANCE(0, dist) if dist > HIST_COUNT, before any byte of the
copy (R198); else the copy. -/
def distanceCode (base extra : Nat) (s : State) : StepOutcome :=
  (readExtra extra s).toOutcome fun e s =>
    if s.output.histCount.toNat < base + e then
      .next (raise .invalidDistance 0 (BitVec.ofNat 16 (base + e)) s)
    else copyMatch (base + e) s

/-- DIST_0: distance 1 (R194, R195). -/
def execDist0 (s : State) : StepOutcome := distanceCode 1 0 s

/-- DIST_1: distance 2 (R194, R195). -/
def execDist1 (s : State) : StepOutcome := distanceCode 2 0 s

/-- DIST_2: distance 3 (R194, R195). -/
def execDist2 (s : State) : StepOutcome := distanceCode 3 0 s

/-- DIST_3: distance 4 (R194, R195). -/
def execDist3 (s : State) : StepOutcome := distanceCode 4 0 s

/-- DIST_4: distance 5 to 6 (R194, R195). -/
def execDist4 (s : State) : StepOutcome := distanceCode 5 1 s

/-- DIST_5: distance 7 to 8 (R194, R195). -/
def execDist5 (s : State) : StepOutcome := distanceCode 7 1 s

/-- DIST_6: distance 9 to 12 (R194, R195). -/
def execDist6 (s : State) : StepOutcome := distanceCode 9 2 s

/-- DIST_7: distance 13 to 16 (R194, R195). -/
def execDist7 (s : State) : StepOutcome := distanceCode 13 2 s

/-- DIST_8: distance 17 to 24 (R194, R195). -/
def execDist8 (s : State) : StepOutcome := distanceCode 17 3 s

/-- DIST_9: distance 25 to 32 (R194, R195). -/
def execDist9 (s : State) : StepOutcome := distanceCode 25 3 s

/-- DIST_10: distance 33 to 48 (R194, R195). -/
def execDist10 (s : State) : StepOutcome := distanceCode 33 4 s

/-- DIST_11: distance 49 to 64 (R194, R195). -/
def execDist11 (s : State) : StepOutcome := distanceCode 49 4 s

/-- DIST_12: distance 65 to 96 (R194, R195). -/
def execDist12 (s : State) : StepOutcome := distanceCode 65 5 s

/-- DIST_13: distance 97 to 128 (R194, R195). -/
def execDist13 (s : State) : StepOutcome := distanceCode 97 5 s

/-- DIST_14: distance 129 to 192 (R194, R195). -/
def execDist14 (s : State) : StepOutcome := distanceCode 129 6 s

/-- DIST_15: distance 193 to 256 (R194, R195). -/
def execDist15 (s : State) : StepOutcome := distanceCode 193 6 s

/-- DIST_16: distance 257 to 384 (R194, R195). -/
def execDist16 (s : State) : StepOutcome := distanceCode 257 7 s

/-- DIST_17: distance 385 to 512 (R194, R195). -/
def execDist17 (s : State) : StepOutcome := distanceCode 385 7 s

/-- DIST_18: distance 513 to 768 (R194, R195). -/
def execDist18 (s : State) : StepOutcome := distanceCode 513 8 s

/-- DIST_19: distance 769 to 1024 (R194, R195). -/
def execDist19 (s : State) : StepOutcome := distanceCode 769 8 s

/-- DIST_20: distance 1025 to 1536 (R194, R195). -/
def execDist20 (s : State) : StepOutcome := distanceCode 1025 9 s

/-- DIST_21: distance 1537 to 2048 (R194, R195). -/
def execDist21 (s : State) : StepOutcome := distanceCode 1537 9 s

/-- DIST_22: distance 2049 to 3072 (R194, R195). -/
def execDist22 (s : State) : StepOutcome := distanceCode 2049 10 s

/-- DIST_23: distance 3073 to 4096 (R194, R195). -/
def execDist23 (s : State) : StepOutcome := distanceCode 3073 10 s

/-- DIST_24: distance 4097 to 6144 (R194, R195). -/
def execDist24 (s : State) : StepOutcome := distanceCode 4097 11 s

/-- DIST_25: distance 6145 to 8192 (R194, R195). -/
def execDist25 (s : State) : StepOutcome := distanceCode 6145 11 s

/-- DIST_26: distance 8193 to 12288 (R194, R195). -/
def execDist26 (s : State) : StepOutcome := distanceCode 8193 12 s

/-- DIST_27: distance 12289 to 16384 (R194, R195). -/
def execDist27 (s : State) : StepOutcome := distanceCode 12289 12 s

/-- DIST_28: distance 16385 to 24576 (R194, R195). -/
def execDist28 (s : State) : StepOutcome := distanceCode 16385 13 s

/-- DIST_29: distance 24577 to 32768 (R194, R195). -/
def execDist29 (s : State) : StepOutcome := distanceCode 24577 13 s

/-- DIST_RESERVED, symbols 30 and 31: INVALID_SYMBOL(2, d) (R196). -/
def execDistReserved (sym : BitVec 5) (s : State) : StepOutcome := .next (raise .invalidSymbol 2 (sym.setWidth 16) s)

end Sys2Proof.Machine
end

