-- ==== Sys2Proof/Machine/Sequencer.lean ====
section
/-! DEFINITION. The sequencer within a command (spec/10_state.md R20, R23; spec/44_header_decoder.md R174; spec/45_block_decoder.md R186, R208): it
decodes the symbol its phase asks for, and runs the symbol's operation, until the command has ended. -/

namespace Sys2Proof.Machine

/-- The 3-bit block header: BFINAL, then BTYPE, each stored in HDR as soon as it is read (R186, R88). The key is
H = BFINAL + 2*BTYPE (spec/30_encoding.md R88). -/
def fetchBlockHdr (s : State) : Res Nat :=
  (readBits 1 false s).andThen fun bfinal s =>
  (readBits 2 false { s with hdr := { s.hdr with bfinal := BitVec.ofNat 1 bfinal } }).andThen fun btype s =>
  .ok (bfinal + 2 * btype) { s with hdr := { s.hdr with btype := BitVec.ofNat 2 btype } }

/-- The operation a decoded key selects (spec/30_encoding.md R103). -/
def fetchedKey (f : Format) (x : Res Nat) : Fetched :=
  match x with
  | .raised s => .settled s
  | .ok key s =>
    match decode f (BitVec.ofNat 32 key) with
    | .ok i => .run i s
    | .error _ => .fault .symbolOutsideAlphabet

/-- The symbol the phase asks for, decoded from the stream, and its operation. An error in the decoding ends the command. -/
def fetchSymbol (s : State) : Fetched :=
  match s.work.phase with
  | .idle => .settled s
  | .blockHdr => fetchedKey .blockHdr (fetchBlockHdr s)
  | .clSym => fetchedKey .clSym (decodeSym .cl s)
  | .litSym => fetchedKey .litSym (decodeSym .lit s)
  | .distSym => fetchedKey .distSym (decodeSym .dist s)

/-- The operation of a stream symbol. A command word has no place here: a command cannot be issued while one is in progress
(spec/93_implementation_defined.md I22: stuck). -/
def execStreamOp (i : Instr) (s : State) : StepOutcome :=
  match i with
  | .nop => .fault .commandInProgress
  | .resetCtx => .fault .commandInProgress
  | .readBits _ _ => .fault .commandInProgress
  | .buildTable _ _ => .fault .commandInProgress
  | .decodeSymbol _ => .fault .commandInProgress
  | .decodeHeader => .fault .commandInProgress
  | .decodeBlock => .fault .commandInProgress
  | .decodeStream => .fault .commandInProgress
  | .reservedOp _ => .fault .commandInProgress
  | .btype0Stored bfinal => execBtype0Stored bfinal s
  | .btype1Fixed bfinal => execBtype1Fixed bfinal s
  | .btype2Dynamic bfinal => execBtype2Dynamic bfinal s
  | .btype3Reserved bfinal => execBtype3Reserved bfinal s
  | .clLen len => execClLen len s
  | .clRepeatPrev => execClRepeatPrev s
  | .clZeroShort => execClZeroShort s
  | .clZeroLong => execClZeroLong s
  | .lit byte => execLit byte s
  | .eob => execEob s
  | .len257 => execLen257 s
  | .len258 => execLen258 s
  | .len259 => execLen259 s
  | .len260 => execLen260 s
  | .len261 => execLen261 s
  | .len262 => execLen262 s
  | .len263 => execLen263 s
  | .len264 => execLen264 s
  | .len265 => execLen265 s
  | .len266 => execLen266 s
  | .len267 => execLen267 s
  | .len268 => execLen268 s
  | .len269 => execLen269 s
  | .len270 => execLen270 s
  | .len271 => execLen271 s
  | .len272 => execLen272 s
  | .len273 => execLen273 s
  | .len274 => execLen274 s
  | .len275 => execLen275 s
  | .len276 => execLen276 s
  | .len277 => execLen277 s
  | .len278 => execLen278 s
  | .len279 => execLen279 s
  | .len280 => execLen280 s
  | .len281 => execLen281 s
  | .len282 => execLen282 s
  | .len283 => execLen283 s
  | .len284 => execLen284 s
  | .len285 => execLen285 s
  | .litReserved sym => execLitReserved sym s
  | .dist0 => execDist0 s
  | .dist1 => execDist1 s
  | .dist2 => execDist2 s
  | .dist3 => execDist3 s
  | .dist4 => execDist4 s
  | .dist5 => execDist5 s
  | .dist6 => execDist6 s
  | .dist7 => execDist7 s
  | .dist8 => execDist8 s
  | .dist9 => execDist9 s
  | .dist10 => execDist10 s
  | .dist11 => execDist11 s
  | .dist12 => execDist12 s
  | .dist13 => execDist13 s
  | .dist14 => execDist14 s
  | .dist15 => execDist15 s
  | .dist16 => execDist16 s
  | .dist17 => execDist17 s
  | .dist18 => execDist18 s
  | .dist19 => execDist19 s
  | .dist20 => execDist20 s
  | .dist21 => execDist21 s
  | .dist22 => execDist22 s
  | .dist23 => execDist23 s
  | .dist24 => execDist24 s
  | .dist25 => execDist25 s
  | .dist26 => execDist26 s
  | .dist27 => execDist27 s
  | .dist28 => execDist28 s
  | .dist29 => execDist29 s
  | .distReserved sym => execDistReserved sym s

/-- The loops of R174, R186 and R208: symbol after symbol until the sequencer is idle. The number bounds the symbols; every
symbol consumes at least one stream bit (spec/40_control.md R136). -/
def runSequencer : Nat → State → StepOutcome
  | 0, _ => .fault .commandDoesNotEnd
  | fuel + 1, s =>
    match fetchSymbol s with
    | .settled s' => .next s'
    | .fault f => .fault f
    | .refused r => .refused r
    | .run i s' =>
      match execStreamOp i s' with
      | .next t => if t.work.phase = .idle then .next t else runSequencer fuel t
      | .fault f => .fault f
      | .refused r => .refused r

/-- The rest of a command: one symbol more than there are stream bits left is enough (log entry 9). -/
def runCommand (s : State) : StepOutcome := runSequencer (bitsLeft (inputBytes s) s.reader + 1) s

end Sys2Proof.Machine
end

