-- ==== Sys2Proof/Machine/Commands.lean ====
section
/-! DEFINITION. The commands that no unit's file holds: NOP, RESET_CTX and the reserved commands (spec/40_control.md R133 to R135), and the
three that drive the sequencer: DECODE_HEADER (spec/44_header_decoder.md R180), DECODE_BLOCK and DECODE_STREAM
(spec/45_block_decoder.md R206, R208). Each is one atomic transition (spec/40_control.md R130). -/

namespace Sys2Proof.Machine

/-- NOP (R133): only DONE changes. -/
def execNop (s : State) : StepOutcome := acceptCommand 0 none (fun s => .next (complete s)) s

/-- RESET_CTX (R134): accepted in every state, ERROR = 1 included (R131); a new context, and DONE <- 1. -/
def execResetCtx (s : State) : StepOutcome := .next (complete (newContext s))

/-- RESERVED_OP (R135): ILLEGAL_COMMAND(1, op), unless ERROR = 1 already (R131). -/
def execReservedOp (op : BitVec 4) (s : State) : StepOutcome := acceptCommand op (some 1) .next s

/-- DECODE_HEADER (R180): a dynamic header; RESULT <- HLIT + 257 + HDIST + 1. -/
def execDecodeHeader (s : State) : StepOutcome :=
  acceptCommand 5 none
    (fun s => (beginHeader { s with work := { Work.idle with cmd := .header } }).toOutcome fun _ s => runCommand s) s

/-- The sequencer at the block header of a command's first block, no byte emitted yet (R186, R208). -/
def startBlocks (cmd : Cmd) (s : State) : State :=
  { s with work := { Work.idle with phase := .blockHdr, cmd := cmd } }

/-- The sub-cause of DECODE_BLOCK and DECODE_STREAM after the stream has ended: 3 (spec/40_control.md R132). -/
def afterStreamEnd (s : State) : Option (BitVec 8) := if s.status.streamEnd then some 3 else none

/-- DECODE_BLOCK (R206): one block; RESULT <- the bytes it emitted mod 2^32. ILLEGAL_COMMAND(3, 6) after STREAM_END. -/
def execDecodeBlock (s : State) : StepOutcome :=
  acceptCommand 6 (afterStreamEnd s) (fun s => runCommand (startBlocks .block s)) s

/-- DECODE_STREAM (R208): blocks until one with BFINAL = 1; RESULT <- the bytes they emitted mod 2^32. ILLEGAL_COMMAND(3, 7)
after STREAM_END. -/
def execDecodeStream (s : State) : StepOutcome :=
  acceptCommand 7 (afterStreamEnd s) (fun s => runCommand (startBlocks .stream s)) s

end Sys2Proof.Machine
end

