-- ==== Sys2Proof/Machine/Registers.lean ====
section
/-! DEFINITION. The host's view of the register file (spec/10_state.md R25 to R40; spec/20_memory.md R62, R63): what a read of each register
returns and what a write to TBL_ADDR or LEN_DATA stores. Register reads have no side effects (R62). A write to CTRL is a command
and is not here. -/

namespace Sys2Proof.Machine

/-- BITCNT: COUNT in [5:0] (R30). -/
def bitcntWord (s : State) : Word := s.reader.bitcnt.setWidth 32

/-- BITBUF_LO: BITBUF[31:0] (R30). -/
def bitbufLoWord (s : State) : Word := s.reader.bitbuf.extractLsb' 0 32

/-- BITBUF_HI: BITBUF[39:32] in [7:0] (R30). -/
def bitbufHiWord (s : State) : Word := (s.reader.bitbuf.extractLsb' 32 8).setWidth 32

/-- HDR: BFINAL [0], BTYPE [2:1], HLIT [7:3], HDIST [12:8], HCLEN [16:13] (R35). -/
def hdrWord (h : Hdr) : Word := 0#15 ++ h.hclen ++ h.hdist ++ h.hlit ++ h.btype ++ h.bfinal

/-- ERRINFO: SUBCAUSE [7:0], VALUE [31:16] (R36). -/
def errinfoWord (e : ErrInfo) : Word := e.value ++ 0#8 ++ e.subcause

/-- TBL_ADDR: INDEX [8:0], TSEL [13:12] (R37). -/
def tblAddrWord (a : TblAddr) : Word := 0#18 ++ a.tsel ++ 0#3 ++ a.index

/-- LEN_DATA: LEN_t[INDEX] in [3:0]; 0 when TSEL = 3 or INDEX is at least the array's size (R38). -/
def lenDataWord (s : State) : Word :=
  match tableOfTsel s.tblAddr.tsel with
  | none => 0
  | some t => (((lenArray s.lens t)[s.tblAddr.index.toNat]?).getD 0).setWidth 32

/-- The canonical code of a symbol as CODE_DATA reports it: LEN [3:0], CODE [31:8]; 0 when the symbol is not below N_t or its
length is 0 (R39). -/
def codeDataOf (d : DecodeTable) (sym : Nat) : Word :=
  match (codeTable d)[sym]? with
  | none => 0
  | some (len, code) => if len = 0 then 0 else BitVec.ofNat 24 code ++ 0#4 ++ BitVec.ofNat 4 len

/-- CODE_DATA: the code of symbol INDEX in T_t; 0 when TSEL = 3 (R39). -/
def codeDataWord (s : State) : Word :=
  match tableOfTsel s.tblAddr.tsel with
  | none => 0
  | some t => codeDataOf (getTable s.tables t) s.tblAddr.index.toNat

/-- MAXLEN: CL [3:0], LIT [11:8], DIST [19:16] (R40). -/
def maxlenWord (ts : Tables) : Word :=
  0#12 ++ BitVec.ofNat 4 (maxLen ts.dist) ++ 0#4 ++ BitVec.ofNat 4 (maxLen ts.lit) ++ 0#4 ++ BitVec.ofNat 4 (maxLen ts.cl)

/-- TBL_N: N_CL [4:0], N_LIT [16:8], N_DIST [29:24] (R40). -/
def tblNWord (ts : Tables) : Word :=
  0#2 ++ BitVec.ofNat 6 ts.dist.lens.length ++ 0#7 ++ BitVec.ofNat 9 ts.lit.lens.length ++ 0#3
    ++ BitVec.ofNat 5 ts.cl.lens.length

/-- The register map (R63). An offset that is no register of the map reads 0; CTRL is write-only and reads 0 (R25, R26). -/
def readRegister (s : State) (offset : Nat) : Word :=
  match offset with
  | 0x04 => statusWord s
  | 0x08 => s.result
  | 0x0C => bitcntWord s
  | 0x10 => bitbufLoWord s
  | 0x14 => bitbufHiWord s
  | 0x18 => s.reader.inCount
  | 0x1C => s.output.outCount
  | 0x20 => s.blockCount
  | 0x24 => hdrWord s.hdr
  | 0x28 => errinfoWord s.errinfo
  | 0x2C => tblAddrWord s.tblAddr
  | 0x30 => lenDataWord s
  | 0x34 => codeDataWord s
  | 0x38 => maxlenWord s.tables
  | 0x3C => tblNWord s.tables
  | 0x40 => s.output.histCount
  | _ => 0

/-- The offset of the register that a host access reaches: its address relative to REG_BASE (R64), where the access is 32 bits wide, at
a multiple of 4, at most 0x40 (R62). None for every other access, one below the register block included (log entry 21). -/
def reachedOffset (p : Params) (width address : Nat) : Option Nat :=
  if p.regBase ≤ address ∧ width = 32 ∧ (address - p.regBase) % 4 = 0 ∧ address - p.regBase ≤ 0x40 then
    some (address - p.regBase)
  else none

/-- What a host read returns: 0 where the access reaches no register (R62). -/
def hostRead (s : State) (width address : Nat) : Word :=
  match reachedOffset s.params width address with
  | some offset => readRegister s offset
  | none => 0

/-- A write to TBL_ADDR: INDEX and TSEL; the other bits are ignored (R37, R25). -/
def writeTblAddr (v : Word) (s : State) : State :=
  { s with tblAddr := { index := v.extractLsb' 0 9, tsel := v.extractLsb' 12 2 } }

/-- A write to LEN_DATA: v[2:0] into LEN_CL[INDEX], or v[3:0] into LEN_LIT[INDEX] or LEN_DIST[INDEX]; ignored when TSEL = 3 or
INDEX is out of range. No built table changes (R38). -/
def writeLenData (v : Word) (s : State) : State :=
  match tableOfTsel s.tblAddr.tsel with
  | none => s
  | some t => { s with lens := setLen t s.tblAddr.index.toNat (v.extractLsb' 0 4) s.lens }

/-- A write to a register that is no command: TBL_ADDR and LEN_DATA store, in every state (R37, R38, spec/40_control.md R131); a write to a
read-only register has no effect (R25, R62). -/
def writeRegister (offset : Nat) (v : Word) (s : State) : State :=
  match offset with
  | 0x2C => writeTblAddr v s
  | 0x30 => writeLenData v s
  | _ => s

end Sys2Proof.Machine
end

