-- ==== Sys2Proof/Machine/HostPort.lean ====
section
/-! DEFINITION. What the machine does next (spec/70_reset_and_hazards.md R247). Between commands it takes the host's oldest pending access: a
CTRL write is a command word to decode and run (spec/40_control.md R130), every other access settles at once. With nothing pending the
block idles and holds its context (spec/60_exceptions.md R234). Also here: how a table word is put where the machine fetches it. -/

namespace Sys2Proof.Machine

/-- The command would call InByte (spec/20_memory.md R55) in this state: with no byte to be had it raises INPUT_EXHAUSTED, which the
first call would (spec/70_reset_and_hazards.md R242). Every other command does the same on every INPUT (Laws/Input.lean proves it): one
served from BITBUF alone, one that the acceptance tests ignore or turn down (spec/40_control.md R130 to R132), one that reads no stream. -/
def callsInByte (i : Instr) (s : State) : Bool :=
  match exec i { s with input := none } with
  | .next t => !s.status.error && t.status.error && t.status.errcode == errorCode .inputExhausted
  | .fault _ => false
  | .refused _ => false

/-- The host's duty on INPUT after a command is issued: RESET_CTX starts a context that uses the INPUT now attached, and the
first command after hardware reset puts the context in use (spec/20_memory.md R70). -/
def dutyAfterCommand (i : Instr) (d : InputDuty) : InputDuty :=
  match d with
  | .fresh => .inUse
  | .inUse => .inUse
  | .replaced => if i = .resetCtx then .inUse else .replaced

/-- The duty after ATTACH: INPUT changed in a context that is in use calls for a RESET_CTX (R70). -/
def dutyAfterAttach (changed : Bool) (d : InputDuty) : InputDuty :=
  match d with
  | .fresh => .fresh
  | .inUse => if changed then .replaced else .inUse
  | .replaced => .replaced

/-- A write of `v` to CTRL: the command word is decoded and run. A command that would call InByte on an INPUT that was replaced in
its context is refused: the block has no rule for input that changes under it (R70, spec/70_reset_and_hazards.md R247; log entry 6). -/
def fetchCommand (v : Word) (s : State) : Fetched :=
  let i := decodeCtrl v
  if s.host.duty = .replaced ∧ callsInByte i s = true then .refused .inputReplacedInContext
  else .run i { s with host := { s.host with duty := dutyAfterCommand i s.host.duty } }

/-- ATTACH: INPUT is replaced; more than INPUT_MAX bytes are refused (spec/00_scope.md R7, I5; log entry 7). -/
def attachInput (bytes : List Byte) (s : State) : Fetched :=
  if s.params.inputMax < bytes.length then .refused .inputTooLarge
  else .settled { s with
    input := some bytes,
    host := { s.host with duty := dutyAfterAttach (decide (s.input ≠ some bytes)) s.host.duty } }

/-- One access of the host, already taken off the queue. A write that reaches CTRL is a command (spec/20_memory.md R62, R63). -/
def hostMove (a : HostAccess) (s : State) : Fetched :=
  match a with
  | .write width address v =>
    match reachedOffset s.params width address with
    | none => .settled s
    | some offset => if offset = 0 then fetchCommand v s else .settled (writeRegister offset v s)
  | .read width address => .settled { s with host := { s.host with readData := hostRead s width address } }
  | .attach bytes => attachInput bytes s
  | .hardwareReset => .settled (hardwareResetState s)

/-- Between commands: the oldest pending access, or nothing to do. -/
def fetchHost (s : State) : Fetched :=
  match s.host.pending with
  | [] => .settled s
  | a :: rest => hostMove a { s with host := { s.host with pending := rest } }

/-- What the machine does next: within a command the sequencer's symbol, else the host's access. -/
def fetchNext (s : State) : Fetched := if s.work.phase = .idle then fetchHost s else fetchSymbol s

/-! ## A table word where the machine fetches it (log entry 16) -/

/-- A command word: a write to CTRL, at REG_BASE, at the head of the host's queue, the machine between commands. -/
def placeCommand (v : Word) (s : State) : State :=
  { s with
    work := .idle,
    host := { s.host with
      pending := .write 32 s.params.regBase v :: s.host.pending,
      duty := if s.host.duty = .replaced then .inUse else s.host.duty } }

/-- A decode table in which only `sym` has a code: the code 0 of length 1 (spec/42_canonical_builder.md R157). -/
def singleSymbolTable (sym : Nat) : DecodeTable := { lens := List.replicate sym 0 ++ [1] }

/-- The stream bits `buf`, then zeros, in the bit buffer, and the sequencer at a phase of DECODE_BLOCK. -/
def placeBits (phase : Phase) (buf : BitVec 40) (s : State) : State :=
  { s with
    reader := { s.reader with bitbuf := buf, bitcnt := 39 },
    work := { s.work with phase := phase, cmd := .block } }

/-- A stream key: the sequencer in the format's phase, and the next stream bits those of the key (its code in a table of that
one symbol, or the three bits of a block header), followed by operand bits of 0. -/
def placeKey (f : Format) (key : Nat) (s : State) : State :=
  match f with
  | .ctrl => placeCommand (BitVec.ofNat 32 key) s
  | .blockHdr => placeBits .blockHdr (BitVec.ofNat 40 key) s
  | .clSym =>
    let placed := placeBits .clSym 0 s
    { placed with
      tables := setTable .cl (singleSymbolTable key) s.tables,
      work := { placed.work with seqIndex := 0, nlit := 257, ndist := 1 } }
  | .litSym => { placeBits .litSym 0 s with tables := setTable .lit (singleSymbolTable key) s.tables }
  | .distSym =>
    let placed := placeBits .distSym 0 s
    { placed with
      tables := setTable .dist (singleSymbolTable key) s.tables,
      work := { placed.work with copyLen := 3 } }

end Sys2Proof.Machine
end

