-- ==== Sys2Proof/Machine/Step.lean ====
section
/-! DEFINITION. One step: what the machine does next (Machine/HostPort.lean), and exec of the instruction it fetched. A command is ONE step
(spec/10_state.md R20, spec/40_control.md R130). -/

namespace Sys2Proof.Machine

/-- One step of the machine. -/
def step (s : State) : Host.Outcome State Fault Refusal :=
  match fetchNext s with
  | .run i s' => exec i s'
  | .settled s' => .next s'
  | .fault f => .fault f
  | .refused r => .refused r

/-- The state with the table word's instruction placed where step fetches its next instruction (log entry 16). -/
def State.withFetchWord (s : State) (nbits w : Nat) : State := placeKey (tableFormat nbits w) w s

end Sys2Proof.Machine
end

