-- ==== Sys2Proof/Safety.lean ====
section
/-! DEFINITION. The terms that claims about this machine use: how a run ends (spec/70_reset_and_hazards.md R248), the stream as a sequence of
bits (spec/20_memory.md R56, spec/30_encoding.md R85, R86), the invariants of the state, the symbol-by-symbol run inside a command, and a
block as a text of fields and symbols with the bits that write it (spec/30_encoding.md R88 to R94). Nothing here is part of the machine. -/

namespace Sys2Proof.Machine

/-! ## The end of a run (R248) -/

/-- Success: DONE = 1, ERROR = 0, STREAM_END = 1. -/
abbrev runSucceeded (s : State) : Prop :=
  s.status.done = true ∧ s.status.error = false ∧ s.status.streamEnd = true

/-- Failure: ERROR = 1. -/
abbrev runFailed (s : State) : Prop := s.status.error = true

/-- Incomplete: DONE = 1 and STREAM_END = 0. -/
abbrev runIncomplete (s : State) : Prop := s.status.done = true ∧ s.status.streamEnd = false

/-! ## The stream as bits -/

/-- The bits of a byte in reading order, least significant first (R56). -/
def byteBits (b : Byte) : List Bool := (List.range 8).map b.getLsbD

/-- The buffered bits in reading order: BITBUF[0] is the oldest (spec/10_state.md R29). -/
def bufferedBits (r : Reader) : List Bool := (List.range r.bitcnt.toNat).map r.bitbuf.getLsbD

/-- The bits a reader has still to consume, in reading order: the buffered ones, then those of the bytes not yet taken (R56). -/
def readerBits (input : List Byte) (r : Reader) : List Bool :=
  bufferedBits r ++ (input.drop r.inCount.toNat).flatMap byteBits

/-- The stream bits still to be consumed. -/
def streamBits (s : State) : List Bool := readerBits (inputBytes s) s.reader

/-- The value of a fixed-width field from its bits in reading order: the sum of b_i * 2^i (R85). -/
def fieldValue : List Bool → Nat
  | [] => 0
  | b :: rest => b.toNat + 2 * fieldValue rest

/-- The value of a code from its bits in reading order: the first bit read is the most significant (R86). -/
def codeValue (bits : List Bool) : Nat := bits.foldl (fun v b => 2 * v + b.toNat) 0

/-! ## Invariants -/

/-- BITCNT is at most 39 and BITBUF[39:BITCNT] is 0 (spec/41_bitreader.md R143). -/
abbrev BufferInv (r : Reader) : Prop := r.bitcnt.toNat ≤ 39 ∧ r.bitbuf.toNat < 2 ^ r.bitcnt.toNat

/-- The attached input has at most 2^32 - 1 bytes (spec/00_scope.md R7 INPUT_MAX), so that IN_COUNT never wraps (R32). -/
abbrev InputBounded (s : State) : Prop := (inputBytes s).length ≤ 2 ^ 32 - 1

/-- INPUT is within INPUT_MAX; IN_COUNT is 0 before the context's first command, and at most |INPUT| while INPUT is the one the
context began with; the sequencer works only in a context in use (R7, R32, R46, spec/20_memory.md R55, R70). -/
abbrev InputInv (s : State) : Prop :=
  s.params.Legal ∧ (inputBytes s).length ≤ s.params.inputMax ∧
    (s.host.duty ≠ .replaced → s.reader.inCount.toNat ≤ (inputBytes s).length) ∧
    (s.host.duty = .fresh → s.reader.inCount.toNat = 0 ∧ s.work.phase = .idle)

/-- The window is canonical, OUT_COUNT and HIST_COUNT count OUT, and every reachable distance finds the byte OUT has there
(spec/20_memory.md R59, spec/10_state.md R33, R45, R47, spec/45_block_decoder.md R203). -/
abbrev HistoryInv (s : State) : Prop :=
  s.params.Legal ∧ Memory.wf s.params.windowSize s.output.win ∧
    s.output.outCount.toNat = s.output.out.length % 2 ^ 32 ∧
    s.output.histCount.toNat = min s.output.out.length s.params.windowSize ∧
    ∀ d, d < s.output.histCount.toNat + 1 → 1 ≤ d →
      Memory.read (windowAddr s.params.windowSize d s.output) s.output.win = s.output.out[s.output.out.length - d]?

/-- ERRCODE and ERRINFO are 0 while ERROR = 0; with ERROR = 1 the code is one that the block raises and DONE is 0; within a command
neither flag is set (spec/10_state.md R24, R27, R36, spec/60_exceptions.md R214, R220). -/
abbrev StatusInv (s : State) : Prop :=
  (s.status.error = false → s.status.errcode = 0 ∧ s.errinfo = ErrInfo.reset) ∧
    (s.status.error = true → 2 ≤ s.status.errcode.toNat ∧ s.status.errcode.toNat ≤ 7 ∧ s.status.done = false) ∧
    (s.work.phase ≠ .idle → s.status.error = false ∧ s.status.done = false)

/-- No built table is larger than its alphabet, and no CL length is above 7 (spec/00_scope.md R7, spec/10_state.md R41, R42). -/
abbrev TableInv (s : State) : Prop :=
  s.tables.cl.lens.length ≤ 19 ∧ (∀ l ∈ s.tables.cl.lens, l.toNat ≤ 7) ∧
    s.tables.lit.lens.length ≤ 288 ∧ s.tables.dist.lens.length ≤ 32

/-- Within the code-length sequence the position is below the total and the alphabets have their sizes (R171, R174). -/
abbrev SequenceInv (w : Work) : Prop :=
  w.phase = .clSym → w.seqIndex < headerTotal w ∧ 257 ≤ w.nlit ∧ w.nlit ≤ 288 ∧ 1 ≤ w.ndist ∧ w.ndist ≤ 32

/-- Before a distance symbol a length of 3 to 258 is pending (spec/45_block_decoder.md R190). -/
abbrev PendingCopyInv (w : Work) : Prop := w.phase = .distSym → 3 ≤ w.copyLen ∧ w.copyLen ≤ 258

/-- All of them. -/
abbrev MachineInv (s : State) : Prop :=
  BufferInv s.reader ∧ InputInv s ∧ HistoryInv s ∧ StatusInv s ∧ TableInv s ∧ SequenceInv s.work ∧ PendingCopyInv s.work

/-! ## Symbol by symbol within a command -/

/-- One symbol of a command: fetched, and its operation run; or an error in the fetch, which ends the command. -/
inductive SymbolStep : State → State → Prop
  | op {s s' t : State} {i : Instr} (fetched : fetchSymbol s = .run i s') (ran : execStreamOp i s' = .next t) : SymbolStep s t
  | error {s t : State} (busy : s.work.phase ≠ .idle) (raised : fetchSymbol s = .settled t) : SymbolStep s t

/-- A run of symbols, one after another while the command is in progress. -/
inductive SymbolRun : State → State → Prop
  | stop (s : State) : SymbolRun s s
  | step {s t u : State} (busy : s.work.phase ≠ .idle) (first : SymbolStep s t) (rest : SymbolRun t u) : SymbolRun s u

/-! ## Named results -/

/-- The state of `raise E(sub, value)` (spec/60_exceptions.md R220), spelt out: ERROR, ERRCODE and ERRINFO written, the command ended. That the
working state is cleared there is the model's choice (log entry 4); R48 makes it immaterial. -/
def withError (code : BitVec 4) (sub : BitVec 8) (value : BitVec 16) (s : State) : State :=
  { s with
    status := { s.status with error := true, errcode := code },
    errinfo := { subcause := sub, value := value },
    work := .idle }

/-- A command turned down at its acceptance: ILLEGAL_COMMAND with DONE cleared, and nothing else (spec/40_control.md R130, R132). -/
def withIllegalCommand (sub : BitVec 8) (op : BitVec 16) (s : State) : State :=
  withError 7 sub op { s with status := { s.status with done := false } }

/-- A command's completion: RESULT and DONE written (spec/40_control.md R130, spec/10_state.md R28); the working state cleared, as above
(log entry 4). -/
def withResult (v : Word) (s : State) : State :=
  { s with result := v, status := { s.status with done := true }, work := .idle }

/-- code(L) of spec/42_canonical_builder.md R151: code(L) = (code(L-1) + count(L-1)) << 1, code(0) = 0. -/
def firstCodeOf (lens : List (BitVec 4)) : Nat → Nat
  | 0 => 0
  | l + 1 => 2 * (firstCodeOf lens l + lengthCount lens l)

/-- The Kraft sum times 2^15: each symbol of nonzero length L counts 2^(15-L) (spec/42_canonical_builder.md R153). -/
def kraftSum (lens : List (BitVec 4)) : Nat :=
  (lens.map fun l => if l.toNat = 0 then 0 else 2 ^ (15 - l.toNat)).sum

/-- Entry `j` of the one code-length sequence, LIT then DIST (spec/44_header_decoder.md R174, Get). -/
def seqEntry (nlit : Nat) (l : Lens) (j : Nat) : BitVec 4 :=
  if j < nlit then (l.lit.toList[j]?).getD 0 else (l.dist.toList[j - nlit]?).getD 0

/-- `t` is `s` after `count` copies of the length `v` have been stored at the sequence position, the reader having moved to `r`
(spec/44_header_decoder.md R174): the entries, those past the two totals kept, the position, and, when the position has reached the
total, step 7. That the working state of a completed DECODE_HEADER is zero is the model's choice (log entry 4). -/
structure StoredRun (s : State) (r : Reader) (count : Nat) (v : BitVec 4) (t : State) : Prop where
  reader : t.reader = r
  entries : ∀ j, j < headerTotal s.work →
    seqEntry s.work.nlit t.lens j =
      if s.work.seqIndex ≤ j ∧ j < s.work.seqIndex + count then v else seqEntry s.work.nlit s.lens j
  pastTotalKept : (∀ j, s.work.nlit ≤ j → t.lens.lit.toList[j]? = s.lens.lit.toList[j]?) ∧
    ∀ j, s.work.ndist ≤ j → t.lens.dist.toList[j]? = s.lens.dist.toList[j]?
  clKept : t.lens.cl = s.lens.cl
  kept : t.output = s.output ∧ t.blockCount = s.blockCount ∧ t.hdr = s.hdr ∧ t.errinfo = s.errinfo ∧
    t.tblAddr = s.tblAddr ∧ t.input = s.input ∧ t.host = s.host ∧ t.params = s.params ∧
    t.tables.cl = s.tables.cl ∧ t.status.error = s.status.error ∧ t.status.streamEnd = s.status.streamEnd ∧
    t.status.errcode = s.status.errcode
  goesOn : s.work.seqIndex + count < headerTotal s.work →
    t.tables = s.tables ∧ t.status = s.status ∧ t.result = s.result ∧
      t.work = { s.work with seqIndex := s.work.seqIndex + count }
  builds : s.work.seqIndex + count = headerTotal s.work →
    t.tables.lit.lens = (List.range s.work.nlit).map (seqEntry s.work.nlit t.lens) ∧
      t.tables.dist.lens = (List.range s.work.ndist).map (fun j => seqEntry s.work.nlit t.lens (s.work.nlit + j))
  endsHeader : s.work.seqIndex + count = headerTotal s.work → s.work.cmd = .header →
    t.status.done = true ∧ t.result = BitVec.ofNat 32 (headerTotal s.work) ∧ t.work = .idle
  entersData : s.work.seqIndex + count = headerTotal s.work → s.work.cmd ≠ .header →
    t.status.done = s.status.done ∧ t.result = s.result ∧
      t.work = { s.work with seqIndex := s.work.seqIndex + count, phase := .litSym }

/-- The input ends inside HLIT, HDIST, HCLEN or a transmitted CL length, `bits` being what is left of it before HLIT
(spec/44_header_decoder.md R171, R172: 5, 5 and 4 bits, then HCLEN + 4 lengths of 3 bits). -/
abbrev endsInHeaderFields (bits : List Bool) : Prop :=
  bits.length < 14 ∨ bits.length < 14 + 3 * (fieldValue ((bits.drop 10).take 4) + 4)

/-- HDR after those of HLIT, HDIST and HCLEN that `bits` holds whole were read, each stored at once (R171). -/
def hdrOfBits (bits : List Bool) (h : Hdr) : Hdr :=
  { h with
    hlit := if 5 ≤ bits.length then BitVec.ofNat 5 (fieldValue (bits.take 5)) else h.hlit
    hdist := if 10 ≤ bits.length then BitVec.ofNat 5 (fieldValue ((bits.drop 5).take 5)) else h.hdist
    hclen := if 14 ≤ bits.length then BitVec.ofNat 4 (fieldValue ((bits.drop 10).take 4)) else h.hclen }

/-- Where the field that the input cuts off begins, of `n` bits. -/
def cutFieldStart (n : Nat) : Nat :=
  if n < 5 then 0 else if n < 10 then 5 else if n < 14 then 10 else 14 + 3 * ((n - 14) / 3)

/-- `t` is `s`, at HLIT, after a header whose fields the input cut off (spec/60_exceptions.md R221; spec/44_header_decoder.md R171, R172; vector
D7): INPUT_EXHAUSTED, the fields and LEN_CL entries already read keep their values, the bits of the cut field stay buffered, and nothing else
changes. LEN_CL is cleared once HCLEN has been read. -/
structure HeaderCut (bits : List Bool) (s t : State) : Prop where
  raised : t = withError 5 0 0 { s with
    reader := t.reader, hdr := hdrOfBits bits s.hdr, lens := { s.lens with cl := t.lens.cl } }
  clKept : bits.length < 14 → t.lens.cl = s.lens.cl
  clRead : 14 ≤ bits.length → ∀ i sym, clPermutation[i]? = some sym →
    t.lens.cl.toList[sym]? = some
      (if 14 + 3 * (i + 1) ≤ bits.length then BitVec.ofNat 3 (fieldValue ((bits.drop (14 + 3 * i)).take 3)) else 0)
  buffered : BufferInv t.reader ∧ bufferedBits t.reader = bits.drop (cutFieldStart bits.length) ∧
    t.reader.inCount.toNat = max s.reader.inCount.toNat (inputBytes s).length

/-- The sequence position and alphabet sizes that a header can have, whatever the phase (R171, R174). -/
abbrev SequenceBounds (w : Work) : Prop :=
  w.seqIndex < headerTotal w ∧ 257 ≤ w.nlit ∧ w.nlit ≤ 288 ∧ 1 ≤ w.ndist ∧ w.ndist ≤ 32

/-- Two states that differ at most in W, the window's contents and HIST_COUNT, which saturates at W (spec/00_scope.md R8, spec/10_state.md
R45). -/
abbrev SameButWindow (a b : State) : Prop :=
  b = { a with
    output := { a.output with win := b.output.win, histCount := b.output.histCount },
    params := { a.params with windowSize := b.params.windowSize } }

/-! ## A block as a text of fields and symbols -/

/-- LBASE and LEXT in the order of the symbols 257 to 285 (spec/45_block_decoder.md R192). -/
def lengthTable : List (Nat × Nat) :=
  [(3, 0), (4, 0), (5, 0), (6, 0), (7, 0), (8, 0), (9, 0), (10, 0), (11, 1), (13, 1), (15, 1), (17, 1), (19, 2), (23, 2),
   (27, 2), (31, 2), (35, 3), (43, 3), (51, 3), (59, 3), (67, 4), (83, 4), (99, 4), (115, 4), (131, 5), (163, 5), (195, 5),
   (227, 5), (258, 0)]

/-- DBASE and DEXT in the order of the symbols 0 to 29 (spec/45_block_decoder.md R195). -/
def distanceTable : List (Nat × Nat) :=
  [(1, 0), (2, 0), (3, 0), (4, 0), (5, 1), (7, 1), (9, 2), (13, 2), (17, 3), (25, 3), (33, 4), (49, 4), (65, 5), (97, 5),
   (129, 6), (193, 6), (257, 7), (385, 7), (513, 8), (769, 8), (1025, 9), (1537, 9), (2049, 10), (3073, 10), (4097, 11),
   (6145, 11), (8193, 12), (12289, 12), (16385, 13), (24577, 13)]

/-- A meta-symbol with its extra bits (spec/30_encoding.md R91). -/
inductive MetaItem where
  | len (v : BitVec 4)
  | repeatPrev (e : BitVec 2)
  | zeroShort (e : BitVec 3)
  | zeroLong (e : BitVec 7)
  deriving DecidableEq, Repr

/-- A literal, or a back-reference with its extra bits (spec/30_encoding.md R93, R94). -/
inductive DataItem where
  | lit (b : Byte)
  | copy (lenCode : Fin 29) (lenExtra : Nat) (distCode : Fin 30) (distExtra : Nat)
  deriving DecidableEq, Repr

/-- A dynamic block as its fields and symbols (spec/30_encoding.md R88, R89). -/
structure BlockText where
  bfinal : Bool
  hlit : BitVec 5
  hdist : BitVec 5
  hclen : BitVec 4
  clLens : List (BitVec 3)
  metas : List MetaItem
  items : List DataItem
  deriving DecidableEq, Repr

/-- A fixed field's bits in reading order (R85). -/
def fieldBits (n v : Nat) : List Bool := (List.range n).map v.testBit

/-- A symbol's length and code in a table. -/
def codeOf (d : DecodeTable) (sym : Nat) : Nat × Nat := ((codeTable d)[sym]?).getD (0, 0)

/-- A symbol's code bits in reading order, most significant first (R86). -/
def codeBits (d : DecodeTable) (sym : Nat) : List Bool :=
  (List.range (codeOf d sym).1).map fun j => (codeOf d sym).2.testBit ((codeOf d sym).1 - 1 - j)

/-- The symbol has a code that the bits can spell: it fits its length, and no shorter start of it is another symbol's code
(spec/43_huffman_decoder.md R165). Every symbol with a code is usable when the table is not over-subscribed (R153). -/
abbrev usable (d : DecodeTable) (sym : Nat) : Prop :=
  (codeOf d sym).1 ≠ 0 ∧ (codeOf d sym).2 < 2 ^ (codeOf d sym).1 ∧
    ∀ k < (codeOf d sym).1, resolve (codeTable d) k ((codeOf d sym).2 >>> ((codeOf d sym).1 - k)) = none

/-- The CL table of transmitted lengths: symbol PERM[i] has the i-th, the others 0 (spec/30_encoding.md R90). -/
def clTableOf (clLens : List (BitVec 3)) : DecodeTable :=
  { lens := (List.range 19).map fun sym => ((clLens[clPermutation.idxOf sym]?).getD 0).setWidth 4 }

/-- The meta-symbol, its extra bits' width, and their value (spec/30_encoding.md R91). -/
def MetaItem.parts : MetaItem → Nat × Nat × Nat
  | .len v => (v.toNat, 0, 0)
  | .repeatPrev e => (16, 2, e.toNat)
  | .zeroShort e => (17, 3, e.toNat)
  | .zeroLong e => (18, 7, e.toNat)

/-- A meta-symbol's code and extra bits (spec/30_encoding.md R92). -/
def metaBits (d : DecodeTable) (m : MetaItem) : List Bool :=
  codeBits d m.parts.1 ++ fieldBits m.parts.2.1 m.parts.2.2

/-- The code lengths the meta-symbols store after those stored so far (spec/44_header_decoder.md R175 to R178); none where a repeat has no
previous length. -/
def expandMetas (stored : List (BitVec 4)) : List MetaItem → Option (List (BitVec 4))
  | [] => some stored
  | .len v :: rest => expandMetas (stored ++ [v]) rest
  | .repeatPrev e :: rest =>
    match stored.getLast? with
    | none => none
    | some v => expandMetas (stored ++ List.replicate (3 + e.toNat) v) rest
  | .zeroShort e :: rest => expandMetas (stored ++ List.replicate (3 + e.toNat) 0) rest
  | .zeroLong e :: rest => expandMetas (stored ++ List.replicate (11 + e.toNat) 0) rest

/-- All the code lengths of a block, LIT then DIST (spec/44_header_decoder.md R179). -/
def BlockText.lengths (b : BlockText) : List (BitVec 4) := (expandMetas [] b.metas).getD []

/-- The LIT table: the first HLIT + 257 lengths. -/
def BlockText.litTable (b : BlockText) : DecodeTable := { lens := b.lengths.take (b.hlit.toNat + 257) }

/-- The DIST table: the HDIST + 1 lengths after them. -/
def BlockText.distTable (b : BlockText) : DecodeTable := { lens := b.lengths.drop (b.hlit.toNat + 257) }

/-- The code-length arrays hold the block's lengths: LEN_CL those transmitted and 0 for the others (spec/44_header_decoder.md R172), LEN_LIT and
LEN_DIST those of the sequence, and 0 past HLIT + 257 and HDIST + 1 (R174, vector D8). -/
structure BlockText.LensHeld (b : BlockText) (l : Lens) : Prop where
  cl : lenArray l .cl = (clTableOf b.clLens).lens
  lit : l.lit.toList = b.litTable.lens ++ List.replicate (288 - (b.hlit.toNat + 257)) 0
  dist : l.dist.toList = b.distTable.lens ++ List.replicate (32 - (b.hdist.toNat + 1)) 0

/-- The header's bits after the 3-bit block header (spec/30_encoding.md R89, 1 to 5). -/
def BlockText.headerBits (b : BlockText) : List Bool :=
  fieldBits 5 b.hlit.toNat ++ fieldBits 5 b.hdist.toNat ++ fieldBits 4 b.hclen.toNat
    ++ b.clLens.flatMap (fun l => fieldBits 3 l.toNat) ++ b.metas.flatMap (metaBits (clTableOf b.clLens))

/-- LBASE and LEXT of a length code. -/
def lengthRow (c : Fin 29) : Nat × Nat := (lengthTable[c.val]?).getD (0, 0)

/-- DBASE and DEXT of a distance code. -/
def distanceRow (c : Fin 30) : Nat × Nat := (distanceTable[c.val]?).getD (0, 0)

/-- An item's bits: a literal's code, or the four parts of a back-reference in order (spec/30_encoding.md R94). -/
def itemBits (lit dist : DecodeTable) : DataItem → List Bool
  | .lit b => codeBits lit b.toNat
  | .copy l le d de =>
    codeBits lit (l.val + 257) ++ fieldBits (lengthRow l).2 le ++ codeBits dist d.val ++ fieldBits (distanceRow d).2 de

/-- The whole block's bits (spec/30_encoding.md R88, R89). -/
def BlockText.bits (b : BlockText) : List Bool :=
  fieldBits 1 b.bfinal.toNat ++ fieldBits 2 2 ++ b.headerBits
    ++ b.items.flatMap (itemBits b.litTable b.distTable) ++ codeBits b.litTable 256

/-- `len` bytes copied from `dist` behind the end, one at a time, on the append-only output of the document (spec/45_block_decoder.md
R200, R203). -/
def appendCopy (dist : Nat) : Nat → List Byte → List Byte
  | 0, out => out
  | len + 1, out => appendCopy dist len (out ++ [(out[out.length - dist]?).getD 0])

/-- The output after the items, on the document's append-only buffer; none where a distance reaches before its start
(spec/45_block_decoder.md R188, R198, R200). -/
def expandItems (out : List Byte) : List DataItem → Option (List Byte)
  | [] => some out
  | .lit b :: rest => expandItems (out ++ [b]) rest
  | .copy l le d de :: rest =>
    if (distanceRow d).1 + de ≤ out.length then
      expandItems (appendCopy ((distanceRow d).1 + de) ((lengthRow l).1 + le) out) rest
    else none

/-- The header is one a stream can carry: as many CL lengths as HCLEN says, every meta-symbol with a usable code, and exactly
HLIT + 257 + HDIST + 1 code lengths (spec/30_encoding.md R89, spec/44_header_decoder.md R179). -/
abbrev BlockText.headerValid (b : BlockText) : Prop :=
  b.clLens.length = b.hclen.toNat + 4 ∧
    (∀ m ∈ b.metas, usable (clTableOf b.clLens) m.parts.1) ∧
    (expandMetas [] b.metas).isSome = true ∧
    b.lengths.length = b.hlit.toNat + 257 + (b.hdist.toNat + 1)

/-- The item's symbols have usable codes and its extra bits fit their fields. -/
abbrev itemValid (lit dist : DecodeTable) : DataItem → Prop
  | .lit b => usable lit b.toNat
  | .copy l le d de =>
    usable lit (l.val + 257) ∧ le < 2 ^ (lengthRow l).2 ∧ usable dist d.val ∧ de < 2 ^ (distanceRow d).2

/-- The block is one a stream can carry after the output `out`. -/
abbrev BlockText.valid (out : List Byte) (b : BlockText) : Prop :=
  b.headerValid ∧ (∀ x ∈ b.items, itemValid b.litTable b.distTable x) ∧ usable b.litTable 256 ∧
    (expandItems out b.items).isSome = true

/-- The output after the block. -/
def BlockText.outputAfter (out : List Byte) (b : BlockText) : List Byte := (expandItems out b.items).getD out

/-- A member's blocks: each valid after the output of those before it, the last one and only it with BFINAL = 1
(spec/45_block_decoder.md R202, R208). -/
def memberValid (out : List Byte) : List BlockText → Prop
  | [] => False
  | [b] => b.valid out ∧ b.bfinal = true
  | b :: c :: rest => b.valid out ∧ b.bfinal = false ∧ memberValid (b.outputAfter out) (c :: rest)

/-- The output after a member's blocks. -/
def memberOutput (out : List Byte) : List BlockText → List Byte
  | [] => out
  | b :: rest => memberOutput (b.outputAfter out) rest

end Sys2Proof.Machine
end

