-- ==== Sys2Proof/Certificates/Slice0/Obligations.lean ====
section
/-! DEFINITION. The statements about the DEFLATE CORE, each from the rules of spec/ that its docstring and OBLIGATIONS.json name. -/

open Sys2Proof Sys2Proof.Machine

/-! ## Encoding -/

/-- R80, R81, R88, R91, R93, R95, R103: the decoder reads back what the encoder writes, for every well-formed instruction; a
command also from its four bytes (R63). -/
def Obligations.DecodeOfEncodeIsTheInstruction : Prop :=
  ∀ i : Instr, i.wellFormed = true →
    decode i.format (encode i) = .ok i ∧
      (i.isCommand = true → ∀ rest, decodeCtrlBytes (bytesOfWord (encode i) ++ rest) = .ok (i, rest))

/-- R84: the spec's example command words, both ways. -/
def Obligations.ExampleCommandWordsDecodeAndEncode : Prop :=
  (decode .ctrl 0x00000032 = .ok (.readBits 3 false) ∧ encode (.readBits 3 false) = 0x00000032) ∧
  (decode .ctrl 0x00000472 = .ok (.readBits 7 true) ∧ encode (.readBits 7 true) = 0x00000472) ∧
  (decode .ctrl 0x00000202 = .ok (.readBits 32 false) ∧ encode (.readBits 32 false) = 0x00000202) ∧
  (decode .ctrl 0x00081003 = .ok (.buildTable 1 8) ∧ encode (.buildTable 1 8) = 0x00081003) ∧
  (decode .ctrl 0x00130003 = .ok (.buildTable 0 19) ∧ encode (.buildTable 0 19) = 0x00130003) ∧
  (decode .ctrl 0x00002004 = .ok (.decodeSymbol 2) ∧ encode (.decodeSymbol 2) = 0x00002004) ∧
  (decode .ctrl 0x00000001 = .ok .resetCtx ∧ encode .resetCtx = 0x00000001) ∧
  (decode .ctrl 0x00000007 = .ok .decodeStream ∧ encode .decodeStream = 0x00000007)

/-- R83: two command words with the same OP that agree on the fields their command uses are the same command, whatever their
reserved bits and unused fields. -/
def Obligations.ReservedBitsAndUnusedFieldsAreIgnored : Prop :=
  ∀ w w' : Word, w.extractLsb' 0 4 = w'.extractLsb' 0 4 →
    (w.extractLsb' 0 4 = 2#4 → w.extractLsb' 4 7 = w'.extractLsb' 4 7) →
    (w.extractLsb' 0 4 = 3#4 → w.extractLsb' 12 2 = w'.extractLsb' 12 2 ∧ w.extractLsb' 16 9 = w'.extractLsb' 16 9) →
    (w.extractLsb' 0 4 = 4#4 → w.extractLsb' 12 2 = w'.extractLsb' 12 2) →
    decode .ctrl w = decode .ctrl w'

/-- R88, R91, R93, R95, R103: the keys of the four stream formats at both ends of their ranges and where one kind of symbol meets the
next, and the first number of each format that is no key. -/
def Obligations.StreamKeysDecodeByFormat : Prop :=
  decode .blockHdr 0b000 = .ok (.btype0Stored false) ∧ decode .blockHdr 0b011 = .ok (.btype1Fixed true) ∧
  decode .blockHdr 0b101 = .ok (.btype2Dynamic true) ∧ decode .blockHdr 0b110 = .ok (.btype3Reserved false) ∧
  decode .blockHdr 0b111 = .ok (.btype3Reserved true) ∧ decode .blockHdr 0b1000 = .error .noBlockHeader ∧
  decode .clSym 0 = .ok (.clLen 0) ∧ decode .litSym 0 = .ok (.lit 0) ∧
  decode .clSym 15 = .ok (.clLen 15) ∧ decode .clSym 16 = .ok .clRepeatPrev ∧ decode .clSym 17 = .ok .clZeroShort ∧
  decode .clSym 18 = .ok .clZeroLong ∧ decode .clSym 19 = .error .noMetaSymbol ∧
  decode .litSym 255 = .ok (.lit 0xFF) ∧ decode .litSym 256 = .ok .eob ∧ decode .litSym 257 = .ok .len257 ∧
  decode .litSym 285 = .ok .len285 ∧ decode .litSym 286 = .ok (.litReserved 286) ∧
  decode .litSym 287 = .ok (.litReserved 287) ∧ decode .litSym 288 = .error .noLitSymbol ∧
  decode .distSym 0 = .ok .dist0 ∧ decode .distSym 29 = .ok .dist29 ∧ decode .distSym 30 = .ok (.distReserved 30) ∧
  decode .distSym 31 = .ok (.distReserved 31) ∧ decode .distSym 32 = .error .noDistSymbol

/-! ## The step -/

/-- R130: a host write of a word to CTRL, which stands at REG_BASE, between commands, runs the command the word decodes to, as one step.
Around exec the step takes the access off the host's queue and notes that the context is in use. The one exception is the run of
which the spec says nothing (R70, R247; log entry 6): INPUT was replaced in a context in use, and the command would call InByte, as it
shows by INPUT_EXHAUSTED where there is no byte (R242); it is refused by name, and every other command runs. -/
def Obligations.StepRunsTheCommandWritten : Prop :=
  ∀ (s : State) (w : Word) (rest : List HostAccess) (i : Instr),
    s.work.phase = .idle → s.host.pending = .write 32 s.params.regBase w :: rest → decode .ctrl w = .ok i →
    (¬(s.host.duty = .replaced ∧ callsInByte i { s with host := { s.host with pending := rest } } = true) →
      step s = exec i { s with
        host := { pending := rest, readData := s.host.readData, duty := dutyAfterCommand i s.host.duty } }) ∧
    (s.host.duty = .replaced → callsInByte i { s with host := { s.host with pending := rest } } = true →
      step s = .refused .inputReplacedInContext)

/-- R174, R186: within a command, a step runs the operation of the symbol that the phase's decoder gives. -/
def Obligations.StepRunsTheDecodedSymbol : Prop :=
  ∀ (s s' : State) (key : Nat) (i : Instr),
    (s.work.phase = .blockHdr → fetchBlockHdr s = .ok key s' → decode .blockHdr (BitVec.ofNat 32 key) = .ok i →
      step s = exec i s') ∧
    (s.work.phase = .clSym → decodeSym .cl s = .ok key s' → decode .clSym (BitVec.ofNat 32 key) = .ok i →
      step s = exec i s') ∧
    (s.work.phase = .litSym → decodeSym .lit s = .ok key s' → decode .litSym (BitVec.ofNat 32 key) = .ok i →
      step s = exec i s') ∧
    (s.work.phase = .distSym → decodeSym .dist s = .ok key s' → decode .distSym (BitVec.ofNat 32 key) = .ok i →
      step s = exec i s')

/-- R62, R63, R64, R25, R46, R234: what a host access that is no command does, between commands. The register block begins at REG_BASE.
A read returns the register of the map, or 0 where the access is not an aligned 32-bit one at offset 0x00 to 0x40, and has no side
effect on the block. A write that is not such an access, or that goes to a read-only register, has no effect. ATTACH replaces INPUT;
more than INPUT_MAX bytes are refused (I5). With nothing pending the block holds its state. The model's own: an access below REG_BASE
reaches no register (log entry 21); the access leaves the host's queue, a read's word goes to host.readData, and host.duty notes an
INPUT that other bytes replaced (log entries 1, 5 and 6). -/
def Obligations.HostAccesses : Prop :=
  ∀ (s : State) (width offset below : Nat) (w : Word) (bytes : List Byte) (rest : List HostAccess), s.work.phase = .idle →
    (s.host.pending = .read width (s.params.regBase + offset) :: rest →
      step s = .next { s with host := { s.host with
        pending := rest,
        readData := if width = 32 ∧ offset % 4 = 0 ∧ offset ≤ 0x40
          then readRegister { s with host := { s.host with pending := rest } } offset else 0 } }) ∧
    (s.host.pending = .write width (s.params.regBase + offset) w :: rest →
      (¬(width = 32 ∧ offset % 4 = 0 ∧ offset ≤ 0x40) ∨ (offset ≠ 0 ∧ offset ≠ 0x2C ∧ offset ≠ 0x30)) →
      step s = .next { s with host := { s.host with pending := rest } }) ∧
    (below < s.params.regBase →
      (s.host.pending = .read width below :: rest →
        step s = .next { s with host := { s.host with pending := rest, readData := 0 } }) ∧
      (s.host.pending = .write width below w :: rest →
        step s = .next { s with host := { s.host with pending := rest } })) ∧
    (s.host.pending = .attach bytes :: rest → bytes.length ≤ s.params.inputMax →
      step s = .next { s with
        input := some bytes,
        host := { s.host with pending := rest, duty := dutyAfterAttach (decide (s.input ≠ some bytes)) s.host.duty } }) ∧
    (s.host.pending = .attach bytes :: rest → s.params.inputMax < bytes.length → step s = .refused .inputTooLarge) ∧
    (s.host.pending = [] → step s = .next s)

/-- R37, R38, R131: writes to TBL_ADDR and LEN_DATA store, in every state, ERROR = 1 included. LEN_DATA stores v[2:0] into
LEN_CL[INDEX] or v[3:0] into LEN_LIT[INDEX] or LEN_DIST[INDEX], nothing when TSEL = 3 or INDEX is out of range, and changes no
other entry and no built table. -/
def Obligations.TableRegisterWrites : Prop :=
  (∀ (s : State) (w : Word) (rest : List HostAccess), s.work.phase = .idle →
    s.host.pending = .write 32 (s.params.regBase + 0x2C) w :: rest →
    step s = .next { s with
      tblAddr := { index := w.extractLsb' 0 9, tsel := w.extractLsb' 12 2 },
      host := { s.host with pending := rest } }) ∧
  ∀ (s : State) (w : Word) (rest : List HostAccess), s.work.phase = .idle →
    s.host.pending = .write 32 (s.params.regBase + 0x30) w :: rest →
    ∃ l : Lens, step s = .next { s with lens := l, host := { s.host with pending := rest } } ∧
      (∀ j, l.cl.toList[j]? = if s.tblAddr.tsel = 0 ∧ j = s.tblAddr.index.toNat ∧ j < 19
        then some (w.extractLsb' 0 3) else s.lens.cl.toList[j]?) ∧
      (∀ j, l.lit.toList[j]? = if s.tblAddr.tsel = 1 ∧ j = s.tblAddr.index.toNat ∧ j < 288
        then some (w.extractLsb' 0 4) else s.lens.lit.toList[j]?) ∧
      (∀ j, l.dist.toList[j]? = if s.tblAddr.tsel = 2 ∧ j = s.tblAddr.index.toNat ∧ j < 32
        then some (w.extractLsb' 0 4) else s.lens.dist.toList[j]?)

/-- R25, R27, R28, R30, R32, R33, R34, R35, R36, R37, R40: what a read of each register but LEN_DATA and CODE_DATA returns. CTRL reads
0; RESULT, IN_COUNT, OUT_COUNT, BLOCK_COUNT and HIST_COUNT read whole; each field of the others stands at its bits, every other bit of
the word is 0, and BUSY reads 0 between commands. -/
def Obligations.RegisterWordsHoldTheirFields : Prop :=
  ∀ s : State, s.work.phase = .idle →
    (readRegister s 0x00 = 0 ∧ readRegister s 0x08 = s.result ∧ readRegister s 0x18 = s.reader.inCount ∧
      readRegister s 0x1C = s.output.outCount ∧ readRegister s 0x20 = s.blockCount ∧
      readRegister s 0x40 = s.output.histCount) ∧
    ((readRegister s 0x04).getLsbD 0 = false ∧ (readRegister s 0x04).getLsbD 1 = s.status.done ∧
      (readRegister s 0x04).getLsbD 2 = s.status.error ∧ (readRegister s 0x04).getLsbD 3 = s.status.streamEnd ∧
      (readRegister s 0x04).extractLsb' 4 4 = 0 ∧ (readRegister s 0x04).extractLsb' 8 4 = s.status.errcode ∧
      (readRegister s 0x04).extractLsb' 12 20 = 0) ∧
    ((readRegister s 0x0C).extractLsb' 0 6 = s.reader.bitcnt ∧ (readRegister s 0x0C).extractLsb' 6 26 = 0 ∧
      (readRegister s 0x14).extractLsb' 0 8 ++ readRegister s 0x10 = s.reader.bitbuf ∧
      (readRegister s 0x14).extractLsb' 8 24 = 0) ∧
    ((readRegister s 0x24).extractLsb' 0 1 = s.hdr.bfinal ∧ (readRegister s 0x24).extractLsb' 1 2 = s.hdr.btype ∧
      (readRegister s 0x24).extractLsb' 3 5 = s.hdr.hlit ∧ (readRegister s 0x24).extractLsb' 8 5 = s.hdr.hdist ∧
      (readRegister s 0x24).extractLsb' 13 4 = s.hdr.hclen ∧ (readRegister s 0x24).extractLsb' 17 15 = 0) ∧
    ((readRegister s 0x28).extractLsb' 0 8 = s.errinfo.subcause ∧ (readRegister s 0x28).extractLsb' 8 8 = 0 ∧
      (readRegister s 0x28).extractLsb' 16 16 = s.errinfo.value) ∧
    ((readRegister s 0x2C).extractLsb' 0 9 = s.tblAddr.index ∧ (readRegister s 0x2C).extractLsb' 9 3 = 0 ∧
      (readRegister s 0x2C).extractLsb' 12 2 = s.tblAddr.tsel ∧ (readRegister s 0x2C).extractLsb' 14 18 = 0) ∧
    ((readRegister s 0x38).extractLsb' 0 4 = BitVec.ofNat 4 (maxLen s.tables.cl) ∧
      (readRegister s 0x38).extractLsb' 8 4 = BitVec.ofNat 4 (maxLen s.tables.lit) ∧
      (readRegister s 0x38).extractLsb' 16 4 = BitVec.ofNat 4 (maxLen s.tables.dist) ∧
      (readRegister s 0x38).extractLsb' 4 4 = 0 ∧ (readRegister s 0x38).extractLsb' 12 4 = 0 ∧
      (readRegister s 0x38).extractLsb' 20 12 = 0) ∧
    ((readRegister s 0x3C).extractLsb' 0 5 = BitVec.ofNat 5 s.tables.cl.lens.length ∧
      (readRegister s 0x3C).extractLsb' 8 9 = BitVec.ofNat 9 s.tables.lit.lens.length ∧
      (readRegister s 0x3C).extractLsb' 24 6 = BitVec.ofNat 6 s.tables.dist.lens.length ∧
      (readRegister s 0x3C).extractLsb' 5 3 = 0 ∧ (readRegister s 0x3C).extractLsb' 17 7 = 0 ∧
      (readRegister s 0x3C).extractLsb' 30 2 = 0)

/-- R38, R39: with TBL_ADDR selecting a table, a read of LEN_DATA returns the code-length entry INDEX, 0 past the array; a read of CODE_DATA
returns 0 for a symbol that has no code in the built table, else its length in [3:0] and its code, whole, in [31:8]. With TSEL = 3 both
read 0. -/
def Obligations.TableRegisterReads : Prop :=
  (∀ (s : State) (t : TableId),
    ((s.tblAddr.tsel = 0 ∧ t = .cl) ∨ (s.tblAddr.tsel = 1 ∧ t = .lit) ∨ (s.tblAddr.tsel = 2 ∧ t = .dist)) →
    (readRegister s 0x30).toNat = (((lenArray s.lens t)[s.tblAddr.index.toNat]?).getD 0).toNat ∧
    ((codeOf (getTable s.tables t) s.tblAddr.index.toNat).1 = 0 → readRegister s 0x34 = 0) ∧
    ((codeOf (getTable s.tables t) s.tblAddr.index.toNat).1 ≠ 0 → (getTable s.tables t).lens.length ≤ 288 →
      ((readRegister s 0x34).extractLsb' 0 4).toNat = (codeOf (getTable s.tables t) s.tblAddr.index.toNat).1 ∧
      (readRegister s 0x34).extractLsb' 4 4 = 0 ∧
      ((readRegister s 0x34).extractLsb' 8 24).toNat = (codeOf (getTable s.tables t) s.tblAddr.index.toNat).2)) ∧
  ∀ s : State, s.tblAddr.tsel = 3 → readRegister s 0x30 = 0 ∧ readRegister s 0x34 = 0

/-! ## Reset -/

/-- R49, R240: after hardware reset every register of the map reads 0, OUT is empty, no INPUT is attached, every code-length entry is
0 and every table is empty; and a hardware reset between commands leads, from every state, to the state after reset. In that state
two things are the model's: the window, which R49 leaves unspecified, lists nothing (log entry 3), and the working state, which R48 makes
immaterial, is zero (log entry 4). What the host has yet to do and last read, and the parameters, are not the block's and stay (log
entry 18). -/
def Obligations.HardwareResetState : Prop :=
  ((∀ offset, readRegister State.reset offset = 0) ∧ State.reset.output.out = [] ∧ State.reset.input = none ∧
    (∀ v ∈ State.reset.lens.cl.toList, v = 0) ∧ (∀ v ∈ State.reset.lens.lit.toList, v = 0) ∧
    (∀ v ∈ State.reset.lens.dist.toList, v = 0) ∧ State.reset.tables.cl.lens = [] ∧
    State.reset.tables.lit.lens = [] ∧ State.reset.tables.dist.lens = []) ∧
  ∀ (s : State) (rest : List HostAccess), s.work.phase = .idle → s.host.pending = .hardwareReset :: rest →
    step s = .next { State.reset with
      host := { pending := rest, readData := s.host.readData, duty := .fresh }, params := s.params }

/-- R134, R243: RESET_CTX is accepted in every state and leaves every piece of the context at its reset value, DONE = 1, and INPUT,
TBL_ADDR and the window as they were (the working state within a command, immaterial by R48, is left open); STATUS then reads
0x00000002. -/
def Obligations.ResetCtxStartsANewContext : Prop :=
  ∀ s : State, ∃ t, exec .resetCtx s = .next t ∧
    t = { s with
      status := { done := true, error := false, streamEnd := false, errcode := 0 }, result := 0,
      reader := { bitbuf := 0, bitcnt := 0, inCount := 0 },
      output := { out := [], outCount := 0, histCount := 0, win := s.output.win }, blockCount := 0,
      hdr := { bfinal := 0, btype := 0, hlit := 0, hdist := 0, hclen := 0 }, errinfo := { subcause := 0, value := 0 },
      lens := { cl := Vector.replicate 19 0, lit := Vector.replicate 288 0, dist := Vector.replicate 32 0 },
      tables := { cl := { lens := [] }, lit := { lens := [] }, dist := { lens := [] } }, work := t.work } ∧
    readRegister t 0x04 = 0x00000002 ∧ readRegister t 0x18 = 0 ∧ readRegister t 0x0C = 0

/-! ## Dispatch of commands -/

/-- R133: NOP, OP 0, sets DONE and changes nothing else (the working state within a command, immaterial by R48, is left open); while
ERROR = 1 it is ignored; after hardware reset it leaves STATUS = 0x00000002. -/
def Obligations.NopSetsDoneOnly : Prop :=
  decode .ctrl 0x00000000 = .ok .nop ∧
  (∀ s : State, s.status.error = false → ∃ t, exec .nop s = .next t ∧
    t = { s with status := { s.status with done := true }, work := t.work }) ∧
  (∀ s : State, s.status.error = true → exec .nop s = .next s) ∧
  ∃ t, exec .nop State.reset = .next t ∧ readRegister t 0x04 = 0x00000002

/-- R131: while ERROR = 1 every command other than RESET_CTX changes no state. -/
def Obligations.CommandsAreIgnoredWhileError : Prop :=
  ∀ (i : Instr) (s : State), i.isCommand = true → i ≠ .resetCtx → s.status.error = true → exec i s = .next s

/-- R135: a reserved command raises ILLEGAL_COMMAND(1, op): ERROR, ERRCODE 7 and ERRINFO are written, DONE stays 0, and it has no other
effect (the working state within a command, immaterial by R48, is left open); it is ignored when ERROR was already 1. -/
def Obligations.ReservedCommandsRaise : Prop :=
  (∀ w : Word, 8 ≤ (w.extractLsb' 0 4).toNat → decode .ctrl w = .ok (.reservedOp (w.extractLsb' 0 4))) ∧
  (∀ (op : BitVec 4) (s : State), s.status.error = false → ∃ t, exec (.reservedOp op) s = .next t ∧
    t = { s with
      status := { s.status with done := false, error := true, errcode := 7 },
      errinfo := { subcause := 1, value := op.setWidth 16 }, work := t.work }) ∧
  (∀ (op : BitVec 4) (s : State), s.status.error = true → exec (.reservedOp op) s = .next s) ∧
  ∃ t, exec (.reservedOp 0xF) State.reset = .next t ∧ readRegister t 0x04 = 0x00000704 ∧ readRegister t 0x28 = 0x000F0001

/-- R132: operands_legal. A command with an illegal operand raises ILLEGAL_COMMAND(2, op), and DECODE_BLOCK and DECODE_STREAM after the
stream has ended raise ILLEGAL_COMMAND(3, op), before any other effect; a command that passes the tests never ends with
ILLEGAL_COMMAND. -/
def Obligations.IllegalOperandsAndEndedStreamsRaise : Prop :=
  ∀ s : State, s.status.error = false → s.status.errcode = 0 →
    (∀ nbits keep,
      (¬(1 ≤ nbits.toNat ∧ nbits.toNat ≤ 32) → exec (.readBits nbits keep) s = .next (withIllegalCommand 2 2 s)) ∧
      (1 ≤ nbits.toNat ∧ nbits.toNat ≤ 32 → ∀ t, exec (.readBits nbits keep) s = .next t → t.status.errcode ≠ 7)) ∧
    (∀ tsel nsym,
      (¬(tsel.toNat ≤ 2 ∧ 1 ≤ nsym.toNat ∧ nsym.toNat ≤ ([19, 288, 32][tsel.toNat]?).getD 0) →
        exec (.buildTable tsel nsym) s = .next (withIllegalCommand 2 3 s)) ∧
      (tsel.toNat ≤ 2 ∧ 1 ≤ nsym.toNat ∧ nsym.toNat ≤ ([19, 288, 32][tsel.toNat]?).getD 0 →
        ∀ t, exec (.buildTable tsel nsym) s = .next t → t.status.errcode ≠ 7)) ∧
    (∀ tsel,
      (¬tsel.toNat ≤ 2 → exec (.decodeSymbol tsel) s = .next (withIllegalCommand 2 4 s)) ∧
      (tsel.toNat ≤ 2 → ∀ t, exec (.decodeSymbol tsel) s = .next t → t.status.errcode ≠ 7)) ∧
    (s.status.streamEnd = true → exec .decodeBlock s = .next (withIllegalCommand 3 6 s) ∧
      exec .decodeStream s = .next (withIllegalCommand 3 7 s)) ∧
    (∀ i : Instr, i = .nop ∨ i = .resetCtx ∨ i = .decodeHeader → ∀ t, exec i s = .next t → t.status.errcode ≠ 7) ∧
    (s.status.streamEnd = false → ∀ i : Instr, i = .decodeBlock ∨ i = .decodeStream →
      ∀ t, exec i s = .next t → t.status.errcode ≠ 7)

/-! ## The Bit Reader -/

/-- R142, R144: ReadBits on the stream's bits. With n bits left it returns the first n as a number, the earliest least significant,
fetches exactly the whole bytes it lacks, and consumes the n bits unless `keep`. With fewer it raises INPUT_EXHAUSTED(0, 0): no bit is
consumed, and every byte taken stays buffered and counted. -/
def Obligations.ReadBitsOnTheStream : Prop :=
  ∀ (s : State) (n : Nat) (keep : Bool), 1 ≤ n → n ≤ 32 → BufferInv s.reader → InputBounded s →
    (n ≤ (streamBits s).length →
      ∃ r, readBits n keep s = .ok (fieldValue ((streamBits s).take n)) { s with reader := r } ∧ BufferInv r ∧
        readerBits (inputBytes s) r = (if keep then streamBits s else (streamBits s).drop n) ∧
        r.inCount.toNat = s.reader.inCount.toNat + (n - s.reader.bitcnt.toNat + 7) / 8 ∧
        r.bitcnt.toNat + (if keep then 0 else n) = s.reader.bitcnt.toNat + 8 * ((n - s.reader.bitcnt.toNat + 7) / 8)) ∧
    ((streamBits s).length < n →
      ∃ r, readBits n keep s = .raised (withError 5 0 0 { s with reader := r }) ∧ BufferInv r ∧
        bufferedBits r = streamBits s ∧
        r.inCount.toNat = max s.reader.inCount.toNat (inputBytes s).length)

/-- R145: READ_BITS with 1 <= NBITS <= 32 and that many bits left completes: RESULT is the field they spell, zero-extended, and only the
reader, RESULT and DONE change. -/
def Obligations.ReadBitsCommandCompletes : Prop :=
  ∀ (s : State) (nbits : BitVec 6) (keep : Bool), s.status.error = false → BufferInv s.reader → InputBounded s →
    1 ≤ nbits.toNat → nbits.toNat ≤ 32 → nbits.toNat ≤ (streamBits s).length →
    ∃ r, exec (.readBits nbits keep) s =
        .next (withResult (BitVec.ofNat 32 (fieldValue ((streamBits s).take nbits.toNat))) { s with reader := r }) ∧
      readerBits (inputBytes s) r = (if keep then streamBits s else (streamBits s).drop nbits.toNat)

/-- R147: two reads of a and b bits return what one read of a + b bits returns in two parts, and leave the same bits. -/
def Obligations.SuccessiveReadsConcatenate : Prop :=
  ∀ (s s1 s2 : State) (a b v1 v2 : Nat), 1 ≤ a → 1 ≤ b → a + b ≤ 32 → BufferInv s.reader → InputBounded s →
    readBits a false s = .ok v1 s1 → readBits b false s1 = .ok v2 s2 →
    ∃ t, readBits (a + b) false s = .ok (v1 + v2 <<< a) t ∧ streamBits t = streamBits s2

/-- R146: a kept read is a look-ahead: the same read without KEEP then returns the same value, consumes the bits, and takes no further
input byte. -/
def Obligations.KeptReadIsLookAhead : Prop :=
  ∀ (s s1 : State) (n v : Nat), 1 ≤ n → n ≤ 32 → BufferInv s.reader → InputBounded s → readBits n true s = .ok v s1 →
    streamBits s1 = streamBits s ∧
      ∃ s2, readBits n false s1 = .ok v s2 ∧ s2.reader.inCount = s1.reader.inCount ∧
        streamBits s2 = (streamBits s).drop n

/-- R143: no step breaks the bound on BITCNT or the zero bits above it, and reset has them. -/
def Obligations.BufferInvariantIsKept : Prop :=
  BufferInv State.reset.reader ∧ ∀ s t : State, BufferInv s.reader → step s = .next t → BufferInv t.reader

/-- R31: with BITCNT in 0..7, every command but a READ_BITS with KEEP leaves it there when it ends without an error. -/
def Obligations.AtMostSevenBitsAreLeftOver : Prop :=
  ∀ (i : Instr) (s t : State), i.isCommand = true → (∀ n, i ≠ .readBits n true) → s.reader.bitcnt.toNat ≤ 7 →
    exec i s = .next t → t.status.error = false → t.reader.bitcnt.toNat ≤ 7

/-- R23: no instruction but RESET_CTX moves the stream position back: the bits still to be consumed never grow. -/
def Obligations.StreamPositionNeverGoesBack : Prop :=
  ∀ (i : Instr) (s t : State), i ≠ .resetCtx → BufferInv s.reader → InputBounded s → exec i s = .next t →
    ∃ k, streamBits t = (streamBits s).drop k

/-! ## The Canonical Code Builder -/

/-- R151: Build(t, N). The table becomes the snapshot of the first N lengths and no other table changes; the code of a symbol of length
L is code(L) plus the number of earlier symbols of length L; MAXLEN is the largest length; the count returned is that of the nonzero
lengths. -/
def Obligations.BuildAssignsCanonicalCodes : Prop :=
  (∀ (t : TableId) (n : Nat) (s : State), ∃ ts : Tables, buildTable t n s = { s with tables := ts } ∧
    (getTable ts t).lens = (lenArray s.lens t).take n ∧ ∀ u, u ≠ t → getTable ts u = getTable s.tables u) ∧
  (∀ (lens : List (BitVec 4)) (sym : Nat) (l : BitVec 4), lens[sym]? = some l → l.toNat ≠ 0 →
    (canonicalCodes lens)[sym]? = some (firstCodeOf lens l.toNat + ((lens.take sym).filter (fun x => x == l)).length)) ∧
  (∀ d : DecodeTable, (∀ l ∈ d.lens, l.toNat ≤ maxLen d) ∧ (maxLen d = 0 ∨ ∃ l ∈ d.lens, l.toNat = maxLen d)) ∧
  (∀ lens : List (BitVec 4), usedSymbols lens = (lens.filter (fun x => x.toNat != 0)).length)

/-- R155: BUILD_TABLE with legal operands completes: the selected table is the snapshot of its array's first NSYM lengths, RESULT the
number of nonzero ones, and nothing else changes but DONE. -/
def Obligations.BuildTableCommandCompletes : Prop :=
  ∀ (s : State) (tsel : BitVec 2) (nsym : BitVec 9) (t : TableId), s.status.error = false →
    ((tsel = 0 ∧ t = .cl ∧ nsym.toNat ≤ 19) ∨ (tsel = 1 ∧ t = .lit ∧ nsym.toNat ≤ 288) ∨
      (tsel = 2 ∧ t = .dist ∧ nsym.toNat ≤ 32)) → 1 ≤ nsym.toNat →
    exec (.buildTable tsel nsym) s =
      .next (withResult
        (BitVec.ofNat 32 (((lenArray s.lens t).take nsym.toNat).filter (fun x => x.toNat != 0)).length)
        { s with tables := setTable t { lens := (lenArray s.lens t).take nsym.toNat } s.tables })

/-- R153: when the lengths are not over-subscribed every code fits its length, codes of equal length are distinct and rise with the
symbol, and no code is a prefix of a different code. -/
def Obligations.CanonicalCodesArePrefixFree : Prop :=
  ∀ d : DecodeTable, kraftSum d.lens ≤ 2 ^ 15 →
    (∀ a, a < d.lens.length → (codeOf d a).1 ≠ 0 → (codeOf d a).2 < 2 ^ (codeOf d a).1) ∧
    (∀ a b, a < b → b < d.lens.length → (codeOf d a).1 ≠ 0 → (codeOf d a).1 = (codeOf d b).1 →
      (codeOf d a).2 < (codeOf d b).2) ∧
    (∀ a b, a < d.lens.length → b < d.lens.length → a ≠ b → (codeOf d a).1 ≠ 0 → (codeOf d b).1 ≠ 0 →
      ¬(codeBits d a).IsPrefix (codeBits d b))

/-- R154, R165: over-subscribed lengths are built by the same rules. For EVERY list of lengths, codes of one length are distinct and rise
with the symbol; no code of a table of at most 288 symbols exceeds 287 * 2^14, which is below 2^23, and that value is reached; and a
symbol whose code does not fit its length is never what the traversal of any bits resolves to. -/
def Obligations.OverSubscribedTablesAreBuilt : Prop :=
  (∀ (d : DecodeTable) (a b : Nat), a < b → b < d.lens.length → (codeOf d a).1 ≠ 0 → (codeOf d a).1 = (codeOf d b).1 →
    (codeOf d a).2 < (codeOf d b).2) ∧
  (∀ (d : DecodeTable) (a : Nat), d.lens.length ≤ 288 → (codeOf d a).2 ≤ 287 * 2 ^ 14) ∧ 287 * 2 ^ 14 < 2 ^ 23 ∧
  codeOf { lens := List.replicate 287 1 ++ [15] } 287 = (15, 287 * 2 ^ 14) ∧
  ∀ (s s' : State) (t : TableId) (sym : Nat),
    2 ^ (codeOf (getTable s.tables t) sym).1 ≤ (codeOf (getTable s.tables t) sym).2 → decodeSym t s ≠ .ok sym s'

/-- R160: the resolution map holds exactly the pairs (length, code) of the symbols with a nonzero length. -/
def Obligations.ResolutionMapIsExact : Prop :=
  ∀ (d : DecodeTable) (k c sym : Nat),
    resolve (codeTable d) k c = some sym ↔
      sym < d.lens.length ∧ k ≠ 0 ∧ (d.lens.map BitVec.toNat)[sym]? = some k ∧ (canonicalCodes d.lens)[sym]? = some c

/-! ## The Huffman Symbol Decoder -/

/-- R163, R165, R166: DECODE_SYMBOL, where the stream's next bits are the code of a usable symbol, completes with that symbol in RESULT
and consumes exactly the code's bits; the symbol is returned raw. -/
def Obligations.DecodeSymbolCommandCompletes : Prop :=
  ∀ (s : State) (tsel : BitVec 2) (t : TableId) (sym : Nat) (rest : List Bool), s.status.error = false →
    BufferInv s.reader → InputBounded s →
    ((tsel = 0 ∧ t = .cl) ∨ (tsel = 1 ∧ t = .lit) ∨ (tsel = 2 ∧ t = .dist)) → usable (getTable s.tables t) sym →
    streamBits s = codeBits (getTable s.tables t) sym ++ rest →
    ∃ r, exec (.decodeSymbol tsel) s = .next (withResult (BitVec.ofNat 32 sym) { s with reader := r }) ∧
      readerBits (inputBytes s) r = rest

/-- R164: when no code matches the first MAXLEN bits, INVALID_CODE is raised with the table's number after exactly those bits, before any
further one is read; an empty table raises it with no bit consumed and no byte taken, on an empty stream too. -/
def Obligations.NoMatchingCodeIsInvalidCode : Prop :=
  ∀ (s : State) (t : TableId), BufferInv s.reader → InputBounded s →
    (maxLen (getTable s.tables t) ≤ (streamBits s).length →
      (∀ k, 1 ≤ k → k ≤ maxLen (getTable s.tables t) →
        resolve (codeTable (getTable s.tables t)) k (codeValue ((streamBits s).take k)) = none) →
      ∃ r, decodeSym t s = .raised (withError 3 (tableNumber t) 0 { s with reader := r }) ∧
        readerBits (inputBytes s) r = (streamBits s).drop (maxLen (getTable s.tables t))) ∧
    (maxLen (getTable s.tables t) = 0 → decodeSym t s = .raised (withError 3 (tableNumber t) 0 s))

/-- R144, R221, R222 (2), R254: the input ends inside a code or inside a field. When it ends before MAXLEN bits and none of the bits
there are completes a code, the error is INPUT_EXHAUSTED and every bit has been consumed. When an operation's extra bits are cut off, it
is INPUT_EXHAUSTED too, no bit is consumed, the bytes taken stay buffered, and nothing else happens. When HLIT, HDIST, HCLEN or a CL
length is cut off, by BTYPE2_DYNAMIC, DECODE_HEADER, DECODE_BLOCK or DECODE_STREAM, it is INPUT_EXHAUSTED, and the fields and LEN_CL
entries already read keep the values read. When BFINAL or BTYPE is, a BFINAL that was read stays in HDR. (An error clears the working
state: log entry 4.) -/
def Obligations.InputEndsInsideACodeOrField : Prop :=
  (∀ (s : State) (t : TableId), BufferInv s.reader → InputBounded s →
    (streamBits s).length < maxLen (getTable s.tables t) →
    (∀ k, 1 ≤ k → k ≤ (streamBits s).length →
      resolve (codeTable (getTable s.tables t)) k (codeValue ((streamBits s).take k)) = none) →
    ∃ r, decodeSym t s = .raised (withError 5 0 0 { s with reader := r }) ∧ readerBits (inputBytes s) r = []) ∧
  (∀ (i : Instr) (width : Nat) (s : State), BufferInv s.reader → InputBounded s →
    (i = .clRepeatPrev ∧ width = 2 ∧ 0 < s.work.seqIndex) ∨ (i = .clZeroShort ∧ width = 3) ∨ (i = .clZeroLong ∧ width = 7) ∨
      (∃ c : Fin 29, lengthCodes[c.val]? = some i ∧ width = (lengthRow c).2) ∨
      (∃ c : Fin 30, distanceCodes[c.val]? = some i ∧ width = (distanceRow c).2) →
    (streamBits s).length < width →
    ∃ r, exec i s = .next (withError 5 0 0 { s with reader := r }) ∧ BufferInv r ∧ bufferedBits r = streamBits s) ∧
  (∀ s : State, BufferInv s.reader → InputBounded s → endsInHeaderFields (streamBits s) →
    (∀ bfinal, ∃ t, exec (.btype2Dynamic bfinal) s = .next t ∧ HeaderCut (streamBits s) s t) ∧
    (s.status.error = false →
      ∃ t, exec .decodeHeader s = .next t ∧
        HeaderCut (streamBits s) { s with status := { s.status with done := false } } t)) ∧
  ∀ (i : Instr) (s : State), i = .decodeBlock ∨ i = .decodeStream → s.status.error = false → s.status.streamEnd = false →
    BufferInv s.reader → InputBounded s →
    (∀ (bfinal : Bool) (rest : List Bool), streamBits s = fieldBits 1 bfinal.toNat ++ fieldBits 2 2 ++ rest →
      endsInHeaderFields rest →
      ∃ t, exec i s = .next t ∧ HeaderCut rest { s with
        status := { s.status with done := false },
        hdr := { s.hdr with bfinal := BitVec.ofBool bfinal, btype := 2 } } t) ∧
    ((streamBits s).length < 3 →
      ∃ r, exec i s = .next (withError 5 0 0 { s with
          status := { s.status with done := false }, reader := r,
          hdr := match streamBits s with
            | [] => s.hdr
            | b :: _ => { s.hdr with bfinal := BitVec.ofBool b } }) ∧
        BufferInv r ∧ bufferedBits r = (streamBits s).drop 1)

/-! ## The Dynamic Header Decoder -/

/-- R171, R172, R173, R186: BTYPE2_DYNAMIC reads HLIT, HDIST, HCLEN and HCLEN + 4 CL lengths, stores them in HDR and, by PERM, in LEN_CL
(the others 0), builds T_CL over 19 symbols, clears LEN_LIT and LEN_DIST, and goes on to the code-length sequence. -/
def Obligations.DynamicHeaderFieldsAreRead : Prop :=
  ∀ (s : State) (bfinal : Bool) (b : BlockText) (rest : List Bool), BufferInv s.reader → InputBounded s →
    b.clLens.length = b.hclen.toNat + 4 →
    streamBits s = fieldBits 5 b.hlit.toNat ++ fieldBits 5 b.hdist.toNat ++ fieldBits 4 b.hclen.toNat
      ++ b.clLens.flatMap (fun l => fieldBits 3 l.toNat) ++ rest →
    ∃ (r : Reader) (l : Lens), exec (.btype2Dynamic bfinal) s = .next { s with
        reader := r, lens := l,
        hdr := { s.hdr with hlit := b.hlit, hdist := b.hdist, hclen := b.hclen },
        tables := { s.tables with cl := clTableOf b.clLens },
        work := { s.work with
          phase := .clSym, bfinal := bfinal, seqIndex := 0, nlit := b.hlit.toNat + 257, ndist := b.hdist.toNat + 1 } } ∧
      readerBits (inputBytes s) r = rest ∧
      lenArray l .cl = (clTableOf b.clLens).lens ∧
      l.lit = Vector.replicate 288 0 ∧ l.dist = Vector.replicate 32 0

/-- R175: CL_LEN stores its value at the position, which moves on by 1; it reads nothing. (Where that completes DECODE_HEADER, the
working state is cleared: log entry 4.) -/
def Obligations.LiteralLengthIsStored : Prop :=
  ∀ (s : State) (v : BitVec 4), SequenceBounds s.work →
    ∃ t, exec (.clLen v) s = .next t ∧ StoredRun s s.reader 1 v t

/-- R176: CL_REPEAT_PREV. At position 0 it raises INVALID_SYMBOL(3, 16) before its extra bits are read; past it, 3 + e copies of the
previous length are stored, or INVALID_SYMBOL(4, 16) is raised, nothing stored, when the run would pass the total. (An error, and the
completion of DECODE_HEADER, clear the working state: log entry 4.) -/
def Obligations.RepeatPreviousLength : Prop :=
  (∀ s : State, s.work.seqIndex = 0 → exec .clRepeatPrev s = .next (withError 4 3 16 s)) ∧
  ∀ (s : State) (e : BitVec 2) (rest : List Bool), SequenceBounds s.work → BufferInv s.reader → InputBounded s →
    0 < s.work.seqIndex → streamBits s = fieldBits 2 e.toNat ++ rest →
    ∃ r, readerBits (inputBytes s) r = rest ∧
      (s.work.seqIndex + (3 + e.toNat) ≤ headerTotal s.work →
        ∃ t, exec .clRepeatPrev s = .next t ∧
          StoredRun s r (3 + e.toNat) (seqEntry s.work.nlit s.lens (s.work.seqIndex - 1)) t) ∧
      (headerTotal s.work < s.work.seqIndex + (3 + e.toNat) →
        exec .clRepeatPrev s = .next (withError 4 4 16 { s with reader := r }))

/-- R177, R178: CL_ZERO_SHORT and CL_ZERO_LONG store 3 + e and 11 + e zeros, from position 0 on, or raise INVALID_SYMBOL(4, m), nothing
stored, when the run would pass the total. (An error, and the completion of DECODE_HEADER, clear the working state: log entry 4.) -/
def Obligations.ZeroRunsAreStored : Prop :=
  ∀ (s : State) (rest : List Bool), SequenceBounds s.work → BufferInv s.reader → InputBounded s →
    (∀ e : BitVec 3, streamBits s = fieldBits 3 e.toNat ++ rest →
      ∃ r, readerBits (inputBytes s) r = rest ∧
        (s.work.seqIndex + (3 + e.toNat) ≤ headerTotal s.work →
          ∃ t, exec .clZeroShort s = .next t ∧ StoredRun s r (3 + e.toNat) 0 t) ∧
        (headerTotal s.work < s.work.seqIndex + (3 + e.toNat) →
          exec .clZeroShort s = .next (withError 4 4 17 { s with reader := r }))) ∧
    (∀ e : BitVec 7, streamBits s = fieldBits 7 e.toNat ++ rest →
      ∃ r, readerBits (inputBytes s) r = rest ∧
        (s.work.seqIndex + (11 + e.toNat) ≤ headerTotal s.work →
          ∃ t, exec .clZeroLong s = .next t ∧ StoredRun s r (11 + e.toNat) 0 t) ∧
        (headerTotal s.work < s.work.seqIndex + (11 + e.toNat) →
          exec .clZeroLong s = .next (withError 4 4 18 { s with reader := r })))

/-- R170, R172, R174, R180: DECODE_HEADER on the bits of a header (R89) completes: RESULT is HLIT + 257 + HDIST + 1, HDR has the fields,
LEN_CL, LEN_LIT and LEN_DIST hold the header's lengths and 0 elsewhere, T_CL, T_LIT and T_DIST are its tables, exactly its bits are
consumed, and output, counters, STREAM_END and the block header fields stay. -/
def Obligations.DecodeHeaderReadsAHeader : Prop :=
  ∀ (s : State) (b : BlockText) (rest : List Bool), s.status.error = false → BufferInv s.reader → InputBounded s →
    b.headerValid → streamBits s = b.headerBits ++ rest →
    ∃ (r : Reader) (l : Lens), exec .decodeHeader s =
        .next (withResult (BitVec.ofNat 32 (b.hlit.toNat + 257 + (b.hdist.toNat + 1))) { s with
          reader := r, lens := l,
          hdr := { s.hdr with hlit := b.hlit, hdist := b.hdist, hclen := b.hclen },
          tables := { cl := clTableOf b.clLens, lit := b.litTable, dist := b.distTable } }) ∧
      readerBits (inputBytes s) r = rest ∧ b.LensHeld l

/-! ## Blocks -/

/-- R187: DECODE_BLOCK and DECODE_STREAM on a block header with BTYPE 0, 1 or 3 raise UNSUPPORTED_BLOCK_TYPE(0, BTYPE) before any header
field is read: three bits are consumed, HDR.BFINAL and HDR.BTYPE hold the values read, and nothing else changes. -/
def Obligations.OtherBlockTypesAreUnsupported : Prop :=
  ∀ (i : Instr) (s : State) (bfinal : Bool) (btype : BitVec 2) (rest : List Bool), i = .decodeBlock ∨ i = .decodeStream →
    s.status.error = false → s.status.streamEnd = false → btype ≠ 2 → BufferInv s.reader → InputBounded s →
    streamBits s = fieldBits 1 bfinal.toNat ++ fieldBits 2 btype.toNat ++ rest →
    ∃ r, exec i s = .next (withError 2 0 (btype.setWidth 16) { s with
        status := { s.status with done := false },
        reader := r, hdr := { s.hdr with bfinal := BitVec.ofBool bfinal, btype := btype } }) ∧
      readerBits (inputBytes s) r = rest

/-- R187, R193, R196: the operations whose effect is an error: BTYPE 0, 1 and 3, LIT 286 and 287, DIST 30 and 31. Nothing is read and
nothing is emitted. -/
def Obligations.UnsupportedAndReservedSymbolsRaise : Prop :=
  ∀ s : State,
    (∀ bfinal, exec (.btype0Stored bfinal) s = .next (withError 2 0 0 s) ∧
      exec (.btype1Fixed bfinal) s = .next (withError 2 0 1 s) ∧
      exec (.btype3Reserved bfinal) s = .next (withError 2 0 3 s)) ∧
    (∀ sym, exec (.litReserved sym) s = .next (withError 4 1 (sym.setWidth 16) s)) ∧
    (∀ sym, exec (.distReserved sym) s = .next (withError 4 2 (sym.setWidth 16) s))

/-- R58, R188: LIT emits the byte equal to its symbol: appended to OUT, stored in the window at OUT_COUNT mod W and nowhere else,
OUT_COUNT and HIST_COUNT (saturating at W) each up by 1; nothing else changes but the command's count of emitted bytes. -/
def Obligations.LiteralIsEmitted : Prop :=
  ∀ (s : State) (b : Byte), s.params.Legal → Memory.wf s.params.windowSize s.output.win →
    ∃ o : Output, exec (.lit b) s = .next { s with output := o, work := { s.work with emitted := s.work.emitted + 1 } } ∧
      o.out = s.output.out ++ [b] ∧ o.outCount.toNat = (s.output.outCount.toNat + 1) % 2 ^ 32 ∧
      o.histCount.toNat = min (s.output.histCount.toNat + 1) s.params.windowSize ∧
      ∀ a, Memory.read a o.win =
        if a = s.output.outCount.toNat % s.params.windowSize then some b else Memory.read a s.output.win

/-- R189, R206, R208: EOB raises BLOCK_COUNT by 1 mod 2^32 and sets STREAM_END if the block's BFINAL is 1. DECODE_STREAM goes on to the
next block header after a block with BFINAL = 0; else the command completes with RESULT the bytes it emitted mod 2^32. Nothing is
emitted. (The model's own: one counter holds the emitted of R186 and the total of R208, log entry 20; a completed command's working
state is cleared, log entry 4.) -/
def Obligations.EndOfBlock : Prop :=
  ∀ s : State,
    (s.work.cmd = .stream → s.work.bfinal = false →
      exec .eob s = .next { s with blockCount := s.blockCount + 1, work := { s.work with phase := .blockHdr } }) ∧
    (s.work.cmd ≠ .stream ∨ s.work.bfinal = true →
      exec .eob s = .next { s with
        blockCount := s.blockCount + 1, result := BitVec.ofNat 32 s.work.emitted, work := .idle,
        status := { s.status with done := true, streamEnd := s.status.streamEnd || s.work.bfinal } })

/-- R190, R192, R148: each length code 257 to 285, with its extra bits next in the stream: the length is its base plus the extra bits'
value, and a distance symbol is next. A width of 0 reads nothing. -/
def Obligations.LengthCodesGiveTheirLengths : Prop :=
  ∀ (c : Fin 29) (i : Instr) (s : State) (e : Nat) (rest : List Bool), lengthCodes[c.val]? = some i →
    BufferInv s.reader → InputBounded s → e < 2 ^ (lengthRow c).2 →
    streamBits s = fieldBits (lengthRow c).2 e ++ rest →
    ∃ r, exec i s = .next { s with
        reader := r, work := { s.work with copyLen := (lengthRow c).1 + e, phase := .distSym } } ∧
      readerBits (inputBytes s) r = rest ∧ ((lengthRow c).2 = 0 → r = s.reader)

/-- R195, R197, R198, R200, R201: each distance code 0 to 29, with its extra bits next and the distance within HIST_COUNT: the pending
length is copied from that distance, byte k being the byte k mod dist of the last dist bytes; OUT_COUNT and the command's count rise by
the length; only the window addresses written to change. -/
def Obligations.DistanceCodesCopyTheirMatch : Prop :=
  ∀ (c : Fin 30) (i : Instr) (s : State) (e : Nat) (rest : List Bool), distanceCodes[c.val]? = some i →
    HistoryInv s → BufferInv s.reader → InputBounded s → e < 2 ^ (distanceRow c).2 →
    streamBits s = fieldBits (distanceRow c).2 e ++ rest →
    (distanceRow c).1 + e ≤ s.output.histCount.toNat →
    ∃ (r : Reader) (o : Output), exec i s = .next { s with
        reader := r, output := o,
        work := { s.work with
          emitted := s.work.emitted + s.work.copyLen, copyLen := 0, copyDist := (distanceRow c).1 + e, phase := .litSym } } ∧
      readerBits (inputBytes s) r = rest ∧
      o.out = s.output.out ++ (List.range s.work.copyLen).map (fun k =>
        (s.output.out[s.output.out.length - ((distanceRow c).1 + e) + k % ((distanceRow c).1 + e)]?).getD 0) ∧
      o.outCount.toNat = (s.output.outCount.toNat + s.work.copyLen) % 2 ^ 32 ∧
      o.histCount.toNat = min (s.output.histCount.toNat + s.work.copyLen) s.params.windowSize ∧
      ∀ a, (∀ k, k < s.work.copyLen → a ≠ (s.output.outCount.toNat + k) % s.params.windowSize) →
        Memory.read a o.win = Memory.read a s.output.win

/-- R198: a distance beyond HIST_COUNT raises INVALID_DISTANCE(0, dist) before any byte of the copy is read or emitted; and, HIST_COUNT
counting OUT up to W, a distance of at most 32768 passes exactly when it is at most OUT's length. -/
def Obligations.DistanceBeyondHistoryRaises : Prop :=
  (∀ (c : Fin 30) (i : Instr) (s : State) (e : Nat) (rest : List Bool), distanceCodes[c.val]? = some i →
    BufferInv s.reader → InputBounded s → e < 2 ^ (distanceRow c).2 →
    streamBits s = fieldBits (distanceRow c).2 e ++ rest →
    s.output.histCount.toNat < (distanceRow c).1 + e →
    ∃ r, exec i s = .next (withError 6 0 (BitVec.ofNat 16 ((distanceRow c).1 + e)) { s with reader := r }) ∧
      readerBits (inputBytes s) r = rest) ∧
  ∀ (s : State) (dist : Nat), HistoryInv s → dist ≤ 32768 →
    (dist ≤ s.output.histCount.toNat ↔ dist ≤ s.output.out.length)

/-- R186, R206: DECODE_BLOCK on the bits of a dynamic block (R88, R89) that is valid after the output so far completes: OUT is the
document's append-only output after the block, RESULT the number of bytes appended mod 2^32, BLOCK_COUNT is up by 1, STREAM_END is the
block's BFINAL, HDR, the tables and the code-length arrays are the block's (R172, R174), and exactly its bits are consumed. -/
def Obligations.DecodeBlockReadsABlock : Prop :=
  ∀ (s : State) (b : BlockText) (rest : List Bool), s.status.error = false → s.status.streamEnd = false →
    BufferInv s.reader → InputBounded s → HistoryInv s → b.valid s.output.out → streamBits s = b.bits ++ rest →
    ∃ (r : Reader) (l : Lens) (o : Output), exec .decodeBlock s =
        .next (withResult (BitVec.ofNat 32 (o.out.length - s.output.out.length)) { s with
          reader := r, lens := l, output := o, blockCount := s.blockCount + 1,
          status := { s.status with streamEnd := b.bfinal },
          hdr := { bfinal := BitVec.ofBool b.bfinal, btype := 2, hlit := b.hlit, hdist := b.hdist, hclen := b.hclen },
          tables := { cl := clTableOf b.clLens, lit := b.litTable, dist := b.distTable } }) ∧
      readerBits (inputBytes s) r = rest ∧ o.out = b.outputAfter s.output.out ∧ b.LensHeld l

/-- R208, R209: DECODE_STREAM on the bits of a member's blocks, all dynamic, only the last with BFINAL = 1, completes: OUT is the document's
append-only output after them all, RESULT the number of bytes appended mod 2^32, BLOCK_COUNT is up by their number, STREAM_END = 1, and
exactly their bits are consumed: what follows the last block is not read into the decode (R207). -/
def Obligations.DecodeStreamReadsAMember : Prop :=
  ∀ (s : State) (bs : List BlockText) (rest : List Bool), s.status.error = false → s.status.streamEnd = false →
    BufferInv s.reader → InputBounded s → HistoryInv s → memberValid s.output.out bs →
    streamBits s = bs.flatMap BlockText.bits ++ rest →
    ∃ t, exec .decodeStream s = .next t ∧ runSucceeded t ∧ t.output.out = memberOutput s.output.out bs ∧
      t.result = BitVec.ofNat 32 (t.output.out.length - s.output.out.length) ∧
      t.blockCount = s.blockCount + BitVec.ofNat 32 bs.length ∧ streamBits t = rest

/-- R174, R180, R186, R206, R208: the three stream-decoding commands run symbol by symbol: where the operations that the stream selects
lead from the command's start to an idle state, that state is the command's; and where the header's own fields raise an error, that is
how DECODE_HEADER ends. -/
def Obligations.StreamCommandsRunTheirSymbols : Prop :=
  ∀ s t : State, s.status.error = false → InputBounded s → t.work.phase = .idle →
    (∀ s1, beginHeader { clearDone s with work := { Work.idle with cmd := .header } } = .ok () s1 → SymbolRun s1 t →
      exec .decodeHeader s = .next t) ∧
    (beginHeader { clearDone s with work := { Work.idle with cmd := .header } } = .raised t → exec .decodeHeader s = .next t) ∧
    (s.status.streamEnd = false → SymbolRun (startBlocks .block (clearDone s)) t → exec .decodeBlock s = .next t) ∧
    (s.status.streamEnd = false → SymbolRun (startBlocks .stream (clearDone s)) t → exec .decodeStream s = .next t)

/-! ## Rules of the whole machine -/

/-- R215: the errors each command can raise, by ERRCODE and SUBCAUSE; a command not listed for an error never raises it. -/
def Obligations.ErrorsOfEachCommand : Prop :=
  ∀ (i : Instr) (s t : State), i.isCommand = true → s.status.error = false → exec i s = .next t → t.status.error = true →
    (t.status.errcode.toNat, t.errinfo.subcause.toNat) ∈
      (match i with
        | .readBits _ _ => [(7, 2), (5, 0)]
        | .buildTable _ _ => [(7, 2)]
        | .decodeSymbol _ => [(7, 2), (3, 0), (3, 1), (3, 2), (5, 0)]
        | .decodeHeader => [(5, 0), (3, 0), (4, 3), (4, 4)]
        | .decodeBlock => [(7, 3), (2, 0), (5, 0), (3, 0), (3, 1), (3, 2), (4, 1), (4, 2), (4, 3), (4, 4), (6, 0)]
        | .decodeStream => [(7, 3), (2, 0), (5, 0), (3, 0), (3, 1), (3, 2), (4, 1), (4, 2), (4, 3), (4, 4), (6, 0)]
        | .reservedOp _ => [(7, 1)]
        | _ => [])

/-- R28, R220, R221: a command that raises an error leaves RESULT unchanged and DONE = 0, and what OUT held stays in it. -/
def Obligations.ErrorsLeaveResultAndOutput : Prop :=
  ∀ (i : Instr) (s t : State), i.isCommand = true → s.status.error = false → exec i s = .next t → t.status.error = true →
    t.result = s.result ∧ t.status.done = false ∧ ∃ bytes, t.output.out = s.output.out ++ bytes

/-- R37, R46: no instruction changes TBL_ADDR, INPUT, the parameters or the host's side. -/
def Obligations.NoInstructionChangesInputOrTblAddr : Prop :=
  ∀ (i : Instr) (s t : State), exec i s = .next t →
    t.tblAddr = s.tblAddr ∧ t.input = s.input ∧ t.params = s.params ∧ t.host = s.host

/-- R47, R58, R137: no instruction but RESET_CTX takes a byte back from OUT; OUT_COUNT rises by the bytes emitted mod 2^32; and only the
window addresses those bytes are stored at change. -/
def Obligations.OutputOnlyGrows : Prop :=
  ∀ (i : Instr) (s t : State), i ≠ .resetCtx → s.params.Legal → exec i s = .next t →
    ∃ bytes, t.output.out = s.output.out ++ bytes ∧
      t.output.outCount.toNat = (s.output.outCount.toNat + bytes.length) % 2 ^ 32 ∧
      ∀ a, (∀ k, k < bytes.length → a ≠ (s.output.outCount.toNat + k) % s.params.windowSize) →
        Memory.read a t.output.win = Memory.read a s.output.win

/-- R253, R69, R41, R42: which instructions may change a built table or a code-length array: decoding never sees a length until a Build. -/
def Obligations.TablesChangeOnlyByBuilds : Prop :=
  ∀ (i : Instr) (s t : State), exec i s = .next t →
    ((∀ a b, i ≠ .buildTable a b) → i ≠ .resetCtx → i ≠ .decodeHeader → i ≠ .decodeBlock → i ≠ .decodeStream →
      (∀ b, i ≠ .btype2Dynamic b) → (∀ v, i ≠ .clLen v) → i ≠ .clRepeatPrev → i ≠ .clZeroShort → i ≠ .clZeroLong →
      t.tables = s.tables ∧ t.lens = s.lens) ∧
    (∀ a b, i = .buildTable a b → t.lens = s.lens)

/-- R142, R145, R166, R180, R190, R197, R220: what an instruction that reads the stream may change, however it ends: READ_BITS and
DECODE_SYMBOL; DECODE_HEADER; the length codes; the distance codes; the run meta-symbols. Everything not named in the update stays:
among others the output and the counters, HDR's block header fields, STREAM_END. -/
def Obligations.FramesOfStreamReaders : Prop :=
  (∀ (i : Instr) (s t : State), (∃ n k, i = .readBits n k) ∨ (∃ tsel, i = .decodeSymbol tsel) → exec i s = .next t →
    t = { s with
      reader := t.reader, result := t.result, errinfo := t.errinfo, work := t.work,
      status := { t.status with streamEnd := s.status.streamEnd } }) ∧
  (∀ s t : State, exec .decodeHeader s = .next t →
    t = { s with
      reader := t.reader, result := t.result, errinfo := t.errinfo, work := t.work,
      status := { t.status with streamEnd := s.status.streamEnd }, lens := t.lens, tables := t.tables,
      hdr := { s.hdr with hlit := t.hdr.hlit, hdist := t.hdr.hdist, hclen := t.hdr.hclen } }) ∧
  (∀ (i : Instr) (s t : State), i ∈ lengthCodes → exec i s = .next t →
    t = { s with
      reader := t.reader, errinfo := t.errinfo, work := t.work,
      status := { s.status with error := t.status.error, errcode := t.status.errcode } }) ∧
  (∀ (i : Instr) (s t : State), i ∈ distanceCodes → exec i s = .next t →
    t = { s with
      reader := t.reader, output := t.output, errinfo := t.errinfo, work := t.work,
      status := { s.status with error := t.status.error, errcode := t.status.errcode } }) ∧
  ∀ (i : Instr) (s t : State), i = .clRepeatPrev ∨ i = .clZeroShort ∨ i = .clZeroLong → exec i s = .next t →
    t = { s with
      reader := t.reader, result := t.result, errinfo := t.errinfo, work := t.work,
      status := { t.status with streamEnd := s.status.streamEnd },
      lens := { t.lens with cl := s.lens.cl }, tables := { t.tables with cl := s.tables.cl } }

/-- R20, R130: a command is one atomic transition: after it the sequencer is idle; and a step from an idle state ends in one. -/
def Obligations.CommandsAreAtomic : Prop :=
  (∀ (i : Instr) (s t : State), i.isCommand = true → s.work.phase = .idle → exec i s = .next t → t.work.phase = .idle) ∧
    ∀ s t : State, s.work.phase = .idle → step s = .next t → t.work.phase = .idle

/-- R59, R203: the window is canonical, and for every distance up to HIST_COUNT it holds the byte that the append-only output has there:
every step keeps it. -/
def Obligations.HistoryInvariantIsKept : Prop :=
  ∀ s t : State, HistoryInv s → step s = .next t → HistoryInv t

/-- R24, R27, R36, R220: every step keeps ERROR, ERRCODE, ERRINFO and DONE consistent. -/
def Obligations.StatusInvariantIsKept : Prop :=
  ∀ s t : State, StatusInv s → step s = .next t → StatusInv t

/-- R7, R32, R142, R143, R171, R190: every step keeps all the invariants of the machine. -/
def Obligations.MachineInvariantIsKept : Prop :=
  ∀ s t : State, MachineInv s → step s = .next t → MachineInv t

/-- R49: they hold after hardware reset. -/
def Obligations.MachineInvariantHoldsAtReset : Prop := MachineInv State.reset

/-- R136: every command ends: from a state that meets the invariants, exec answers a next state, whatever the command and its operands. -/
def Obligations.EveryCommandEnds : Prop :=
  ∀ (i : Instr) (s : State), i.isCommand = true → MachineInv s → ∃ t, exec i s = .next t ∧ t.work.phase = .idle

/-- R44, R45, R136: no step from a state that meets the invariants stops with a fault: no window entry is read before it is written, no
symbol is outside its alphabet, no command fails to end. -/
def Obligations.NoStepFaults : Prop :=
  ∀ (s : State) (f : Fault), MachineInv s → step s ≠ .fault f

/-- R8, R44, I1, I2: W is not observable but for HIST_COUNT, which the host reads at 0x40 and which shows min(|OUT|, W) (R40, R45).
Nothing else an instruction leaves depends on W, on the window's unwritten contents, or on what an earlier context left there: two
states that differ only in those and in HIST_COUNT lead to states that differ only in those and in HIST_COUNT, or to the same stop. -/
def Obligations.WindowSizeIsNotObservable : Prop :=
  ∀ (i : Instr) (a b : State), SameButWindow a b → HistoryInv a → HistoryInv b →
    match exec i a, exec i b with
    | .next a', .next b' => SameButWindow a' b'
    | .fault f, .fault g => f = g
    | .refused f, .refused g => f = g
    | _, _ => False
end

