-- ==== Sys2Proof/Laws/State.lean ====
section
/-! SUPPORT. What each named update of the state leaves in each field: one lemma per field, true by rfl. Then the same for the reader's,
the output's and the tables' updates. -/

namespace Sys2Proof.Machine

/-! ## clearDone -/

@[simp] theorem clearDone_status (s : State) : (clearDone s).status = { s.status with done := false } := rfl
@[simp] theorem clearDone_result (s : State) : (clearDone s).result = s.result := rfl
@[simp] theorem clearDone_reader (s : State) : (clearDone s).reader = s.reader := rfl
@[simp] theorem clearDone_output (s : State) : (clearDone s).output = s.output := rfl
@[simp] theorem clearDone_blockCount (s : State) : (clearDone s).blockCount = s.blockCount := rfl
@[simp] theorem clearDone_hdr (s : State) : (clearDone s).hdr = s.hdr := rfl
@[simp] theorem clearDone_errinfo (s : State) : (clearDone s).errinfo = s.errinfo := rfl
@[simp] theorem clearDone_tblAddr (s : State) : (clearDone s).tblAddr = s.tblAddr := rfl
@[simp] theorem clearDone_lens (s : State) : (clearDone s).lens = s.lens := rfl
@[simp] theorem clearDone_tables (s : State) : (clearDone s).tables = s.tables := rfl
@[simp] theorem clearDone_input (s : State) : (clearDone s).input = s.input := rfl
@[simp] theorem clearDone_work (s : State) : (clearDone s).work = s.work := rfl
@[simp] theorem clearDone_host (s : State) : (clearDone s).host = s.host := rfl
@[simp] theorem clearDone_params (s : State) : (clearDone s).params = s.params := rfl

/-! ## complete -/

@[simp] theorem complete_status (s : State) : (complete s).status = { s.status with done := true } := rfl
@[simp] theorem complete_result (s : State) : (complete s).result = s.result := rfl
@[simp] theorem complete_reader (s : State) : (complete s).reader = s.reader := rfl
@[simp] theorem complete_output (s : State) : (complete s).output = s.output := rfl
@[simp] theorem complete_blockCount (s : State) : (complete s).blockCount = s.blockCount := rfl
@[simp] theorem complete_hdr (s : State) : (complete s).hdr = s.hdr := rfl
@[simp] theorem complete_errinfo (s : State) : (complete s).errinfo = s.errinfo := rfl
@[simp] theorem complete_tblAddr (s : State) : (complete s).tblAddr = s.tblAddr := rfl
@[simp] theorem complete_lens (s : State) : (complete s).lens = s.lens := rfl
@[simp] theorem complete_tables (s : State) : (complete s).tables = s.tables := rfl
@[simp] theorem complete_input (s : State) : (complete s).input = s.input := rfl
@[simp] theorem complete_work (s : State) : (complete s).work = .idle := rfl
@[simp] theorem complete_host (s : State) : (complete s).host = s.host := rfl
@[simp] theorem complete_params (s : State) : (complete s).params = s.params := rfl

/-! ## completeWith -/

@[simp] theorem completeWith_status (v : Nat) (s : State) : (completeWith v s).status = { s.status with done := true } := rfl
@[simp] theorem completeWith_result (v : Nat) (s : State) : (completeWith v s).result = BitVec.ofNat 32 v := rfl
@[simp] theorem completeWith_reader (v : Nat) (s : State) : (completeWith v s).reader = s.reader := rfl
@[simp] theorem completeWith_output (v : Nat) (s : State) : (completeWith v s).output = s.output := rfl
@[simp] theorem completeWith_blockCount (v : Nat) (s : State) : (completeWith v s).blockCount = s.blockCount := rfl
@[simp] theorem completeWith_hdr (v : Nat) (s : State) : (completeWith v s).hdr = s.hdr := rfl
@[simp] theorem completeWith_errinfo (v : Nat) (s : State) : (completeWith v s).errinfo = s.errinfo := rfl
@[simp] theorem completeWith_tblAddr (v : Nat) (s : State) : (completeWith v s).tblAddr = s.tblAddr := rfl
@[simp] theorem completeWith_lens (v : Nat) (s : State) : (completeWith v s).lens = s.lens := rfl
@[simp] theorem completeWith_tables (v : Nat) (s : State) : (completeWith v s).tables = s.tables := rfl
@[simp] theorem completeWith_input (v : Nat) (s : State) : (completeWith v s).input = s.input := rfl
@[simp] theorem completeWith_work (v : Nat) (s : State) : (completeWith v s).work = .idle := rfl
@[simp] theorem completeWith_host (v : Nat) (s : State) : (completeWith v s).host = s.host := rfl
@[simp] theorem completeWith_params (v : Nat) (s : State) : (completeWith v s).params = s.params := rfl

/-! ## markStreamEnd -/

@[simp] theorem markStreamEnd_status (s : State) : (markStreamEnd s).status = { s.status with streamEnd := true } := rfl
@[simp] theorem markStreamEnd_result (s : State) : (markStreamEnd s).result = s.result := rfl
@[simp] theorem markStreamEnd_reader (s : State) : (markStreamEnd s).reader = s.reader := rfl
@[simp] theorem markStreamEnd_output (s : State) : (markStreamEnd s).output = s.output := rfl
@[simp] theorem markStreamEnd_blockCount (s : State) : (markStreamEnd s).blockCount = s.blockCount := rfl
@[simp] theorem markStreamEnd_hdr (s : State) : (markStreamEnd s).hdr = s.hdr := rfl
@[simp] theorem markStreamEnd_errinfo (s : State) : (markStreamEnd s).errinfo = s.errinfo := rfl
@[simp] theorem markStreamEnd_tblAddr (s : State) : (markStreamEnd s).tblAddr = s.tblAddr := rfl
@[simp] theorem markStreamEnd_lens (s : State) : (markStreamEnd s).lens = s.lens := rfl
@[simp] theorem markStreamEnd_tables (s : State) : (markStreamEnd s).tables = s.tables := rfl
@[simp] theorem markStreamEnd_input (s : State) : (markStreamEnd s).input = s.input := rfl
@[simp] theorem markStreamEnd_work (s : State) : (markStreamEnd s).work = s.work := rfl
@[simp] theorem markStreamEnd_host (s : State) : (markStreamEnd s).host = s.host := rfl
@[simp] theorem markStreamEnd_params (s : State) : (markStreamEnd s).params = s.params := rfl

/-! ## raise -/

@[simp] theorem raise_status (e : ErrorKind) (c : BitVec 8) (v : BitVec 16) (s : State) : (raise e c v s).status = { s.status with error := true, errcode := errorCode e } := rfl
@[simp] theorem raise_result (e : ErrorKind) (c : BitVec 8) (v : BitVec 16) (s : State) : (raise e c v s).result = s.result := rfl
@[simp] theorem raise_reader (e : ErrorKind) (c : BitVec 8) (v : BitVec 16) (s : State) : (raise e c v s).reader = s.reader := rfl
@[simp] theorem raise_output (e : ErrorKind) (c : BitVec 8) (v : BitVec 16) (s : State) : (raise e c v s).output = s.output := rfl
@[simp] theorem raise_blockCount (e : ErrorKind) (c : BitVec 8) (v : BitVec 16) (s : State) : (raise e c v s).blockCount = s.blockCount := rfl
@[simp] theorem raise_hdr (e : ErrorKind) (c : BitVec 8) (v : BitVec 16) (s : State) : (raise e c v s).hdr = s.hdr := rfl
@[simp] theorem raise_errinfo (e : ErrorKind) (c : BitVec 8) (v : BitVec 16) (s : State) : (raise e c v s).errinfo = { subcause := c, value := v } := rfl
@[simp] theorem raise_tblAddr (e : ErrorKind) (c : BitVec 8) (v : BitVec 16) (s : State) : (raise e c v s).tblAddr = s.tblAddr := rfl
@[simp] theorem raise_lens (e : ErrorKind) (c : BitVec 8) (v : BitVec 16) (s : State) : (raise e c v s).lens = s.lens := rfl
@[simp] theorem raise_tables (e : ErrorKind) (c : BitVec 8) (v : BitVec 16) (s : State) : (raise e c v s).tables = s.tables := rfl
@[simp] theorem raise_input (e : ErrorKind) (c : BitVec 8) (v : BitVec 16) (s : State) : (raise e c v s).input = s.input := rfl
@[simp] theorem raise_work (e : ErrorKind) (c : BitVec 8) (v : BitVec 16) (s : State) : (raise e c v s).work = .idle := rfl
@[simp] theorem raise_host (e : ErrorKind) (c : BitVec 8) (v : BitVec 16) (s : State) : (raise e c v s).host = s.host := rfl
@[simp] theorem raise_params (e : ErrorKind) (c : BitVec 8) (v : BitVec 16) (s : State) : (raise e c v s).params = s.params := rfl

/-! ## newContext -/

@[simp] theorem newContext_status (s : State) : (newContext s).status = .reset := rfl
@[simp] theorem newContext_result (s : State) : (newContext s).result = 0 := rfl
@[simp] theorem newContext_reader (s : State) : (newContext s).reader = .reset := rfl
@[simp] theorem newContext_output (s : State) : (newContext s).output = { Output.reset with win := s.output.win } := rfl
@[simp] theorem newContext_blockCount (s : State) : (newContext s).blockCount = 0 := rfl
@[simp] theorem newContext_hdr (s : State) : (newContext s).hdr = .reset := rfl
@[simp] theorem newContext_errinfo (s : State) : (newContext s).errinfo = .reset := rfl
@[simp] theorem newContext_tblAddr (s : State) : (newContext s).tblAddr = s.tblAddr := rfl
@[simp] theorem newContext_lens (s : State) : (newContext s).lens = .reset := rfl
@[simp] theorem newContext_tables (s : State) : (newContext s).tables = .reset := rfl
@[simp] theorem newContext_input (s : State) : (newContext s).input = s.input := rfl
@[simp] theorem newContext_work (s : State) : (newContext s).work = .idle := rfl
@[simp] theorem newContext_host (s : State) : (newContext s).host = s.host := rfl
@[simp] theorem newContext_params (s : State) : (newContext s).params = s.params := rfl

/-! ## setDecoder -/

@[simp] theorem setDecoder_status (d : Decoder) (r : Reader) (s : State) : (setDecoder d r s).status = s.status := rfl
@[simp] theorem setDecoder_result (d : Decoder) (r : Reader) (s : State) : (setDecoder d r s).result = s.result := rfl
@[simp] theorem setDecoder_reader (d : Decoder) (r : Reader) (s : State) : (setDecoder d r s).reader = r := rfl
@[simp] theorem setDecoder_output (d : Decoder) (r : Reader) (s : State) : (setDecoder d r s).output = s.output := rfl
@[simp] theorem setDecoder_blockCount (d : Decoder) (r : Reader) (s : State) : (setDecoder d r s).blockCount = s.blockCount := rfl
@[simp] theorem setDecoder_hdr (d : Decoder) (r : Reader) (s : State) : (setDecoder d r s).hdr = s.hdr := rfl
@[simp] theorem setDecoder_errinfo (d : Decoder) (r : Reader) (s : State) : (setDecoder d r s).errinfo = s.errinfo := rfl
@[simp] theorem setDecoder_tblAddr (d : Decoder) (r : Reader) (s : State) : (setDecoder d r s).tblAddr = s.tblAddr := rfl
@[simp] theorem setDecoder_lens (d : Decoder) (r : Reader) (s : State) : (setDecoder d r s).lens = s.lens := rfl
@[simp] theorem setDecoder_tables (d : Decoder) (r : Reader) (s : State) : (setDecoder d r s).tables = s.tables := rfl
@[simp] theorem setDecoder_input (d : Decoder) (r : Reader) (s : State) : (setDecoder d r s).input = s.input := rfl
@[simp] theorem setDecoder_work (d : Decoder) (r : Reader) (s : State) : (setDecoder d r s).work = { s.work with dec := d } := rfl
@[simp] theorem setDecoder_host (d : Decoder) (r : Reader) (s : State) : (setDecoder d r s).host = s.host := rfl
@[simp] theorem setDecoder_params (d : Decoder) (r : Reader) (s : State) : (setDecoder d r s).params = s.params := rfl

/-! ## buildTable -/

@[simp] theorem buildTable_status (t : TableId) (n : Nat) (s : State) : (buildTable t n s).status = s.status := rfl
@[simp] theorem buildTable_result (t : TableId) (n : Nat) (s : State) : (buildTable t n s).result = s.result := rfl
@[simp] theorem buildTable_reader (t : TableId) (n : Nat) (s : State) : (buildTable t n s).reader = s.reader := rfl
@[simp] theorem buildTable_output (t : TableId) (n : Nat) (s : State) : (buildTable t n s).output = s.output := rfl
@[simp] theorem buildTable_blockCount (t : TableId) (n : Nat) (s : State) : (buildTable t n s).blockCount = s.blockCount := rfl
@[simp] theorem buildTable_hdr (t : TableId) (n : Nat) (s : State) : (buildTable t n s).hdr = s.hdr := rfl
@[simp] theorem buildTable_errinfo (t : TableId) (n : Nat) (s : State) : (buildTable t n s).errinfo = s.errinfo := rfl
@[simp] theorem buildTable_tblAddr (t : TableId) (n : Nat) (s : State) : (buildTable t n s).tblAddr = s.tblAddr := rfl
@[simp] theorem buildTable_lens (t : TableId) (n : Nat) (s : State) : (buildTable t n s).lens = s.lens := rfl
@[simp] theorem buildTable_tables (t : TableId) (n : Nat) (s : State) : (buildTable t n s).tables = setTable t (snapshot s.lens t n) s.tables := rfl
@[simp] theorem buildTable_input (t : TableId) (n : Nat) (s : State) : (buildTable t n s).input = s.input := rfl
@[simp] theorem buildTable_work (t : TableId) (n : Nat) (s : State) : (buildTable t n s).work = s.work := rfl
@[simp] theorem buildTable_host (t : TableId) (n : Nat) (s : State) : (buildTable t n s).host = s.host := rfl
@[simp] theorem buildTable_params (t : TableId) (n : Nat) (s : State) : (buildTable t n s).params = s.params := rfl

/-! ## enterLengths -/

@[simp] theorem enterLengths_status (hlit hdist : Nat) (s : State) : (enterLengths hlit hdist s).status = s.status := rfl
@[simp] theorem enterLengths_result (hlit hdist : Nat) (s : State) : (enterLengths hlit hdist s).result = s.result := rfl
@[simp] theorem enterLengths_reader (hlit hdist : Nat) (s : State) : (enterLengths hlit hdist s).reader = s.reader := rfl
@[simp] theorem enterLengths_output (hlit hdist : Nat) (s : State) : (enterLengths hlit hdist s).output = s.output := rfl
@[simp] theorem enterLengths_blockCount (hlit hdist : Nat) (s : State) : (enterLengths hlit hdist s).blockCount = s.blockCount := rfl
@[simp] theorem enterLengths_hdr (hlit hdist : Nat) (s : State) : (enterLengths hlit hdist s).hdr = s.hdr := rfl
@[simp] theorem enterLengths_errinfo (hlit hdist : Nat) (s : State) : (enterLengths hlit hdist s).errinfo = s.errinfo := rfl
@[simp] theorem enterLengths_tblAddr (hlit hdist : Nat) (s : State) : (enterLengths hlit hdist s).tblAddr = s.tblAddr := rfl
@[simp] theorem enterLengths_lens (hlit hdist : Nat) (s : State) : (enterLengths hlit hdist s).lens = { s.lens with lit := Vector.replicate 288 0, dist := Vector.replicate 32 0 } := rfl
@[simp] theorem enterLengths_tables (hlit hdist : Nat) (s : State) : (enterLengths hlit hdist s).tables = s.tables := rfl
@[simp] theorem enterLengths_input (hlit hdist : Nat) (s : State) : (enterLengths hlit hdist s).input = s.input := rfl
@[simp] theorem enterLengths_work (hlit hdist : Nat) (s : State) : (enterLengths hlit hdist s).work = { s.work with phase := .clSym, seqIndex := 0, nlit := hlit + 257, ndist := hdist + 1 } := rfl
@[simp] theorem enterLengths_host (hlit hdist : Nat) (s : State) : (enterLengths hlit hdist s).host = s.host := rfl
@[simp] theorem enterLengths_params (hlit hdist : Nat) (s : State) : (enterLengths hlit hdist s).params = s.params := rfl

/-! ## startBlocks -/

@[simp] theorem startBlocks_status (c : Cmd) (s : State) : (startBlocks c s).status = s.status := rfl
@[simp] theorem startBlocks_result (c : Cmd) (s : State) : (startBlocks c s).result = s.result := rfl
@[simp] theorem startBlocks_reader (c : Cmd) (s : State) : (startBlocks c s).reader = s.reader := rfl
@[simp] theorem startBlocks_output (c : Cmd) (s : State) : (startBlocks c s).output = s.output := rfl
@[simp] theorem startBlocks_blockCount (c : Cmd) (s : State) : (startBlocks c s).blockCount = s.blockCount := rfl
@[simp] theorem startBlocks_hdr (c : Cmd) (s : State) : (startBlocks c s).hdr = s.hdr := rfl
@[simp] theorem startBlocks_errinfo (c : Cmd) (s : State) : (startBlocks c s).errinfo = s.errinfo := rfl
@[simp] theorem startBlocks_tblAddr (c : Cmd) (s : State) : (startBlocks c s).tblAddr = s.tblAddr := rfl
@[simp] theorem startBlocks_lens (c : Cmd) (s : State) : (startBlocks c s).lens = s.lens := rfl
@[simp] theorem startBlocks_tables (c : Cmd) (s : State) : (startBlocks c s).tables = s.tables := rfl
@[simp] theorem startBlocks_input (c : Cmd) (s : State) : (startBlocks c s).input = s.input := rfl
@[simp] theorem startBlocks_work (c : Cmd) (s : State) : (startBlocks c s).work = { Work.idle with phase := .blockHdr, cmd := c } := rfl
@[simp] theorem startBlocks_host (c : Cmd) (s : State) : (startBlocks c s).host = s.host := rfl
@[simp] theorem startBlocks_params (c : Cmd) (s : State) : (startBlocks c s).params = s.params := rfl

/-! ## The reader, the output, the tables -/

@[simp] theorem pushByte_inCount (b : Byte) (r : Reader) : (pushByte b r).inCount = r.inCount := rfl
@[simp] theorem pushByte_bitcnt (b : Byte) (r : Reader) : (pushByte b r).bitcnt = r.bitcnt + 8 := rfl
@[simp] theorem dropBits_inCount (n : Nat) (r : Reader) : (dropBits n r).inCount = r.inCount := rfl
@[simp] theorem dropBits_bitbuf (n : Nat) (r : Reader) : (dropBits n r).bitbuf = r.bitbuf >>> n := rfl
@[simp] theorem dropBits_bitcnt (n : Nat) (r : Reader) : (dropBits n r).bitcnt = r.bitcnt - BitVec.ofNat 6 n := rfl

@[simp] theorem emitByte_out (w : Nat) (b : Byte) (o : Output) : (emitByte w b o).out = o.out ++ [b] := rfl
@[simp] theorem emitByte_outCount (w : Nat) (b : Byte) (o : Output) : (emitByte w b o).outCount = o.outCount + 1 := rfl
@[simp] theorem emitByte_histCount (w : Nat) (b : Byte) (o : Output) :
    (emitByte w b o).histCount = BitVec.ofNat 32 (min (o.histCount.toNat + 1) w) := rfl
@[simp] theorem emitByte_win (w : Nat) (b : Byte) (o : Output) :
    (emitByte w b o).win = Memory.write (o.outCount.toNat % w) b o.win := rfl

@[simp] theorem getTable_setTable_same (t : TableId) (d : DecodeTable) (ts : Tables) : getTable (setTable t d ts) t = d := by
  cases t <;> rfl

theorem getTable_setTable_other {t u : TableId} (d : DecodeTable) (ts : Tables) (h : u ≠ t) :
    getTable (setTable t d ts) u = getTable ts u := by
  cases t <;> cases u <;> first | rfl | exact absurd rfl h

@[simp] theorem inputBytes_withReader (s : State) (r : Reader) : inputBytes { s with reader := r } = inputBytes s := rfl
@[simp] theorem inputBytes_withWork (s : State) (w : Work) : inputBytes { s with work := w } = inputBytes s := rfl
@[simp] theorem inputBytes_clearDone (s : State) : inputBytes (clearDone s) = inputBytes s := rfl
@[simp] theorem inputBytes_raise (e : ErrorKind) (c : BitVec 8) (v : BitVec 16) (s : State) :
    inputBytes (raise e c v s) = inputBytes s := rfl

/-! ## Named results of the claims -/

/-- `withError` is what raising an error does. -/
theorem raise_eq_withError (e : ErrorKind) (c : BitVec 8) (v : BitVec 16) (s : State) :
    raise e c v s = withError (errorCode e) c v s := rfl

/-- `withIllegalCommand` is what a command turned down at its acceptance does. -/
theorem raise_clearDone_eq (c : BitVec 8) (op : BitVec 16) (s : State) :
    raise .illegalCommand c op (clearDone s) = withIllegalCommand c op s := rfl

/-- `withResult` is what a command's completion does; a DONE that was cleared before makes no difference. -/
theorem completeWith_eq_withResult (v : Nat) (s : State) : completeWith v s = withResult (BitVec.ofNat 32 v) s := rfl

end Sys2Proof.Machine
end

