-- ==== Sys2Proof/Laws/Units.lean ====
section
/-! SUPPORT. One lemma per shared operation of the units that says how it can answer: the reader, the decoder, the acceptance of a command,
the header's run, the copy. A claim about an instruction cites these and need not unfold the operation. -/

namespace Sys2Proof.Machine

/-! ## Results one after another -/

@[simp] theorem Res.andThen_ok {α β : Type} (a : α) (s : State) (f : α → State → Res β) :
    (Res.ok a s).andThen f = f a s := rfl

@[simp] theorem Res.andThen_raised {α β : Type} (s : State) (f : α → State → Res β) :
    (Res.raised s : Res α).andThen f = .raised s := rfl

@[simp] theorem Res.toOutcome_ok {α : Type} (a : α) (s : State) (f : α → State → StepOutcome) :
    (Res.ok a s).toOutcome f = f a s := rfl

@[simp] theorem Res.toOutcome_raised {α : Type} (s : State) (f : α → State → StepOutcome) :
    (Res.raised s : Res α).toOutcome f = .next s := rfl

/-- A chain that succeeds: both parts did. -/
theorem Res.andThen_eq_ok {α β : Type} {x : Res α} {f : α → State → Res β} {b : β} {t : State} :
    x.andThen f = .ok b t ↔ ∃ a s, x = .ok a s ∧ f a s = .ok b t := by
  cases x <;> simp

/-- A chain that raises: the first part did, or the second did after it. -/
theorem Res.andThen_eq_raised {α β : Type} {x : Res α} {f : α → State → Res β} {t : State} :
    x.andThen f = .raised t ↔ x = .raised t ∨ ∃ a s, x = .ok a s ∧ f a s = .raised t := by
  cases x <;> simp

/-- A primitive as a step that answers a next state: it raised an error there, or it gave a value and the rest answers. -/
theorem Res.toOutcome_eq_next {α : Type} {x : Res α} {f : α → State → StepOutcome} {t : State} :
    x.toOutcome f = .next t ↔ x = .raised t ∨ ∃ a s, x = .ok a s ∧ f a s = .next t := by
  cases x <;> simp

/-! ## The Bit Reader -/

/-- ReadBits gives a value: only the reader has moved. -/
theorem readBits_eq_ok {n v : Nat} {keep : Bool} {s t : State} :
    readBits n keep s = .ok v t ↔
      ∃ r, readerRead (inputBytes s) n keep s.reader = .read v r ∧ t = { s with reader := r } := by
  unfold readBits
  cases readerRead (inputBytes s) n keep s.reader <;> simp [eq_comm]

/-- ReadBits raises: INPUT_EXHAUSTED(0, 0), the reader where the input ran out. -/
theorem readBits_eq_raised {n : Nat} {keep : Bool} {s t : State} :
    readBits n keep s = .raised t ↔
      ∃ r, readerRead (inputBytes s) n keep s.reader = .exhausted r ∧
        t = raise .inputExhausted 0 0 { s with reader := r } := by
  unfold readBits
  cases readerRead (inputBytes s) n keep s.reader <;> simp [eq_comm]

/-- A field of width 0 is 0 and nothing is read. -/
@[simp] theorem readExtra_zero (s : State) : readExtra 0 s = .ok 0 s := rfl

/-- A field of any other width is one read. -/
theorem readExtra_pos {n : Nat} (h : n ≠ 0) (s : State) : readExtra n s = readBits n false s := if_neg h

/-- A read of n bits gives a value below 2^n. -/
theorem peekBits_lt (n : Nat) (r : Reader) : peekBits n r < 2 ^ n := BitVec.isLt _

/-- The value ReadBits gives is below 2^n. -/
theorem readerRead_lt {input : List Byte} {n v : Nat} {keep : Bool} {r r' : Reader}
    (h : readerRead input n keep r = .read v r') : v < 2 ^ n := by
  unfold readerRead at h
  split at h
  · cases h
  · injection h with hv _
    exact hv ▸ peekBits_lt n _

/-- The reader after a successful read: enough bits were there or fetched, and then left or dropped. -/
theorem readerRead_eq_read {input : List Byte} {n v : Nat} {keep : Bool} {r r' : Reader} :
    readerRead input n keep r = .read v r' ↔
      ∃ q, refill input 4 n r = .ok q ∧ v = peekBits n q ∧ r' = if keep then q else dropBits n q := by
  unfold readerRead
  cases refill input 4 n r <;> simp [eq_comm]

/-- With the bits already buffered nothing is fetched. -/
theorem refill_enough {input : List Byte} {fuel n : Nat} {r : Reader} (h : n ≤ r.bitcnt.toNat) :
    refill input fuel n r = .ok r := by
  cases fuel <;> simp [refill, h]

/-! ## The Huffman Symbol Decoder -/

/-- DecodeSym gives a symbol: only the reader and the decoder's ACC and K have moved. -/
theorem decodeSym_eq_ok {t : TableId} {s u : State} {sym : Nat} :
    decodeSym t s = .ok sym u ↔
      ∃ d r, traverse (inputBytes s) (codeTable (getTable s.tables t)) (maxLen (getTable s.tables t))
          { acc := 0, k := 0 } s.reader = .resolved sym d r ∧ u = setDecoder d r s := by
  unfold decodeSym
  cases traverse (inputBytes s) (codeTable (getTable s.tables t)) (maxLen (getTable s.tables t))
    { acc := 0, k := 0 } s.reader <;> simp [eq_comm]

/-- DecodeSym raises: INVALID_CODE with the table's number, or INPUT_EXHAUSTED; only the reader has moved besides. -/
theorem decodeSym_eq_raised {t : TableId} {s u : State} (h : decodeSym t s = .raised u) :
    ∃ r, u = raise .invalidCode (tableNumber t) 0 { s with reader := r } ∨
      u = raise .inputExhausted 0 0 { s with reader := r } := by
  unfold decodeSym at h
  split at h
  · cases h
  · injection h with h
    exact ⟨_, .inl h.symm⟩
  · injection h with h
    exact ⟨_, .inr h.symm⟩

/-- A resolved symbol is the index of an entry of the table. -/
theorem resolve_lt {codes : List (Nat × Nat)} {k c sym : Nat} (h : resolve codes k c = some sym) : sym < codes.length := by
  unfold resolve at h
  split at h
  · cases h
  · exact (List.findIdx?_eq_some_iff_getElem.1 h).1

/-- A resolved symbol's length is K, not 0, and its code is ACC. -/
theorem resolve_spec {codes : List (Nat × Nat)} {k c sym : Nat} (h : resolve codes k c = some sym) :
    k ≠ 0 ∧ codes[sym]? = some (k, c) := by
  unfold resolve at h
  split at h
  · cases h
  · rename_i hk
    obtain ⟨hlt, he, -⟩ := List.findIdx?_eq_some_iff_getElem.1 h
    refine ⟨hk, ?_⟩
    simp only [decide_eq_true_eq] at he
    rw [List.getElem?_eq_getElem hlt]
    exact congrArg some (Prod.ext he.1 he.2)

/-- A traversal that resolves gives an entry of the table. -/
theorem traverse_resolved_lt {input : List Byte} {codes : List (Nat × Nat)} {left sym : Nat} {d d' : Decoder}
    {r r' : Reader} (h : traverse input codes left d r = .resolved sym d' r') : sym < codes.length := by
  induction left generalizing d r with
  | zero => cases h
  | succ left ih =>
    simp only [traverse] at h
    split at h
    · cases h
    · split at h
      · rename_i hres
        injection h with hsym _ _
        exact hsym ▸ resolve_lt hres
      · exact ih h

/-- The code table has one entry for each length of the snapshot. -/
theorem assignCodes_length (next : List Nat) (lens : List (BitVec 4)) : (assignCodes next lens).length = lens.length := by
  induction lens generalizing next with
  | nil => rfl
  | cons l rest ih =>
    simp only [assignCodes]
    split <;> simp [ih]

@[simp] theorem canonicalCodes_length (lens : List (BitVec 4)) : (canonicalCodes lens).length = lens.length :=
  assignCodes_length _ _

@[simp] theorem codeTable_length (d : DecodeTable) : (codeTable d).length = d.lens.length := by
  simp [codeTable]

/-- A decoded symbol is one of the table's. -/
theorem decodeSym_lt {t : TableId} {s u : State} {sym : Nat} (h : decodeSym t s = .ok sym u) :
    sym < (getTable s.tables t).lens.length := by
  obtain ⟨d, r, ht, -⟩ := decodeSym_eq_ok.1 h
  simpa using traverse_resolved_lt ht

/-! ## The acceptance of a command -/

/-- What a command's acceptance can answer: ignored, turned down, or performed with DONE cleared. -/
theorem acceptCommand_cases (op : BitVec 4) (illegal : Option (BitVec 8)) (perform : State → StepOutcome) (s : State) :
    (s.status.error = true ∧ acceptCommand op illegal perform s = .next s) ∨
    (s.status.error = false ∧ ∃ sub, illegal = some sub ∧
      acceptCommand op illegal perform s = .next (withIllegalCommand sub (op.setWidth 16) s)) ∨
    (s.status.error = false ∧ illegal = none ∧ acceptCommand op illegal perform s = perform (clearDone s)) := by
  unfold acceptCommand
  cases he : s.status.error
  · cases illegal
    · exact .inr (.inr ⟨rfl, rfl, rfl⟩)
    · exact .inr (.inl ⟨rfl, _, rfl, rfl⟩)
  · exact .inl ⟨rfl, rfl⟩

/-- While ERROR = 1 the command is ignored. -/
theorem acceptCommand_error {op : BitVec 4} {illegal : Option (BitVec 8)} {perform : State → StepOutcome} {s : State}
    (h : s.status.error = true) : acceptCommand op illegal perform s = .next s := by
  simp [acceptCommand, h]

/-- A legal command in a usable context is performed. -/
theorem acceptCommand_performs {op : BitVec 4} {perform : State → StepOutcome} {s : State} (h : s.status.error = false) :
    acceptCommand op none perform s = perform (clearDone s) := by
  simp [acceptCommand, h]

/-! ## The header's code lengths -/

/-- The run stored, before the sequence's end is tested. -/
def storedRun (r : Nat) (v : BitVec 4) (s : State) : State :=
  { s with
    lens := putRun s.work.nlit r s.work.seqIndex v s.lens,
    work := { s.work with seqIndex := s.work.seqIndex + r } }

/-- A stored run goes on with the sequence, or ends the header. -/
theorem storeLens_cases (r : Nat) (v : BitVec 4) (s : State) :
    (s.work.seqIndex + r < headerTotal s.work ∧ storeLens r v s = storedRun r v s) ∨
    (headerTotal s.work ≤ s.work.seqIndex + r ∧ storeLens r v s = endHeader (storedRun r v s)) := by
  unfold storeLens
  by_cases h : headerTotal s.work ≤ s.work.seqIndex + r
  · exact .inr ⟨h, if_pos h⟩
  · exact .inl ⟨Nat.lt_of_not_le h, if_neg h⟩

/-- A run meta-symbol answers a next state: its extra bits were cut off, or the run would pass the total, or it is stored. -/
theorem lengthRun_cases {m : BitVec 16} {base extra : Nat} {v : BitVec 4} {s t : State}
    (h : lengthRun m base extra v s = .next t) :
    readBits extra false s = .raised t ∨
    ∃ e u, readBits extra false s = .ok e u ∧
      ((headerTotal u.work < u.work.seqIndex + (base + e) ∧ t = raise .invalidSymbol 4 m u) ∨
        (u.work.seqIndex + (base + e) ≤ headerTotal u.work ∧ t = storeLens (base + e) v u)) := by
  unfold lengthRun at h
  rcases Res.toOutcome_eq_next.1 h with h | ⟨e, u, hr, h⟩
  · exact .inl h
  · refine .inr ⟨e, u, hr, ?_⟩
    split at h
    · rename_i hlt
      injection h with h
      exact .inl ⟨hlt, h.symm⟩
    · rename_i hlt
      injection h with h
      exact .inr ⟨Nat.le_of_not_lt hlt, h.symm⟩

/-- A run meta-symbol always answers a next state. -/
theorem lengthRun_next (m : BitVec 16) (base extra : Nat) (v : BitVec 4) (s : State) :
    ∃ t, lengthRun m base extra v s = .next t := by
  unfold lengthRun
  cases readBits extra false s with
  | raised u => exact ⟨u, rfl⟩
  | ok e u =>
    simp only [Res.toOutcome_ok]
    split <;> exact ⟨_, rfl⟩

/-! ## Lengths, distances and the copy -/

/-- A length code answers a next state: its extra bits were cut off, or the length is pending and a distance symbol is next. -/
theorem lengthCode_cases {base extra : Nat} {s t : State} (h : lengthCode base extra s = .next t) :
    readExtra extra s = .raised t ∨
    ∃ e u, readExtra extra s = .ok e u ∧
      t = { u with work := { u.work with copyLen := base + e, phase := .distSym } } := by
  rcases Res.toOutcome_eq_next.1 h with h | ⟨e, u, hr, h⟩
  · exact .inl h
  · injection h with h
    exact .inr ⟨e, u, hr, h.symm⟩

/-- A distance code answers a next state: its extra bits were cut off, or the distance reaches too far, or the match is copied. -/
theorem distanceCode_cases {base extra : Nat} {s t : State} (h : distanceCode base extra s = .next t) :
    readExtra extra s = .raised t ∨
    ∃ e u, readExtra extra s = .ok e u ∧
      ((u.output.histCount.toNat < base + e ∧ t = raise .invalidDistance 0 (BitVec.ofNat 16 (base + e)) u) ∨
        (base + e ≤ u.output.histCount.toNat ∧
          ∃ o, copyBytes u.params.windowSize (base + e) u.work.copyLen u.output = some o ∧
            t = { u with
              output := o,
              work := { u.work with
                emitted := u.work.emitted + u.work.copyLen, copyLen := 0, copyDist := base + e,
                phase := .litSym } })) := by
  rcases Res.toOutcome_eq_next.1 h with h | ⟨e, u, hr, h⟩
  · exact .inl h
  · refine .inr ⟨e, u, hr, ?_⟩
    split at h
    · rename_i hlt
      injection h with h
      exact .inl ⟨hlt, h.symm⟩
    · rename_i hlt
      refine .inr ⟨Nat.le_of_not_lt hlt, ?_⟩
      unfold copyMatch at h
      split at h
      · cases h
      · rename_i o ho
        injection h with h
        exact ⟨o, ho, h.symm⟩

/-- A copy stops only where it would read a window entry that has no value. -/
theorem copyBytes_succ (w dist len : Nat) (o : Output) :
    copyBytes w dist (len + 1) o =
      (Memory.read (windowAddr w dist o) o.win).bind fun b => copyBytes w dist len (emitByte w b o) := by
  simp only [copyBytes]
  cases Memory.read (windowAddr w dist o) o.win <;> rfl

/-- The window address of distance d while OUT_COUNT is at least d: so many bytes behind the next write, around the window. -/
theorem windowAddr_lt {w : Nat} (dist : Nat) (o : Output) (h : 0 < w) : windowAddr w dist o < w := by
  unfold windowAddr
  have h1 := Int.emod_nonneg ((o.outCount.toNat : Int) - dist) (b := (w : Int)) (by omega)
  have h2 := Int.emod_lt_of_pos ((o.outCount.toNat : Int) - dist) (b := (w : Int)) (by omega)
  omega

end Sys2Proof.Machine
end

