-- ==== Sys2Proof/Laws/Step.lean ====
section
/-! SUPPORT. What a step can do, said once: the host's access between commands, a symbol within a command; and the sequencer's loop, one
symbol at a time. -/

namespace Sys2Proof.Machine

/-! ## Instructions by format -/

/-- A command word decodes to a command. -/
theorem decodeCtrl_isCommand (w : Word) : (decodeCtrl w).isCommand = true := by
  unfold decodeCtrl
  split <;> rfl

/-- The length codes are LIT symbols. -/
theorem lengthCodes_format : ∀ i ∈ lengthCodes, i.format = .litSym := by decide

/-- The distance codes are DIST symbols. -/
theorem distanceCodes_format : ∀ i ∈ distanceCodes, i.format = .distSym := by decide

/-- A key of a stream format decodes to an operation of that format, never to a command. -/
theorem decode_format {f : Format} {key : Word} {i : Instr} (h : decode f key = .ok i) : i.format = f := by
  cases f
  · have h : decodeCtrl key = i := by simpa [decode] using h
    rw [← h]
    unfold decodeCtrl
    split <;> rfl
  · simp only [decode, decodeBlockHdr] at h
    split at h <;> cases h <;> rfl
  · simp only [decode, decodeClSym] at h
    split at h
    · cases h; rfl
    · split at h <;> cases h <;> rfl
  · simp only [decode, decodeLitSym] at h
    split at h
    · rw [← Except.ok.inj h]; rfl
    · split at h
      · rw [← Except.ok.inj h]; rfl
      · split at h
        · rename_i j hj
          exact Except.ok.inj h ▸ lengthCodes_format j (List.mem_of_getElem? hj)
        · split at h
          · rw [← Except.ok.inj h]; rfl
          · cases h
  · simp only [decode, decodeDistSym] at h
    split at h
    · rename_i j hj
      exact Except.ok.inj h ▸ distanceCodes_format j (List.mem_of_getElem? hj)
    · split at h
      · rw [← Except.ok.inj h]; rfl
      · cases h

/-- The commands are the instructions of the CTRL format. -/
theorem isCommand_eq (i : Instr) : i.isCommand = decide (i.format = .ctrl) := by
  cases i <;> rfl

/-- exec runs a stream operation as the sequencer does. -/
theorem exec_eq_execStreamOp {i : Instr} (h : i.isCommand = false) (s : State) : exec i s = execStreamOp i s := by
  cases i <;> first | rfl | cases h

/-! ## The symbol fetch -/

/-- The block header's three bits, each field stored as it is read. -/
theorem fetchBlockHdr_eq_ok {key : Nat} {s t : State} (h : fetchBlockHdr s = .ok key t) :
    ∃ bfinal btype u v, readBits 1 false s = .ok bfinal u ∧
      readBits 2 false { u with hdr := { u.hdr with bfinal := BitVec.ofNat 1 bfinal } } = .ok btype v ∧
      key = bfinal + 2 * btype ∧ t = { v with hdr := { v.hdr with btype := BitVec.ofNat 2 btype } } := by
  unfold fetchBlockHdr at h
  obtain ⟨bfinal, u, h1, h⟩ := Res.andThen_eq_ok.1 h
  obtain ⟨btype, v, h2, h⟩ := Res.andThen_eq_ok.1 h
  injection h with hk ht
  exact ⟨bfinal, btype, u, v, h1, h2, hk.symm, ht.symm⟩

/-- What the fetch of a decoded key gives. -/
theorem fetchedKey_cases (f : Format) (x : Res Nat) :
    (∃ s, x = .raised s ∧ fetchedKey f x = .settled s) ∨
    (∃ key s i, x = .ok key s ∧ decode f (BitVec.ofNat 32 key) = .ok i ∧ fetchedKey f x = .run i s) ∨
    (∃ key s e, x = .ok key s ∧ decode f (BitVec.ofNat 32 key) = .error e ∧
      fetchedKey f x = .fault .symbolOutsideAlphabet) := by
  cases x with
  | raised s => exact .inl ⟨s, rfl, rfl⟩
  | ok key s =>
    cases h : decode f (BitVec.ofNat 32 key) with
    | ok i => exact .inr (.inl ⟨key, s, i, rfl, h, by simp [fetchedKey, h]⟩)
    | error e => exact .inr (.inr ⟨key, s, e, rfl, h, by simp [fetchedKey, h]⟩)

/-- A fetched symbol is of the phase's format and is no command. -/
theorem fetchSymbol_run_not_command {s t : State} {i : Instr} (h : fetchSymbol s = .run i t) : i.isCommand = false := by
  have key : ∀ (f : Format) (x : Res Nat), f ≠ .ctrl → fetchedKey f x = .run i t → i.isCommand = false := by
    intro f x hf hx
    rcases fetchedKey_cases f x with ⟨u, -, he⟩ | ⟨k, u, j, -, hd, he⟩ | ⟨k, u, e, -, -, he⟩
    · rw [he] at hx; cases hx
    · rw [he] at hx
      injection hx with hi _
      rw [isCommand_eq, ← hi, decode_format hd]
      exact decide_eq_false hf
    · rw [he] at hx; cases hx
  unfold fetchSymbol at h
  split at h
  · cases h
  all_goals exact key _ _ (by decide) h

/-! ## The sequencer -/

/-- One pass of the sequencer's loop. -/
theorem runSequencer_succ (fuel : Nat) (s : State) :
    runSequencer (fuel + 1) s =
      match fetchSymbol s with
      | .settled t => .next t
      | .fault f => .fault f
      | .refused r => .refused r
      | .run i t =>
        match execStreamOp i t with
        | .next u => if u.work.phase = .idle then .next u else runSequencer fuel u
        | .fault f => .fault f
        | .refused r => .refused r := rfl

/-- The sequencer ends only in an idle state or in the state of an error in a symbol's decoding. -/
theorem runSequencer_induction {P : State → Prop} {Q : State → Prop}
    (onFetch : ∀ s t, P s → fetchSymbol s = .settled t → Q t)
    (onEnd : ∀ s i t u, P s → fetchSymbol s = .run i t → execStreamOp i t = .next u → u.work.phase = .idle → Q u)
    (goesOn : ∀ s i t u, P s → fetchSymbol s = .run i t → execStreamOp i t = .next u → u.work.phase ≠ .idle → P u)
    {fuel : Nat} {s t : State} (hs : P s) (h : runSequencer fuel s = .next t) : Q t := by
  induction fuel generalizing s with
  | zero => cases h
  | succ fuel ih =>
    rw [runSequencer_succ] at h
    split at h
    · rename_i hf
      injection h with h
      exact h ▸ onFetch _ _ hs hf
    · cases h
    · cases h
    · rename_i hf
      split at h
      · rename_i hx
        split at h
        · rename_i hi
          injection h with h
          exact h ▸ onEnd _ _ _ _ hs hf hx hi
        · rename_i hi
          exact ih (goesOn _ _ _ _ hs hf hx hi) h
      · cases h
      · cases h

/-! ## One step -/

/-- Between commands with nothing pending the machine holds its state. -/
theorem step_nothing_pending {s : State} (hp : s.work.phase = .idle) (h : s.host.pending = []) : step s = .next s := by
  simp [step, fetchNext, hp, fetchHost, h]

/-- Between commands the step is the host's oldest access. -/
theorem step_host {s : State} {a : HostAccess} {rest : List HostAccess} (hp : s.work.phase = .idle)
    (h : s.host.pending = a :: rest) :
    step s = match hostMove a { s with host := { s.host with pending := rest } } with
      | .run i t => exec i t
      | .settled t => .next t
      | .fault f => .fault f
      | .refused r => .refused r := by
  have next : fetchNext s = hostMove a { s with host := { s.host with pending := rest } } := by
    simp [fetchNext, hp, fetchHost, h]
  rw [← next]
  rfl

/-- Within a command the step is one symbol's. -/
theorem step_symbol {s : State} (hp : s.work.phase ≠ .idle) :
    step s = match fetchSymbol s with
      | .run i t => exec i t
      | .settled t => .next t
      | .fault f => .fault f
      | .refused r => .refused r := by
  have next : fetchNext s = fetchSymbol s := by simp [fetchNext, hp]
  rw [← next]
  rfl

/-- Everything a step that answers a next state can have done. -/
theorem step_cases {s t : State} (h : step s = .next t) :
    (s.work.phase = .idle ∧ s.host.pending = [] ∧ t = s) ∨
    (∃ a rest, s.work.phase = .idle ∧ s.host.pending = a :: rest ∧
      hostMove a { s with host := { s.host with pending := rest } } = .settled t) ∨
    (∃ a rest i u, s.work.phase = .idle ∧ s.host.pending = a :: rest ∧
      hostMove a { s with host := { s.host with pending := rest } } = .run i u ∧ exec i u = .next t) ∨
    (s.work.phase ≠ .idle ∧ fetchSymbol s = .settled t) ∨
    (∃ i u, s.work.phase ≠ .idle ∧ fetchSymbol s = .run i u ∧ exec i u = .next t) := by
  by_cases hp : s.work.phase = .idle
  · cases hq : s.host.pending with
    | nil =>
      rw [step_nothing_pending hp hq] at h
      injection h with h
      exact .inl ⟨hp, rfl, h.symm⟩
    | cons a rest =>
      rw [step_host hp hq] at h
      split at h
      · rename_i hm
        exact .inr (.inr (.inl ⟨a, rest, _, _, hp, rfl, hm, h⟩))
      · rename_i hm
        injection h with h
        exact .inr (.inl ⟨a, rest, hp, rfl, h ▸ hm⟩)
      · cases h
      · cases h
  · rw [step_symbol hp] at h
    split at h
    · rename_i hm
      exact .inr (.inr (.inr (.inr ⟨_, _, hp, hm, h⟩)))
    · rename_i hm
      injection h with h
      exact .inr (.inr (.inr (.inl ⟨hp, h ▸ hm⟩)))
    · cases h
    · cases h

/-- The offset of the register an access reaches, and the conditions of R62. -/
theorem reachedOffset_eq_some {p : Params} {width address offset : Nat} :
    reachedOffset p width address = some offset ↔
      address = p.regBase + offset ∧ width = 32 ∧ offset % 4 = 0 ∧ offset ≤ 0x40 := by
  unfold reachedOffset
  split
  · rename_i h
    simp only [Option.some.injEq]
    omega
  · rename_i h
    simp only [reduceCtorEq, false_iff]
    rintro ⟨rfl, hw, hm, hl⟩
    simp [hw, hm, hl] at h

/-- An access below the register block reaches no register. -/
theorem reachedOffset_below {p : Params} {width address : Nat} (h : address < p.regBase) :
    reachedOffset p width address = none := by
  unfold reachedOffset
  exact if_neg fun c => by omega

/-- Only a write to CTRL, at REG_BASE, runs an instruction, and it is the command its word decodes to. -/
theorem hostMove_run {a : HostAccess} {s u : State} {i : Instr} (h : hostMove a s = .run i u) :
    ∃ w, a = .write 32 s.params.regBase w ∧ i = decodeCtrl w ∧ i.isCommand = true ∧
      ¬(s.host.duty = .replaced ∧ callsInByte i s = true) ∧
      u = { s with host := { s.host with duty := dutyAfterCommand i s.host.duty } } := by
  cases a with
  | write width address v =>
    simp only [hostMove] at h
    split at h
    · cases h
    · rename_i offset ho
      split at h
      · rename_i h0
        obtain ⟨rfl, rfl, -, -⟩ := reachedOffset_eq_some.1 ho
        subst h0
        simp only [fetchCommand] at h
        split at h
        · cases h
        · rename_i hd
          injection h with hi hu
          subst hi
          exact ⟨v, rfl, rfl, decodeCtrl_isCommand v, hd, hu.symm⟩
      · cases h
  | read width address => cases h
  | attach bytes =>
    simp only [hostMove, attachInput] at h
    split at h <;> cases h
  | hardwareReset => cases h

end Sys2Proof.Machine
end

