-- ==== Sys2Proof/Laws/Input.lean ====
section
/-! SUPPORT. What callsInByte says (Machine/HostPort.lean): a command that answers a next state with no byte to be had, and not by INPUT_EXHAUSTED,
does the same whatever INPUT is (while ERROR = 1 it is ignored, spec/40_control.md R131). Each operation with no INPUT is compared with itself
on any INPUT: it has stopped at its first InByte, or the two agree. -/

namespace Sys2Proof.Machine

/-- The same state with another INPUT. -/
def withInput (input : Option (List Byte)) (s : State) : State := { s with input := input }

/-- The command ended at an InByte that had no byte to give. -/
abbrev StoppedAtInByte (t : State) : Prop :=
  t.status.error = true ∧ t.status.errcode = errorCode .inputExhausted ∧ t.work.phase = .idle

/-- `y` is `x` with `input` for INPUT, and `x` has none. -/
abbrev SameButInput (input : Option (List Byte)) (x y : State) : Prop := x.input = none ∧ y = withInput input x

/-- A primitive run without INPUT beside the same one run with `input`. -/
def AgreesOn {α : Type} (input : Option (List Byte)) (without withIt : Res α) : Prop :=
  match without with
  | .ok a t => ∃ u, SameButInput input t u ∧ withIt = .ok a u
  | .raised t => StoppedAtInByte t ∨ ∃ u, SameButInput input t u ∧ withIt = .raised u

/-- An operation run without INPUT beside the same one run with `input`. -/
def OutcomeAgreesOn (input : Option (List Byte)) (without withIt : StepOutcome) : Prop :=
  ∀ t, without = .next t → StoppedAtInByte t ∨ ∃ u, SameButInput input t u ∧ withIt = .next u

section
variable {input : Option (List Byte)} {x y : State}

/-! ## Composition -/

theorem AgreesOn.ok {α : Type} {a : α} (h : SameButInput input x y) : AgreesOn input (.ok a x) (.ok a y) := ⟨y, h, rfl⟩

theorem AgreesOn.raised {α : Type} (h : SameButInput input x y) : AgreesOn (α := α) input (.raised x) (.raised y) :=
  .inr ⟨y, h, rfl⟩

theorem OutcomeAgreesOn.next (h : SameButInput input x y) : OutcomeAgreesOn input (.next x) (.next y) := by
  rintro t ⟨⟩
  exact .inr ⟨y, h, rfl⟩

theorem AgreesOn.andThen {α β : Type} {p q : Res α} {f g : α → State → Res β} (h : AgreesOn input p q)
    (hf : ∀ a t u, SameButInput input t u → AgreesOn input (f a t) (g a u)) :
    AgreesOn input (p.andThen f) (q.andThen g) := by
  cases p with
  | ok a t =>
    obtain ⟨u, hu, rfl⟩ := h
    exact hf a t u hu
  | raised t =>
    rcases h with h | ⟨u, hu, rfl⟩
    · exact .inl h
    · exact .raised hu

theorem AgreesOn.toOutcome {α : Type} {p q : Res α} {f g : α → State → StepOutcome} (h : AgreesOn input p q)
    (hf : ∀ a t u, SameButInput input t u → OutcomeAgreesOn input (f a t) (g a u)) :
    OutcomeAgreesOn input (p.toOutcome f) (q.toOutcome g) := by
  cases p with
  | ok a t =>
    obtain ⟨u, hu, rfl⟩ := h
    exact hf a t u hu
  | raised t =>
    rcases h with h | ⟨u, hu, rfl⟩
    · rintro v ⟨⟩
      exact .inl h
    · exact .next hu

/-! ## The Bit Reader and the symbol decoder -/

/-- With no byte to be had, the refill loop succeeds only where it takes none. -/
theorem refill_nil {fuel n : Nat} {r r' : Reader} (bytes : List Byte) (h : refill [] fuel n r = .ok r') :
    refill bytes fuel n r = .ok r' := by
  cases fuel with
  | zero => exact h
  | succ fuel =>
    unfold refill at h ⊢
    split
    · rename_i hn
      rwa [if_pos hn] at h
    · rename_i hn
      rw [if_neg hn] at h
      simp [inByte] at h

theorem readerRead_nil {n v : Nat} {keep : Bool} {r r' : Reader} (bytes : List Byte)
    (h : readerRead [] n keep r = .read v r') : readerRead bytes n keep r = .read v r' := by
  unfold readerRead at h ⊢
  cases hr : refill [] 4 n r with
  | error u => simp [hr] at h
  | ok u =>
    rw [refill_nil bytes hr]
    simpa [hr] using h

theorem readBits_agrees (n : Nat) (keep : Bool) (h : SameButInput input x y) :
    AgreesOn input (readBits n keep x) (readBits n keep y) := by
  obtain ⟨hx, rfl⟩ := h
  have hs : inputBytes x = [] := by simp [inputBytes, hx]
  unfold readBits
  rw [hs]
  cases hr : readerRead [] n keep x.reader with
  | read v r =>
    rw [show readerRead (inputBytes (withInput input x)) n keep (withInput input x).reader = .read v r from
      readerRead_nil _ hr]
    exact .ok ⟨hx, rfl⟩
  | exhausted r => exact .inl ⟨rfl, rfl, rfl⟩

theorem readExtra_agrees (n : Nat) (h : SameButInput input x y) :
    AgreesOn input (readExtra n x) (readExtra n y) := by
  unfold readExtra
  split
  · exact .ok h
  · exact readBits_agrees n false h

/-- A traversal that is not cut off with no byte to be had is the same on any bytes. -/
theorem traverse_nil (bytes : List Byte) (codes : List (Nat × Nat)) :
    ∀ (left : Nat) (d : Decoder) (r : Reader),
      (∃ d' r', traverse [] codes left d r = .exhausted d' r') ∨ traverse bytes codes left d r = traverse [] codes left d r := by
  intro left
  induction left with
  | zero => exact fun d r => .inr rfl
  | succ left ih =>
    intro d r
    cases hr : readerRead [] 1 false r with
    | exhausted r' => exact .inl ⟨d, r', by simp [traverse, hr]⟩
    | read b r' =>
      simp only [traverse, hr, readerRead_nil bytes hr]
      cases resolve codes (pushBit b d).k.toNat (pushBit b d).acc.toNat with
      | some sym => exact .inr rfl
      | none => exact ih (pushBit b d) r'

theorem decodeSym_agrees (t : TableId) (h : SameButInput input x y) :
    AgreesOn input (decodeSym t x) (decodeSym t y) := by
  obtain ⟨hx, rfl⟩ := h
  have hs : inputBytes x = [] := by simp [inputBytes, hx]
  unfold decodeSym
  rw [hs]
  rcases traverse_nil (inputBytes (withInput input x)) (codeTable (getTable x.tables t)) (maxLen (getTable x.tables t))
    { acc := 0, k := 0 } x.reader with ⟨d, r, he⟩ | he
  · rw [he]
    exact .inl ⟨rfl, rfl, rfl⟩
  · rw [show traverse (inputBytes (withInput input x)) (codeTable (getTable (withInput input x).tables t))
        (maxLen (getTable (withInput input x).tables t)) { acc := 0, k := 0 } (withInput input x).reader = _ from he]
    cases traverse [] (codeTable (getTable x.tables t)) (maxLen (getTable x.tables t)) { acc := 0, k := 0 } x.reader with
    | resolved sym d r => exact .ok ⟨hx, rfl⟩
    | invalid d r => exact .raised ⟨hx, rfl⟩
    | exhausted d r => exact .inl ⟨rfl, rfl, rfl⟩

/-! ## The header, the length codes, the distance codes -/

theorem readClLens_agrees (syms : List Nat) (h : SameButInput input x y) :
    AgreesOn input (readClLens syms x) (readClLens syms y) := by
  induction syms generalizing x y with
  | nil => exact .ok h
  | cons sym rest ih =>
    refine (readBits_agrees 3 false h).andThen ?_
    rintro v t _ ⟨ht, rfl⟩
    exact ih ⟨ht, rfl⟩

theorem beginHeader_agrees (h : SameButInput input x y) : AgreesOn input (beginHeader x) (beginHeader y) := by
  refine (readBits_agrees 5 false h).andThen ?_
  rintro hlit t _ ⟨ht, rfl⟩
  refine (readBits_agrees 5 false (by exact ⟨ht, rfl⟩)).andThen ?_
  rintro hdist t _ ⟨ht, rfl⟩
  refine (readBits_agrees 4 false (by exact ⟨ht, rfl⟩)).andThen ?_
  rintro hclen t _ ⟨ht, rfl⟩
  refine (readClLens_agrees _ (by exact ⟨ht, rfl⟩)).andThen ?_
  rintro _ t _ ⟨ht, rfl⟩
  exact .ok ⟨ht, rfl⟩

theorem endHeader_agrees (h : SameButInput input x y) : SameButInput input (endHeader x) (endHeader y) := by
  obtain ⟨hx, rfl⟩ := h
  have key : (withInput input x).work.cmd = x.work.cmd := rfl
  unfold endHeader
  rw [key]
  cases x.work.cmd <;> exact ⟨hx, rfl⟩

theorem storeLens_agrees (r : Nat) (v : BitVec 4) (h : SameButInput input x y) :
    SameButInput input (storeLens r v x) (storeLens r v y) := by
  obtain ⟨hx, rfl⟩ := h
  by_cases c : headerTotal x.work ≤ x.work.seqIndex + r
  · rw [show storeLens r v x = endHeader _ from if_pos c, show storeLens r v (withInput input x) = endHeader _ from if_pos c]
    exact endHeader_agrees ⟨hx, rfl⟩
  · rw [show storeLens r v x = _ from if_neg c, show storeLens r v (withInput input x) = _ from if_neg c]
    exact ⟨hx, rfl⟩

theorem lengthRun_agrees (m : BitVec 16) (base extra : Nat) (v : BitVec 4) (h : SameButInput input x y) :
    OutcomeAgreesOn input (lengthRun m base extra v x) (lengthRun m base extra v y) := by
  refine (readBits_agrees extra false h).toOutcome ?_
  rintro e t _ ⟨ht, rfl⟩
  have key : (withInput input t).work = t.work := rfl
  rw [key]
  split
  · exact .next ⟨ht, rfl⟩
  · exact .next (storeLens_agrees _ _ ⟨ht, rfl⟩)

theorem lengthCode_agrees (base extra : Nat) (h : SameButInput input x y) :
    OutcomeAgreesOn input (lengthCode base extra x) (lengthCode base extra y) := by
  refine (readExtra_agrees extra h).toOutcome ?_
  rintro e t _ ⟨ht, rfl⟩
  exact .next ⟨ht, rfl⟩

theorem distanceCode_agrees (base extra : Nat) (h : SameButInput input x y) :
    OutcomeAgreesOn input (distanceCode base extra x) (distanceCode base extra y) := by
  refine (readExtra_agrees extra h).toOutcome ?_
  rintro e t _ ⟨ht, rfl⟩
  have key : (withInput input t).output = t.output := rfl
  rw [key]
  split
  · exact .next ⟨ht, rfl⟩
  · simp only [copyMatch]
    rw [show copyBytes (withInput input t).params.windowSize (base + e) (withInput input t).work.copyLen
      (withInput input t).output = copyBytes t.params.windowSize (base + e) t.work.copyLen t.output from rfl]
    cases copyBytes t.params.windowSize (base + e) t.work.copyLen t.output with
    | none => exact fun u hu => nomatch hu
    | some o => exact .next ⟨ht, rfl⟩

/-! ## The sequencer -/

theorem execEob_agrees (h : SameButInput input x y) : OutcomeAgreesOn input (execEob x) (execEob y) := by
  obtain ⟨hx, rfl⟩ := h
  have key : (withInput input x).work = x.work := rfl
  unfold execEob
  rw [key]
  split <;> split <;> exact .next ⟨hx, rfl⟩

theorem execClRepeatPrev_agrees (h : SameButInput input x y) :
    OutcomeAgreesOn input (execClRepeatPrev x) (execClRepeatPrev y) := by
  obtain ⟨hx, rfl⟩ := h
  have key : (withInput input x).work = x.work := rfl
  unfold execClRepeatPrev
  rw [key]
  split
  · exact .next ⟨hx, rfl⟩
  · exact lengthRun_agrees 16 3 2 _ ⟨hx, rfl⟩

theorem execBtype2Dynamic_agrees (bfinal : Bool) (h : SameButInput input x y) :
    OutcomeAgreesOn input (execBtype2Dynamic bfinal x) (execBtype2Dynamic bfinal y) := by
  obtain ⟨hx, rfl⟩ := h
  exact (beginHeader_agrees (by exact ⟨hx, rfl⟩)).toOutcome fun _ _ _ h => .next h

theorem execStreamOp_agrees (i : Instr) (h : SameButInput input x y) :
    OutcomeAgreesOn input (execStreamOp i x) (execStreamOp i y) := by
  cases i
  case btype2Dynamic bfinal => exact execBtype2Dynamic_agrees bfinal h
  case clLen v => exact .next (storeLens_agrees 1 v h)
  case clRepeatPrev => exact execClRepeatPrev_agrees h
  case clZeroShort => exact lengthRun_agrees 17 3 3 0 h
  case clZeroLong => exact lengthRun_agrees 18 11 7 0 h
  case eob => exact execEob_agrees h
  case btype0Stored | btype1Fixed | btype3Reserved | litReserved | distReserved | lit =>
    obtain ⟨hx, rfl⟩ := h
    exact .next ⟨hx, rfl⟩
  case nop | resetCtx | readBits | buildTable | decodeSymbol | decodeHeader | decodeBlock | decodeStream | reservedOp =>
    exact fun u hu => nomatch hu
  all_goals
    simp only [execStreamOp, execLen257, execLen258, execLen259, execLen260, execLen261, execLen262, execLen263, execLen264,
      execLen265, execLen266, execLen267, execLen268, execLen269, execLen270, execLen271, execLen272, execLen273, execLen274,
      execLen275, execLen276, execLen277, execLen278, execLen279, execLen280, execLen281, execLen282, execLen283, execLen284,
      execLen285, execDist0, execDist1, execDist2, execDist3, execDist4, execDist5, execDist6, execDist7, execDist8, execDist9,
      execDist10, execDist11, execDist12, execDist13, execDist14, execDist15, execDist16, execDist17, execDist18, execDist19,
      execDist20, execDist21, execDist22, execDist23, execDist24, execDist25, execDist26, execDist27, execDist28, execDist29]
    first
      | exact lengthCode_agrees _ _ h
      | exact distanceCode_agrees _ _ h

/-- A symbol's fetch with no INPUT and with one: the same symbol, the same error, a stop at the first InByte, or no symbol of the alphabet. -/
abbrev FetchAgreesOn (input : Option (List Byte)) (without withIt : Fetched) : Prop :=
  (∃ i t u, without = .run i t ∧ SameButInput input t u ∧ withIt = .run i u) ∨
  (∃ t, without = .settled t ∧ (StoppedAtInByte t ∨ ∃ u, SameButInput input t u ∧ withIt = .settled u)) ∨
  ∃ e, without = .fault e

theorem fetchedKey_agrees (f : Format) {p q : Res Nat} (h : AgreesOn input p q) :
    FetchAgreesOn input (fetchedKey f p) (fetchedKey f q) := by
  cases p with
  | raised t =>
    rcases h with h | ⟨u, hu, rfl⟩
    · exact .inr (.inl ⟨t, rfl, .inl h⟩)
    · exact .inr (.inl ⟨t, rfl, .inr ⟨u, hu, rfl⟩⟩)
  | ok key t =>
    obtain ⟨u, hu, rfl⟩ := h
    cases hd : decode f (BitVec.ofNat 32 key) with
    | ok i => exact .inl ⟨i, t, u, by simp [fetchedKey, hd], hu, by simp [fetchedKey, hd]⟩
    | error e => exact .inr (.inr ⟨.symbolOutsideAlphabet, by simp [fetchedKey, hd]⟩)

theorem fetchBlockHdr_agrees (h : SameButInput input x y) : AgreesOn input (fetchBlockHdr x) (fetchBlockHdr y) := by
  refine (readBits_agrees 1 false h).andThen ?_
  rintro bfinal t _ ⟨ht, rfl⟩
  refine (readBits_agrees 2 false (by exact ⟨ht, rfl⟩)).andThen ?_
  rintro btype t _ ⟨ht, rfl⟩
  exact .ok ⟨ht, rfl⟩

theorem fetchSymbol_agrees (h : SameButInput input x y) : FetchAgreesOn input (fetchSymbol x) (fetchSymbol y) := by
  have key : y.work.phase = x.work.phase := by rw [h.2]; rfl
  unfold fetchSymbol
  rw [key]
  cases x.work.phase with
  | idle => exact .inr (.inl ⟨x, rfl, .inr ⟨y, h, rfl⟩⟩)
  | blockHdr => exact fetchedKey_agrees .blockHdr (fetchBlockHdr_agrees h)
  | clSym => exact fetchedKey_agrees .clSym (decodeSym_agrees .cl h)
  | litSym => exact fetchedKey_agrees .litSym (decodeSym_agrees .lit h)
  | distSym => exact fetchedKey_agrees .distSym (decodeSym_agrees .dist h)

/-- A budget that is enough without INPUT is enough with any. -/
theorem runSequencer_agrees {m n : Nat} (hmn : m ≤ n) (h : SameButInput input x y) :
    OutcomeAgreesOn input (runSequencer m x) (runSequencer n y) := by
  induction m generalizing n x y with
  | zero => exact fun t ht => nomatch ht
  | succ m ih =>
    obtain ⟨k, rfl⟩ : ∃ k, n = k + 1 := ⟨n - 1, by omega⟩
    intro v hv
    rw [runSequencer_succ] at hv ⊢
    rcases fetchSymbol_agrees h with ⟨i, t, u, h0, hu, h1⟩ | ⟨t, h0, h1⟩ | ⟨e, h0⟩
    · rw [h0] at hv
      rw [h1]
      cases hx : execStreamOp i t with
      | fault e => simp [hx] at hv
      | refused e => simp [hx] at hv
      | next t' =>
        simp only [hx] at hv
        rcases execStreamOp_agrees i hu t' hx with hc | ⟨u', hu', hy⟩
        · rw [if_pos hc.2.2] at hv
          injection hv with hv
          exact .inl (hv ▸ hc)
        · have key : u'.work.phase = t'.work.phase := by rw [hu'.2]; rfl
          simp only [hy, key]
          split at hv
          · rename_i hp
            rw [if_pos hp]
            injection hv with hv
            exact .inr ⟨u', hv ▸ hu', rfl⟩
          · rename_i hp
            rw [if_neg hp]
            exact ih (by omega) hu' v hv
    · rw [h0] at hv
      injection hv with hv
      subst hv
      rcases h1 with hc | ⟨u, hu, h1⟩
      · exact .inl hc
      · rw [h1]
        exact .inr ⟨u, hu, rfl⟩
    · rw [h0] at hv
      cases hv

theorem runCommand_agrees (h : SameButInput input x y) : OutcomeAgreesOn input (runCommand x) (runCommand y) := by
  refine runSequencer_agrees (Nat.add_le_add_right ?_ 1) h
  obtain ⟨hx, rfl⟩ := h
  have hs : inputBytes x = [] := by simp [inputBytes, hx]
  rw [hs, show (withInput input x).reader = x.reader from rfl]
  simp [bitsLeft]

/-! ## The commands -/

theorem acceptCommand_agrees (op : BitVec 4) (illegal : Option (BitVec 8)) {perform : State → StepOutcome}
    (hp : ∀ t u, SameButInput input t u → OutcomeAgreesOn input (perform t) (perform u)) (h : SameButInput input x y) :
    OutcomeAgreesOn input (acceptCommand op illegal perform x) (acceptCommand op illegal perform y) := by
  obtain ⟨hx, rfl⟩ := h
  unfold acceptCommand
  rw [show (withInput input x).status = x.status from rfl]
  split
  · exact .next ⟨hx, rfl⟩
  · cases illegal with
    | some sub => exact .next ⟨hx, rfl⟩
    | none => exact hp _ _ ⟨hx, rfl⟩

theorem completeWith_agrees (v : Nat) (h : SameButInput input x y) :
    OutcomeAgreesOn input (.next (completeWith v x)) (.next (completeWith v y)) := by
  obtain ⟨hx, rfl⟩ := h
  exact .next ⟨hx, rfl⟩

theorem execBuildTable_agrees (tsel : BitVec 2) (nsym : BitVec 9) (h : SameButInput input x y) :
    OutcomeAgreesOn input (execBuildTable tsel nsym x) (execBuildTable tsel nsym y) := by
  unfold execBuildTable
  cases buildTableOperands tsel nsym with
  | none => exact acceptCommand_agrees 3 _ (fun _ _ h => .next h) h
  | some p =>
    refine acceptCommand_agrees 3 none ?_ h
    rintro t _ ⟨ht, rfl⟩
    exact .next ⟨ht, rfl⟩

theorem execDecodeSymbol_agrees (tsel : BitVec 2) (h : SameButInput input x y) :
    OutcomeAgreesOn input (execDecodeSymbol tsel x) (execDecodeSymbol tsel y) := by
  unfold execDecodeSymbol
  cases tableOfTsel tsel with
  | none => exact acceptCommand_agrees 4 _ (fun _ _ h => .next h) h
  | some t =>
    exact acceptCommand_agrees 4 none (fun _ _ h => (decodeSym_agrees t h).toOutcome fun sym _ _ h => completeWith_agrees sym h) h

theorem execDecodeHeader_agrees (h : SameButInput input x y) :
    OutcomeAgreesOn input (execDecodeHeader x) (execDecodeHeader y) := by
  refine acceptCommand_agrees 5 none ?_ h
  rintro t _ ⟨ht, rfl⟩
  exact (beginHeader_agrees (by exact ⟨ht, rfl⟩)).toOutcome fun _ _ _ h => runCommand_agrees h

theorem runBlocks_agrees (cmd : Cmd) (h : SameButInput input x y) :
    OutcomeAgreesOn input (runCommand (startBlocks cmd x)) (runCommand (startBlocks cmd y)) := by
  obtain ⟨hx, rfl⟩ := h
  exact runCommand_agrees ⟨hx, rfl⟩

theorem afterStreamEnd_agrees (h : SameButInput input x y) : afterStreamEnd y = afterStreamEnd x := by
  rw [h.2]
  rfl

/-- Any instruction without INPUT and with one: a stop at the first InByte, or the same next state. -/
theorem exec_agrees (i : Instr) (h : SameButInput input x y) : OutcomeAgreesOn input (exec i x) (exec i y) := by
  cases hc : i.isCommand with
  | false =>
    rw [exec_eq_execStreamOp hc, exec_eq_execStreamOp hc]
    exact execStreamOp_agrees i h
  | true =>
    cases i
    case nop =>
      show OutcomeAgreesOn input (execNop x) (execNop y)
      unfold execNop
      refine acceptCommand_agrees 0 none ?_ h
      rintro t _ ⟨ht, rfl⟩
      exact .next ⟨ht, rfl⟩
    case resetCtx =>
      obtain ⟨hx, rfl⟩ := h
      exact .next ⟨hx, rfl⟩
    case readBits nbits keep =>
      exact acceptCommand_agrees 2 _ (fun _ _ h => (readBits_agrees nbits.toNat keep h).toOutcome
        fun v _ _ h => completeWith_agrees v h) h
    case buildTable tsel nsym => exact execBuildTable_agrees tsel nsym h
    case decodeSymbol tsel => exact execDecodeSymbol_agrees tsel h
    case decodeHeader => exact execDecodeHeader_agrees h
    case decodeBlock =>
      show OutcomeAgreesOn input (execDecodeBlock x) (execDecodeBlock y)
      rw [execDecodeBlock, execDecodeBlock, afterStreamEnd_agrees h]
      exact acceptCommand_agrees 6 _ (fun _ _ h => runBlocks_agrees .block h) h
    case decodeStream =>
      show OutcomeAgreesOn input (execDecodeStream x) (execDecodeStream y)
      rw [execDecodeStream, execDecodeStream, afterStreamEnd_agrees h]
      exact acceptCommand_agrees 7 _ (fun _ _ h => runBlocks_agrees .stream h) h
    case reservedOp op =>
      show OutcomeAgreesOn input (execReservedOp op x) (execReservedOp op y)
      unfold execReservedOp
      exact acceptCommand_agrees op _ (fun _ _ h => .next h) h
    all_goals cases hc

end

/-- While ERROR = 0, an instruction that calls no InByte and answers a next state where there is no INPUT answers the same on every INPUT. -/
theorem exec_of_not_callsInByte {i : Instr} {s t : State} (hs : s.status.error = false) (hc : callsInByte i s = false)
    (h : exec i { s with input := none } = .next t) : exec i s = .next { t with input := s.input } := by
  rcases exec_agrees (input := s.input) i (x := { s with input := none }) ⟨rfl, rfl⟩ t h with ⟨he, hx, -⟩ | ⟨u, ⟨-, rfl⟩, hy⟩
  · simp [callsInByte, h, hs, he, hx] at hc
  · exact hy

end Sys2Proof.Machine
end

