-- ==== Sys2Proof/Laws/Memory.lean ====
section
/-! SUPPORT. The window's memory: a read after a write, and the canonical form, which reset has and a write keeps. -/

namespace Sys2Proof.Machine

@[simp] theorem Memory.read_nil (a : Nat) : Memory.read a [] = none := rfl

/-- A read where the byte was written gives it. -/
@[simp] theorem Memory.read_write_same (a : Nat) (v : Byte) (m : List Host.Cell) :
    Memory.read a (Memory.write a v m) = some v := by
  induction m with
  | nil => simp [Memory.write, Memory.read]
  | cons c rest ih =>
    obtain ⟨x, b⟩ := c
    simp only [Memory.write]
    split
    · simp [Memory.read]
    · split
      · simp [Memory.read]
      · simp only [Memory.read]
        rw [if_neg (by omega), ih]

/-- A read elsewhere gives what it gave before. -/
theorem Memory.read_write_other {a c : Nat} (v : Byte) (m : List Host.Cell) (h : c ≠ a) :
    Memory.read c (Memory.write a v m) = Memory.read c m := by
  induction m with
  | nil => simp [Memory.write, Memory.read, h.symm]
  | cons e rest ih =>
    obtain ⟨x, b⟩ := e
    simp only [Memory.write]
    split
    · simp [Memory.read, h.symm]
    · split
      · subst x
        simp [Memory.read, h.symm]
      · simp only [Memory.read, ih]

/-- The addresses after a write: those before it, and the one written. -/
theorem Memory.mem_write {a : Nat} {v : Byte} {m : List Host.Cell} {c : Host.Cell} (h : c ∈ Memory.write a v m) :
    c = (a, v) ∨ c ∈ m := by
  induction m with
  | nil => exact .inl (by simpa [Memory.write] using h)
  | cons e rest ih =>
    obtain ⟨x, b⟩ := e
    simp only [Memory.write] at h
    split at h
    · simpa using h
    · split at h
      · rcases List.mem_cons.1 h with h | h
        · exact .inl h
        · exact .inr (List.mem_cons_of_mem _ h)
      · rcases List.mem_cons.1 h with h | h
        · exact .inr (h ▸ List.mem_cons_self)
        · exact (ih h).imp_right (List.mem_cons_of_mem _)

/-- A write within the window keeps the canonical form. -/
theorem Memory.wf_write {w a : Nat} (v : Byte) {m : List Host.Cell} (ha : a < w) (h : Memory.wf w m) :
    Memory.wf w (Memory.write a v m) := by
  refine ⟨?_, fun c hc => (Memory.mem_write hc).elim (fun e => e ▸ ha) (h.2 c)⟩
  obtain ⟨hp, -⟩ := h
  induction m with
  | nil => simp [Memory.write]
  | cons e rest ih =>
    obtain ⟨x, b⟩ := e
    obtain ⟨hx, hr⟩ := List.pairwise_cons.1 hp
    simp only [Memory.write]
    split
    · rename_i hlt
      exact List.pairwise_cons.2 ⟨fun c hc => (List.mem_cons.1 hc).elim (fun e => e ▸ hlt) fun hc => hlt.trans (hx c hc), hp⟩
    · split
      · rename_i heq
        exact List.pairwise_cons.2 ⟨fun c hc => heq ▸ hx c hc, hr⟩
      · exact List.pairwise_cons.2
          ⟨fun c hc => (Memory.mem_write hc).elim (fun e => by subst e; show x < a; omega) (hx c), ih hr⟩

/-- The window after reset is canonical. -/
theorem Memory.wf_reset : Memory.wf State.reset.params.windowSize State.reset.output.win :=
  ⟨List.Pairwise.nil, fun _ h => absurd h List.not_mem_nil⟩

/-- Emit keeps the canonical form. -/
theorem emitByte_wf {w : Nat} (b : Byte) {o : Output} (hw : 0 < w) (h : Memory.wf w o.win) :
    Memory.wf w (emitByte w b o).win := Memory.wf_write b (Nat.mod_lt _ hw) h

/-- Copy keeps the canonical form. -/
theorem copyBytes_wf {w dist len : Nat} {o o' : Output} (hw : 0 < w) (h : Memory.wf w o.win)
    (hc : copyBytes w dist len o = some o') : Memory.wf w o'.win := by
  induction len generalizing o with
  | zero => simp only [copyBytes, Option.some.injEq] at hc; exact hc ▸ h
  | succ len ih =>
    simp only [copyBytes] at hc
    split at hc
    · cases hc
    · exact ih (emitByte_wf _ hw h) hc

/-- What a copy does to OUT: `len` bytes are appended, and no byte before them changes. -/
theorem copyBytes_out {w dist len : Nat} {o o' : Output} (hc : copyBytes w dist len o = some o') :
    ∃ bytes, bytes.length = len ∧ o'.out = o.out ++ bytes := by
  induction len generalizing o with
  | zero => simp only [copyBytes, Option.some.injEq] at hc; exact ⟨[], rfl, by simp [← hc]⟩
  | succ len ih =>
    simp only [copyBytes] at hc
    split at hc
    · cases hc
    · rename_i b _
      obtain ⟨bytes, hl, ho⟩ := ih hc
      exact ⟨b :: bytes, by simp [hl], by simp [ho, emitByte]⟩

end Sys2Proof.Machine
end

