-- ==== Sys2Proof/Laws/PerInstr.lean ====
section
/-! SUPPORT. One lemma per instruction about its row of spec/opcode_table.json (R103): the encoded word or key lies in the row. -/

namespace Sys2Proof.Laws.TableRow

/-- A row of the opcode table: its format, and the mask and the match of its fixed bits (R103). -/
structure Row where
  format : Format
  mask : Word
  pattern : Word
  deriving DecidableEq, Repr

/-- The row of each instruction, as spec/opcode_table.json has it. -/
def row : Instr → Row
  | .nop => { format := .ctrl, mask := 0xf, pattern := 0x0 }
  | .resetCtx => { format := .ctrl, mask := 0xf, pattern := 0x1 }
  | .readBits _ _ => { format := .ctrl, mask := 0xf, pattern := 0x2 }
  | .buildTable _ _ => { format := .ctrl, mask := 0xf, pattern := 0x3 }
  | .decodeSymbol _ => { format := .ctrl, mask := 0xf, pattern := 0x4 }
  | .decodeHeader => { format := .ctrl, mask := 0xf, pattern := 0x5 }
  | .decodeBlock => { format := .ctrl, mask := 0xf, pattern := 0x6 }
  | .decodeStream => { format := .ctrl, mask := 0xf, pattern := 0x7 }
  | .reservedOp _ => { format := .ctrl, mask := 0x8, pattern := 0x8 }
  | .btype0Stored _ => { format := .blockHdr, mask := 0x6, pattern := 0x0 }
  | .btype1Fixed _ => { format := .blockHdr, mask := 0x6, pattern := 0x2 }
  | .btype2Dynamic _ => { format := .blockHdr, mask := 0x6, pattern := 0x4 }
  | .btype3Reserved _ => { format := .blockHdr, mask := 0x6, pattern := 0x6 }
  | .clLen _ => { format := .clSym, mask := 0x10, pattern := 0x0 }
  | .clRepeatPrev => { format := .clSym, mask := 0x1f, pattern := 0x10 }
  | .clZeroShort => { format := .clSym, mask := 0x1f, pattern := 0x11 }
  | .clZeroLong => { format := .clSym, mask := 0x1f, pattern := 0x12 }
  | .lit _ => { format := .litSym, mask := 0x100, pattern := 0x0 }
  | .eob => { format := .litSym, mask := 0x1ff, pattern := 0x100 }
  | .len257 => { format := .litSym, mask := 0x1ff, pattern := 0x101 }
  | .len258 => { format := .litSym, mask := 0x1ff, pattern := 0x102 }
  | .len259 => { format := .litSym, mask := 0x1ff, pattern := 0x103 }
  | .len260 => { format := .litSym, mask := 0x1ff, pattern := 0x104 }
  | .len261 => { format := .litSym, mask := 0x1ff, pattern := 0x105 }
  | .len262 => { format := .litSym, mask := 0x1ff, pattern := 0x106 }
  | .len263 => { format := .litSym, mask := 0x1ff, pattern := 0x107 }
  | .len264 => { format := .litSym, mask := 0x1ff, pattern := 0x108 }
  | .len265 => { format := .litSym, mask := 0x1ff, pattern := 0x109 }
  | .len266 => { format := .litSym, mask := 0x1ff, pattern := 0x10a }
  | .len267 => { format := .litSym, mask := 0x1ff, pattern := 0x10b }
  | .len268 => { format := .litSym, mask := 0x1ff, pattern := 0x10c }
  | .len269 => { format := .litSym, mask := 0x1ff, pattern := 0x10d }
  | .len270 => { format := .litSym, mask := 0x1ff, pattern := 0x10e }
  | .len271 => { format := .litSym, mask := 0x1ff, pattern := 0x10f }
  | .len272 => { format := .litSym, mask := 0x1ff, pattern := 0x110 }
  | .len273 => { format := .litSym, mask := 0x1ff, pattern := 0x111 }
  | .len274 => { format := .litSym, mask := 0x1ff, pattern := 0x112 }
  | .len275 => { format := .litSym, mask := 0x1ff, pattern := 0x113 }
  | .len276 => { format := .litSym, mask := 0x1ff, pattern := 0x114 }
  | .len277 => { format := .litSym, mask := 0x1ff, pattern := 0x115 }
  | .len278 => { format := .litSym, mask := 0x1ff, pattern := 0x116 }
  | .len279 => { format := .litSym, mask := 0x1ff, pattern := 0x117 }
  | .len280 => { format := .litSym, mask := 0x1ff, pattern := 0x118 }
  | .len281 => { format := .litSym, mask := 0x1ff, pattern := 0x119 }
  | .len282 => { format := .litSym, mask := 0x1ff, pattern := 0x11a }
  | .len283 => { format := .litSym, mask := 0x1ff, pattern := 0x11b }
  | .len284 => { format := .litSym, mask := 0x1ff, pattern := 0x11c }
  | .len285 => { format := .litSym, mask := 0x1ff, pattern := 0x11d }
  | .litReserved _ => { format := .litSym, mask := 0x1fe, pattern := 0x11e }
  | .dist0 => { format := .distSym, mask := 0x1f, pattern := 0x0 }
  | .dist1 => { format := .distSym, mask := 0x1f, pattern := 0x1 }
  | .dist2 => { format := .distSym, mask := 0x1f, pattern := 0x2 }
  | .dist3 => { format := .distSym, mask := 0x1f, pattern := 0x3 }
  | .dist4 => { format := .distSym, mask := 0x1f, pattern := 0x4 }
  | .dist5 => { format := .distSym, mask := 0x1f, pattern := 0x5 }
  | .dist6 => { format := .distSym, mask := 0x1f, pattern := 0x6 }
  | .dist7 => { format := .distSym, mask := 0x1f, pattern := 0x7 }
  | .dist8 => { format := .distSym, mask := 0x1f, pattern := 0x8 }
  | .dist9 => { format := .distSym, mask := 0x1f, pattern := 0x9 }
  | .dist10 => { format := .distSym, mask := 0x1f, pattern := 0xa }
  | .dist11 => { format := .distSym, mask := 0x1f, pattern := 0xb }
  | .dist12 => { format := .distSym, mask := 0x1f, pattern := 0xc }
  | .dist13 => { format := .distSym, mask := 0x1f, pattern := 0xd }
  | .dist14 => { format := .distSym, mask := 0x1f, pattern := 0xe }
  | .dist15 => { format := .distSym, mask := 0x1f, pattern := 0xf }
  | .dist16 => { format := .distSym, mask := 0x1f, pattern := 0x10 }
  | .dist17 => { format := .distSym, mask := 0x1f, pattern := 0x11 }
  | .dist18 => { format := .distSym, mask := 0x1f, pattern := 0x12 }
  | .dist19 => { format := .distSym, mask := 0x1f, pattern := 0x13 }
  | .dist20 => { format := .distSym, mask := 0x1f, pattern := 0x14 }
  | .dist21 => { format := .distSym, mask := 0x1f, pattern := 0x15 }
  | .dist22 => { format := .distSym, mask := 0x1f, pattern := 0x16 }
  | .dist23 => { format := .distSym, mask := 0x1f, pattern := 0x17 }
  | .dist24 => { format := .distSym, mask := 0x1f, pattern := 0x18 }
  | .dist25 => { format := .distSym, mask := 0x1f, pattern := 0x19 }
  | .dist26 => { format := .distSym, mask := 0x1f, pattern := 0x1a }
  | .dist27 => { format := .distSym, mask := 0x1f, pattern := 0x1b }
  | .dist28 => { format := .distSym, mask := 0x1f, pattern := 0x1c }
  | .dist29 => { format := .distSym, mask := 0x1f, pattern := 0x1d }
  | .distReserved _ => { format := .distSym, mask := 0x1e, pattern := 0x1e }

/-- A well-formed instruction is of its row's format, and its encoding has the row's fixed bits. -/
def Statement (i : Instr) : Prop :=
  i.wellFormed = true → i.format = (row i).format ∧ encode i &&& (row i).mask = (row i).pattern

/-- The low four bits of a word whose last part is four bits wide. -/
theorem low_four (x : BitVec 28) (y : BitVec 4) : (x ++ y) &&& 0xf#32 = y.setWidth 32 := by
  apply BitVec.eq_of_toNat_eq
  have h := Nat.and_two_pow_sub_one_eq_mod (x.toNat * 2 ^ 4 + y.toNat) 4
  simp only [Nat.reducePow, Nat.add_one_sub_one] at h
  rw [BitVec.toNat_and, BitVec.toNat_append, ← Nat.shiftLeft_add_eq_or_of_lt y.isLt, Nat.shiftLeft_eq]
  simp at h ⊢
  omega

theorem nop : Statement (.nop) := fun _ => ⟨rfl, by decide⟩

theorem resetCtx : Statement (.resetCtx) := fun _ => ⟨rfl, by decide⟩

theorem readBits (a b) : Statement (.readBits a b) := fun _ => ⟨rfl, low_four _ _⟩

theorem buildTable (a b) : Statement (.buildTable a b) := fun _ => ⟨rfl, low_four _ _⟩

theorem decodeSymbol (a) : Statement (.decodeSymbol a) := by
  unfold Statement
  revert a
  decide

theorem decodeHeader : Statement (.decodeHeader) := fun _ => ⟨rfl, by decide⟩

theorem decodeBlock : Statement (.decodeBlock) := fun _ => ⟨rfl, by decide⟩

theorem decodeStream : Statement (.decodeStream) := fun _ => ⟨rfl, by decide⟩

theorem reservedOp (a) : Statement (.reservedOp a) := by
  unfold Statement
  revert a
  decide

theorem btype0Stored (a) : Statement (.btype0Stored a) := fun _ => ⟨rfl, by cases a <;> decide⟩

theorem btype1Fixed (a) : Statement (.btype1Fixed a) := fun _ => ⟨rfl, by cases a <;> decide⟩

theorem btype2Dynamic (a) : Statement (.btype2Dynamic a) := fun _ => ⟨rfl, by cases a <;> decide⟩

theorem btype3Reserved (a) : Statement (.btype3Reserved a) := fun _ => ⟨rfl, by cases a <;> decide⟩

theorem clLen (a) : Statement (.clLen a) := by
  unfold Statement
  revert a
  decide

theorem clRepeatPrev : Statement (.clRepeatPrev) := fun _ => ⟨rfl, by decide⟩

theorem clZeroShort : Statement (.clZeroShort) := fun _ => ⟨rfl, by decide⟩

theorem clZeroLong : Statement (.clZeroLong) := fun _ => ⟨rfl, by decide⟩

theorem lit (a) : Statement (.lit a) := by
  unfold Statement
  revert a
  decide

theorem eob : Statement (.eob) := fun _ => ⟨rfl, by decide⟩

theorem len257 : Statement (.len257) := fun _ => ⟨rfl, by decide⟩

theorem len258 : Statement (.len258) := fun _ => ⟨rfl, by decide⟩

theorem len259 : Statement (.len259) := fun _ => ⟨rfl, by decide⟩

theorem len260 : Statement (.len260) := fun _ => ⟨rfl, by decide⟩

theorem len261 : Statement (.len261) := fun _ => ⟨rfl, by decide⟩

theorem len262 : Statement (.len262) := fun _ => ⟨rfl, by decide⟩

theorem len263 : Statement (.len263) := fun _ => ⟨rfl, by decide⟩

theorem len264 : Statement (.len264) := fun _ => ⟨rfl, by decide⟩

theorem len265 : Statement (.len265) := fun _ => ⟨rfl, by decide⟩

theorem len266 : Statement (.len266) := fun _ => ⟨rfl, by decide⟩

theorem len267 : Statement (.len267) := fun _ => ⟨rfl, by decide⟩

theorem len268 : Statement (.len268) := fun _ => ⟨rfl, by decide⟩

theorem len269 : Statement (.len269) := fun _ => ⟨rfl, by decide⟩

theorem len270 : Statement (.len270) := fun _ => ⟨rfl, by decide⟩

theorem len271 : Statement (.len271) := fun _ => ⟨rfl, by decide⟩

theorem len272 : Statement (.len272) := fun _ => ⟨rfl, by decide⟩

theorem len273 : Statement (.len273) := fun _ => ⟨rfl, by decide⟩

theorem len274 : Statement (.len274) := fun _ => ⟨rfl, by decide⟩

theorem len275 : Statement (.len275) := fun _ => ⟨rfl, by decide⟩

theorem len276 : Statement (.len276) := fun _ => ⟨rfl, by decide⟩

theorem len277 : Statement (.len277) := fun _ => ⟨rfl, by decide⟩

theorem len278 : Statement (.len278) := fun _ => ⟨rfl, by decide⟩

theorem len279 : Statement (.len279) := fun _ => ⟨rfl, by decide⟩

theorem len280 : Statement (.len280) := fun _ => ⟨rfl, by decide⟩

theorem len281 : Statement (.len281) := fun _ => ⟨rfl, by decide⟩

theorem len282 : Statement (.len282) := fun _ => ⟨rfl, by decide⟩

theorem len283 : Statement (.len283) := fun _ => ⟨rfl, by decide⟩

theorem len284 : Statement (.len284) := fun _ => ⟨rfl, by decide⟩

theorem len285 : Statement (.len285) := fun _ => ⟨rfl, by decide⟩

theorem litReserved (a) : Statement (.litReserved a) := by
  unfold Statement
  revert a
  decide

theorem dist0 : Statement (.dist0) := fun _ => ⟨rfl, by decide⟩

theorem dist1 : Statement (.dist1) := fun _ => ⟨rfl, by decide⟩

theorem dist2 : Statement (.dist2) := fun _ => ⟨rfl, by decide⟩

theorem dist3 : Statement (.dist3) := fun _ => ⟨rfl, by decide⟩

theorem dist4 : Statement (.dist4) := fun _ => ⟨rfl, by decide⟩

theorem dist5 : Statement (.dist5) := fun _ => ⟨rfl, by decide⟩

theorem dist6 : Statement (.dist6) := fun _ => ⟨rfl, by decide⟩

theorem dist7 : Statement (.dist7) := fun _ => ⟨rfl, by decide⟩

theorem dist8 : Statement (.dist8) := fun _ => ⟨rfl, by decide⟩

theorem dist9 : Statement (.dist9) := fun _ => ⟨rfl, by decide⟩

theorem dist10 : Statement (.dist10) := fun _ => ⟨rfl, by decide⟩

theorem dist11 : Statement (.dist11) := fun _ => ⟨rfl, by decide⟩

theorem dist12 : Statement (.dist12) := fun _ => ⟨rfl, by decide⟩

theorem dist13 : Statement (.dist13) := fun _ => ⟨rfl, by decide⟩

theorem dist14 : Statement (.dist14) := fun _ => ⟨rfl, by decide⟩

theorem dist15 : Statement (.dist15) := fun _ => ⟨rfl, by decide⟩

theorem dist16 : Statement (.dist16) := fun _ => ⟨rfl, by decide⟩

theorem dist17 : Statement (.dist17) := fun _ => ⟨rfl, by decide⟩

theorem dist18 : Statement (.dist18) := fun _ => ⟨rfl, by decide⟩

theorem dist19 : Statement (.dist19) := fun _ => ⟨rfl, by decide⟩

theorem dist20 : Statement (.dist20) := fun _ => ⟨rfl, by decide⟩

theorem dist21 : Statement (.dist21) := fun _ => ⟨rfl, by decide⟩

theorem dist22 : Statement (.dist22) := fun _ => ⟨rfl, by decide⟩

theorem dist23 : Statement (.dist23) := fun _ => ⟨rfl, by decide⟩

theorem dist24 : Statement (.dist24) := fun _ => ⟨rfl, by decide⟩

theorem dist25 : Statement (.dist25) := fun _ => ⟨rfl, by decide⟩

theorem dist26 : Statement (.dist26) := fun _ => ⟨rfl, by decide⟩

theorem dist27 : Statement (.dist27) := fun _ => ⟨rfl, by decide⟩

theorem dist28 : Statement (.dist28) := fun _ => ⟨rfl, by decide⟩

theorem dist29 : Statement (.dist29) := fun _ => ⟨rfl, by decide⟩

theorem distReserved (a) : Statement (.distReserved a) := by
  unfold Statement
  revert a
  decide

end Sys2Proof.Laws.TableRow
end

