-- ==== Sys2Proof/Tests/Slice0.lean ====
section
/-! SUPPORT. The tests: ill-formed terms, decoding of words written out from spec/30_encoding.md, single steps with the expected values of
spec/95_test_vectors.md (its ids in each comment), and a witness for the hypotheses of each obligation. -/

namespace Sys2Proof.Tests

open Sys2Proof.Machine

-- One proof after another: each evaluates in the kernel, and side by side they need a thread and its stack apiece.
set_option Elab.async false

/-! ## Small states -/

/-- A fresh context with the given bytes attached (spec/95_test_vectors.md section 2, start state). -/
def ready (bytes : List Byte) : State :=
  { State.reset with input := some bytes, host := { pending := [], readData := 0, duty := .inUse } }

/-- A fresh context whose next host accesses are the given ones. -/
def waiting (accesses : List HostAccess) : State :=
  { ready [0xB5] with host := { pending := accesses, readData := 0, duty := .inUse } }

/-- The same with the register block at 0x40001000. -/
def waitingAt40001000 (accesses : List HostAccess) : State :=
  { waiting accesses with params := { Params.hardware with regBase := 0x40001000 } }

/-- A context whose INPUT was replaced, with the five bits 10110 still in BITBUF. -/
def replaced (accesses : List HostAccess) : State :=
  { ready [0xFF] with
    reader := { bitbuf := 0x16, bitcnt := 5, inCount := 1 },
    host := { pending := accesses, readData := 0, duty := .replaced } }

/-- The refusal an outcome gives, where it gives one. -/
def refusal (o : StepOutcome) : Option Refusal :=
  match o with
  | .refused r => some r
  | _ => none

/-- A field of the state after an instruction or a step, where it answers a next state. -/
def after {α : Type} (o : StepOutcome) (f : State → α) : Option α :=
  match o with
  | .next t => some (f t)
  | _ => none

/-- The state an outcome gives, or `s`. -/
def landed (o : StepOutcome) (s : State) : State := (after o id).getD s

/-- The state a primitive leaves. -/
def left {α : Type} (x : Res α) : State :=
  match x with
  | .ok _ s => s
  | .raised s => s

/-- STATUS, RESULT, IN_COUNT, BITCNT, BITBUF_LO, ERRINFO as the host reads them. -/
def seen (s : State) : List Word :=
  [readRegister s 0x04, readRegister s 0x08, readRegister s 0x18, readRegister s 0x0C, readRegister s 0x10,
   readRegister s 0x28]

/-- A context with the lengths written into a table's array. -/
def withLens (t : TableId) (lens : List (BitVec 4)) (s : State) : State :=
  { s with lens := lens.zipIdx.foldl (fun l e => setLen t e.2 e.1 l) s.lens }

/-- A context with a decode table built from the given lengths. -/
def withTable (t : TableId) (lens : List (BitVec 4)) (s : State) : State :=
  { s with tables := setTable t { lens := lens } s.tables }

/-- A state in the code-length sequence of DECODE_HEADER: 258 LIT and 2 DIST lengths due, `i` of them stored. -/
def inSequence (i : Nat) (bytes : List Byte) : State :=
  { ready bytes with
    work := { Work.idle with phase := .clSym, cmd := .header, seqIndex := i, nlit := 258, ndist := 2 } }

/-- A context of DECODE_BLOCK that has emitted "AB". -/
def afterAB (bytes : List Byte) : State :=
  { ready bytes with
    output := { out := [65, 66], outCount := 2, histCount := 2, win := [(0, 65), (1, 66)] },
    work := { Work.idle with phase := .distSym, cmd := .block, copyLen := 5, emitted := 2 } }

/-- Payload P1 of spec/95_test_vectors.md. -/
def p1 : List Byte :=
  [0x1d, 0xc1, 0x01, 0x09, 0x00, 0x00, 0x00, 0x80, 0xa0, 0x6d, 0xf5, 0x7f, 0x54, 0x90, 0xe2, 0x03]

/-- P1 as a text, from its listing in spec/95_test_vectors.md. -/
def text1 : BlockText :=
  { bfinal := true, hlit := 3, hdist := 1, hclen := 14,
    clLens := [0, 0, 2, 2, 0, 0, 0, 0, 0, 0, 0, 0, 0, 0, 0, 2, 0, 2],
    metas := [.zeroLong 54, .len 2, .len 2, .zeroLong 127, .zeroLong 40, .len 2, .len 0, .len 0, .len 2, .len 1, .len 1],
    items := [.lit 65, .lit 66, .copy 2 0 1 0] }

/-! ## Ill-formed terms (WellFormed.lean): one for each check -/

/-- A reserved command with an OP below 8 is no reserved command (R135). -/
theorem test_illFormed_reservedOp : (Instr.reservedOp 7).wellFormed = false := by decide
/-- A reserved LIT symbol other than 286 and 287 (R93). -/
theorem test_illFormed_litReserved :
    (Instr.litReserved 285).wellFormed = false ∧ (Instr.litReserved 288).wellFormed = false := by decide
/-- A reserved DIST symbol other than 30 and 31 (R95). -/
theorem test_illFormed_distReserved : (Instr.distReserved 29).wellFormed = false := by decide
/-- The terms at the ends of the ranges are well formed. -/
theorem test_wellFormed_ends :
    (Instr.reservedOp 8).wellFormed = true ∧ (Instr.reservedOp 15).wellFormed = true ∧
      (Instr.litReserved 286).wellFormed = true ∧ (Instr.litReserved 287).wellFormed = true ∧
      (Instr.distReserved 30).wellFormed = true ∧ (Instr.distReserved 31).wellFormed = true := by decide

/-! ## Decoding: words written out from R80, R81, R88, R91, R93, R95 -/

/-- OP [3:0], NBITS [9:4], KEEP [10], TSEL [13:12], NSYM [24:16]. -/
theorem test_decode_commands :
    decode .ctrl 0b0000000_000000000_00_00_0_0_000000_0000 = .ok .nop ∧
    decode .ctrl 0b0000000_000000000_00_00_0_0_000000_0001 = .ok .resetCtx ∧
    decode .ctrl 0b0000000_000000000_00_00_0_1_100001_0010 = .ok (.readBits 33 true) ∧
    decode .ctrl 0b0000000_100100000_00_01_0_0_000000_0011 = .ok (.buildTable 1 288) ∧
    decode .ctrl 0b0000000_000000000_00_10_0_0_000000_0100 = .ok (.decodeSymbol 2) ∧
    decode .ctrl 0b0000000_000000000_00_00_0_0_000000_0101 = .ok .decodeHeader ∧
    decode .ctrl 0b0000000_000000000_00_00_0_0_000000_0110 = .ok .decodeBlock ∧
    decode .ctrl 0b0000000_000000000_00_00_0_0_000000_0111 = .ok .decodeStream ∧
    decode .ctrl 0b0000000_000000000_00_00_0_0_000000_1000 = .ok (.reservedOp 8) ∧
    decode .ctrl 0b0000000_000000000_00_00_0_0_000000_1111 = .ok (.reservedOp 15) := by decide +kernel
/-- A command's four bytes, the low one first (R63): READ_BITS 7, keep. -/
theorem test_decode_bytes : decodeCtrlBytes [0x72, 0x04, 0x00, 0x00, 0xFF] = .ok (.readBits 7 true, [0xFF]) := by
  decide +kernel
/-- Fewer than four bytes are no command word. -/
theorem test_decode_shortWord : decodeCtrlBytes [0x02, 0x00, 0x00] = .error .shortWord := by decide +kernel
/-- BTYPE [2:1], BFINAL [0] of the key. -/
theorem test_decode_blockHdr :
    decode .blockHdr 0b00_1 = .ok (.btype0Stored true) ∧ decode .blockHdr 0b01_0 = .ok (.btype1Fixed false) ∧
    decode .blockHdr 0b10_1 = .ok (.btype2Dynamic true) ∧ decode .blockHdr 0b11_1 = .ok (.btype3Reserved true) ∧
    decode .blockHdr 0b100_0 = .error .noBlockHeader := by decide +kernel
/-- Meta-symbols. -/
theorem test_decode_clSym :
    decode .clSym 0b00000 = .ok (.clLen 0) ∧ decode .clSym 0b01111 = .ok (.clLen 15) ∧
    decode .clSym 0b10000 = .ok .clRepeatPrev ∧ decode .clSym 0b10001 = .ok .clZeroShort ∧
    decode .clSym 0b10010 = .ok .clZeroLong ∧ decode .clSym 0b10011 = .error .noMetaSymbol := by decide +kernel
/-- LIT symbols: literals, end of block, reserved. -/
theorem test_decode_litSym :
    decode .litSym 0b0_01000001 = .ok (.lit 65) ∧ decode .litSym 0b1_00000000 = .ok .eob ∧
    decode .litSym 0b1_00011110 = .ok (.litReserved 286) ∧ decode .litSym 0b1_00011111 = .ok (.litReserved 287) ∧
    decode .litSym 0b1_00100000 = .error .noLitSymbol := by decide +kernel
/-- LIT symbols 257 to 285, each the length code of its number. -/
theorem test_decode_lengthCodes :
    (List.range 29).map (fun c => decode .litSym (BitVec.ofNat 32 (0b1_00000001 + c))) =
      [.ok .len257, .ok .len258, .ok .len259, .ok .len260, .ok .len261, .ok .len262, .ok .len263, .ok .len264,
       .ok .len265, .ok .len266, .ok .len267, .ok .len268, .ok .len269, .ok .len270, .ok .len271, .ok .len272,
       .ok .len273, .ok .len274, .ok .len275, .ok .len276, .ok .len277, .ok .len278, .ok .len279, .ok .len280,
       .ok .len281, .ok .len282, .ok .len283, .ok .len284, .ok .len285] := by decide +kernel
/-- DIST symbols 0 to 31. -/
theorem test_decode_distSym :
    (List.range 33).map (fun d => decode .distSym (BitVec.ofNat 32 d)) =
      [.ok .dist0, .ok .dist1, .ok .dist2, .ok .dist3, .ok .dist4, .ok .dist5, .ok .dist6, .ok .dist7,
       .ok .dist8, .ok .dist9, .ok .dist10, .ok .dist11, .ok .dist12, .ok .dist13, .ok .dist14, .ok .dist15,
       .ok .dist16, .ok .dist17, .ok .dist18, .ok .dist19, .ok .dist20, .ok .dist21, .ok .dist22, .ok .dist23,
       .ok .dist24, .ok .dist25, .ok .dist26, .ok .dist27, .ok .dist28, .ok .dist29, .ok (.distReserved 30),
       .ok (.distReserved 31), .error .noDistSymbol] := by decide +kernel
/-- The host's question about a row: a command word, an end of block, a meta-symbol, a distance code. -/
theorem test_decodeTableWord :
    decodeTableWord 8 2 = some (.readBits 0 false) ∧ decodeTableWord 16 256 = some .eob ∧
    decodeTableWord 8 17 = some .clZeroShort ∧ decodeTableWord 16 29 = some .dist29 := by decide +kernel
/-- The same words placed where the step fetches: the step runs them. READ_BITS 0 is illegal (C4); the end of block ends the
block (R189); three zero lengths are stored (R177); DIST_29 + 0 is too far (R198). -/
theorem test_withFetchWord :
    after (step (State.reset.withFetchWord 8 2)) (readRegister · 0x04) = some 0x00000704 ∧
    after (step (State.reset.withFetchWord 16 256)) (fun t => (t.blockCount, t.status.done)) = some (1, true) ∧
    after (step (State.reset.withFetchWord 8 17)) (fun t => t.work.seqIndex) = some 3 ∧
    after (step (State.reset.withFetchWord 16 29)) (readRegister · 0x28) = some 0x60010000 := by decide +kernel

/-! ## One step each -/

/-- C1: NOP after hardware reset. -/
theorem test_nop : after (exec .nop State.reset) seen = some [0x00000002, 0, 0, 0, 0, 0] := by decide +kernel
/-- C14: NOP while ERROR = 1 is ignored. -/
theorem test_nop_ignored :
    after (exec .nop (withError 7 1 15 State.reset)) seen = some [0x00000704, 0, 0, 0, 0, 0x000F0001] := by decide +kernel
/-- R134's example: RESET_CTX after INPUT_EXHAUSTED. -/
theorem test_resetCtx :
    after (exec .resetCtx (landed (exec (.readBits 32 false) (ready [0xFF])) State.reset)) seen =
      some [0x00000002, 0, 0, 0, 0, 0] := by decide +kernel
/-- R1 of section 2.2: READ_BITS 3. -/
theorem test_readBits :
    after (exec (.readBits 3 false) (ready [0xB5, 0x6C, 0xFF])) seen = some [0x00000002, 5, 1, 5, 0x16, 0] := by
  decide +kernel
/-- R4 of section 2.2: READ_BITS 32 runs out; the byte taken stays. -/
theorem test_readBits_exhausted :
    after (exec (.readBits 32 false)
      { ready [0xB5, 0x6C, 0xFF] with result := 0xD96, reader := { bitbuf := 0, bitcnt := 0, inCount := 2 } }) seen =
      some [0x00000504, 0xD96, 3, 8, 0xFF, 0] := by decide +kernel
/-- B1: BUILD_TABLE LIT, 8, and S4's codes of symbols 5 and 6. -/
theorem test_buildTable :
    after (exec (.buildTable 1 8) (withLens .lit [3, 3, 3, 3, 3, 2, 4, 4] (ready []))) (fun t =>
      (readRegister t 0x08, readRegister t 0x38, codeDataOf t.tables.lit 5, codeDataOf t.tables.lit 6)) =
      some (8, 0x00000400, 0x00000002, 0x00000E04) := by decide +kernel
/-- C8: BUILD_TABLE LIT, 289. -/
theorem test_buildTable_illegal :
    after (exec (.buildTable 1 289) (ready [])) seen = some [0x00000704, 0, 0, 0, 0, 0x00030002] := by decide +kernel
/-- H1: the first DECODE_SYMBOL LIT. -/
theorem test_decodeSymbol :
    after (exec (.decodeSymbol 1) (withTable .lit [3, 3, 3, 3, 3, 2, 4, 4] (ready [0x07]))) (fun t =>
      (readRegister t 0x08, readRegister t 0x0C)) = some (6, 4) := by decide +kernel
/-- H2, the second symbol: INVALID_CODE at K = MAXLEN. -/
theorem test_decodeSymbol_invalid :
    after (exec (.decodeSymbol 2) (withTable .dist [0, 0, 0, 0, 1]
      { ready [0x02] with reader := { bitbuf := 1, bitcnt := 7, inCount := 1 } })) (fun t =>
      (readRegister t 0x04, readRegister t 0x28, readRegister t 0x0C)) = some (0x00000304, 0x00000002, 6) := by
  decide +kernel
/-- D1: DECODE_HEADER on P1 after its 3-bit block header. -/
theorem test_decodeHeader :
    after (exec .decodeHeader { ready p1 with reader := { bitbuf := 0x1d >>> 3, bitcnt := 5, inCount := 1 } }) (fun t =>
      (seen t, readRegister t 0x24, readRegister t 0x38, readRegister t 0x3C)) =
      some ([0x00000002, 262, 15, 6, 0x38, 0], 0x0001C118, 0x00010202, 0x02010413) := by decide +kernel
/-- K1: DECODE_BLOCK on BTYPE 1. -/
theorem test_decodeBlock :
    after (exec .decodeBlock (ready [0x03])) (fun t => (seen t, readRegister t 0x24)) =
      some ([0x00000204, 0, 1, 5, 0, 0x00010000], 0x00000003) := by decide +kernel
/-- C12: DECODE_BLOCK after the stream has ended. -/
theorem test_decodeBlock_ended :
    after (exec .decodeBlock (markStreamEnd (ready []))) (fun t => (readRegister t 0x04, readRegister t 0x28)) =
      some (0x0000070C, 0x00060003) := by decide +kernel
/-- P1: one block with an overlapping copy, by DECODE_STREAM. -/
theorem test_decodeStream :
    after (exec .decodeStream (ready p1)) (fun t => (seen t, t.output.out)) =
      some ([0x0000000A, 7, 16, 5, 0, 0], [65, 66, 65, 66, 65, 66, 65]) := by decide +kernel
/-- E7: meta-symbol 16 first, its extra bits not read. -/
theorem test_decodeStream_repeatFirst :
    after (exec .decodeStream (ready [0x05, 0x00, 0x02, 0x09])) (fun t => (seen t, readRegister t 0x24)) =
      some ([0x00000404, 0, 4, 2, 0, 0x00100003], 0x00000005) := by decide +kernel
/-- C2: a reserved command. -/
theorem test_reservedOp :
    after (exec (.reservedOp 15) (ready [])) seen = some [0x00000704, 0, 0, 0, 0, 0x000F0001] := by decide +kernel

/-- K2, K1, K3: the errors of BTYPE 0, 1 and 3. -/
theorem test_unsupportedBlockTypes :
    [Instr.btype0Stored true, .btype1Fixed true, .btype3Reserved true].map
      (fun i => after (exec i (ready [])) fun t => (readRegister t 0x04, readRegister t 0x28)) =
      [some (0x00000204, 0x00000000), some (0x00000204, 0x00010000), some (0x00000204, 0x00030000)] := by decide +kernel
/-- P1's header fields: HLIT 3, HDIST 1, HCLEN 14, and the CL lengths 2 of symbols 18, 0, 2 and 1. -/
theorem test_btype2Dynamic :
    after (exec (.btype2Dynamic true) { ready p1 with reader := { bitbuf := 0x1d >>> 3, bitcnt := 5, inCount := 1 } })
      (fun t => (t.hdr, t.work.phase, t.work.nlit, t.work.ndist, t.tables.cl.lens)) =
      some ({ bfinal := 0, btype := 0, hlit := 3, hdist := 1, hclen := 14 }, .clSym, 260, 2,
        [2, 2, 2, 0, 0, 0, 0, 0, 0, 0, 0, 0, 0, 0, 0, 0, 0, 0, 2]) := by decide +kernel
/-- R175: the length goes to the position, across the end of the LIT lengths. -/
theorem test_clLen :
    after (exec (.clLen 9) (inSequence 258 [])) (fun t => (t.work.seqIndex, t.lens.dist.toList[0]?, t.lens.lit.toList[258]?)) =
      some (259, some 9, some 0) := by decide +kernel
/-- R176: 3 + 1 copies of the previous length. -/
theorem test_clRepeatPrev :
    after (exec .clRepeatPrev (withLens .lit [0, 5] (inSequence 2 [0x01]))) (fun t =>
      (t.work.seqIndex, t.lens.lit.toList.take 7)) = some (6, [0, 5, 5, 5, 5, 5, 0]) := by decide +kernel
/-- R176: no previous length at position 0; the extra bits are not read. -/
theorem test_clRepeatPrev_first :
    after (exec .clRepeatPrev (inSequence 0 [0x01])) seen = some [0x00000404, 0, 0, 0, 0, 0x00100003] := by decide +kernel
/-- R177: 3 + 7 zero lengths are the most. -/
theorem test_clZeroShort :
    after (exec .clZeroShort (withLens .lit [1, 1, 1] (inSequence 1 [0x07]))) (fun t =>
      (t.work.seqIndex, t.lens.lit.toList.take 3)) = some (11, [1, 0, 0]) := by decide +kernel
/-- R178: 11 + 127 zero lengths are the most. -/
theorem test_clZeroLong :
    after (exec .clZeroLong (inSequence 0 [0x7F])) (fun t => (t.work.seqIndex, t.reader.bitcnt)) = some (138, 1) := by
  decide +kernel
/-- E8: a run that passes the total stores nothing. -/
theorem test_clZeroLong_overrun :
    after (exec .clZeroLong (inSequence 250 [0x00])) (readRegister · 0x28) = some 0x00120004 := by decide +kernel
/-- R188: the literal is emitted, into OUT and the window. -/
theorem test_lit :
    after (exec (.lit 0x43) (afterAB [])) (fun t => t.output) =
      some { out := [65, 66, 0x43], outCount := 3, histCount := 3, win := [(0, 65), (1, 66), (2, 0x43)] } := by
  decide +kernel
/-- R189: the end of DECODE_BLOCK's block with BFINAL = 0 (as in K5: STATUS 0x00000002, BLOCK_COUNT 1). -/
theorem test_eob :
    after (exec .eob (afterAB [])) (fun t => (readRegister t 0x04, t.result, t.blockCount)) = some (0x00000002, 2, 1) := by
  decide +kernel
/-- R192: every length code with its extra bits 0. -/
theorem test_lengthCodes_least :
    lengthCodes.map (fun i => after (exec i (ready [0x00, 0x00])) fun t => t.work.copyLen) =
      [3, 4, 5, 6, 7, 8, 9, 10, 11, 13, 15, 17, 19, 23, 27, 31, 35, 43, 51, 59, 67, 83, 99, 115, 131, 163, 195, 227,
       258].map some := by decide +kernel
/-- R192: every length code with its extra bits 1. -/
theorem test_lengthCodes_greatest :
    lengthCodes.map (fun i => after (exec i (ready [0xFF, 0xFF])) fun t => t.work.copyLen) =
      [3, 4, 5, 6, 7, 8, 9, 10, 12, 14, 16, 18, 22, 26, 30, 34, 42, 50, 58, 66, 82, 98, 114, 130, 162, 194, 226, 258,
       258].map some := by decide +kernel
/-- K9, K10: the reserved symbols. -/
theorem test_reservedSymbols :
    after (exec (.litReserved 286) (ready [])) (fun t => (readRegister t 0x04, readRegister t 0x28)) =
      some (0x00000404, 0x011E0001) ∧
    after (exec (.distReserved 30) (ready [])) (fun t => (readRegister t 0x04, readRegister t 0x28)) =
      some (0x00000404, 0x001E0002) := by decide +kernel
/-- R195: every distance code with its extra bits 0, on a full history; no byte is due, so none is copied. -/
theorem test_distanceCodes_least :
    distanceCodes.map (fun i => after (exec i
      { ready [0x00, 0x00] with output := { Output.reset with histCount := 32768 } }) fun t => t.work.copyDist) =
      [1, 2, 3, 4, 5, 7, 9, 13, 17, 25, 33, 49, 65, 97, 129, 193, 257, 385, 513, 769, 1025, 1537, 2049, 3073, 4097, 6145,
       8193, 12289, 16385, 24577].map some := by decide +kernel
/-- R195: every distance code with its extra bits 1. -/
theorem test_distanceCodes_greatest :
    distanceCodes.map (fun i => after (exec i
      { ready [0xFF, 0xFF] with output := { Output.reset with histCount := 32768 } }) fun t => t.work.copyDist) =
      [1, 2, 3, 4, 6, 8, 12, 16, 24, 32, 48, 64, 96, 128, 192, 256, 384, 512, 768, 1024, 1536, 2048, 3072, 4096, 6144,
       8192, 12288, 16384, 24576, 32768].map some := by decide +kernel
/-- R201's example: output ending in AB with d = 2, L = 5 appends ABABA. -/
theorem test_copy_overlap :
    after (exec .dist1 (afterAB [])) (fun t => t.output.out) = some [65, 66, 65, 66, 65, 66, 65] := by decide +kernel
/-- R198: distance 3 after 2 bytes; nothing is emitted (as in K8: the distance in VALUE). -/
theorem test_distance_tooFar :
    after (exec .dist2 (afterAB [])) (fun t => (readRegister t 0x04, readRegister t 0x28, t.output.outCount)) =
      some (0x00000604, 0x00030000, 2) := by decide +kernel
/-- C20: WR TBL_ADDR 0x1041; WR LEN_DATA 7; LEN_DATA then reads 7. -/
theorem test_lenData :
    readRegister (writeRegister 0x30 7 (writeRegister 0x2C 0x1041 (ready []))) 0x30 = 7 ∧
    (writeRegister 0x30 7 (writeRegister 0x2C 0x1041 (ready []))).lens.lit.toList[0x41]? = some 7 := by decide +kernel
/-- Z1: every register of the map reads 0 after hardware reset. -/
theorem test_reset :
    [0x00, 0x04, 0x08, 0x0C, 0x10, 0x14, 0x18, 0x1C, 0x20, 0x24, 0x28, 0x2C, 0x30, 0x34, 0x38, 0x3C, 0x40].map
      (readRegister State.reset) = List.replicate 17 0 := by decide +kernel
/-- R64: the register block begins at REG_BASE; a write there is a command, STATUS is 4 above it, and nothing is below it. -/
theorem test_regBase :
    after (step (waitingAt40001000 [.write 32 0x40001000 0x32])) (fun t => t.result) = some 5 ∧
    after (step { waitingAt40001000 [.read 32 0x40001008] with result := 5 }) (fun t => t.host.readData) = some 5 ∧
    after (step { waitingAt40001000 [.read 32 0x08] with result := 5 }) (fun t => t.host.readData) = some 0 ∧
    after (step (waitingAt40001000 [.write 32 0 0x32])) (fun t => t.result) = some 0 := by decide +kernel
/-- R130, R132, R242, R247 with INPUT replaced: an illegal READ_BITS 0, DECODE_STREAM after the stream has ended and a READ_BITS 3 served from
BITBUF run. -/
theorem test_replacedInput_runs :
    after (step (replaced [.write 32 0 0x02])) (readRegister · 0x04) = some 0x00000704 ∧
    after (step { replaced [.write 32 0 0x07] with
      status := { done := true, error := false, streamEnd := true, errcode := 0 } }) (readRegister · 0x04) = some 0x0000070C ∧
    after (step (replaced [.write 32 0 0x32])) (fun t => (t.result, t.reader.bitcnt)) = some (6, 2) := by decide +kernel
/-- R70: a READ_BITS 8, which needs a byte of the replaced INPUT, is refused; bytes equal to INPUT's are no change of it. -/
theorem test_replacedInput_refused :
    refusal (step (replaced [.write 32 0 0x82])) = some .inputReplacedInContext ∧
    after (step (waiting [.attach [0xB5]])) (fun t => t.host.duty) = some .inUse ∧
    after (step (waiting [.attach [0xB4]])) (fun t => t.host.duty) = some .replaced := by decide +kernel
/-- D7: P1 cut off in the 8th CL length; the seven read stay, the others are 0. -/
theorem test_headerCut :
    after (exec .decodeStream (ready (p1.take 5))) (fun t => (seen t, readRegister t 0x24, t.lens.cl.toList)) =
      some ([0x00000504, 0, 5, 2, 0, 0], 0x0001C11D, [2, 0, 0, 0, 0, 0, 0, 0, 0, 0, 0, 0, 0, 0, 0, 0, 0, 0, 2]) := by
  decide +kernel
/-- K13: no input at all. -/
theorem test_headerCut_empty :
    after (exec .decodeStream (ready [])) (fun t => (seen t, readRegister t 0x24)) =
      some ([0x00000504, 0, 0, 0, 0, 0], 0) := by decide +kernel
/-- R59: the window address goes around. -/
theorem test_windowAddr :
    windowAddr 32768 1 { Output.reset with outCount := 32768 } = 32767 ∧
    windowAddr 32768 3 { Output.reset with outCount := 32769 } = 32766 := by decide +kernel

/-! ## Witnesses: for each obligation with hypotheses, a state and operands that meet them together, and for its clauses the
values at their boundaries -/


/-- A context in which ERROR = 1. -/
def failed : State := withError 7 1 15 (ready [0xB5])

/-- The value a primitive gives, where it gives one. -/
def value {α : Type} (x : Res α) : Option α :=
  match x with
  | .ok a _ => some a
  | .raised _ => none

/-- A primitive that gives a value gives it with the state it leaves. -/
theorem ok_of_value {α : Type} {x : Res α} {a : α} (h : value x = some a) : x = .ok a (left x) := by
  cases x with
  | ok b s => exact Option.some.inj h ▸ rfl
  | raised s => cases h

theorem test_witness_DecodeOfEncodeIsTheInstruction :
    (Instr.reservedOp 8).wellFormed = true ∧ (Instr.reservedOp 8).isCommand = true ∧
      (Instr.distReserved 31).wellFormed = true := by decide

/-- READ_BITS 7, keep; BUILD_TABLE LIT, 8; DECODE_SYMBOL DIST: each beside a word that differs in reserved and unused bits. -/
theorem test_witness_ReservedBitsAndUnusedFieldsAreIgnored :
    ((0x00000472#32).extractLsb' 0 4 = (0xFFFFFC72#32).extractLsb' 0 4 ∧
      ((0x00000472#32).extractLsb' 0 4 = 2#4 → (0x00000472#32).extractLsb' 4 7 = (0xFFFFFC72#32).extractLsb' 4 7)) ∧
    ((0x00081003#32).extractLsb' 0 4 = (0xFE08DFF3#32).extractLsb' 0 4 ∧
      ((0x00081003#32).extractLsb' 0 4 = 3#4 → (0x00081003#32).extractLsb' 12 2 = (0xFE08DFF3#32).extractLsb' 12 2 ∧
        (0x00081003#32).extractLsb' 16 9 = (0xFE08DFF3#32).extractLsb' 16 9)) ∧
    ((0x00002004#32).extractLsb' 0 4 = (0xFFFFEFF4#32).extractLsb' 0 4 ∧
      ((0x00002004#32).extractLsb' 0 4 = 4#4 → (0x00002004#32).extractLsb' 12 2 = (0xFFFFEFF4#32).extractLsb' 12 2)) := by
  decide +kernel

theorem test_witness_StepRunsTheCommandWritten :
    (waiting [.write 32 0 0x32]).work.phase = .idle ∧
      (waiting [.write 32 0 0x32]).host.pending = .write 32 (waiting [.write 32 0 0x32]).params.regBase 0x32 :: [] ∧
      decode .ctrl 0x32 = .ok (.readBits 3 false) ∧ (waiting [.write 32 0 0x32]).host.duty ≠ .replaced ∧
      callsInByte (.readBits 3 false) (waiting []) = true := by decide +kernel

/-- The two sides of the exception: five bits are left, and READ_BITS wants 5 or 6. -/
theorem test_witness_StepRunsTheCommandWritten_replaced :
    (replaced [.write 32 0 0x52]).work.phase = .idle ∧ (replaced [.write 32 0 0x52]).host.duty = .replaced ∧
      decode .ctrl 0x52 = .ok (.readBits 5 false) ∧ callsInByte (.readBits 5 false) (replaced []) = false ∧
      decode .ctrl 0x62 = .ok (.readBits 6 false) ∧ callsInByte (.readBits 6 false) (replaced []) = true := by decide +kernel

/-- The sequencer about to fetch the key `key` of a format. -/
def fetching (f : Format) (key : Nat) : State := placeKey f key State.reset

theorem test_witness_StepRunsTheDecodedSymbol :
    ((fetching .blockHdr 5).work.phase = .blockHdr ∧
      fetchBlockHdr (fetching .blockHdr 5) = .ok 5 (left (fetchBlockHdr (fetching .blockHdr 5))) ∧
      decode .blockHdr (BitVec.ofNat 32 5) = .ok (.btype2Dynamic true)) ∧
    ((fetching .clSym 18).work.phase = .clSym ∧
      decodeSym .cl (fetching .clSym 18) = .ok 18 (left (decodeSym .cl (fetching .clSym 18))) ∧
      decode .clSym (BitVec.ofNat 32 18) = .ok .clZeroLong) ∧
    ((fetching .litSym 256).work.phase = .litSym ∧
      decodeSym .lit (fetching .litSym 256) = .ok 256 (left (decodeSym .lit (fetching .litSym 256))) ∧
      decode .litSym (BitVec.ofNat 32 256) = .ok .eob) ∧
    ((fetching .distSym 29).work.phase = .distSym ∧
      decodeSym .dist (fetching .distSym 29) = .ok 29 (left (decodeSym .dist (fetching .distSym 29))) ∧
      decode .distSym (BitVec.ofNat 32 29) = .ok .dist29) :=
  ⟨⟨rfl, ok_of_value (by decide +kernel), by decide +kernel⟩, ⟨rfl, ok_of_value (by decide +kernel), by decide +kernel⟩,
    ⟨rfl, ok_of_value (by decide +kernel), by decide +kernel⟩, rfl, ok_of_value (by decide +kernel), by decide +kernel⟩

theorem test_witness_HostAccesses :
    (waiting []).work.phase = .idle ∧ (waiting []).host.pending = [] ∧
    (waiting [.read 32 0x40]).host.pending = .read 32 0x40 :: [] ∧
    (waiting [.read 32 0x44]).host.pending = .read 32 0x44 :: [] ∧
    (waiting [.write 32 0x40 7]).host.pending = .write 32 0x40 7 :: [] ∧
    (¬(32 = 32 ∧ 0x40 % 4 = 0 ∧ 0x40 ≤ 0x40) ∨ (0x40 ≠ 0 ∧ 0x40 ≠ 0x2C ∧ 0x40 ≠ 0x30)) ∧
    (waiting [.write 16 0 7]).host.pending = .write 16 0 7 :: [] ∧ ¬(16 = 32 ∧ 0 % 4 = 0 ∧ 0 ≤ 0x40) ∧
    (waiting [.attach [1]]).host.pending = .attach [1] :: [] ∧ [1].length ≤ (waiting [.attach [1]]).params.inputMax ∧
    ({ waiting [.attach [1]] with params := { Params.hardware with inputMax := 0 } } : State).params.inputMax < [1].length ∧
    (waitingAt40001000 [.read 32 0x40001040]).host.pending =
      .read 32 ((waitingAt40001000 [.read 32 0x40001040]).params.regBase + 0x40) :: [] ∧
    0x40000FFF < (waitingAt40001000 []).params.regBase := by
  decide +kernel

theorem test_witness_TableRegisterWrites :
    (waiting [.write 32 0x2C 0x2012]).work.phase = .idle ∧
    (waiting [.write 32 0x2C 0x2012]).host.pending = .write 32 0x2C 0x2012 :: [] ∧
    (waiting [.write 32 0x30 9]).work.phase = .idle ∧ (waiting [.write 32 0x30 9]).host.pending = .write 32 0x30 9 :: [] := by
  decide +kernel

theorem test_witness_RegisterWordsHoldTheirFields : (ready [0xB5]).work.phase = .idle := by decide +kernel

/-- A context with T_LIT built and TBL_ADDR at a symbol. -/
def addressed (tsel : BitVec 2) (index : BitVec 9) : State :=
  { withTable .lit [0, 1, 2, 2] (ready []) with tblAddr := { index := index, tsel := tsel } }

theorem test_witness_TableRegisterReads :
    ((addressed 1 0).tblAddr.tsel = 1 ∧ (codeOf (getTable (addressed 1 0).tables .lit) 0).1 = 0) ∧
    ((addressed 1 3).tblAddr.tsel = 1 ∧ (codeOf (getTable (addressed 1 3).tables .lit) 3).1 ≠ 0 ∧
      (getTable (addressed 1 3).tables .lit).lens.length ≤ 288) ∧
    (codeOf (getTable (addressed 1 4).tables .lit) 4).1 = 0 ∧ (addressed 3 0).tblAddr.tsel = 3 := by decide +kernel

theorem test_witness_HardwareResetState :
    (waiting [.hardwareReset]).work.phase = .idle ∧ (waiting [.hardwareReset]).host.pending = .hardwareReset :: [] := by
  decide +kernel

theorem test_witness_NopSetsDoneOnly : (ready []).status.error = false ∧ failed.status.error = true := by decide +kernel

theorem test_witness_CommandsAreIgnoredWhileError :
    Instr.isCommand .decodeStream = true ∧ Instr.decodeStream ≠ .resetCtx ∧ failed.status.error = true := by decide +kernel

theorem test_witness_ReservedCommandsRaise :
    8 ≤ ((0x00000008#32).extractLsb' 0 4).toNat ∧ 8 ≤ ((0xFFFFFFFF#32).extractLsb' 0 4).toNat ∧
      (ready []).status.error = false ∧ failed.status.error = true := by decide +kernel

theorem test_witness_IllegalOperandsAndEndedStreamsRaise :
    (ready []).status.error = false ∧ (ready []).status.errcode = 0 ∧
    ¬(1 ≤ (0#6).toNat ∧ (0#6).toNat ≤ 32) ∧ ¬(1 ≤ (33#6).toNat ∧ (33#6).toNat ≤ 32) ∧
    (1 ≤ (1#6).toNat ∧ (32#6).toNat ≤ 32) ∧
    after (exec (.readBits 32 false) (ready [1, 2, 3, 4])) (fun t => t.status.errcode) = some 0 ∧
    ¬((3#2).toNat ≤ 2) ∧ ((2#2).toNat ≤ 2 ∧ 1 ≤ (32#9).toNat ∧ (32#9).toNat ≤ ([19, 288, 32][(2#2).toNat]?).getD 0) ∧
    ¬((33#9).toNat ≤ ([19, 288, 32][(2#2).toNat]?).getD 0) ∧
    ((0#2).toNat ≤ 2 ∧ (19#9).toNat ≤ ([19, 288, 32][(0#2).toNat]?).getD 0 ∧ ¬((20#9).toNat ≤ ([19, 288, 32][(0#2).toNat]?).getD 0)) ∧
    after (exec (.buildTable 2 32) (ready [])) (fun t => t.status.errcode) = some 0 ∧
    after (exec (.decodeSymbol 2) (ready [])) (fun t => t.status.errcode) = some 3 ∧
    (markStreamEnd (ready [])).status.streamEnd = true ∧ (ready []).status.streamEnd = false ∧
    after (exec .decodeHeader (ready [])) (fun t => t.status.errcode) = some 5 ∧
    after (exec .decodeBlock (ready [])) (fun t => t.status.errcode) = some 5 := by decide +kernel

theorem test_witness_ReadBitsOnTheStream :
    BufferInv (ready [0xB5]).reader ∧ InputBounded (ready [0xB5]) ∧ 8 ≤ (streamBits (ready [0xB5])).length ∧
      (streamBits (ready [0xB5])).length < 9 ∧ 32 ≤ (streamBits (ready [1, 2, 3, 4])).length ∧
      (streamBits (ready [])).length < 1 := by decide +kernel

theorem test_witness_ReadBitsCommandCompletes :
    (ready [1, 2, 3, 4]).status.error = false ∧ BufferInv (ready [1, 2, 3, 4]).reader ∧ InputBounded (ready [1, 2, 3, 4]) ∧
      1 ≤ (32#6).toNat ∧ (32#6).toNat ≤ 32 ∧ (32#6).toNat ≤ (streamBits (ready [1, 2, 3, 4])).length := by decide +kernel

theorem test_witness_SuccessiveReadsConcatenate :
    BufferInv (ready [1, 2, 3, 4]).reader ∧ InputBounded (ready [1, 2, 3, 4]) ∧
      readBits 13 false (ready [1, 2, 3, 4]) = .ok 0x201 (left (readBits 13 false (ready [1, 2, 3, 4]))) ∧
      readBits 19 false (left (readBits 13 false (ready [1, 2, 3, 4]))) =
        .ok 0x2018 (left (readBits 19 false (left (readBits 13 false (ready [1, 2, 3, 4]))))) :=
  ⟨by decide +kernel, by decide +kernel, ok_of_value (by decide +kernel), ok_of_value (by decide +kernel)⟩

theorem test_witness_KeptReadIsLookAhead :
    BufferInv (ready [0xB5]).reader ∧ InputBounded (ready [0xB5]) ∧
      readBits 3 true (ready [0xB5]) = .ok 5 (left (readBits 3 true (ready [0xB5]))) :=
  ⟨by decide +kernel, by decide +kernel, ok_of_value (by decide +kernel)⟩

theorem test_witness_BufferInvariantIsKept :
    BufferInv (waiting [.write 32 0 0x32]).reader ∧
      after (step (waiting [.write 32 0 0x32])) (fun t => t.reader.bitcnt) = some 5 := by decide +kernel

theorem test_witness_AtMostSevenBitsAreLeftOver :
    Instr.isCommand (.readBits 3 false) = true ∧ (∀ n, Instr.readBits 3 false ≠ .readBits n true) ∧
      (ready [0xB5]).reader.bitcnt.toNat ≤ 7 ∧
      after (exec (.readBits 3 false) (ready [0xB5])) (fun t => t.status.error) = some false := by decide +kernel

theorem test_witness_StreamPositionNeverGoesBack :
    Instr.readBits 3 false ≠ .resetCtx ∧ BufferInv (ready [0xB5]).reader ∧ InputBounded (ready [0xB5]) ∧
      after (exec (.readBits 3 false) (ready [0xB5])) (fun t => (streamBits t).length) = some 5 := by decide +kernel

theorem test_witness_BuildAssignsCanonicalCodes :
    [1#4, 0#4, 2#4][2]? = some 2#4 ∧ (2#4).toNat ≠ 0 ∧ TableId.lit ≠ TableId.cl := by decide +kernel

theorem test_witness_BuildTableCommandCompletes :
    (ready []).status.error = false ∧ (19#9).toNat ≤ 19 ∧ (288#9).toNat ≤ 288 ∧ (32#9).toNat ≤ 32 ∧ 1 ≤ (1#9).toNat := by
  decide +kernel

theorem test_witness_CanonicalCodesArePrefixFree :
    kraftSum [3, 3, 3, 3, 3, 2, 4, 4] = 2 ^ 15 ∧
      (codeOf { lens := [3, 3, 3, 3, 3, 2, 4, 4] } 0).1 = (codeOf { lens := [3, 3, 3, 3, 3, 2, 4, 4] } 4).1 ∧
      (codeOf { lens := [3, 3, 3, 3, 3, 2, 4, 4] } 0).1 ≠ 0 := by decide +kernel

theorem test_witness_OverSubscribedTablesAreBuilt :
    (codeOf { lens := [1, 1, 1] } 0).1 = (codeOf { lens := [1, 1, 1] } 2).1 ∧ (codeOf { lens := [1, 1, 1] } 0).1 ≠ 0 ∧
      2 ^ (codeOf (getTable (withTable .cl [1, 1, 1] (ready [])).tables .cl) 2).1 ≤
        (codeOf (getTable (withTable .cl [1, 1, 1] (ready [])).tables .cl) 2).2 := by decide +kernel

theorem test_witness_ResolutionMapIsExact :
    resolve (codeTable { lens := [0, 0, 0, 0, 1] }) 1 0 = some 4 ∧ resolve (codeTable { lens := [0, 0, 0, 0, 1] }) 1 1 = none := by
  decide +kernel

theorem test_witness_DecodeSymbolCommandCompletes :
    (withTable .lit [3, 3, 3, 3, 3, 2, 4, 4] (ready [0x07])).status.error = false ∧
      BufferInv (withTable .lit [3, 3, 3, 3, 3, 2, 4, 4] (ready [0x07])).reader ∧
      InputBounded (withTable .lit [3, 3, 3, 3, 3, 2, 4, 4] (ready [0x07])) ∧
      usable (getTable (withTable .lit [3, 3, 3, 3, 3, 2, 4, 4] (ready [0x07])).tables .lit) 6 ∧
      streamBits (withTable .lit [3, 3, 3, 3, 3, 2, 4, 4] (ready [0x07])) =
        codeBits (getTable (withTable .lit [3, 3, 3, 3, 3, 2, 4, 4] (ready [0x07])).tables .lit) 6 ++
          [false, false, false, false] := by decide +kernel

theorem test_witness_NoMatchingCodeIsInvalidCode :
    BufferInv (withTable .dist [0, 0, 0, 0, 1] (ready [0x01])).reader ∧
      InputBounded (withTable .dist [0, 0, 0, 0, 1] (ready [0x01])) ∧
      maxLen (getTable (withTable .dist [0, 0, 0, 0, 1] (ready [0x01])).tables .dist) = 1 ∧
      1 ≤ (streamBits (withTable .dist [0, 0, 0, 0, 1] (ready [0x01]))).length ∧
      resolve (codeTable { lens := [0, 0, 0, 0, 1] }) 1
        (codeValue ((streamBits (withTable .dist [0, 0, 0, 0, 1] (ready [0x01]))).take 1)) = none ∧
      maxLen (getTable (ready []).tables .cl) = 0 := by decide +kernel

theorem test_witness_InputEndsInsideACodeOrField :
    BufferInv (withTable .lit [9] (ready [0xFF])).reader ∧ InputBounded (withTable .lit [9] (ready [0xFF])) ∧
      (streamBits (withTable .lit [9] (ready [0xFF]))).length < maxLen (getTable (withTable .lit [9] (ready [0xFF])).tables .lit) ∧
      ∀ k, k ≤ (streamBits (withTable .lit [9] (ready [0xFF]))).length → 1 ≤ k →
        resolve (codeTable (getTable (withTable .lit [9] (ready [0xFF])).tables .lit)) k
          (codeValue ((streamBits (withTable .lit [9] (ready [0xFF]))).take k)) = none := by decide +kernel

/-- P1 attached, its 3-bit block header read. -/
def atHeader1 : State := { ready p1 with reader := { bitbuf := 0x1d >>> 3, bitcnt := 5, inCount := 1 } }

/-- The five bits HLIT alone; the 14 bits of HLIT, HDIST and HCLEN alone; the input that lacks the last bit of the last CL length; and P1,
which does not end there. -/
theorem test_witness_InputEndsInsideACodeOrField_header :
    BufferInv atHeader1.reader ∧ InputBounded atHeader1 ∧ ¬endsInHeaderFields (streamBits atHeader1) ∧
    endsInHeaderFields ((streamBits atHeader1).take 5) ∧ endsInHeaderFields ((streamBits atHeader1).take 14) ∧
    endsInHeaderFields ((streamBits atHeader1).take 67) ∧ ¬endsInHeaderFields ((streamBits atHeader1).take 68) ∧
    (endsInHeaderFields (streamBits { atHeader1 with input := some [0x1D, 0xC1] }) ∧
      atHeader1.status.error = false) ∧
    (streamBits (ready (p1.take 5)) =
        fieldBits 1 true.toNat ++ fieldBits 2 2 ++ (streamBits (ready (p1.take 5))).drop 3 ∧
      endsInHeaderFields ((streamBits (ready (p1.take 5))).drop 3) ∧ (ready (p1.take 5)).status.streamEnd = false) ∧
    (streamBits (ready [])).length < 3 ∧
    (streamBits { ready [] with reader := { bitbuf := 3, bitcnt := 2, inCount := 0 } }).length < 3 := by decide +kernel

/-- One bit is left where each of the operations wants more. -/
theorem test_witness_InputEndsInsideACodeOrField_fields :
    BufferInv { bitbuf := 1, bitcnt := 1, inCount := 0 } ∧
    (streamBits { inSequence 1 [] with reader := { bitbuf := 1, bitcnt := 1, inCount := 0 } }).length = 1 ∧
    InputBounded { inSequence 1 [] with reader := { bitbuf := 1, bitcnt := 1, inCount := 0 } } ∧ 0 < (inSequence 1 []).work.seqIndex ∧
    lengthCodes[(12 : Fin 29).val]? = some .len269 ∧ 1 < (lengthRow 12).2 ∧
    distanceCodes[(6 : Fin 30).val]? = some .dist6 ∧ 1 < (distanceRow 6).2 := by decide +kernel


theorem test_witness_DynamicHeaderFieldsAreRead :
    BufferInv atHeader1.reader ∧ InputBounded atHeader1 ∧ text1.clLens.length = text1.hclen.toNat + 4 ∧
      streamBits atHeader1 = fieldBits 5 text1.hlit.toNat ++ fieldBits 5 text1.hdist.toNat ++ fieldBits 4 text1.hclen.toNat
        ++ text1.clLens.flatMap (fun l => fieldBits 3 l.toNat) ++ (streamBits atHeader1).drop 68 := by decide +kernel

theorem test_witness_LiteralLengthIsStored :
    SequenceBounds (inSequence 0 []).work ∧ SequenceBounds (inSequence 259 []).work := by decide +kernel

theorem test_witness_RepeatPreviousLength :
    (inSequence 0 [0x01]).work.seqIndex = 0 ∧
    (SequenceBounds (inSequence 257 [0x00]).work ∧ BufferInv (inSequence 257 [0x00]).reader ∧
      InputBounded (inSequence 257 [0x00]) ∧ 0 < (inSequence 257 [0x00]).work.seqIndex ∧
      streamBits (inSequence 257 [0x00]) = fieldBits 2 (0#2).toNat ++ List.replicate 6 false ∧
      (inSequence 257 [0x00]).work.seqIndex + (3 + (0#2).toNat) ≤ headerTotal (inSequence 257 [0x00]).work) ∧
    (SequenceBounds (inSequence 258 [0x00]).work ∧
      streamBits (inSequence 258 [0x00]) = fieldBits 2 (0#2).toNat ++ List.replicate 6 false ∧
      headerTotal (inSequence 258 [0x00]).work < (inSequence 258 [0x00]).work.seqIndex + (3 + (0#2).toNat)) := by
  decide +kernel

theorem test_witness_ZeroRunsAreStored :
    (SequenceBounds (inSequence 257 [0x00]).work ∧ BufferInv (inSequence 257 [0x00]).reader ∧
      InputBounded (inSequence 257 [0x00]) ∧
      streamBits (inSequence 257 [0x00]) = fieldBits 3 (0#3).toNat ++ List.replicate 5 false ∧
      (inSequence 257 [0x00]).work.seqIndex + (3 + (0#3).toNat) ≤ headerTotal (inSequence 257 [0x00]).work) ∧
    headerTotal (inSequence 258 [0x00]).work < (inSequence 258 [0x00]).work.seqIndex + (3 + (0#3).toNat) ∧
    (SequenceBounds (inSequence 249 [0x00]).work ∧
      streamBits (inSequence 249 [0x00]) = fieldBits 7 (0#7).toNat ++ [false] ∧
      (inSequence 249 [0x00]).work.seqIndex + (11 + (0#7).toNat) ≤ headerTotal (inSequence 249 [0x00]).work) ∧
    headerTotal (inSequence 250 [0x00]).work < (inSequence 250 [0x00]).work.seqIndex + (11 + (0#7).toNat) := by decide +kernel

theorem test_witness_DecodeHeaderReadsAHeader :
    atHeader1.status.error = false ∧ BufferInv atHeader1.reader ∧ InputBounded atHeader1 ∧ text1.headerValid ∧
      streamBits atHeader1 = text1.headerBits ++ (streamBits atHeader1).drop 111 := by decide +kernel

theorem test_witness_OtherBlockTypesAreUnsupported :
    (ready [0x07]).status.error = false ∧ (ready [0x07]).status.streamEnd = false ∧ (3#2 ≠ 2#2 ∧ 1#2 ≠ 2#2 ∧ 0#2 ≠ 2#2) ∧
      BufferInv (ready [0x07]).reader ∧ InputBounded (ready [0x07]) ∧
      streamBits (ready [0x07]) = fieldBits 1 true.toNat ++ fieldBits 2 (3#2).toNat ++ List.replicate 5 false ∧
      streamBits (ready [0x02]) = fieldBits 1 false.toNat ++ fieldBits 2 (1#2).toNat ++ List.replicate 5 false ∧
      streamBits (ready [0x00]) = fieldBits 1 false.toNat ++ fieldBits 2 (0#2).toNat ++ List.replicate 5 false := by
  decide +kernel

theorem test_witness_LiteralIsEmitted :
    (afterAB []).params.Legal ∧ Memory.wf (afterAB []).params.windowSize (afterAB []).output.win := by decide +kernel

theorem test_witness_EndOfBlock :
    (afterAB []).work.cmd ≠ .stream ∧
      ({ afterAB [] with work := { (afterAB []).work with cmd := .stream } } : State).work.bfinal = false ∧
      ({ afterAB [] with work := { (afterAB []).work with cmd := .stream, bfinal := true } } : State).work.bfinal = true := by
  decide +kernel

theorem test_witness_LengthCodesGiveTheirLengths :
    (lengthCodes[(27 : Fin 29).val]? = some .len284 ∧ BufferInv (ready [0x1F]).reader ∧ InputBounded (ready [0x1F]) ∧
      31 < 2 ^ (lengthRow 27).2 ∧ streamBits (ready [0x1F]) = fieldBits (lengthRow 27).2 31 ++ [false, false, false]) ∧
    (lengthCodes[(28 : Fin 29).val]? = some .len285 ∧ 0 < 2 ^ (lengthRow 28).2 ∧
      streamBits (ready []) = fieldBits (lengthRow 28).2 0 ++ []) := by decide +kernel

theorem test_witness_history : HistoryInv (afterAB []) ∧ HistoryInv (ready []) := by decide +kernel

theorem test_witness_DistanceCodesCopyTheirMatch :
    distanceCodes[(1 : Fin 30).val]? = some .dist1 ∧ HistoryInv (afterAB []) ∧ BufferInv (afterAB []).reader ∧
      InputBounded (afterAB []) ∧ 0 < 2 ^ (distanceRow 1).2 ∧
      streamBits (afterAB []) = fieldBits (distanceRow 1).2 0 ++ [] ∧
      (distanceRow 1).1 + 0 ≤ (afterAB []).output.histCount.toNat := by decide +kernel

theorem test_witness_DistanceBeyondHistoryRaises :
    distanceCodes[(2 : Fin 30).val]? = some .dist2 ∧ BufferInv (afterAB []).reader ∧ InputBounded (afterAB []) ∧
      0 < 2 ^ (distanceRow 2).2 ∧ streamBits (afterAB []) = fieldBits (distanceRow 2).2 0 ++ [] ∧
      (afterAB []).output.histCount.toNat < (distanceRow 2).1 + 0 ∧
      HistoryInv (afterAB []) ∧ 2 ≤ (afterAB []).output.out.length ∧ ¬(3 ≤ (afterAB []).output.out.length) := by
  decide +kernel

/-- P1's text is a block a stream can carry at the start of a member. -/
theorem test_text1_valid : text1.valid [] := by
  refine ⟨by decide +kernel, ?_, by decide +kernel, by decide +kernel⟩
  intro x hx
  have hx : x = .lit 65 ∨ x = .lit 66 ∨ x = .copy 2 0 1 0 := by simpa [text1] using hx
  rcases hx with rfl | rfl | rfl
  · show usable text1.litTable 65
    decide +kernel
  · show usable text1.litTable 66
    decide +kernel
  · show usable text1.litTable 259 ∧ 0 < 2 ^ (lengthRow 2).2 ∧ usable text1.distTable 1 ∧ 0 < 2 ^ (distanceRow 1).2
    decide +kernel

/-- P1's bits are its text's, and five unused ones. -/
theorem test_text1_bits : streamBits (ready p1) = text1.bits ++ List.replicate 5 false := by decide +kernel

theorem test_witness_DecodeBlockReadsABlock :
    (ready p1).status.error = false ∧ (ready p1).status.streamEnd = false ∧ BufferInv (ready p1).reader ∧
      InputBounded (ready p1) ∧ HistoryInv (ready p1) ∧ text1.valid (ready p1).output.out ∧
      streamBits (ready p1) = text1.bits ++ List.replicate 5 false :=
  ⟨rfl, rfl, by decide +kernel, by decide +kernel, by decide +kernel, test_text1_valid, test_text1_bits⟩

theorem test_witness_DecodeStreamReadsAMember :
    (ready p1).status.error = false ∧ (ready p1).status.streamEnd = false ∧ BufferInv (ready p1).reader ∧
      InputBounded (ready p1) ∧ HistoryInv (ready p1) ∧ memberValid (ready p1).output.out [text1] ∧
      streamBits (ready p1) = [text1].flatMap BlockText.bits ++ List.replicate 5 false :=
  ⟨rfl, rfl, by decide +kernel, by decide +kernel, by decide +kernel, ⟨test_text1_valid, rfl⟩,
    by simpa using test_text1_bits⟩

/-- DECODE_BLOCK and DECODE_STREAM at a block header of BTYPE 3: one symbol, whose operation ends the command. -/
def unsupported (c : Cmd) : State := startBlocks c (clearDone (ready [0x07]))

/-- The state its one symbol leads to. -/
def unsupportedEnd (c : Cmd) : State :=
  landed (execStreamOp (.btype3Reserved true) (left (fetchBlockHdr (unsupported c)))) State.reset

theorem test_witness_StreamCommandsRunTheirSymbols (c : Cmd) :
    (ready [0x07]).status.error = false ∧ InputBounded (ready [0x07]) ∧ (ready [0x07]).status.streamEnd = false ∧
      (unsupportedEnd c).work.phase = .idle ∧ SymbolRun (unsupported c) (unsupportedEnd c) := by
  refine ⟨rfl, by decide +kernel, rfl, rfl, .step (fun h => by cases h) (.op (i := .btype3Reserved true) ?_ rfl) (.stop _)⟩
  show fetchedKey .blockHdr (fetchBlockHdr (unsupported c)) = _
  rw [ok_of_value (x := fetchBlockHdr (unsupported c)) (a := 7) (by cases c <;> decide +kernel)]
  rfl

/-- DECODE_HEADER's start: the fields and CL lengths are read and the first meta-symbol is due. -/
theorem test_witness_StreamCommandsRunTheirSymbols_header :
    beginHeader { clearDone atHeader1 with work := { Work.idle with cmd := .header } } =
        .ok () (left (beginHeader { clearDone atHeader1 with work := { Work.idle with cmd := .header } })) ∧
      (left (beginHeader { clearDone atHeader1 with work := { Work.idle with cmd := .header } })).work.phase = .clSym :=
  ⟨ok_of_value (by decide +kernel), by decide +kernel⟩

/-- DECODE_HEADER on no input: HLIT cannot be read. -/
theorem test_witness_StreamCommandsRunTheirSymbols_cut :
    beginHeader { clearDone (ready []) with work := { Work.idle with cmd := .header } } =
        .raised (left (beginHeader { clearDone (ready []) with work := { Work.idle with cmd := .header } })) ∧
      (left (beginHeader { clearDone (ready []) with work := { Work.idle with cmd := .header } })).work.phase = .idle :=
  ⟨rfl, by decide +kernel⟩

theorem test_witness_ErrorsOfEachCommand :
    Instr.isCommand .decodeBlock = true ∧ (ready []).status.error = false ∧
      after (exec .decodeBlock (ready [])) (fun t => t.status.error) = some true := by decide +kernel

theorem test_witness_ErrorsLeaveResultAndOutput :
    Instr.isCommand (.readBits 1 false) = true ∧ (ready []).status.error = false ∧
      after (exec (.readBits 1 false) (ready [])) (fun t => t.status.error) = some true := by decide +kernel

theorem test_witness_NoInstructionChangesInputOrTblAddr :
    after (exec .resetCtx (addressed 1 3)) (fun t => t.tblAddr.index) = some 3 := by decide +kernel

theorem test_witness_OutputOnlyGrows :
    Instr.dist1 ≠ .resetCtx ∧ (afterAB []).params.Legal ∧
      after (exec .dist1 (afterAB [])) (fun t => t.output.out.length) = some 7 := by decide +kernel

theorem test_witness_TablesChangeOnlyByBuilds :
    after (exec .eob (afterAB [])) (fun t => t.blockCount) = some 1 ∧
      after (exec (.buildTable 1 4) (ready [])) (fun t => t.tables.lit.lens.length) = some 4 := by decide +kernel

theorem test_witness_FramesOfStreamReaders :
    after (exec (.readBits 3 false) (ready [0xB5])) (fun t => t.result) = some 5 ∧
      after (exec (.decodeSymbol 0) (ready [0xB5])) (fun t => t.status.errcode) = some 3 ∧
      after (exec .decodeHeader (ready [])) (fun t => t.status.errcode) = some 5 ∧
      Instr.len285 ∈ lengthCodes ∧ after (exec .len285 (ready [])) (fun t => t.work.copyLen) = some 258 ∧
      Instr.dist1 ∈ distanceCodes ∧ after (exec .dist1 (afterAB [])) (fun t => t.work.copyDist) = some 2 ∧
      after (exec .clZeroLong (inSequence 0 [0x7F])) (fun t => t.work.seqIndex) = some 138 := by decide +kernel

theorem test_witness_CommandsAreAtomic :
    Instr.isCommand .nop = true ∧ (ready []).work.phase = .idle ∧
      after (exec .nop (ready [])) (fun t => t.work.phase) = some .idle ∧
      after (step (waiting [.write 32 0 0x32])) (fun t => t.result) = some 5 := by decide +kernel

/-- A step within a block that copies: the premises of the invariants hold, and the step has a next state. -/
theorem test_witness_MachineInvariantIsKept : MachineInv (withTable .dist [0, 1] (afterAB [0x00])) :=
  ⟨by decide +kernel, by decide +kernel, by decide +kernel, by decide +kernel, by decide +kernel, by decide +kernel,
    by decide +kernel⟩

/-- Its next state, which the invariants are kept in. -/
theorem test_witness_MachineInvariantIsKept_step :
    after (step (withTable .dist [0, 1] (afterAB [0x00]))) (fun t => t.output.out) = some [65, 66, 65, 66, 65, 66, 65] := by
  decide +kernel

theorem test_witness_HistoryInvariantIsKept : HistoryInv (withTable .dist [0, 1] (afterAB [0x00])) :=
  test_witness_MachineInvariantIsKept.2.2.1

theorem test_witness_StatusInvariantIsKept : StatusInv (withTable .dist [0, 1] (afterAB [0x00])) :=
  test_witness_MachineInvariantIsKept.2.2.2.1

theorem test_witness_EveryCommandEnds :
    Instr.isCommand .decodeStream = true ∧ MachineInv (ready p1) :=
  ⟨rfl, by decide +kernel, by decide +kernel, by decide +kernel, by decide +kernel, by decide +kernel, by decide +kernel,
    by decide +kernel⟩

theorem test_witness_NoStepFaults : MachineInv (withTable .dist [0, 1] (afterAB [0x00])) := test_witness_MachineInvariantIsKept

theorem test_witness_WindowSizeIsNotObservable :
    SameButWindow (afterAB []) { afterAB [] with params := { Params.hardware with windowSize := 65536 } } ∧
      HistoryInv (afterAB []) ∧
      HistoryInv { afterAB [] with params := { Params.hardware with windowSize := 65536 } } :=
  ⟨rfl, by decide +kernel, by decide +kernel⟩

end Sys2Proof.Tests
end

/-! ## PROOF. The history window and the append-only output (spec/20_memory.md R58, R59; spec/45_block_decoder.md R200, R203) -/

namespace Sys2Proof.Machine

/-- The part of HistoryInv that speaks of the output side, for a window of `w` bytes. -/
structure TracksOut (w : Nat) (o : Output) : Prop where
  wf : Memory.wf w o.win
  outCount : o.outCount.toNat = o.out.length % 2 ^ 32
  histCount : o.histCount.toNat = min o.out.length w
  reads : ∀ d, d < o.histCount.toNat + 1 → 1 ≤ d →
    Memory.read (windowAddr w d o) o.win = o.out[o.out.length - d]?

theorem historyInv_iff {s : State} :
    HistoryInv s ↔ s.params.Legal ∧ TracksOut s.params.windowSize s.output :=
  ⟨fun ⟨hl, hw, ho, hh, hr⟩ => ⟨hl, hw, ho, hh, hr⟩, fun ⟨hl, hw, ho, hh, hr⟩ => ⟨hl, hw, ho, hh, hr⟩⟩

/-- What the window arithmetic uses of a legal W: it divides 2^32, and holds the longest distance (R7). -/
structure WindowBounds (w : Nat) : Prop where
  dvd : w ∣ 2 ^ 32
  least : 32768 ≤ w
  greatest : w ≤ 2 ^ 31

theorem windowBounds_of_legal {p : Params} (h : p.Legal) : WindowBounds p.windowSize := by
  obtain ⟨⟨k, hk, hk15, hw⟩, -⟩ := h
  rw [hw]
  exact ⟨pow_dvd_pow 2 hk.le, Nat.pow_le_pow_right (n := 2) (i := 15) (by omega) hk15,
    Nat.pow_le_pow_right (by omega) (by omega)⟩

theorem inputMax_lt_of_legal {p : Params} (h : p.Legal) : p.inputMax < 2 ^ 32 := by
  have := h.2
  omega

/-- The address `d` bytes behind the next write, from the number of bytes written: OUT_COUNT's wrap does not show, as W divides
2^32. -/
theorem windowAddr_eq {w d n : Nat} {o : Output} (hw : w ∣ 2 ^ 32) (ho : o.outCount.toNat = n % 2 ^ 32) (hd : d ≤ n) :
    windowAddr w d o = (n - d) % w := by
  have key : ((n % 2 ^ 32 : Nat) - (d : Int)) % (w : Int) = ((n - d : Nat) : Int) % w := by
    rw [Int.sub_emod, Int.natCast_mod, Int.emod_emod_of_dvd _ (by exact_mod_cast hw), ← Int.sub_emod, Nat.cast_sub hd]
  unfold windowAddr
  rw [ho, key]
  exact Int.toNat_natCast _

/-- OUT_COUNT after one more byte. -/
theorem toNat_add_one_of_mod {x : Word} {n : Nat} (h : x.toNat = n % 2 ^ 32) : (x + 1).toNat = (n + 1) % 2 ^ 32 := by
  rw [BitVec.toNat_add, h]
  simp

/-- Two positions less than W apart stand at different window addresses. -/
theorem mod_ne_of_lt {w a b : Nat} (h : a < b) (hb : b < a + w) : a % w ≠ b % w := by
  intro he
  have hdvd : w ∣ b - a := (Nat.modEq_iff_dvd' h.le).1 he
  have := Nat.le_of_dvd (by omega) hdvd
  omega

/-- The empty output of a new context, whatever bytes the window still holds. -/
theorem TracksOut.empty {w : Nat} {win : List Host.Cell} (h : Memory.wf w win) :
    TracksOut w { Output.reset with win := win } := by
  refine ⟨h, rfl, (Nat.zero_min w).symm, fun d hd h1 => ?_⟩
  have : d < 0 + 1 := hd
  omega

/-- Emit keeps the window in step with OUT. -/
theorem TracksOut.emitByte {w : Nat} {o : Output} (hw : WindowBounds w) (h : TracksOut w o) (b : Byte) :
    TracksOut w (emitByte w b o) := by
  obtain ⟨hdvd, hleast, hgreatest⟩ := hw
  have hout := toNat_add_one_of_mod h.outCount
  have hhist : (Sys2Proof.Machine.emitByte w b o).histCount.toNat = min (o.out.length + 1) w := by
    rw [emitByte_histCount, BitVec.toNat_ofNat, h.histCount, Nat.mod_eq_of_lt] <;> omega
  refine ⟨emitByte_wf b (by omega) h.wf, by simpa using hout, by simpa using hhist, fun d hd h1 => ?_⟩
  rw [hhist] at hd
  have hwrite : o.outCount.toNat % w = o.out.length % w := by
    rw [h.outCount, Nat.mod_mod_of_dvd _ hdvd]
  rw [windowAddr_eq hdvd (n := o.out.length + 1) hout (by omega), emitByte_win, emitByte_out, hwrite, List.length_append,
    List.length_singleton]
  obtain rfl | hd2 : d = 1 ∨ 2 ≤ d := by omega
  · simp
  · have hold : windowAddr w (d - 1) o = (o.out.length + 1 - d) % w := by
      rw [windowAddr_eq hdvd h.outCount (by omega)]
      congr 1
      omega
    rw [Memory.read_write_other _ _ (mod_ne_of_lt (by omega) (by omega)), ← hold,
      h.reads (d - 1) (by rw [h.histCount]; omega) (by omega), List.getElem?_append_left (by omega)]
    congr 1
    omega

/-- A copy within HIST_COUNT reads only written entries, and does to OUT what the append-only copy does (R203). -/
theorem TracksOut.copyBytes {w dist : Nat} {o : Output} (hw : WindowBounds w) (h : TracksOut w o) (h1 : 1 ≤ dist)
    (hd : dist ≤ o.histCount.toNat) (len : Nat) :
    ∃ o', copyBytes w dist len o = some o' ∧ TracksOut w o' ∧ o'.out = appendCopy dist len o.out := by
  induction len generalizing o with
  | zero => exact ⟨o, rfl, h, rfl⟩
  | succ len ih =>
    have hlt : o.out.length - dist < o.out.length := by
      have := h.histCount
      omega
    have hread := h.reads dist (by omega) h1
    rw [List.getElem?_eq_getElem hlt] at hread
    have hnext := h.emitByte hw o.out[o.out.length - dist]
    obtain ⟨o', hcopy, ho', hout⟩ := ih hnext (by
      have := h.histCount
      have := hnext.histCount
      simp only [emitByte_out, List.length_append, List.length_singleton] at this
      omega)
    refine ⟨o', by rw [copyBytes_succ, hread]; exact hcopy, ho', ?_⟩
    rw [hout, emitByte_out, appendCopy, List.getElem?_eq_getElem hlt]
    rfl

end Sys2Proof.Machine

/-! ## PROOF. The Bit Reader and the symbol decoder keep the buffer's invariant and use stream bits up
(spec/41_bitreader.md R142, R143) -/

namespace Sys2Proof.Machine

/-- The reader has moved from `r` to `r'` and consumed at least `n` stream bits: the buffer is well formed, and IN_COUNT has not
passed the end of the input unless it stood there already. -/
structure ReaderMoves (input : List Byte) (n : Nat) (r r' : Reader) : Prop where
  buffer : BufferInv r'
  consumed : bitsLeft input r' + n ≤ bitsLeft input r
  inCount : r'.inCount.toNat ≤ max r.inCount.toNat input.length

namespace ReaderMoves
variable {input : List Byte} {m n : Nat} {r q p : Reader}

theorem refl (h : BufferInv r) : ReaderMoves input 0 r r := ⟨h, le_rfl, le_max_left _ _⟩

theorem trans (h : ReaderMoves input m r q) (h' : ReaderMoves input n q p) : ReaderMoves input (m + n) r p := by
  obtain ⟨-, hc, hi⟩ := h
  obtain ⟨hb', hc', hi'⟩ := h'
  exact ⟨hb', by omega, by omega⟩

theorem weaken (h : ReaderMoves input n r q) (hm : m ≤ n) : ReaderMoves input m r q :=
  ⟨h.buffer, by have := h.consumed; omega, h.inCount⟩

end ReaderMoves

/-- A byte put above at most 31 buffered bits. -/
theorem bufferInv_pushByte {b : Byte} {r : Reader} (h : BufferInv r) (hr : r.bitcnt.toNat ≤ 31) :
    BufferInv (pushByte b r) ∧ (pushByte b r).bitcnt.toNat = r.bitcnt.toNat + 8 := by
  have hcnt : (pushByte b r).bitcnt.toNat = r.bitcnt.toNat + 8 := by
    rw [pushByte_bitcnt, BitVec.toNat_add, show (8 : BitVec 6).toNat = 8 from rfl]
    omega
  refine ⟨⟨by omega, ?_⟩, hcnt⟩
  have hb : b.toNat < 2 ^ 8 := b.isLt
  have hshift : b.toNat <<< r.bitcnt.toNat < 2 ^ (r.bitcnt.toNat + 8) := by
    rw [Nat.shiftLeft_eq, Nat.add_comm, Nat.pow_add]
    exact Nat.mul_lt_mul_of_pos_right hb (by positivity)
  have hbuf : r.bitbuf.toNat < 2 ^ (r.bitcnt.toNat + 8) := h.2.trans_le (Nat.pow_le_pow_right (by omega) (by omega))
  rw [hcnt]
  simp only [pushByte, BitVec.toNat_or, BitVec.toNat_shiftLeft]
  refine Nat.or_lt_two_pow hbuf ((Nat.mod_le _ _).trans_lt ?_)
  rwa [BitVec.toNat_setWidth, Nat.mod_eq_of_lt (by omega)]

/-- InByte gives a byte only below the end of the input; IN_COUNT moves past it and does not wrap (R32). -/
theorem inByte_eq_some {input : List Byte} {r q : Reader} {b : Byte} (hlen : input.length < 2 ^ 32)
    (h : inByte input r = some (b, q)) :
    r.inCount.toNat < input.length ∧ q.inCount.toNat = r.inCount.toNat + 1 ∧ q.bitcnt = r.bitcnt ∧ q.bitbuf = r.bitbuf := by
  unfold inByte at h
  split at h
  · rename_i hget
    injection h with h
    injection h with _ h
    have hlt : r.inCount.toNat < input.length := (List.getElem?_eq_some_iff.1 hget).1
    subst h
    refine ⟨hlt, ?_, rfl, rfl⟩
    show (r.inCount + 1).toNat = _
    rw [BitVec.toNat_add, show (1 : Word).toNat = 1 from rfl]
    omega
  · cases h

/-- One refill: InByte gave a byte, which stands above the buffered bits now. -/
theorem readerMoves_pushByte {input : List Byte} {r q : Reader} {b : Byte} (hlen : input.length < 2 ^ 32) (h : BufferInv r)
    (hr : r.bitcnt.toNat ≤ 31) (hb : inByte input r = some (b, q)) :
    ReaderMoves input 0 r (pushByte b q) ∧ (pushByte b q).bitcnt.toNat = r.bitcnt.toNat + 8 := by
  obtain ⟨hlt, hcount, hcnt, hbuf⟩ := inByte_eq_some hlen hb
  have hq : BufferInv q := by rwa [BufferInv, hcnt, hbuf]
  obtain ⟨hinv, hpush⟩ := bufferInv_pushByte (b := b) hq (by rwa [hcnt])
  rw [hcnt] at hpush
  refine ⟨⟨hinv, ?_, by rw [pushByte_inCount]; omega⟩, hpush⟩
  rw [bitsLeft, bitsLeft, hpush, pushByte_inCount]
  omega

/-- The refill loop consumes nothing, and with refills enough it ends with the bits asked for. -/
theorem refill_moves {input : List Byte} (hlen : input.length < 2 ^ 32) {n : Nat} (hn : n ≤ 32) {fuel : Nat} {r : Reader}
    (h : BufferInv r) :
    (∀ q, refill input fuel n r = .ok q →
      ReaderMoves input 0 r q ∧ (n ≤ r.bitcnt.toNat + 8 * fuel → n ≤ q.bitcnt.toNat)) ∧
    ∀ q, refill input fuel n r = .error q → ReaderMoves input 0 r q := by
  induction fuel generalizing r with
  | zero =>
    refine ⟨fun q hq => ?_, nofun⟩
    cases hq
    exact ⟨.refl h, id⟩
  | succ fuel ih =>
    unfold refill
    split_ifs with hc
    · refine ⟨fun q hq => ?_, nofun⟩
      cases hq
      exact ⟨.refl h, fun _ => hc⟩
    · cases hb : inByte input r with
      | none =>
        refine ⟨nofun, fun q hq => ?_⟩
        cases hq
        exact .refl h
      | some p =>
        obtain ⟨b, p⟩ := p
        obtain ⟨hmove, hcnt⟩ := readerMoves_pushByte hlen h (by omega) hb
        obtain ⟨hok, herror⟩ := ih hmove.buffer
        refine ⟨fun q hq => ?_, fun q hq => hmove.trans (herror q hq)⟩
        obtain ⟨hq, hbits⟩ := hok q hq
        exact ⟨hmove.trans hq, fun hle => hbits (by omega)⟩

/-- Dropping `n` bits that are there. -/
theorem readerMoves_dropBits {input : List Byte} {n : Nat} {r : Reader} (h : BufferInv r) (hn : n ≤ r.bitcnt.toNat) :
    ReaderMoves input n r (dropBits n r) := by
  have hcnt : (dropBits n r).bitcnt.toNat = r.bitcnt.toNat - n := by
    rw [dropBits_bitcnt, BitVec.toNat_sub, BitVec.toNat_ofNat]
    have := r.bitcnt.isLt
    omega
  refine ⟨⟨by rw [hcnt]; omega, ?_⟩, ?_, by simp⟩
  · rw [hcnt, dropBits_bitbuf, BitVec.toNat_ushiftRight, Nat.shiftRight_eq_div_pow]
    refine Nat.div_lt_of_lt_mul ?_
    rw [← Nat.pow_add, Nat.add_sub_cancel' hn]
    exact h.2
  · simp only [bitsLeft, hcnt, dropBits_inCount]
    omega

/-- ReadBits(n, keep) gives n bits and consumes them unless they are kept. -/
theorem readerMoves_of_read {input : List Byte} (hlen : input.length < 2 ^ 32) {n : Nat} (hn : n ≤ 32) {keep : Bool}
    {r q : Reader} (h : BufferInv r) {v : Nat} (hq : readerRead input n keep r = .read v q) :
    ReaderMoves input (if keep then 0 else n) r q := by
  obtain ⟨p, hp, -, rfl⟩ := readerRead_eq_read.1 hq
  obtain ⟨hmove, hbits⟩ := (refill_moves hlen hn h).1 p hp
  cases keep with
  | true => exact hmove
  | false => simpa using hmove.trans (readerMoves_dropBits hmove.buffer (hbits (by omega)))

/-- Where the input runs out, ReadBits has consumed nothing (R144). -/
theorem readerMoves_of_exhausted {input : List Byte} (hlen : input.length < 2 ^ 32) {n : Nat} (hn : n ≤ 32) {keep : Bool}
    {r q : Reader} (h : BufferInv r) (hq : readerRead input n keep r = .exhausted q) : ReaderMoves input 0 r q := by
  unfold readerRead at hq
  cases hp : refill input 4 n r with
  | ok p => simp [hp] at hq
  | error p =>
    obtain rfl : p = q := by simpa [hp] using hq
    exact (refill_moves hlen hn h).2 p hp

/-- A symbol's decoding consumes a bit at least. -/
theorem readerMoves_of_resolved {input : List Byte} (hlen : input.length < 2 ^ 32) {codes : List (Nat × Nat)} {left sym : Nat}
    {d d' : Decoder} {r q : Reader} (h : BufferInv r) (hq : traverse input codes left d r = .resolved sym d' q) :
    ReaderMoves input 1 r q := by
  induction left generalizing d r with
  | zero => cases hq
  | succ left ih =>
    unfold traverse at hq
    cases hp : readerRead input 1 false r with
    | exhausted p => simp [hp] at hq
    | read b p =>
      have hmove : ReaderMoves input 1 r p := readerMoves_of_read hlen (by omega) h hp
      cases hr : resolve codes (pushBit b d).k.toNat (pushBit b d).acc.toNat with
      | some found =>
        obtain ⟨-, -, rfl⟩ : found = sym ∧ pushBit b d = d' ∧ p = q := by simpa [hp, hr] using hq
        exact hmove
      | none => exact (hmove.trans (ih hmove.buffer (by simpa [hp, hr] using hq))).weaken (by omega)

/-- A traversal that fails leaves a well-formed buffer. -/
theorem readerMoves_of_unresolved {input : List Byte} (hlen : input.length < 2 ^ 32) {codes : List (Nat × Nat)} {left : Nat}
    {d d' : Decoder} {r q : Reader} (h : BufferInv r)
    (hq : traverse input codes left d r = .invalid d' q ∨ traverse input codes left d r = .exhausted d' q) :
    ReaderMoves input 0 r q := by
  induction left generalizing d r with
  | zero =>
    obtain ⟨-, rfl⟩ : d = d' ∧ r = q := by simpa [traverse] using hq
    exact .refl h
  | succ left ih =>
    unfold traverse at hq
    cases hp : readerRead input 1 false r with
    | exhausted p =>
      obtain ⟨-, rfl⟩ : d = d' ∧ p = q := by simpa [hp] using hq
      exact readerMoves_of_exhausted hlen (by omega) h hp
    | read b p =>
      have hmove : ReaderMoves input 1 r p := readerMoves_of_read hlen (by omega) h hp
      cases hr : resolve codes (pushBit b d).k.toNat (pushBit b d).acc.toNat with
      | some found => simp [hp, hr] at hq
      | none => exact (hmove.trans (ih hmove.buffer (by simpa [hp, hr] using hq))).weaken (by omega)

end Sys2Proof.Machine

/-! ## PROOF. The machine's invariants within a command, and the primitives that keep them -/

namespace Sys2Proof.Machine

/-- The stream bits that the state has still to consume. -/
def streamLeft (s : State) : Nat := bitsLeft (inputBytes s) s.reader

/-- The invariants of MachineInv that hold whatever STATUS says, with the host's duty as a parameter: no instruction changes it. -/
structure CoreInv (d : InputDuty) (s : State) : Prop where
  duty : s.host.duty = d
  buffer : BufferInv s.reader
  legal : s.params.Legal
  inputLength : (inputBytes s).length ≤ s.params.inputMax
  inCount : d ≠ .replaced → s.reader.inCount.toNat ≤ (inputBytes s).length
  tracksOut : TracksOut s.params.windowSize s.output
  tables : TableInv s
  sequence : SequenceInv s.work
  pending : PendingCopyInv s.work

/-- All the invariants but the one about a context that no command has used yet. -/
structure SoundState (d : InputDuty) (s : State) : Prop extends CoreInv d s where
  status : StatusInv s

/-- The invariants while a command is in progress: it has not raised an error, and DONE is cleared (R130). -/
structure Running (d : InputDuty) (s : State) : Prop extends CoreInv d s where
  noError : s.status.error = false
  notDone : s.status.done = false
  errcode : s.status.errcode = 0
  errinfo : s.errinfo = ErrInfo.reset

/-- The invariants after a command. -/
structure Ended (d : InputDuty) (s : State) : Prop extends SoundState d s where
  idle : s.work.phase = .idle

theorem machineInv_iff {s : State} :
    MachineInv s ↔ SoundState s.host.duty s ∧
      (s.host.duty = .fresh → s.reader.inCount.toNat = 0 ∧ s.work.phase = .idle) := by
  constructor
  · rintro ⟨hbuffer, ⟨hlegal, hlength, hcount, hfresh⟩, hhistory, hstatus, htables, hsequence, hpending⟩
    exact ⟨⟨⟨rfl, hbuffer, hlegal, hlength, hcount, (historyInv_iff.1 hhistory).2, htables, hsequence, hpending⟩,
      hstatus⟩, hfresh⟩
  · rintro ⟨h, hfresh⟩
    exact ⟨h.buffer, ⟨h.legal, h.inputLength, h.inCount, hfresh⟩, historyInv_iff.2 ⟨h.legal, h.tracksOut⟩,
      h.status, h.tables, h.sequence, h.pending⟩

/-- In a context in use nothing is left to say. -/
theorem SoundState.machineInv {d : InputDuty} {s : State} (h : SoundState d s) (hd : d ≠ .fresh) : MachineInv s := by
  obtain rfl := h.duty
  exact machineInv_iff.2 ⟨h, fun hf => absurd hf hd⟩

section
variable {d : InputDuty} {s : State}

theorem Running.sound (h : Running d s) : SoundState d s :=
  { h.toCoreInv with
    status := ⟨fun _ => ⟨h.errcode, h.errinfo⟩, fun he => by simp [h.noError] at he, fun _ => ⟨h.noError, h.notDone⟩⟩ }

theorem SoundState.running (h : SoundState d s) (he : s.status.error = false) (hd : s.status.done = false) : Running d s :=
  { h.toCoreInv with noError := he, notDone := hd, errcode := (h.status.1 he).1, errinfo := (h.status.1 he).2 }

/-- Within a command the machine is running. -/
theorem SoundState.running_of_busy (h : SoundState d s) (hp : s.work.phase ≠ .idle) : Running d s :=
  h.running (h.status.2.2 hp).1 (h.status.2.2 hp).2

/-- An accepted command is running (R130). -/
theorem SoundState.running_clearDone (h : SoundState d s) (he : s.status.error = false) : Running d (clearDone s) :=
  { h.toCoreInv with noError := he, notDone := rfl, errcode := (h.status.1 he).1, errinfo := (h.status.1 he).2 }

theorem Running.inputBytes_lt (h : Running d s) : (inputBytes s).length < 2 ^ 32 :=
  h.inputLength.trans_lt (inputMax_lt_of_legal h.legal)

/-! ### Updates of a running state -/

/-- The codes of R214 that the block raises. -/
theorem errorCode_bounds (e : ErrorKind) : 2 ≤ (errorCode e).toNat ∧ (errorCode e).toNat ≤ 7 := by
  cases e <;> decide

theorem Running.raise (h : Running d s) (e : ErrorKind) (c : BitVec 8) (v : BitVec 16) : Ended d (raise e c v s) :=
  { h.toCoreInv with
    sequence := nofun
    pending := nofun
    status := ⟨nofun, fun _ => ⟨(errorCode_bounds e).1, (errorCode_bounds e).2, h.notDone⟩, fun hp => absurd rfl hp⟩
    idle := rfl }

theorem Running.complete (h : Running d s) : Ended d (complete s) :=
  { h.toCoreInv with
    sequence := nofun
    pending := nofun
    status := ⟨fun _ => ⟨h.errcode, h.errinfo⟩, fun he => by simp [h.noError] at he, fun hp => absurd rfl hp⟩
    idle := rfl }

theorem Running.completeWith (h : Running d s) (v : Nat) : Ended d (completeWith v s) :=
  Running.complete (s := { s with result := BitVec.ofNat 32 v }) { h with }

theorem Running.withReader (h : Running d s) {n : Nat} {r : Reader} (hr : ReaderMoves (inputBytes s) n s.reader r) :
    Running d { s with reader := r } :=
  { h with
    buffer := hr.buffer
    inCount := fun hd => hr.inCount.trans (max_le (h.inCount hd) le_rfl) }

theorem Running.withHdr (h : Running d s) (x : Hdr) : Running d { s with hdr := x } := { h with }

theorem Running.withLens (h : Running d s) (l : Lens) : Running d { s with lens := l } := { h with }

/-- Of the working state only a code-length sequence's position and a pending copy have an invariant (R171, R190). -/
theorem Running.withWork (h : Running d s) {w : Work} (hs : SequenceInv w) (hp : PendingCopyInv w) :
    Running d { s with work := w } :=
  { h with sequence := hs, pending := hp }

/-- No snapshot is larger than its alphabet (R7, R41). -/
theorem snapshot_length_le (l : Lens) (t : TableId) (n : Nat) : (snapshot l t n).lens.length ≤ tableSize t := by
  cases t <;> simp [snapshot, lenArray, tableSize]

/-- LEN_CL holds 3-bit lengths. -/
theorem snapshot_cl_le {l : Lens} {n : Nat} {v : BitVec 4} (h : v ∈ (snapshot l .cl n).lens) : v.toNat ≤ 7 := by
  obtain ⟨x, -, rfl⟩ := List.mem_map.1 (List.mem_of_mem_take h)
  rw [BitVec.toNat_setWidth]
  have := x.isLt
  omega

theorem tableInv_buildTable (t : TableId) (n : Nat) (h : TableInv s) : TableInv (buildTable t n s) := by
  obtain ⟨hcl, hlen, hlit, hdist⟩ := h
  have hsize := snapshot_length_le s.lens t n
  cases t with
  | cl => exact ⟨hsize, fun _ hv => snapshot_cl_le hv, hlit, hdist⟩
  | lit => exact ⟨hcl, hlen, hsize, hdist⟩
  | dist => exact ⟨hcl, hlen, hlit, hsize⟩

theorem Running.buildTable (h : Running d s) (t : TableId) (n : Nat) : Running d (buildTable t n s) :=
  { h with tables := tableInv_buildTable t n h.tables }

end

/-! ### How a primitive and a step can answer -/

/-- The primitive gives a value and a state that meet `P`, or it has ended the command. -/
def Res.Ensures {α : Type} (d : InputDuty) (P : α → State → Prop) : Res α → Prop
  | .ok a t => P a t
  | .raised t => Ended d t

/-- The outcome is a next state that meets `P`. -/
def Answers (P : State → Prop) (o : StepOutcome) : Prop := ∃ t, o = .next t ∧ P t

/-- A symbol's operation has ended the command, or goes on with no more stream bits than before. -/
abbrev Proceeds (d : InputDuty) (s t : State) : Prop := Ended d t ∨ Running d t ∧ streamLeft t ≤ streamLeft s

theorem Answers.next {P : State → Prop} {t : State} (h : P t) : Answers P (.next t) := ⟨t, rfl, h⟩

section
variable {d : InputDuty} {α β : Type}

theorem Res.Ensures.mono {P Q : α → State → Prop} {x : Res α} (h : x.Ensures d P) (hpq : ∀ a t, P a t → Q a t) :
    x.Ensures d Q := by
  cases x with
  | ok a t => exact hpq a t h
  | raised t => exact h

theorem Res.Ensures.andThen {P : α → State → Prop} {Q : β → State → Prop} {x : Res α} {f : α → State → Res β}
    (h : x.Ensures d P) (hf : ∀ a t, P a t → (f a t).Ensures d Q) : (x.andThen f).Ensures d Q := by
  cases x with
  | ok a t => exact hf a t h
  | raised t => exact h

theorem Res.Ensures.toOutcome {P : α → State → Prop} {Q : State → Prop} {x : Res α} {f : α → State → StepOutcome}
    (h : x.Ensures d P) (hf : ∀ a t, P a t → Answers Q (f a t)) (hq : ∀ t, Ended d t → Q t) :
    Answers Q (x.toOutcome f) := by
  cases x with
  | ok a t => exact hf a t h
  | raised t => exact .next (hq t h)

/-! ### The reader and the decoder on a running state -/

variable {s : State}

/-- The state has only moved its reader, by `n` stream bits at least. -/
abbrev Advances (d : InputDuty) (n : Nat) (s t : State) : Prop :=
  ∃ r, t = { s with reader := r } ∧ Running d t ∧ streamLeft t + n ≤ streamLeft s

theorem readBits_ensures (h : Running d s) {n : Nat} (hn : n ≤ 32) (keep : Bool) :
    (readBits n keep s).Ensures d fun v t => v < 2 ^ n ∧ Advances d (if keep then 0 else n) s t := by
  cases hx : readBits n keep s with
  | ok v t =>
    obtain ⟨r, hr, rfl⟩ := readBits_eq_ok.1 hx
    have hmove := readerMoves_of_read h.inputBytes_lt hn h.buffer hr
    exact ⟨readerRead_lt hr, r, rfl, h.withReader hmove, hmove.consumed⟩
  | raised t =>
    obtain ⟨r, hr, rfl⟩ := readBits_eq_raised.1 hx
    exact (h.withReader (readerMoves_of_exhausted h.inputBytes_lt hn h.buffer hr)).raise .inputExhausted 0 0

theorem readExtra_ensures (h : Running d s) {n : Nat} (hn : n ≤ 32) :
    (readExtra n s).Ensures d fun v t => v < 2 ^ n ∧ Advances d n s t := by
  obtain rfl | hpos := eq_or_ne n 0
  · exact ⟨Nat.one_pos, s.reader, rfl, h, le_rfl⟩
  · rw [readExtra_pos hpos]
    exact readBits_ensures h hn false

theorem Running.setDecoder (h : Running d s) {n : Nat} (dec : Decoder) {r : Reader}
    (hr : ReaderMoves (inputBytes s) n s.reader r) : Running d (setDecoder dec r s) :=
  (h.withReader hr).withWork h.sequence h.pending

theorem decodeSym_ensures (h : Running d s) (t : TableId) :
    (decodeSym t s).Ensures d fun sym u =>
      sym < (getTable s.tables t).lens.length ∧ Running d u ∧ streamLeft u + 1 ≤ streamLeft s := by
  cases hx : decodeSym t s with
  | ok sym u =>
    refine ⟨decodeSym_lt hx, ?_⟩
    obtain ⟨dec, r, ht, rfl⟩ := decodeSym_eq_ok.1 hx
    have hmove := readerMoves_of_resolved h.inputBytes_lt h.buffer ht
    exact ⟨h.setDecoder dec hmove, hmove.consumed⟩
  | raised u =>
    unfold decodeSym at hx
    split at hx
    · cases hx
    · rename_i dec r ht
      injection hx with hx
      exact hx ▸ (h.setDecoder dec (readerMoves_of_unresolved h.inputBytes_lt h.buffer (.inl ht))).raise _ _ _
    · rename_i dec r ht
      injection hx with hx
      exact hx ▸ (h.setDecoder dec (readerMoves_of_unresolved h.inputBytes_lt h.buffer (.inr ht))).raise _ _ _

end

end Sys2Proof.Machine

/-! ## PROOF. The operations of the stream formats and the sequencer keep the invariants and end (spec/40_control.md R136) -/

namespace Sys2Proof.Machine

/-- The length codes are the rows of R192's table, in order. -/
theorem lengthCodes_map_execStreamOp : lengthCodes.map execStreamOp = lengthTable.map fun p => lengthCode p.1 p.2 := rfl

/-- The distance codes are the rows of R195's table, in order. -/
theorem distanceCodes_map_execStreamOp :
    distanceCodes.map execStreamOp = distanceTable.map fun p => distanceCode p.1 p.2 := rfl

theorem execStreamOp_of_mem_lengthCodes {i : Instr} (h : i ∈ lengthCodes) :
    ∃ p ∈ lengthTable, lengthCode p.1 p.2 = execStreamOp i :=
  List.mem_map.1 (lengthCodes_map_execStreamOp ▸ List.mem_map_of_mem h)

theorem execStreamOp_of_mem_distanceCodes {i : Instr} (h : i ∈ distanceCodes) :
    ∃ p ∈ distanceTable, distanceCode p.1 p.2 = execStreamOp i :=
  List.mem_map.1 (distanceCodes_map_execStreamOp ▸ List.mem_map_of_mem h)

/-- The operations of the stream formats by the shared operation that gives each its effect: what holds of each of these
meanings holds of every stream operation. The base and width of a length or distance code stand in its table (R192, R195). -/
theorem execStreamOp_induction {C : (State → StepOutcome) → Prop}
    (raises : ∀ e c v, C fun s => .next (raise e c v s))
    (dynamic : ∀ bfinal, C (execBtype2Dynamic bfinal))
    (clLen : ∀ v, C (execClLen v))
    (repeatPrev : C execClRepeatPrev)
    (zeros : ∀ m base extra, extra ≤ 7 → C (lengthRun m base extra 0))
    (lit : ∀ b, C (execLit b))
    (eob : C execEob)
    (length : ∀ p ∈ lengthTable, C (lengthCode p.1 p.2))
    (distance : ∀ p ∈ distanceTable, C (distanceCode p.1 p.2))
    {i : Instr} (hi : i.isCommand = false) : C (execStreamOp i) := by
  have ofLength : ∀ j ∈ lengthCodes, C (execStreamOp j) := fun j hj =>
    have ⟨p, hp, he⟩ := execStreamOp_of_mem_lengthCodes hj
    he ▸ length p hp
  have ofDistance : ∀ j ∈ distanceCodes, C (execStreamOp j) := fun j hj =>
    have ⟨p, hp, he⟩ := execStreamOp_of_mem_distanceCodes hj
    he ▸ distance p hp
  cases i
  case btype0Stored | btype1Fixed | btype3Reserved | litReserved | distReserved => exact raises _ _ _
  case btype2Dynamic bfinal => exact dynamic bfinal
  case clLen v => exact clLen v
  case clRepeatPrev => exact repeatPrev
  case clZeroShort => exact zeros 17 3 3 (by decide)
  case clZeroLong => exact zeros 18 11 7 (by decide)
  case lit b => exact lit b
  case eob => exact eob
  case nop | resetCtx | readBits | buildTable | decodeSymbol | decodeHeader | decodeBlock | decodeStream | reservedOp => cases hi
  case len257 | len258 | len259 | len260 | len261 | len262 | len263 | len264 | len265 | len266 | len267 | len268 |
      len269 | len270 | len271 | len272 | len273 | len274 | len275 | len276 | len277 | len278 | len279 | len280 |
      len281 | len282 | len283 | len284 | len285 =>
    exact ofLength _ (by decide)
  case dist0 | dist1 | dist2 | dist3 | dist4 | dist5 | dist6 | dist7 | dist8 | dist9 | dist10 | dist11 | dist12 |
      dist13 | dist14 | dist15 | dist16 | dist17 | dist18 | dist19 | dist20 | dist21 | dist22 | dist23 | dist24 |
      dist25 | dist26 | dist27 | dist28 | dist29 =>
    exact ofDistance _ (by decide)

theorem lengthTable_bounds : ∀ p ∈ lengthTable, 3 ≤ p.1 ∧ p.1 + 2 ^ p.2 ≤ 259 ∧ p.2 ≤ 5 := by decide

theorem distanceTable_bounds : ∀ p ∈ distanceTable, 1 ≤ p.1 ∧ p.1 + 2 ^ p.2 ≤ 32769 ∧ p.2 ≤ 13 := by decide

section
variable {d : InputDuty} {s : State}

/-! ### The dynamic header -/

theorem readClLens_ensures (syms : List Nat) (h : Running d s) :
    (readClLens syms s).Ensures d fun _ t => Running d t ∧ streamLeft t ≤ streamLeft s := by
  induction syms generalizing s with
  | nil => exact ⟨h, le_rfl⟩
  | cons sym rest ih =>
    refine (readBits_ensures h (n := 3) (by omega) false).andThen ?_
    rintro v _ ⟨-, r, rfl, hrun, hleft⟩
    refine (ih (hrun.withLens _)).mono ?_
    rintro _ t ⟨ht, hl⟩
    exact ⟨ht, hl.trans (Nat.le_of_add_right_le hleft)⟩

/-- The sequence begins at position 0 with HLIT + 257 and HDIST + 1 lengths due (R171, R174). -/
theorem Running.enterLengths (h : Running d s) {hlit hdist : Nat} (hl : hlit < 2 ^ 5) (hd : hdist < 2 ^ 5) :
    Running d (enterLengths hlit hdist s) :=
  { h with
    sequence := fun _ => by simp [headerTotal]; omega
    pending := nofun }

theorem beginHeader_ensures (h : Running d s) :
    (beginHeader s).Ensures d fun _ t => Running d t ∧ streamLeft t ≤ streamLeft s := by
  unfold beginHeader
  refine (readBits_ensures h (n := 5) (by omega) false).andThen ?_
  rintro hlit _ ⟨hlitLt, r, rfl, h1, left1⟩
  refine (readBits_ensures (h1.withHdr _) (n := 5) (by omega) false).andThen ?_
  rintro hdist _ ⟨hdistLt, r, rfl, h2, left2⟩
  refine (readBits_ensures (h2.withHdr _) (n := 4) (by omega) false).andThen ?_
  rintro hclen _ ⟨-, r, rfl, h3, left3⟩
  refine (readClLens_ensures _ ((h3.withHdr _).withLens _)).andThen ?_
  rintro _ t ⟨h4, left4⟩
  exact ⟨(h4.buildTable .cl 19).enterLengths hlitLt hdistLt, left4.trans ((Nat.le_of_add_right_le left3).trans
    ((Nat.le_of_add_right_le left2).trans (Nat.le_of_add_right_le left1)))⟩

/-! ### The code-length sequence -/

/-- The end of the header depends on no invariant of the working state. -/
theorem endHeader_proceeds (h : Running d { s with work := .idle }) : Proceeds d s (endHeader s) := by
  have hbuilt := (h.buildTable .lit s.work.nlit).buildTable .dist s.work.ndist
  unfold endHeader
  cases s.work.cmd with
  | header => exact .inl (hbuilt.completeWith _)
  | block | stream => exact .inr ⟨hbuilt.withWork nofun nofun, le_rfl⟩

/-- A stored run moves the position within the total, or ends the header. -/
theorem storeLens_proceeds (h : Running d s) (r : Nat) (v : BitVec 4) : Proceeds d s (storeLens r v s) := by
  have hlens := h.withLens (putRun s.work.nlit r s.work.seqIndex v s.lens)
  obtain ⟨hlt, he⟩ | ⟨-, he⟩ := storeLens_cases r v s <;> rw [he]
  · exact .inr ⟨hlens.withWork (w := (storedRun r v s).work) (fun hp => ⟨hlt, (h.sequence hp).2⟩) h.pending, le_rfl⟩
  · exact endHeader_proceeds (hlens.withWork nofun nofun)

theorem lengthRun_answers (h : Running d s) (m : BitVec 16) (base : Nat) {extra : Nat} (he : extra ≤ 32) (v : BitVec 4) :
    Answers (Proceeds d s) (lengthRun m base extra v s) := by
  refine (readBits_ensures h he false).toOutcome ?_ fun _ => .inl
  rintro e t ⟨-, -, -, hrun, hleft⟩
  split
  · exact .next (.inl (hrun.raise _ _ _))
  · exact .next ((storeLens_proceeds hrun _ v).imp_right fun ⟨hu, hl⟩ => ⟨hu, hl.trans (Nat.le_of_add_right_le hleft)⟩)

theorem execClRepeatPrev_answers (h : Running d s) : Answers (Proceeds d s) (execClRepeatPrev s) := by
  unfold execClRepeatPrev
  split
  · exact .next (.inl (h.raise _ _ _))
  · exact lengthRun_answers h 16 3 (by decide) _

/-! ### The block header, literals, lengths and distances -/

theorem execBtype2Dynamic_answers (h : Running d s) (bfinal : Bool) :
    Answers (Proceeds d s) (execBtype2Dynamic bfinal s) :=
  (beginHeader_ensures (h.withWork (w := { s.work with bfinal := bfinal }) h.sequence h.pending)).toOutcome
    (fun _ _ ht => .next (.inr ht)) fun _ => .inl

theorem execLit_answers (h : Running d s) (b : Byte) : Answers (Proceeds d s) (execLit b s) :=
  .next (.inr ⟨{ h with tracksOut := h.tracksOut.emitByte (windowBounds_of_legal h.legal) b }, le_rfl⟩)

theorem execEob_answers (h : Running d s) : Answers (Proceeds d s) (execEob s) := by
  have hended : Running d (if s.work.bfinal then markStreamEnd { s with blockCount := s.blockCount + 1 }
      else { s with blockCount := s.blockCount + 1 }) := by
    split <;> exact { h with }
  unfold execEob
  dsimp only
  split
  · refine .next (.inr ⟨hended.withWork nofun nofun, ?_⟩)
    split <;> exact le_rfl
  · exact .next (.inl (hended.completeWith _))

/-- A length of 3 to 258 is pending after a length code (R190). -/
theorem lengthCode_answers (h : Running d s) {p : Nat × Nat} (hp : p ∈ lengthTable) :
    Answers (Proceeds d s) (lengthCode p.1 p.2 s) := by
  obtain ⟨hleast, hgreatest, hwidth⟩ := lengthTable_bounds p hp
  refine (readExtra_ensures h (by omega)).toOutcome ?_ fun _ => .inl
  rintro e t ⟨he, -, -, hrun, hleft⟩
  have hlength : 3 ≤ p.1 + e ∧ p.1 + e ≤ 258 := by omega
  exact .next (.inr ⟨hrun.withWork nofun fun _ => hlength, Nat.le_of_add_right_le hleft⟩)

/-- A distance that reaches no further than HIST_COUNT has its bytes in the window (R198, R203). -/
theorem distanceCode_answers (h : Running d s) {p : Nat × Nat} (hp : p ∈ distanceTable) :
    Answers (Proceeds d s) (distanceCode p.1 p.2 s) := by
  obtain ⟨hleast, -, hwidth⟩ := distanceTable_bounds p hp
  refine (readExtra_ensures h (by omega)).toOutcome ?_ fun _ => .inl
  rintro e t ⟨-, -, -, hrun, hleft⟩
  split
  · exact .next (.inl (hrun.raise _ _ _))
  · rename_i hnear
    obtain ⟨o, hcopy, ho, -⟩ := hrun.tracksOut.copyBytes (windowBounds_of_legal hrun.legal) (dist := p.1 + e) (by omega)
      (Nat.le_of_not_lt hnear) t.work.copyLen
    unfold copyMatch
    rw [hcopy]
    exact .next (.inr ⟨{ hrun with tracksOut := ho, sequence := nofun, pending := nofun }, Nat.le_of_add_right_le hleft⟩)

/-- Every operation of a stream format ends its command or goes on. -/
theorem execStreamOp_answers (h : Running d s) {i : Instr} (hi : i.isCommand = false) :
    Answers (Proceeds d s) (execStreamOp i s) :=
  execStreamOp_induction (C := fun op => ∀ s, Running d s → Answers (Proceeds d s) (op s))
    (raises := fun e c v _ h => .next (.inl (h.raise e c v)))
    (dynamic := fun bfinal _ h => execBtype2Dynamic_answers h bfinal)
    (clLen := fun v _ h => .next (storeLens_proceeds h 1 v))
    (repeatPrev := fun _ h => execClRepeatPrev_answers h)
    (zeros := fun m base _ he _ h => lengthRun_answers h m base (by omega) 0)
    (lit := fun b _ h => execLit_answers h b)
    (eob := fun _ h => execEob_answers h)
    (length := fun _ hp _ h => lengthCode_answers h hp)
    (distance := fun _ hp _ h => distanceCode_answers h hp) hi s h

/-! ### The symbol fetch and the sequencer -/

/-- The symbols a format has: keys of 3 bits, and alphabets of 19, 288 and 32 symbols (R7, R88). -/
def alphabetSize : Format → Nat
  | .ctrl => 2 ^ 32
  | .blockHdr => 8
  | .clSym => 19
  | .litSym => 288
  | .distSym => 32

/-- Every symbol of the alphabet has an operation. -/
theorem decode_of_lt_alphabetSize {f : Format} {key : Word} (h : key.toNat < alphabetSize f) : ∃ i, decode f key = .ok i := by
  cases f with
  | ctrl => exact ⟨_, rfl⟩
  | blockHdr =>
    simp only [alphabetSize] at h
    simp only [decode]
    generalize key.toNat = k at h
    interval_cases k <;> exact ⟨_, rfl⟩
  | clSym =>
    simp only [alphabetSize] at h
    simp only [decode]
    generalize key.toNat = k at h
    interval_cases k <;> exact ⟨_, rfl⟩
  | litSym =>
    have hle : key.toNat ≤ 287 := Nat.le_of_lt_succ h
    simp only [decode, decodeLitSym, if_pos hle]
    repeat' split
    all_goals exact ⟨_, rfl⟩
  | distSym =>
    have hle : key.toNat ≤ 31 := Nat.le_of_lt_succ h
    simp only [decode, decodeDistSym, if_pos hle]
    split <;> exact ⟨_, rfl⟩

/-- A symbol's fetch ends the command in an error, or gives an operation and has consumed a stream bit. -/
abbrev FetchProceeds (d : InputDuty) (s : State) (x : Fetched) : Prop :=
  (∃ t, x = .settled t ∧ Ended d t) ∨
  ∃ i t, x = .run i t ∧ Running d t ∧ streamLeft t + 1 ≤ streamLeft s

theorem fetchedKey_proceeds {f : Format} {x : Res Nat}
    (h : x.Ensures d fun key t => key < alphabetSize f ∧ Running d t ∧ streamLeft t + 1 ≤ streamLeft s) :
    FetchProceeds d s (fetchedKey f x) := by
  cases x with
  | raised t => exact .inl ⟨t, rfl, h⟩
  | ok key t =>
    obtain ⟨hkey, ht⟩ := h
    obtain ⟨i, hi⟩ := decode_of_lt_alphabetSize (f := f) (key := BitVec.ofNat 32 key)
      ((Nat.mod_le _ _).trans_lt hkey)
    exact .inr ⟨i, t, by simp [fetchedKey, hi], ht⟩

theorem fetchBlockHdr_ensures (h : Running d s) :
    (fetchBlockHdr s).Ensures d fun key t => key < 8 ∧ Running d t ∧ streamLeft t + 1 ≤ streamLeft s := by
  refine (readBits_ensures h (n := 1) (by omega) false).andThen ?_
  rintro bfinal _ ⟨hbfinal, r, rfl, h1, left1⟩
  refine (readBits_ensures (h1.withHdr _) (n := 2) (by omega) false).andThen ?_
  rintro btype _ ⟨hbtype, r, rfl, h2, left2⟩
  exact ⟨by omega, h2.withHdr _, (Nat.add_le_add_right (Nat.le_of_add_right_le left2) 1).trans left1⟩

theorem decodeSym_ensures_alphabet (h : Running d s) {t : TableId} {n : Nat} (hn : (getTable s.tables t).lens.length ≤ n) :
    (decodeSym t s).Ensures d fun key u => key < n ∧ Running d u ∧ streamLeft u + 1 ≤ streamLeft s :=
  (decodeSym_ensures h t).mono fun _ _ ⟨hkey, hu⟩ => ⟨hkey.trans_le hn, hu⟩

theorem fetchSymbol_proceeds (h : Running d s) : FetchProceeds d s (fetchSymbol s) := by
  obtain ⟨hcl, -, hlit, hdist⟩ := h.tables
  unfold fetchSymbol
  cases hp : s.work.phase with
  | idle => exact .inl ⟨s, rfl, { h.sound with idle := hp }⟩
  | blockHdr => exact fetchedKey_proceeds (fetchBlockHdr_ensures h)
  | clSym => exact fetchedKey_proceeds (decodeSym_ensures_alphabet h hcl)
  | litSym => exact fetchedKey_proceeds (decodeSym_ensures_alphabet h hlit)
  | distSym => exact fetchedKey_proceeds (decodeSym_ensures_alphabet h hdist)

/-- With one symbol more than there are stream bits left the sequencer ends: every symbol consumes a bit (R136). -/
theorem runSequencer_answers {fuel : Nat} (h : Running d s) (hfuel : streamLeft s < fuel) :
    Answers (Ended d) (runSequencer fuel s) := by
  induction fuel generalizing s with
  | zero => omega
  | succ fuel ih =>
    rw [runSequencer_succ]
    obtain ⟨t, hf, ht⟩ | ⟨i, t, hf, ht, hleft⟩ := fetchSymbol_proceeds h
    · rw [hf]
      exact .next ht
    · obtain ⟨u, hx, hu⟩ := execStreamOp_answers ht (fetchSymbol_run_not_command hf)
      simp only [hf, hx]
      split
      · rename_i hp
        exact .next (hu.elim id fun hu => { hu.1.sound with idle := hp })
      · rename_i hp
        obtain hu | ⟨hu, hl⟩ := hu
        · exact absurd hu.idle hp
        · exact ih hu (by omega)

theorem runCommand_answers (h : Running d s) : Answers (Ended d) (runCommand s) :=
  runSequencer_answers h (Nat.lt_succ_self _)

end

end Sys2Proof.Machine

/-! ## PROOF. Commands, host accesses and steps keep the invariants and do not fault (spec/40_control.md R130, R136) -/

namespace Sys2Proof.Machine

section
variable {d : InputDuty} {s : State}

/-! ### The commands -/

/-- A command is ignored, turned down, or performed in a running state (R130 to R132). -/
theorem acceptCommand_answers (h : SoundState d s) (hp : s.work.phase = .idle) (op : BitVec 4) {illegal : Option (BitVec 8)}
    {perform : State → StepOutcome}
    (hperform : illegal = none → Running d (clearDone s) → Answers (Ended d) (perform (clearDone s))) :
    Answers (Ended d) (acceptCommand op illegal perform s) := by
  obtain ⟨-, he⟩ | ⟨herr, sub, -, he⟩ | ⟨herr, hlegal, he⟩ := acceptCommand_cases op illegal perform s <;> rw [he]
  · exact .next { h with idle := hp }
  · exact .next ((h.running_clearDone herr).raise .illegalCommand sub _)
  · exact hperform hlegal (h.running_clearDone herr)

theorem readBitsLegal_le {nbits : BitVec 6} (h : (if readBitsLegal nbits then none else some (2 : BitVec 8)) = none) :
    nbits.toNat ≤ 32 := by
  split at h
  · rename_i hl
    exact (of_decide_eq_true hl).2
  · cases h

/-- A new context meets the invariants whatever the context before it was, if INPUT and the window do (R134, R223). -/
theorem ended_newContext (h : SoundState d s) (host : HostPort) :
    Ended host.duty (complete (newContext { s with host := host })) where
  duty := rfl
  buffer := ⟨Nat.zero_le 39, Nat.one_pos⟩
  legal := h.legal
  inputLength := h.inputLength
  inCount := fun _ => Nat.zero_le _
  tracksOut := .empty h.tracksOut.wf
  tables := ⟨Nat.zero_le 19, nofun, Nat.zero_le 288, Nat.zero_le 32⟩
  sequence := nofun
  pending := nofun
  status := ⟨fun _ => ⟨rfl, rfl⟩, nofun, fun hp => absurd rfl hp⟩
  idle := rfl

theorem Running.startBlocks (h : Running d s) (c : Cmd) : Running d (startBlocks c s) := h.withWork nofun nofun

theorem execReadBits_answers (h : SoundState d s) (hp : s.work.phase = .idle) (nbits : BitVec 6) (keep : Bool) :
    Answers (Ended d) (execReadBits nbits keep s) := by
  unfold execReadBits
  refine acceptCommand_answers h hp 2 fun hl hr => (readBits_ensures hr (readBitsLegal_le hl) keep).toOutcome ?_ fun _ => id
  rintro v t ⟨-, -, -, ht, -⟩
  exact .next (ht.completeWith v)

theorem execBuildTable_answers (h : SoundState d s) (hp : s.work.phase = .idle) (tsel : BitVec 2) (nsym : BitVec 9) :
    Answers (Ended d) (execBuildTable tsel nsym s) := by
  unfold execBuildTable
  split
  · exact acceptCommand_answers h hp 3 fun hl => nomatch hl
  · exact acceptCommand_answers h hp 3 fun _ hr => .next ((hr.buildTable _ _).completeWith _)

theorem execDecodeSymbol_answers (h : SoundState d s) (hp : s.work.phase = .idle) (tsel : BitVec 2) :
    Answers (Ended d) (execDecodeSymbol tsel s) := by
  unfold execDecodeSymbol
  split
  · exact acceptCommand_answers h hp 4 fun hl => nomatch hl
  · refine acceptCommand_answers h hp 4 fun _ hr => (decodeSym_ensures hr _).toOutcome ?_ fun _ => id
    rintro sym t ⟨-, ht, -⟩
    exact .next (ht.completeWith sym)

theorem execDecodeHeader_answers (h : SoundState d s) (hp : s.work.phase = .idle) :
    Answers (Ended d) (execDecodeHeader s) := by
  unfold execDecodeHeader
  exact acceptCommand_answers h hp 5 fun _ hr =>
    (beginHeader_ensures (hr.withWork (w := { Work.idle with cmd := .header }) nofun nofun)).toOutcome
      (fun _ _ ht => runCommand_answers ht.1) fun _ => id

/-- Every command ends, and leaves the invariants in place (R136). -/
theorem exec_command_answers (h : SoundState d s) (hp : s.work.phase = .idle) {i : Instr} (hi : i.isCommand = true) :
    Answers (Ended d) (exec i s) := by
  cases i
  case nop =>
    show Answers (Ended d) (execNop s)
    unfold execNop
    exact acceptCommand_answers h hp 0 fun _ hr => .next hr.complete
  case resetCtx =>
    obtain rfl := h.duty
    exact .next (ended_newContext h s.host)
  case readBits nbits keep => exact execReadBits_answers h hp nbits keep
  case buildTable tsel nsym => exact execBuildTable_answers h hp tsel nsym
  case decodeSymbol tsel => exact execDecodeSymbol_answers h hp tsel
  case decodeHeader => exact execDecodeHeader_answers h hp
  case decodeBlock =>
    show Answers (Ended d) (execDecodeBlock s)
    unfold execDecodeBlock
    exact acceptCommand_answers h hp 6 fun _ hr => runCommand_answers (hr.startBlocks .block)
  case decodeStream =>
    show Answers (Ended d) (execDecodeStream s)
    unfold execDecodeStream
    exact acceptCommand_answers h hp 7 fun _ hr => runCommand_answers (hr.startBlocks .stream)
  case reservedOp op =>
    show Answers (Ended d) (execReservedOp op s)
    unfold execReservedOp
    exact acceptCommand_answers h hp op fun hl => nomatch hl
  all_goals cases hi

end

/-! ### The host's accesses -/

/-- The step answered a state with the invariants, or it was refused by name; it did not fault. -/
def StepSound : StepOutcome → Prop
  | .next t => MachineInv t
  | .fault _ => False
  | .refused _ => True

theorem Answers.stepSound {P : State → Prop} {o : StepOutcome} (h : Answers P o) (hp : ∀ t, P t → MachineInv t) :
    StepSound o := by
  obtain ⟨t, rfl, ht⟩ := h
  exact hp t ht

section
variable {s : State}

/-- The host's side of the state is no concern of the invariants but for the duty on INPUT. -/
theorem machineInv_withHost (h : MachineInv s) {p : HostPort} (hd : p.duty = s.host.duty) : MachineInv { s with host := p } := by
  rw [machineInv_iff] at h ⊢
  obtain ⟨h, hfresh⟩ := h
  exact ⟨{ h with duty := rfl, inCount := fun hr => h.inCount (hd ▸ hr) }, fun hf => hfresh (hd ▸ hf)⟩

/-- A write to TBL_ADDR or LEN_DATA touches no state of the invariants (R37, R38). -/
theorem machineInv_writeRegister (h : MachineInv s) (offset : Nat) (v : Word) : MachineInv (writeRegister offset v s) := by
  unfold writeRegister
  split
  · exact h
  · unfold writeLenData
    split <;> exact h
  · exact h

/-- ATTACH keeps IN_COUNT within INPUT: it stands at 0 in a fresh context, and where other bytes replaced INPUT nothing is said
(R70). -/
theorem machineInv_attach (h : MachineInv s) {bytes : List Byte} (hle : bytes.length ≤ s.params.inputMax) :
    MachineInv { s with
      input := some bytes,
      host := { s.host with duty := dutyAfterAttach (decide (s.input ≠ some bytes)) s.host.duty } } := by
  obtain ⟨hbuffer, ⟨hlegal, -, hcount, hfresh⟩, hrest⟩ := h
  refine ⟨hbuffer, ⟨hlegal, hle, ?_⟩, hrest⟩
  cases hd : s.host.duty with
  | fresh =>
    obtain ⟨hzero, hp⟩ := hfresh hd
    exact ⟨fun _ => hzero.trans_le (Nat.zero_le _), fun _ => ⟨hzero, hp⟩⟩
  | inUse =>
    have hcount : s.reader.inCount.toNat ≤ (inputBytes s).length := hcount (by rw [hd]; decide)
    by_cases he : s.input = some bytes
    · have hsame : inputBytes s = bytes := by rw [inputBytes, he, Option.getD_some]
      rw [hsame] at hcount
      exact ⟨fun _ => hcount, by simp [he, dutyAfterAttach]⟩
    · simp [he, dutyAfterAttach]
  | replaced => exact ⟨fun hr => absurd rfl hr, nofun⟩

/-- Hardware reset meets the invariants (R49, R240). -/
theorem machineInv_hardwareResetState (h : s.params.Legal) : MachineInv (hardwareResetState s) :=
  ⟨⟨Nat.zero_le 39, Nat.one_pos⟩,
    ⟨h, Nat.zero_le _, fun _ => Nat.zero_le _, fun _ => ⟨rfl, rfl⟩⟩,
    historyInv_iff.2 ⟨h, .empty ⟨.nil, nofun⟩⟩,
    ⟨fun _ => ⟨rfl, rfl⟩, nofun, fun hp => absurd rfl hp⟩,
    ⟨Nat.zero_le 19, nofun, Nat.zero_le 288, Nat.zero_le 32⟩, nofun, nofun⟩

/-- A command word is run with the context in use; RESET_CTX starts one that uses the INPUT now attached (R70, R134). -/
theorem stepSound_command (h : MachineInv s) (hp : s.work.phase = .idle) {i : Instr} (hi : i.isCommand = true) :
    StepSound (exec i { s with host := { s.host with duty := dutyAfterCommand i s.host.duty } }) := by
  have hsound := (machineInv_iff.1 h).1
  by_cases hreset : i = .resetCtx
  · subst hreset
    refine (ended_newContext hsound _).toSoundState.machineInv ?_
    cases s.host.duty <;> simp [dutyAfterCommand]
  · have hused : SoundState (dutyAfterCommand i s.host.duty)
        { s with host := { s.host with duty := dutyAfterCommand i s.host.duty } } :=
      { hsound with
        duty := rfl
        inCount := fun hr => hsound.inCount fun he => hr (by rw [he, dutyAfterCommand, if_neg hreset]) }
    refine (exec_command_answers hused hp hi).stepSound fun t ht => ht.toSoundState.machineInv ?_
    cases s.host.duty <;> simp [dutyAfterCommand, hreset]

/-- What the machine does next keeps the invariants: it settles in a state that meets them, refuses, or runs an instruction that
keeps them. -/
def FetchSound : Fetched → Prop
  | .run i t => StepSound (exec i t)
  | .settled t => MachineInv t
  | .fault _ => False
  | .refused _ => True

theorem fetchSound_hostMove (h : MachineInv s) (hp : s.work.phase = .idle) (a : HostAccess) : FetchSound (hostMove a s) := by
  cases a with
  | write width address v =>
    simp only [hostMove]
    split
    · exact h
    · split
      · simp only [fetchCommand]
        split
        · trivial
        · exact stepSound_command h hp (decodeCtrl_isCommand v)
      · exact machineInv_writeRegister h _ v
  | read width address => exact machineInv_withHost h rfl
  | attach bytes =>
    simp only [hostMove, attachInput]
    split
    · trivial
    · rename_i hle
      exact machineInv_attach h (Nat.le_of_not_lt hle)
  | hardwareReset => exact machineInv_hardwareResetState (machineInv_iff.1 h).1.legal

theorem fetchSound_symbol (h : MachineInv s) (hp : s.work.phase ≠ .idle) : FetchSound (fetchSymbol s) := by
  obtain ⟨hsound, hfresh⟩ := machineInv_iff.1 h
  have hd : s.host.duty ≠ .fresh := fun hf => hp (hfresh hf).2
  obtain ⟨t, hf, ht⟩ | ⟨i, t, hf, ht, -⟩ := fetchSymbol_proceeds (hsound.running_of_busy hp) <;> rw [hf]
  · exact ht.toSoundState.machineInv hd
  · have hi := fetchSymbol_run_not_command hf
    rw [FetchSound, exec_eq_execStreamOp hi]
    refine (execStreamOp_answers ht hi).stepSound fun u hu => ?_
    exact (hu.elim Ended.toSoundState fun hu => hu.1.sound).machineInv hd

theorem fetchSound_next (h : MachineInv s) : FetchSound (fetchNext s) := by
  unfold fetchNext
  split
  · rename_i hp
    unfold fetchHost
    split
    · exact h
    · rename_i a rest _
      exact fetchSound_hostMove (machineInv_withHost h (p := { s.host with pending := rest }) rfl) hp a
  · rename_i hp
    exact fetchSound_symbol h hp

/-- A step from a state with the invariants answers one with the invariants, or is refused by name. -/
theorem step_sound (h : MachineInv s) : StepSound (step s) := by
  have hnext := fetchSound_next h
  unfold step
  cases hf : fetchNext s <;> rw [hf] at hnext <;> exact hnext

end

/-- Settles O56, by the cases of what a step fetches: a host access, a command (induction over its symbols, on the stream bits
left), or one symbol's operation. -/
theorem machineInvariantIsKept : Obligations.MachineInvariantIsKept := by
  intro s t h ht
  have hstep := step_sound h
  rwa [ht] at hstep

/-- Settles O59, by the same lemma about a step: no case of it answers a fault. -/
theorem noStepFaults : Obligations.NoStepFaults := by
  intro s f h hf
  have hstep := step_sound h
  rwa [hf] at hstep

end Sys2Proof.Machine

/-! ## PROOF. Noninterference: W and the window's contents (spec/00_scope.md R8, spec/10_state.md R44, R45).
Each operation is run in two states that differ only there, and the two end alike. The copy is the one operation that looks at
the window: both windows give it the bytes that OUT has. -/

namespace Sys2Proof.Machine

/-- What of the state W and the window decide: W, HIST_COUNT, and the stored bytes. -/
structure WindowSide where
  size : Nat
  histCount : Word
  win : List Host.Cell

/-- The state with another window. -/
def withWindow (v : WindowSide) (s : State) : State :=
  { s with
    output := { s.output with win := v.win, histCount := v.histCount },
    params := { s.params with windowSize := v.size } }

theorem sameButWindow_iff {a b : State} : SameButWindow a b ↔ ∃ v, b = withWindow v a :=
  ⟨fun h => ⟨⟨b.params.windowSize, b.output.histCount, b.output.win⟩, h⟩, by rintro ⟨v, rfl⟩; rfl⟩

/-- Two states that differ only in their windows, each with the bytes of OUT in it. -/
structure Twins (x y : State) : Prop where
  same : ∃ v, y = withWindow v x
  left : HistoryInv x
  right : HistoryInv y

/-- Two runs of a primitive that end alike. -/
inductive Res.Twins {α : Type} : Res α → Res α → Prop
  | ok (a : α) {x y : State} (h : Machine.Twins x y) : Res.Twins (.ok a x) (.ok a y)
  | raised {x y : State} (h : Machine.Twins x y) : Res.Twins (.raised x) (.raised y)

/-- Two runs of an operation that end alike. -/
inductive OutcomeTwins : StepOutcome → StepOutcome → Prop
  | next {x y : State} (h : Twins x y) : OutcomeTwins (.next x) (.next y)
  | fault (f : Fault) : OutcomeTwins (.fault f) (.fault f)
  | refused (r : Refusal) : OutcomeTwins (.refused r) (.refused r)

section
variable {x y : State} {α β : Type}

theorem Res.Twins.andThen {p q : Res α} {f g : α → State → Res β} (h : p.Twins q)
    (hf : ∀ a t u, Machine.Twins t u → (f a t).Twins (g a u)) : (p.andThen f).Twins (q.andThen g) := by
  cases h with
  | ok a h => exact hf a _ _ h
  | raised h => exact .raised h

theorem Res.Twins.toOutcome {p q : Res α} {f g : α → State → StepOutcome} (h : p.Twins q)
    (hf : ∀ a t u, p = .ok a t → Machine.Twins t u → OutcomeTwins (f a t) (g a u)) :
    OutcomeTwins (p.toOutcome f) (q.toOutcome g) := by
  cases h with
  | ok a h => exact hf a _ _ rfl h
  | raised h => exact .next h

/-! ### The reader, the decoder and the header do not look at the window -/

theorem readBits_twins (n : Nat) (keep : Bool) (h : Twins x y) : (readBits n keep x).Twins (readBits n keep y) := by
  obtain ⟨⟨v, rfl⟩, hx, hy⟩ := h
  unfold readBits
  rw [show readerRead (inputBytes (withWindow v x)) n keep (withWindow v x).reader =
    readerRead (inputBytes x) n keep x.reader from rfl]
  cases readerRead (inputBytes x) n keep x.reader with
  | read a r => exact .ok a ⟨⟨v, rfl⟩, hx, hy⟩
  | exhausted r => exact .raised ⟨⟨v, rfl⟩, hx, hy⟩

theorem readExtra_twins (n : Nat) (h : Twins x y) : (readExtra n x).Twins (readExtra n y) := by
  obtain rfl | hn := eq_or_ne n 0
  · exact .ok 0 h
  · rw [readExtra_pos hn, readExtra_pos hn]
    exact readBits_twins n false h

theorem decodeSym_twins (t : TableId) (h : Twins x y) : (decodeSym t x).Twins (decodeSym t y) := by
  obtain ⟨⟨v, rfl⟩, hx, hy⟩ := h
  unfold decodeSym
  rw [show traverse (inputBytes (withWindow v x)) (codeTable (getTable (withWindow v x).tables t))
      (maxLen (getTable (withWindow v x).tables t)) { acc := 0, k := 0 } (withWindow v x).reader =
    traverse (inputBytes x) (codeTable (getTable x.tables t)) (maxLen (getTable x.tables t)) { acc := 0, k := 0 } x.reader
    from rfl]
  cases traverse (inputBytes x) (codeTable (getTable x.tables t)) (maxLen (getTable x.tables t))
    { acc := 0, k := 0 } x.reader with
  | resolved sym d r => exact .ok sym ⟨⟨v, rfl⟩, hx, hy⟩
  | invalid d r => exact .raised ⟨⟨v, rfl⟩, hx, hy⟩
  | exhausted d r => exact .raised ⟨⟨v, rfl⟩, hx, hy⟩

theorem readClLens_twins (syms : List Nat) (h : Twins x y) : (readClLens syms x).Twins (readClLens syms y) := by
  induction syms generalizing x y with
  | nil => exact .ok () h
  | cons sym rest ih =>
    refine (readBits_twins 3 false h).andThen ?_
    rintro a t _ ⟨⟨v, rfl⟩, ht, hu⟩
    exact ih ⟨⟨v, rfl⟩, ht, hu⟩

theorem beginHeader_twins (h : Twins x y) : (beginHeader x).Twins (beginHeader y) := by
  refine (readBits_twins 5 false h).andThen ?_
  rintro hlit t _ ⟨⟨v, rfl⟩, ht, hu⟩
  refine (readBits_twins 5 false (by exact ⟨⟨v, rfl⟩, ht, hu⟩)).andThen ?_
  rintro hdist t _ ⟨⟨v, rfl⟩, ht, hu⟩
  refine (readBits_twins 4 false (by exact ⟨⟨v, rfl⟩, ht, hu⟩)).andThen ?_
  rintro hclen t _ ⟨⟨v, rfl⟩, ht, hu⟩
  refine (readClLens_twins _ (by exact ⟨⟨v, rfl⟩, ht, hu⟩)).andThen ?_
  rintro _ t _ ⟨⟨v, rfl⟩, ht, hu⟩
  exact .ok () ⟨⟨v, rfl⟩, ht, hu⟩

theorem endHeader_twins (h : Twins x y) : Twins (endHeader x) (endHeader y) := by
  obtain ⟨⟨v, rfl⟩, hx, hy⟩ := h
  unfold endHeader
  rw [show (withWindow v x).work = x.work from rfl]
  cases x.work.cmd <;> exact ⟨⟨v, rfl⟩, hx, hy⟩

theorem storeLens_twins (r : Nat) (a : BitVec 4) (h : Twins x y) : Twins (storeLens r a x) (storeLens r a y) := by
  obtain ⟨⟨v, rfl⟩, hx, hy⟩ := h
  by_cases c : headerTotal x.work ≤ x.work.seqIndex + r
  · rw [show storeLens r a x = endHeader (storedRun r a x) from if_pos c,
      show storeLens r a (withWindow v x) = endHeader (storedRun r a (withWindow v x)) from if_pos c]
    exact endHeader_twins ⟨⟨v, rfl⟩, hx, hy⟩
  · rw [show storeLens r a x = storedRun r a x from if_neg c,
      show storeLens r a (withWindow v x) = storedRun r a (withWindow v x) from if_neg c]
    exact ⟨⟨v, rfl⟩, hx, hy⟩

theorem raise_twins (e : ErrorKind) (c : BitVec 8) (a : BitVec 16) (h : Twins x y) : Twins (raise e c a x) (raise e c a y) := by
  obtain ⟨⟨v, rfl⟩, hx, hy⟩ := h
  exact ⟨⟨v, rfl⟩, hx, hy⟩

theorem completeWith_twins (a : Nat) (h : Twins x y) : Twins (completeWith a x) (completeWith a y) := by
  obtain ⟨⟨v, rfl⟩, hx, hy⟩ := h
  exact ⟨⟨v, rfl⟩, hx, hy⟩

theorem Twins.work_eq (h : Twins x y) : y.work = x.work := by
  obtain ⟨⟨v, rfl⟩, -, -⟩ := h
  rfl

theorem lengthRun_twins (m : BitVec 16) (base extra : Nat) (a : BitVec 4) (h : Twins x y) :
    OutcomeTwins (lengthRun m base extra a x) (lengthRun m base extra a y) := by
  refine (readBits_twins extra false h).toOutcome ?_
  rintro e t u - htu
  rw [htu.work_eq]
  split
  · exact .next (raise_twins _ _ _ htu)
  · exact .next (storeLens_twins _ _ htu)

theorem execClRepeatPrev_twins (h : Twins x y) : OutcomeTwins (execClRepeatPrev x) (execClRepeatPrev y) := by
  have hlens : y.lens = x.lens := by
    obtain ⟨⟨v, rfl⟩, -, -⟩ := h
    rfl
  unfold execClRepeatPrev
  rw [h.work_eq, hlens]
  split
  · exact .next (raise_twins _ _ _ h)
  · exact lengthRun_twins 16 3 2 _ h

theorem execBtype2Dynamic_twins (bfinal : Bool) (h : Twins x y) :
    OutcomeTwins (execBtype2Dynamic bfinal x) (execBtype2Dynamic bfinal y) := by
  obtain ⟨⟨v, rfl⟩, hx, hy⟩ := h
  exact (beginHeader_twins (by exact ⟨⟨v, rfl⟩, hx, hy⟩)).toOutcome fun _ _ _ _ htu => .next htu

theorem execEob_twins (h : Twins x y) : OutcomeTwins (execEob x) (execEob y) := by
  obtain ⟨⟨v, rfl⟩, hx, hy⟩ := h
  unfold execEob
  rw [show (withWindow v x).work = x.work from rfl]
  split <;> split <;> exact .next ⟨⟨v, rfl⟩, hx, hy⟩

theorem lengthCode_twins (base extra : Nat) (h : Twins x y) :
    OutcomeTwins (lengthCode base extra x) (lengthCode base extra y) := by
  refine (readExtra_twins extra h).toOutcome ?_
  rintro e t _ - ⟨⟨v, rfl⟩, ht, hu⟩
  exact .next ⟨⟨v, rfl⟩, ht, hu⟩

/-! ### Literals and matches: the same bytes in both windows -/

/-- OUT decides OUT_COUNT. -/
theorem TracksOut.output_eq {w w' : Nat} {o o' : Output} (h : TracksOut w o) (h' : TracksOut w' o') (hout : o'.out = o.out) :
    o' = { o with win := o'.win, histCount := o'.histCount } := by
  have hcount : o'.outCount = o.outCount := BitVec.eq_of_toNat_eq (by rw [h.outCount, h'.outCount, hout])
  rw [← hout, ← hcount]

theorem Twins.withOutput (h : Twins x y) {o o' : Output} (ho : TracksOut x.params.windowSize o)
    (ho' : TracksOut y.params.windowSize o') (hout : o'.out = o.out) (w : Work) :
    Twins { x with output := o, work := w } { y with output := o', work := w } := by
  obtain ⟨⟨v, rfl⟩, hx, hy⟩ := h
  refine ⟨⟨⟨v.size, o'.histCount, o'.win⟩, ?_⟩, historyInv_iff.2 ⟨hx.1, ho⟩, historyInv_iff.2 ⟨hy.1, ho'⟩⟩
  rw [ho.output_eq ho' hout]
  rfl

theorem Twins.out_eq (h : Twins x y) : y.output.out = x.output.out := by
  obtain ⟨⟨v, rfl⟩, -, -⟩ := h
  rfl

theorem execLit_twins (b : Byte) (h : Twins x y) : OutcomeTwins (execLit b x) (execLit b y) := by
  obtain ⟨hx, tx⟩ := historyInv_iff.1 h.left
  obtain ⟨hy, ty⟩ := historyInv_iff.1 h.right
  unfold execLit
  rw [h.work_eq]
  exact .next (h.withOutput (tx.emitByte (windowBounds_of_legal hx) b) (ty.emitByte (windowBounds_of_legal hy) b)
    (by rw [emitByte_out, emitByte_out, h.out_eq]) _)

/-- A distance of the tables is too far exactly when it reaches before the start of OUT: W is at least 32768 (R198). -/
theorem TracksOut.histCount_lt_iff {w d : Nat} {o : Output} (hw : WindowBounds w) (h : TracksOut w o) (hd : d ≤ 32768) :
    o.histCount.toNat < d ↔ o.out.length < d := by
  have := hw.least
  rw [h.histCount]
  omega

theorem copyMatch_twins {dist : Nat} (h : Twins x y) (h1 : 1 ≤ dist) (hx : dist ≤ x.output.histCount.toNat)
    (hy : dist ≤ y.output.histCount.toNat) : OutcomeTwins (copyMatch dist x) (copyMatch dist y) := by
  obtain ⟨lx, tx⟩ := historyInv_iff.1 h.left
  obtain ⟨ly, ty⟩ := historyInv_iff.1 h.right
  obtain ⟨o, hcopy, ho, hout⟩ := tx.copyBytes (windowBounds_of_legal lx) h1 hx x.work.copyLen
  obtain ⟨o', hcopy', ho', hout'⟩ := ty.copyBytes (windowBounds_of_legal ly) h1 hy x.work.copyLen
  unfold copyMatch
  rw [h.work_eq, hcopy, hcopy']
  exact .next (h.withOutput ho ho' (by rw [hout, hout', h.out_eq]) _)

theorem readExtra_lt {n e : Nat} {s t : State} (h : readExtra n s = .ok e t) : e < 2 ^ n := by
  obtain rfl | hn := eq_or_ne n 0
  · cases h
    exact Nat.one_pos
  · rw [readExtra_pos hn] at h
    obtain ⟨r, hr, -⟩ := readBits_eq_ok.1 h
    exact readerRead_lt hr

theorem distanceCode_twins {p : Nat × Nat} (hp : p ∈ distanceTable) (h : Twins x y) :
    OutcomeTwins (distanceCode p.1 p.2 x) (distanceCode p.1 p.2 y) := by
  obtain ⟨hleast, hgreatest, -⟩ := distanceTable_bounds p hp
  refine (readExtra_twins p.2 h).toOutcome ?_
  intro e t u he htu
  have hd : p.1 + e ≤ 32768 := by
    have := readExtra_lt he
    omega
  obtain ⟨lt, tt⟩ := historyInv_iff.1 htu.left
  obtain ⟨lu, tu⟩ := historyInv_iff.1 htu.right
  have hiff : u.output.histCount.toNat < p.1 + e ↔ t.output.histCount.toNat < p.1 + e := by
    rw [tt.histCount_lt_iff (windowBounds_of_legal lt) hd, tu.histCount_lt_iff (windowBounds_of_legal lu) hd, htu.out_eq]
  by_cases hfar : t.output.histCount.toNat < p.1 + e
  · rw [if_pos hfar, if_pos (hiff.2 hfar)]
    exact .next (raise_twins _ _ _ htu)
  · rw [if_neg hfar, if_neg (hiff.not.2 hfar)]
    exact copyMatch_twins htu (by omega) (Nat.le_of_not_lt hfar) (Nat.le_of_not_lt (hiff.not.2 hfar))

/-! ### The sequencer -/

theorem execStreamOp_twins {i : Instr} (hi : i.isCommand = false) (h : Twins x y) :
    OutcomeTwins (execStreamOp i x) (execStreamOp i y) :=
  execStreamOp_induction (C := fun op => ∀ x y, Twins x y → OutcomeTwins (op x) (op y))
    (raises := fun e c a _ _ h => .next (raise_twins e c a h))
    (dynamic := fun bfinal _ _ h => execBtype2Dynamic_twins bfinal h)
    (clLen := fun a _ _ h => .next (storeLens_twins 1 a h))
    (repeatPrev := fun _ _ h => execClRepeatPrev_twins h)
    (zeros := fun m base extra _ _ _ h => lengthRun_twins m base extra 0 h)
    (lit := fun b _ _ h => execLit_twins b h)
    (eob := fun _ _ h => execEob_twins h)
    (length := fun p _ _ _ h => lengthCode_twins p.1 p.2 h)
    (distance := fun _ hp _ _ h => distanceCode_twins hp h) hi x y h

/-- Two fetches of a symbol that end alike. -/
inductive FetchTwins : Fetched → Fetched → Prop
  | run {i : Instr} (hi : i.isCommand = false) {x y : State} (h : Twins x y) : FetchTwins (.run i x) (.run i y)
  | settled {x y : State} (h : Twins x y) : FetchTwins (.settled x) (.settled y)
  | fault (f : Fault) : FetchTwins (.fault f) (.fault f)

theorem fetchedKey_twins {f : Format} (hf : f ≠ .ctrl) {p q : Res Nat} (h : p.Twins q) :
    FetchTwins (fetchedKey f p) (fetchedKey f q) := by
  cases h with
  | raised h => exact .settled h
  | ok key h =>
    cases hd : decode f (BitVec.ofNat 32 key) with
    | ok i =>
      have hi : i.isCommand = false := by
        rw [isCommand_eq, decode_format hd]
        exact decide_eq_false hf
      simpa [fetchedKey, hd] using FetchTwins.run hi h
    | error e => simpa [fetchedKey, hd] using FetchTwins.fault .symbolOutsideAlphabet

theorem fetchBlockHdr_twins (h : Twins x y) : (fetchBlockHdr x).Twins (fetchBlockHdr y) := by
  refine (readBits_twins 1 false h).andThen ?_
  rintro bfinal t _ ⟨⟨v, rfl⟩, ht, hu⟩
  refine (readBits_twins 2 false (by exact ⟨⟨v, rfl⟩, ht, hu⟩)).andThen ?_
  rintro btype t _ ⟨⟨v, rfl⟩, ht, hu⟩
  exact .ok _ ⟨⟨v, rfl⟩, ht, hu⟩

theorem fetchSymbol_twins (h : Twins x y) : FetchTwins (fetchSymbol x) (fetchSymbol y) := by
  unfold fetchSymbol
  rw [h.work_eq]
  cases x.work.phase with
  | idle => exact .settled h
  | blockHdr => exact fetchedKey_twins (by decide) (fetchBlockHdr_twins h)
  | clSym => exact fetchedKey_twins (by decide) (decodeSym_twins .cl h)
  | litSym => exact fetchedKey_twins (by decide) (decodeSym_twins .lit h)
  | distSym => exact fetchedKey_twins (by decide) (decodeSym_twins .dist h)

theorem runSequencer_twins (fuel : Nat) (h : Twins x y) : OutcomeTwins (runSequencer fuel x) (runSequencer fuel y) := by
  induction fuel generalizing x y with
  | zero => exact .fault _
  | succ fuel ih =>
    rw [runSequencer_succ, runSequencer_succ]
    have hfetch := fetchSymbol_twins h
    generalize fetchSymbol x = p, fetchSymbol y = q at hfetch
    cases hfetch with
    | settled h => exact .next h
    | fault f => exact .fault f
    | @run i hi t u h =>
      have hop := execStreamOp_twins hi h
      dsimp only
      generalize execStreamOp i t = p, execStreamOp i u = q at hop
      cases hop with
      | next h =>
        dsimp only
        rw [h.work_eq]
        split
        · exact .next h
        · exact ih h
      | fault f => exact .fault f
      | refused r => exact .refused r

theorem runCommand_twins (h : Twins x y) : OutcomeTwins (runCommand x) (runCommand y) := by
  obtain ⟨⟨v, rfl⟩, hx, hy⟩ := h
  exact runSequencer_twins (bitsLeft (inputBytes x) x.reader + 1) ⟨⟨v, rfl⟩, hx, hy⟩

/-! ### The commands -/

theorem acceptCommand_twins (op : BitVec 4) (illegal : Option (BitVec 8)) {perform : State → StepOutcome}
    (hperform : ∀ t u, Twins t u → OutcomeTwins (perform t) (perform u)) (h : Twins x y) :
    OutcomeTwins (acceptCommand op illegal perform x) (acceptCommand op illegal perform y) := by
  obtain ⟨⟨v, rfl⟩, hx, hy⟩ := h
  unfold acceptCommand
  rw [show (withWindow v x).status = x.status from rfl]
  split
  · exact .next ⟨⟨v, rfl⟩, hx, hy⟩
  · cases illegal with
    | some sub => exact .next ⟨⟨v, rfl⟩, hx, hy⟩
    | none => exact hperform _ _ ⟨⟨v, rfl⟩, hx, hy⟩

theorem historyInv_newContext {s : State} (h : HistoryInv s) : HistoryInv (complete (newContext s)) :=
  historyInv_iff.2 ⟨h.1, .empty (historyInv_iff.1 h).2.wf⟩

/-- A new context keeps each window's bytes and no HIST_COUNT (R134). -/
theorem execResetCtx_twins (h : Twins x y) : OutcomeTwins (execResetCtx x) (execResetCtx y) := by
  obtain ⟨⟨v, rfl⟩, hx, hy⟩ := h
  exact .next ⟨⟨{ v with histCount := 0 }, rfl⟩, historyInv_newContext hx, historyInv_newContext hy⟩

theorem execBuildTable_twins (tsel : BitVec 2) (nsym : BitVec 9) (h : Twins x y) :
    OutcomeTwins (execBuildTable tsel nsym x) (execBuildTable tsel nsym y) := by
  unfold execBuildTable
  cases buildTableOperands tsel nsym with
  | none => exact acceptCommand_twins 3 _ (fun _ _ h => .next h) h
  | some p =>
    refine acceptCommand_twins 3 none ?_ h
    rintro t _ ⟨⟨v, rfl⟩, ht, hu⟩
    exact .next ⟨⟨v, rfl⟩, ht, hu⟩

theorem execDecodeSymbol_twins (tsel : BitVec 2) (h : Twins x y) :
    OutcomeTwins (execDecodeSymbol tsel x) (execDecodeSymbol tsel y) := by
  unfold execDecodeSymbol
  cases tableOfTsel tsel with
  | none => exact acceptCommand_twins 4 _ (fun _ _ h => .next h) h
  | some t =>
    exact acceptCommand_twins 4 none (fun _ _ h => (decodeSym_twins t h).toOutcome fun sym _ _ _ h =>
      .next (completeWith_twins sym h)) h

theorem execReadBits_twins (nbits : BitVec 6) (keep : Bool) (h : Twins x y) :
    OutcomeTwins (execReadBits nbits keep x) (execReadBits nbits keep y) :=
  acceptCommand_twins 2 _ (fun _ _ h => (readBits_twins nbits.toNat keep h).toOutcome fun a _ _ _ h =>
    .next (completeWith_twins a h)) h

theorem execDecodeHeader_twins (h : Twins x y) : OutcomeTwins (execDecodeHeader x) (execDecodeHeader y) := by
  refine acceptCommand_twins 5 none ?_ h
  rintro t _ ⟨⟨v, rfl⟩, ht, hu⟩
  exact (beginHeader_twins (by exact ⟨⟨v, rfl⟩, ht, hu⟩)).toOutcome fun _ _ _ _ h => runCommand_twins h

theorem runBlocks_twins (c : Cmd) (h : Twins x y) :
    OutcomeTwins (runCommand (startBlocks c x)) (runCommand (startBlocks c y)) := by
  obtain ⟨⟨v, rfl⟩, hx, hy⟩ := h
  exact runCommand_twins ⟨⟨v, rfl⟩, hx, hy⟩

theorem Twins.afterStreamEnd_eq (h : Twins x y) : afterStreamEnd y = afterStreamEnd x := by
  obtain ⟨⟨v, rfl⟩, -, -⟩ := h
  rfl

/-- Any instruction in two states that differ only in their windows. -/
theorem exec_twins (i : Instr) (h : Twins x y) : OutcomeTwins (exec i x) (exec i y) := by
  cases hi : i.isCommand with
  | false =>
    rw [exec_eq_execStreamOp hi, exec_eq_execStreamOp hi]
    exact execStreamOp_twins hi h
  | true =>
    cases i
    case nop =>
      show OutcomeTwins (execNop x) (execNop y)
      unfold execNop
      refine acceptCommand_twins 0 none ?_ h
      rintro t _ ⟨⟨v, rfl⟩, ht, hu⟩
      exact .next ⟨⟨v, rfl⟩, ht, hu⟩
    case resetCtx => exact execResetCtx_twins h
    case readBits nbits keep => exact execReadBits_twins nbits keep h
    case buildTable tsel nsym => exact execBuildTable_twins tsel nsym h
    case decodeSymbol tsel => exact execDecodeSymbol_twins tsel h
    case decodeHeader => exact execDecodeHeader_twins h
    case decodeBlock =>
      show OutcomeTwins (execDecodeBlock x) (execDecodeBlock y)
      rw [execDecodeBlock, execDecodeBlock, h.afterStreamEnd_eq]
      exact acceptCommand_twins 6 _ (fun _ _ h => runBlocks_twins .block h) h
    case decodeStream =>
      show OutcomeTwins (execDecodeStream x) (execDecodeStream y)
      rw [execDecodeStream, execDecodeStream, h.afterStreamEnd_eq]
      exact acceptCommand_twins 7 _ (fun _ _ h => runBlocks_twins .stream h) h
    case reservedOp op =>
      show OutcomeTwins (execReservedOp op x) (execReservedOp op y)
      unfold execReservedOp
      exact acceptCommand_twins op _ (fun _ _ h => .next h) h
    all_goals cases hi

end

/-- Settles O60, by the instruction's cases: two states that differ only in their windows run alike, since a copy takes the bytes
OUT has from either window. -/
theorem windowSizeIsNotObservable : Obligations.WindowSizeIsNotObservable := by
  intro i a b hab ha hb
  have hexec := exec_twins i ⟨sameButWindow_iff.1 hab, ha, hb⟩
  generalize exec i a = p, exec i b = q at hexec
  cases hexec with
  | next h => exact sameButWindow_iff.2 h.same
  | fault f => rfl
  | refused r => rfl

end Sys2Proof.Machine

/-! ## PROOF. What an instruction can do, said once: the moves it is made of, and how it ends (spec/10_state.md R20,
spec/40_control.md R130, spec/60_exceptions.md R220) -/

namespace Sys2Proof.Machine

/-- One update of the state by a primitive while its command goes on. `kept` allows reads that keep their bits, which only READ_BITS
has (R145, R146). No move makes a busy sequencer idle. -/
inductive Move (kept : Bool) : State → State → Prop
  | read {s : State} {n v : Nat} {keep : Bool} {r : Reader} (hn : n ≤ 32) (hk : keep = true → kept = true)
      (h : readerRead (inputBytes s) n keep s.reader = .read v r) : Move kept s { s with reader := r }
  | work {s : State} (w : Work) (h : w.phase = .idle → s.work.phase = .idle) : Move kept s { s with work := w }
  | hdr {s : State} (x : Hdr) : Move kept s { s with hdr := x }
  | lens {s : State} (l : Lens) : Move kept s { s with lens := l }
  | tables {s : State} (ts : Tables) : Move kept s { s with tables := ts }
  | blockCount {s : State} (c : Word) : Move kept s { s with blockCount := c }
  | streamEnd {s : State} : Move kept s (markStreamEnd s)
  | emit {s : State} (b : Byte) : Move kept s { s with output := emitByte s.params.windowSize b s.output }

/-- Any number of moves. -/
abbrev Moves (kept : Bool) : State → State → Prop := Relation.ReflTransGen (Move kept)

/-- An error ends the command; a read that found no byte has left the reader where the input ran out (R144, R220). -/
inductive Raises : State → State → Prop
  | error {s : State} (e : ErrorKind) (c : BitVec 8) (v : BitVec 16) : Raises s (raise e c v s)
  | exhausted {s : State} {n : Nat} {keep : Bool} {r : Reader} (hn : n ≤ 32)
      (h : readerRead (inputBytes s) n keep s.reader = .exhausted r) :
      Raises s (raise .inputExhausted 0 0 { s with reader := r })

/-- How a command ends: in an error, or complete with a RESULT (R130). -/
inductive Ends : State → State → Prop
  | raises {s t : State} (h : Raises s t) : Ends s t
  | completes {s : State} (v : Word) : Ends s (complete { s with result := v })

/-- A primitive run after moves from `s`: it has moved on, or raised an error after some moves. -/
def Res.MovesFrom {α : Type} (kept : Bool) (s : State) : Res α → Prop
  | .ok _ t => Moves kept s t
  | .raised t => ∃ u, Moves kept s u ∧ Raises u t

/-- An operation run after moves from `s`: where it answers a next state, it has moved on, or the command has ended. -/
def OutcomeMovesFrom (kept : Bool) (s : State) (o : StepOutcome) : Prop :=
  ∀ t, o = .next t → ∃ u, Moves kept s u ∧ (t = u ∨ Ends u t)

/-- A command run after moves from `s` that has ended where it answers a next state. -/
def OutcomeEndsFrom (kept : Bool) (s : State) (o : StepOutcome) : Prop :=
  ∀ t, o = .next t → ∃ u, Moves kept s u ∧ Ends u t

section
variable {kept : Bool} {s t u : State} {α β : Type}

/-! ### Composition -/

theorem Move.busy (h : Move kept s t) (hs : s.work.phase ≠ .idle) : t.work.phase ≠ .idle := by
  cases h with
  | work w hw => exact fun hp => hs (hw hp)
  | read | hdr | lens | tables | blockCount | streamEnd | emit => exact hs

/-- Within a command no move makes the sequencer idle. -/
theorem Moves.busy (h : Moves kept s t) (hs : s.work.phase ≠ .idle) : t.work.phase ≠ .idle := by
  induction h with
  | refl => exact hs
  | tail _ hm ih => exact hm.busy ih

theorem Res.MovesFrom.andThen {x : Res α} {f : α → State → Res β} (h : x.MovesFrom kept s)
    (hf : ∀ a t, Moves kept s t → (f a t).MovesFrom kept s) : (x.andThen f).MovesFrom kept s := by
  cases x with
  | ok a t => exact hf a t h
  | raised t => exact h

theorem Res.MovesFrom.toOutcome {x : Res α} {f : α → State → StepOutcome} (h : x.MovesFrom kept s)
    (hf : ∀ a t, Moves kept s t → OutcomeMovesFrom kept s (f a t)) : OutcomeMovesFrom kept s (x.toOutcome f) := by
  cases x with
  | ok a t => exact hf a t h
  | raised t =>
    rintro _ ⟨⟩
    obtain ⟨u, hu, ht⟩ := h
    exact ⟨u, hu, .inr (.raises ht)⟩

theorem Res.MovesFrom.toOutcome_ends {x : Res α} {f : α → State → StepOutcome} (h : x.MovesFrom kept s)
    (hf : ∀ a t, x = .ok a t → Moves kept s t → OutcomeEndsFrom kept s (f a t)) : OutcomeEndsFrom kept s (x.toOutcome f) := by
  cases x with
  | ok a t => exact hf a t rfl h
  | raised t =>
    rintro _ ⟨⟩
    obtain ⟨u, hu, ht⟩ := h
    exact ⟨u, hu, .raises ht⟩

theorem OutcomeMovesFrom.next (h : Moves kept s t) : OutcomeMovesFrom kept s (.next t) := by
  rintro _ ⟨⟩
  exact ⟨t, h, .inl rfl⟩

theorem OutcomeMovesFrom.ends (h : Moves kept s t) (ht : Ends t u) : OutcomeMovesFrom kept s (.next u) := by
  rintro _ ⟨⟩
  exact ⟨t, h, .inr ht⟩

theorem OutcomeMovesFrom.fault (f : Fault) : OutcomeMovesFrom kept s (.fault f) := by
  intro t ht
  cases ht

theorem OutcomeEndsFrom.ends (h : Moves kept s t) (ht : Ends t u) : OutcomeEndsFrom kept s (.next u) := by
  rintro _ ⟨⟩
  exact ⟨t, h, ht⟩

/-! ### The reader, the decoder and the copy -/

theorem readBits_movesFrom (h : Moves kept s t) {n : Nat} (hn : n ≤ 32) {keep : Bool} (hk : keep = true → kept = true) :
    (readBits n keep t).MovesFrom kept s := by
  cases hx : readBits n keep t with
  | ok v u =>
    obtain ⟨r, hr, rfl⟩ := readBits_eq_ok.1 hx
    exact h.tail (.read hn hk hr)
  | raised u =>
    obtain ⟨r, hr, rfl⟩ := readBits_eq_raised.1 hx
    exact ⟨t, h, .exhausted hn hr⟩

/-- A field that is read and consumed. -/
theorem readField_movesFrom (h : Moves kept s t) {n : Nat} (hn : n ≤ 32) : (readBits n false t).MovesFrom kept s :=
  readBits_movesFrom h hn fun hk => nomatch hk

theorem readExtra_movesFrom (h : Moves kept s t) {n : Nat} (hn : n ≤ 32) : (readExtra n t).MovesFrom kept s := by
  obtain rfl | hpos := eq_or_ne n 0
  · exact h
  · rw [readExtra_pos hpos]
    exact readField_movesFrom h hn

/-- Every bit of a symbol's code is one read (R162). -/
theorem traverse_movesFrom {codes : List (Nat × Nat)} {left : Nat} {d : Decoder} (h : Moves kept s t) :
    match traverse (inputBytes t) codes left d t.reader with
    | .resolved _ _ r => Moves kept s { t with reader := r }
    | .invalid _ r => Moves kept s { t with reader := r }
    | .exhausted _ r => ∃ q, Moves kept s { t with reader := q } ∧ readerRead (inputBytes t) 1 false q = .exhausted r := by
  induction left generalizing d t with
  | zero => exact h
  | succ left ih =>
    unfold traverse
    cases hr : readerRead (inputBytes t) 1 false t.reader with
    | exhausted r => exact ⟨t.reader, h, hr⟩
    | read b r =>
      have hmove : Moves kept s { t with reader := r } := h.tail (.read (keep := false) (by decide) nofun hr)
      dsimp only
      cases resolve codes (pushBit b d).k.toNat (pushBit b d).acc.toNat with
      | some sym => exact hmove
      | none => exact ih hmove

theorem Moves.setDecoder {d : Decoder} {r : Reader} (h : Moves kept s { t with reader := r }) :
    Moves kept s (setDecoder d r t) :=
  h.tail (.work { t.work with dec := d } id)

theorem decodeSym_movesFrom (h : Moves kept s t) (tbl : TableId) : (decodeSym tbl t).MovesFrom kept s := by
  unfold decodeSym
  have htraverse := traverse_movesFrom (codes := codeTable (getTable t.tables tbl)) (left := maxLen (getTable t.tables tbl))
    (d := { acc := 0, k := 0 }) h
  cases hx : traverse (inputBytes t) (codeTable (getTable t.tables tbl)) (maxLen (getTable t.tables tbl))
    { acc := 0, k := 0 } t.reader with
  | resolved sym d r =>
    rw [hx] at htraverse
    exact htraverse.setDecoder
  | invalid d r =>
    rw [hx] at htraverse
    exact ⟨_, htraverse.setDecoder, .error _ _ _⟩
  | exhausted d r =>
    rw [hx] at htraverse
    obtain ⟨q, hq, hr⟩ := htraverse
    exact ⟨setDecoder d q t, hq.setDecoder, .exhausted (s := setDecoder d q t) (by decide) hr⟩

/-- A copy is one Emit after another (R200). -/
theorem copyBytes_moves {dist len : Nat} {o : Output} (h : Moves kept s t)
    (hc : copyBytes t.params.windowSize dist len t.output = some o) : Moves kept s { t with output := o } := by
  induction len generalizing t with
  | zero =>
    obtain rfl : t.output = o := by simpa [copyBytes] using hc
    exact h
  | succ len ih =>
    rw [copyBytes_succ] at hc
    obtain ⟨b, -, hc⟩ := Option.bind_eq_some_iff.1 hc
    exact ih (t := { t with output := emitByte t.params.windowSize b t.output }) (h.tail (.emit b)) hc

/-! ### The dynamic header -/

theorem readClLens_movesFrom (syms : List Nat) (h : Moves kept s t) : (readClLens syms t).MovesFrom kept s := by
  induction syms generalizing t with
  | nil => exact h
  | cons sym rest ih =>
    exact (readField_movesFrom h (n := 3) (by decide)).andThen fun v u hu => ih (hu.tail (.lens _))

theorem Moves.buildTable (h : Moves kept s t) (tbl : TableId) (n : Nat) : Moves kept s (buildTable tbl n t) :=
  h.tail (.tables _)

theorem Moves.enterLengths (h : Moves kept s t) (hlit hdist : Nat) : Moves kept s (enterLengths hlit hdist t) :=
  (h.tail (.lens { t.lens with lit := Vector.replicate 288 0, dist := Vector.replicate 32 0 })).tail
    (.work (Machine.enterLengths hlit hdist t).work nofun)

theorem beginHeader_movesFrom (h : Moves kept s t) : (beginHeader t).MovesFrom kept s := by
  unfold beginHeader
  refine (readField_movesFrom h (n := 5) (by decide)).andThen fun hlit t1 h1 => ?_
  refine (readField_movesFrom (h1.tail (.hdr _)) (n := 5) (by decide)).andThen fun hdist t2 h2 => ?_
  refine (readField_movesFrom (h2.tail (.hdr _)) (n := 4) (by decide)).andThen fun hclen t3 h3 => ?_
  refine (readClLens_movesFrom _ ((h3.tail (.hdr _)).tail (.lens _))).andThen fun _ t4 h4 => ?_
  exact (h4.buildTable .cl 19).enterLengths hlit hdist

/-- A header that has begun is at its code-length sequence (R174). -/
theorem beginHeader_phase {a : Unit} (h : beginHeader s = .ok a t) : t.work.phase = .clSym := by
  obtain ⟨_, _, -, h⟩ := Res.andThen_eq_ok.1 h
  obtain ⟨_, _, -, h⟩ := Res.andThen_eq_ok.1 h
  obtain ⟨_, _, -, h⟩ := Res.andThen_eq_ok.1 h
  obtain ⟨_, _, -, h⟩ := Res.andThen_eq_ok.1 h
  cases h
  rfl

theorem endHeader_movesFrom (h : Moves kept s t) : OutcomeMovesFrom kept s (.next (endHeader t)) := by
  have hbuilt := (h.buildTable .lit t.work.nlit).buildTable .dist t.work.ndist
  unfold endHeader
  cases t.work.cmd with
  | header => exact .ends hbuilt (.completes _)
  | block | stream => exact .next (hbuilt.tail (.work _ nofun))

theorem storeLens_movesFrom (h : Moves kept s t) (r : Nat) (v : BitVec 4) :
    OutcomeMovesFrom kept s (.next (storeLens r v t)) := by
  have hstored : Moves kept s (storedRun r v t) := (h.tail (.lens (storedRun r v t).lens)).tail (.work (storedRun r v t).work id)
  obtain ⟨-, he⟩ | ⟨-, he⟩ := storeLens_cases r v t <;> rw [he]
  · exact .next hstored
  · exact endHeader_movesFrom hstored

theorem lengthRun_movesFrom (h : Moves kept s t) (m : BitVec 16) (base : Nat) {extra : Nat} (he : extra ≤ 32) (v : BitVec 4) :
    OutcomeMovesFrom kept s (lengthRun m base extra v t) := by
  refine (readField_movesFrom h he).toOutcome fun e u hu => ?_
  split
  · exact .ends hu (.raises (.error _ _ _))
  · exact storeLens_movesFrom hu _ v

/-! ### The operations of the stream formats -/

theorem execClRepeatPrev_movesFrom (h : Moves kept s t) : OutcomeMovesFrom kept s (execClRepeatPrev t) := by
  unfold execClRepeatPrev
  split
  · exact .ends h (.raises (.error _ _ _))
  · exact lengthRun_movesFrom h 16 3 (by decide) _

theorem execBtype2Dynamic_movesFrom (h : Moves kept s t) (bfinal : Bool) :
    OutcomeMovesFrom kept s (execBtype2Dynamic bfinal t) :=
  (beginHeader_movesFrom (h.tail (.work { t.work with bfinal := bfinal } id))).toOutcome fun _ _ hu => .next hu

theorem execLit_movesFrom (h : Moves kept s t) (b : Byte) : OutcomeMovesFrom kept s (execLit b t) :=
  .next ((h.tail (.emit b)).tail (.work _ id))

theorem execEob_movesFrom (h : Moves kept s t) : OutcomeMovesFrom kept s (execEob t) := by
  have hended : Moves kept s (if t.work.bfinal then markStreamEnd { t with blockCount := t.blockCount + 1 }
      else { t with blockCount := t.blockCount + 1 }) := by
    split
    · exact (h.tail (.blockCount _)).tail .streamEnd
    · exact h.tail (.blockCount _)
  unfold execEob
  dsimp only
  split
  · exact .next (hended.tail (.work _ nofun))
  · exact .ends hended (.completes _)

theorem lengthCode_movesFrom (h : Moves kept s t) {p : Nat × Nat} (hp : p ∈ lengthTable) :
    OutcomeMovesFrom kept s (lengthCode p.1 p.2 t) := by
  have hwidth := (lengthTable_bounds p hp).2.2
  exact (readExtra_movesFrom h (by omega)).toOutcome fun e u hu => .next (hu.tail (.work _ nofun))

theorem distanceCode_movesFrom (h : Moves kept s t) {p : Nat × Nat} (hp : p ∈ distanceTable) :
    OutcomeMovesFrom kept s (distanceCode p.1 p.2 t) := by
  have hwidth := (distanceTable_bounds p hp).2.2
  refine (readExtra_movesFrom h (by omega)).toOutcome fun e u hu => ?_
  split
  · exact .ends hu (.raises (.error _ _ _))
  · unfold copyMatch
    cases hc : copyBytes u.params.windowSize (p.1 + e) u.work.copyLen u.output with
    | none => exact .fault _
    | some o =>
      have hcopied : Moves kept s { u with output := o } := copyBytes_moves hu hc
      exact .next (hcopied.tail (.work _ fun hp => nomatch hp))

/-- A stream operation moves, and may end its command. -/
theorem execStreamOp_movesFrom (h : Moves kept s t) {i : Instr} (hi : i.isCommand = false) :
    OutcomeMovesFrom kept s (execStreamOp i t) :=
  execStreamOp_induction (C := fun op => ∀ t, Moves kept s t → OutcomeMovesFrom kept s (op t))
    (raises := fun e c v _ h => .ends h (.raises (.error e c v)))
    (dynamic := fun bfinal _ h => execBtype2Dynamic_movesFrom h bfinal)
    (clLen := fun v _ h => storeLens_movesFrom h 1 v)
    (repeatPrev := fun _ h => execClRepeatPrev_movesFrom h)
    (zeros := fun m base _ he _ h => lengthRun_movesFrom h m base (by omega) 0)
    (lit := fun b _ h => execLit_movesFrom h b)
    (eob := fun _ h => execEob_movesFrom h)
    (length := fun _ hp _ h => lengthCode_movesFrom h hp)
    (distance := fun _ hp _ h => distanceCode_movesFrom h hp) hi t h

/-! ### The symbol fetch and the sequencer -/

theorem fetchBlockHdr_movesFrom (h : Moves kept s t) : (fetchBlockHdr t).MovesFrom kept s := by
  unfold fetchBlockHdr
  refine (readField_movesFrom h (n := 1) (by decide)).andThen fun bfinal t1 h1 => ?_
  refine (readField_movesFrom (h1.tail (.hdr _)) (n := 2) (by decide)).andThen fun btype t2 h2 => ?_
  exact h2.tail (.hdr _)

/-- A fetch that settles has raised an error; one that gives an operation has only moved. -/
theorem fetchedKey_movesFrom {f : Format} {x : Res Nat} (h : x.MovesFrom kept s) :
    (∀ t, fetchedKey f x = .settled t → ∃ u, Moves kept s u ∧ Raises u t) ∧
      ∀ i t, fetchedKey f x = .run i t → Moves kept s t := by
  obtain ⟨u, rfl, he⟩ | ⟨key, u, i, rfl, -, he⟩ | ⟨key, u, e, rfl, -, he⟩ := fetchedKey_cases f x <;> rw [he]
  · exact ⟨fun t ht => Fetched.settled.inj ht ▸ h, fun _ _ ht => nomatch ht⟩
  · exact ⟨fun _ ht => (nomatch ht), fun j t ht => (Fetched.run.inj ht).2 ▸ h⟩
  · exact ⟨fun _ ht => (nomatch ht), fun _ _ ht => (nomatch ht)⟩

theorem fetchSymbol_movesFrom (h : Moves kept s t) (hp : t.work.phase ≠ .idle) :
    (∀ u, fetchSymbol t = .settled u → ∃ v, Moves kept s v ∧ Raises v u) ∧
      ∀ i u, fetchSymbol t = .run i u → Moves kept s u := by
  unfold fetchSymbol
  cases ht : t.work.phase with
  | idle => exact absurd ht hp
  | blockHdr => exact fetchedKey_movesFrom (fetchBlockHdr_movesFrom h)
  | clSym => exact fetchedKey_movesFrom (decodeSym_movesFrom h .cl)
  | litSym => exact fetchedKey_movesFrom (decodeSym_movesFrom h .lit)
  | distSym => exact fetchedKey_movesFrom (decodeSym_movesFrom h .dist)

/-- The sequencer answers only where its command has ended. -/
theorem runSequencer_endsFrom {fuel : Nat} (h : Moves kept s t) (hp : t.work.phase ≠ .idle) :
    OutcomeEndsFrom kept s (runSequencer fuel t) := by
  intro u hu
  refine runSequencer_induction (P := fun t => Moves kept s t ∧ t.work.phase ≠ .idle)
    (Q := fun u => ∃ v, Moves kept s v ∧ Ends v u) ?_ ?_ ?_ ⟨h, hp⟩ hu
  · rintro t u ⟨ht, hp⟩ hf
    obtain ⟨v, hv, hr⟩ := (fetchSymbol_movesFrom ht hp).1 u hf
    exact ⟨v, hv, .raises hr⟩
  · rintro t i x u ⟨ht, hp⟩ hf hx hidle
    have hfetch := (fetchSymbol_movesFrom (kept := kept) .refl hp).2 i x hf
    obtain ⟨v, hv, rfl | he⟩ := execStreamOp_movesFrom hfetch (fetchSymbol_run_not_command hf) u hx
    · exact absurd hidle (hv.busy hp)
    · exact ⟨v, ht.trans hv, he⟩
  · rintro t i x u ⟨ht, hp⟩ hf hx hbusy
    obtain ⟨v, hv, rfl | he⟩ := execStreamOp_movesFrom ((fetchSymbol_movesFrom ht hp).2 i x hf)
      (fetchSymbol_run_not_command hf) u hx
    · exact ⟨hv, hbusy⟩
    · exact absurd (by obtain (_ | _) | _ := he <;> rfl) hbusy

end

end Sys2Proof.Machine

/-! ## PROOF. How each command ends, and what every instruction keeps (spec/40_control.md R130 to R135) -/

namespace Sys2Proof.Machine

/-- An accepted command at its start: DONE is cleared, and the working state is the command's own (R130). -/
abbrev accepted (w : Work) (s : State) : State := { clearDone s with work := w }

/-- What a command but RESET_CTX can do: it is ignored while ERROR = 1, or accepted, and then it moves and ends
(R130, R131). -/
def CommandOutcome (kept : Bool) (s : State) (o : StepOutcome) : Prop :=
  ∀ t, o = .next t → s.status.error = true ∧ t = s ∨
    s.status.error = false ∧ ∃ w u, Moves kept (accepted w s) u ∧ Ends u t

section
variable {kept : Bool} {s t : State}

theorem acceptCommand_outcome (op : BitVec 4) {illegal : Option (BitVec 8)} {perform : State → StepOutcome}
    (hperform : illegal = none → ∃ w, OutcomeEndsFrom kept (accepted w s) (perform (clearDone s))) :
    CommandOutcome kept s (acceptCommand op illegal perform s) := by
  intro t h
  obtain ⟨herr, he⟩ | ⟨herr, sub, -, he⟩ | ⟨herr, hlegal, he⟩ := acceptCommand_cases op illegal perform s <;> rw [he] at h
  · exact .inl ⟨herr, (Host.Outcome.next.inj h).symm⟩
  · exact .inr ⟨herr, s.work, clearDone s, .refl, Host.Outcome.next.inj h ▸ .raises (.error .illegalCommand sub _)⟩
  · obtain ⟨w, hends⟩ := hperform hlegal
    exact .inr ⟨herr, w, hends t h⟩

theorem execReadBits_outcome {nbits : BitVec 6} {keep : Bool} (hk : keep = true → kept = true) :
    CommandOutcome kept s (execReadBits nbits keep s) := by
  unfold execReadBits
  exact acceptCommand_outcome 2 fun hl => ⟨s.work, (readBits_movesFrom .refl (readBitsLegal_le hl) hk).toOutcome_ends
    fun v _ _ hu => .ends hu (.completes (BitVec.ofNat 32 v))⟩

theorem execBuildTable_outcome (tsel : BitVec 2) (nsym : BitVec 9) :
    CommandOutcome kept s (execBuildTable tsel nsym s) := by
  unfold execBuildTable
  split
  · exact acceptCommand_outcome 3 fun hl => nomatch hl
  · exact acceptCommand_outcome 3 fun _ => ⟨s.work, .ends (Moves.buildTable .refl _ _) (.completes _)⟩

theorem execDecodeSymbol_outcome (tsel : BitVec 2) : CommandOutcome kept s (execDecodeSymbol tsel s) := by
  unfold execDecodeSymbol
  split
  · exact acceptCommand_outcome 4 fun hl => nomatch hl
  · exact acceptCommand_outcome 4 fun _ => ⟨s.work, (decodeSym_movesFrom .refl _).toOutcome_ends
      fun v _ _ hu => .ends hu (.completes (BitVec.ofNat 32 v))⟩

theorem execDecodeHeader_outcome : CommandOutcome kept s (execDecodeHeader s) := by
  unfold execDecodeHeader
  refine acceptCommand_outcome 5 fun _ => ⟨{ Work.idle with cmd := .header }, ?_⟩
  refine (beginHeader_movesFrom .refl).toOutcome_ends fun a u hu hmoves => ?_
  exact runSequencer_endsFrom hmoves (by rw [beginHeader_phase hu]; decide)

theorem runBlocks_endsFrom (c : Cmd) :
    OutcomeEndsFrom kept (accepted (startBlocks c s).work s) (runCommand (startBlocks c (clearDone s))) :=
  runSequencer_endsFrom .refl (by simp)

/-- What a command but RESET_CTX can do. Only a READ_BITS with KEEP keeps bits that it has read. -/
theorem exec_command_outcome {i : Instr} (hi : i.isCommand = true) (hreset : i ≠ .resetCtx)
    (hk : (∃ n, i = .readBits n true) → kept = true) : CommandOutcome kept s (exec i s) := by
  cases i
  case nop =>
    show CommandOutcome kept s (execNop s)
    unfold execNop
    exact acceptCommand_outcome 0 fun _ => ⟨s.work, .ends .refl (.completes s.result)⟩
  case resetCtx => exact absurd rfl hreset
  case readBits nbits keep => exact execReadBits_outcome fun hkeep => hk ⟨nbits, by rw [hkeep]⟩
  case buildTable tsel nsym => exact execBuildTable_outcome tsel nsym
  case decodeSymbol tsel => exact execDecodeSymbol_outcome tsel
  case decodeHeader => exact execDecodeHeader_outcome
  case decodeBlock =>
    show CommandOutcome kept s (execDecodeBlock s)
    unfold execDecodeBlock
    exact acceptCommand_outcome 6 fun _ => ⟨_, runBlocks_endsFrom .block⟩
  case decodeStream =>
    show CommandOutcome kept s (execDecodeStream s)
    unfold execDecodeStream
    exact acceptCommand_outcome 7 fun _ => ⟨_, runBlocks_endsFrom .stream⟩
  case reservedOp op =>
    show CommandOutcome kept s (execReservedOp op s)
    unfold execReservedOp
    exact acceptCommand_outcome op fun hl => nomatch hl
  all_goals cases hi

theorem Moves.keeps {P : State → Prop} (h : Moves kept s t) (move : ∀ x y, P x → Move kept x y → P y) (hs : P s) : P t := by
  induction h with
  | refl => exact hs
  | tail _ hm ih => exact move _ _ ih hm

/-- What every move keeps, and the ends of a command too, every instruction keeps but RESET_CTX. -/
theorem exec_keeps {P : State → Prop} (move : ∀ x y, P x → Move kept x y → P y) (ends : ∀ x y, P x → Ends x y → P y)
    (accept : ∀ w, P s → P (accepted w s)) {i : Instr} (hreset : i ≠ .resetCtx)
    (hk : (∃ n, i = .readBits n true) → kept = true) (hs : P s) (h : exec i s = .next t) : P t := by
  cases hi : i.isCommand with
  | true =>
    obtain ⟨-, rfl⟩ | ⟨-, w, u, hu, ht⟩ := exec_command_outcome hi hreset hk t h
    · exact hs
    · exact ends u t (hu.keeps move (accept w hs)) ht
  | false =>
    rw [exec_eq_execStreamOp hi] at h
    obtain ⟨u, hu, rfl | ht⟩ := execStreamOp_movesFrom .refl hi t h
    · exact hu.keeps move hs
    · exact ends u t (hu.keeps move hs) ht

end

/-! ### INPUT, TBL_ADDR and the host's side -/

/-- The two states have the same TBL_ADDR, INPUT, parameters and host's side. -/
structure SameSurroundings (s t : State) : Prop where
  tblAddr : t.tblAddr = s.tblAddr
  input : t.input = s.input
  params : t.params = s.params
  host : t.host = s.host

theorem Move.sameSurroundings {kept : Bool} {s t : State} (h : Move kept s t) : SameSurroundings s t := by
  cases h <;> exact ⟨rfl, rfl, rfl, rfl⟩

theorem Ends.sameSurroundings {s t : State} (h : Ends s t) : SameSurroundings s t := by
  obtain (_ | _) | _ := h <;> exact ⟨rfl, rfl, rfl, rfl⟩

theorem SameSurroundings.trans {s t u : State} (h : SameSurroundings s t) (h' : SameSurroundings t u) : SameSurroundings s u :=
  ⟨h'.tblAddr.trans h.tblAddr, h'.input.trans h.input, h'.params.trans h.params, h'.host.trans h.host⟩

theorem exec_sameSurroundings {i : Instr} {s t : State} (h : exec i s = .next t) : SameSurroundings s t := by
  by_cases hreset : i = .resetCtx
  · subst hreset
    cases h
    exact ⟨rfl, rfl, rfl, rfl⟩
  · exact exec_keeps (kept := true) (fun x y hx hm => hx.trans hm.sameSurroundings) (fun x y hx he => hx.trans he.sameSurroundings)
      (fun w _ => ⟨rfl, rfl, rfl, rfl⟩) hreset (fun _ => rfl) ⟨rfl, rfl, rfl, rfl⟩ h

/-- Settles O49: no move and no end of a command writes them, and RESET_CTX leaves them (R134). -/
theorem noInstructionChangesInputOrTblAddr : Obligations.NoInstructionChangesInputOrTblAddr := by
  intro i s t h
  obtain ⟨htbl, hinput, hparams, hhost⟩ := exec_sameSurroundings h
  exact ⟨htbl, hinput, hparams, hhost⟩

/-! ### Atomicity and STATUS -/

theorem Ends.idle {s t : State} (h : Ends s t) : t.work.phase = .idle := by
  obtain (_ | _) | _ := h <;> rfl

/-- A command leaves an idle sequencer idle (R130). -/
theorem exec_command_idle {i : Instr} {s t : State} (hi : i.isCommand = true) (h : exec i s = .next t)
    (hs : s.work.phase = .idle) : t.work.phase = .idle := by
  by_cases hreset : i = .resetCtx
  · subst hreset
    cases h
    rfl
  · obtain ⟨-, rfl⟩ | ⟨-, w, u, -, ht⟩ := exec_command_outcome (kept := true) hi hreset (fun _ => rfl) t h
    · exact hs
    · exact ht.idle

/-- Within a command STATUS changes in STREAM_END only, and ERRINFO and RESULT not at all. -/
structure SameFlags (s t : State) : Prop where
  error : t.status.error = s.status.error
  done : t.status.done = s.status.done
  errcode : t.status.errcode = s.status.errcode
  errinfo : t.errinfo = s.errinfo
  result : t.result = s.result

theorem Move.sameFlags {kept : Bool} {s t : State} (h : Move kept s t) : SameFlags s t := by
  cases h <;> exact ⟨rfl, rfl, rfl, rfl, rfl⟩

theorem Moves.sameFlags {kept : Bool} {s t : State} (h : Moves kept s t) : SameFlags s t :=
  h.keeps (P := SameFlags s) (fun _ _ hx hm => by
    obtain ⟨he, hd, hc, hi, hr⟩ := hm.sameFlags
    exact ⟨he.trans hx.error, hd.trans hx.done, hc.trans hx.errcode, hi.trans hx.errinfo, hr.trans hx.result⟩)
    ⟨rfl, rfl, rfl, rfl, rfl⟩

/-- A host's access that is no command leaves the sequencer and the flags as they were, or is a hardware reset. -/
theorem hostMove_settled {a : HostAccess} {s t : State} (h : hostMove a s = .settled t) :
    t.work = s.work ∧ t.status = s.status ∧ t.errinfo = s.errinfo ∨ t = hardwareResetState s := by
  cases a with
  | write width address v =>
    simp only [hostMove] at h
    split at h
    · exact .inl (Fetched.settled.inj h ▸ ⟨rfl, rfl, rfl⟩)
    · split at h
      · simp only [fetchCommand] at h
        split at h <;> cases h
      · rw [← Fetched.settled.inj h]
        left
        unfold writeRegister
        split
        · exact ⟨rfl, rfl, rfl⟩
        · unfold writeLenData
          split <;> exact ⟨rfl, rfl, rfl⟩
        · exact ⟨rfl, rfl, rfl⟩
  | read width address => exact .inl (Fetched.settled.inj h ▸ ⟨rfl, rfl, rfl⟩)
  | attach bytes =>
    simp only [hostMove, attachInput] at h
    split at h
    · cases h
    · exact .inl (Fetched.settled.inj h ▸ ⟨rfl, rfl, rfl⟩)
  | hardwareReset => exact .inr (Fetched.settled.inj h).symm

/-- Settles O53: an accepted command ends idle, and no other host access starts the sequencer. -/
theorem commandsAreAtomic : Obligations.CommandsAreAtomic := by
  refine ⟨fun i s t hi hs h => exec_command_idle hi h hs, fun s t hs h => ?_⟩
  obtain ⟨-, -, rfl⟩ | ⟨a, rest, -, -, hm⟩ | ⟨a, rest, i, u, -, -, hm, hx⟩ | ⟨hp, -⟩ | ⟨i, u, hp, -⟩ :=
    step_cases h
  · exact hs
  · obtain ⟨hwork, -⟩ | rfl := hostMove_settled hm
    · rw [hwork]
      exact hs
    · rfl
  · obtain ⟨w, -, -, hi, -, rfl⟩ := hostMove_run hm
    exact exec_command_idle hi hx hs
  · exact absurd hs hp
  · exact absurd hs hp

/-- STATUS and ERRINFO while a command is in progress (R27, R130). -/
structure FlagsClear (s : State) : Prop where
  error : s.status.error = false
  done : s.status.done = false
  errcode : s.status.errcode = 0
  errinfo : s.errinfo = ErrInfo.reset

theorem FlagsClear.moves {kept : Bool} {s t : State} (hs : FlagsClear s) (h : Moves kept s t) : FlagsClear t := by
  obtain ⟨he, hd, hc, hi, -⟩ := h.sameFlags
  exact ⟨he.trans hs.error, hd.trans hs.done, hc.trans hs.errcode, hi.trans hs.errinfo⟩

theorem FlagsClear.statusInv {s : State} (h : FlagsClear s) : StatusInv s :=
  ⟨fun _ => ⟨h.errcode, h.errinfo⟩, fun he => by simp [h.error] at he, fun _ => ⟨h.error, h.done⟩⟩

theorem statusInv_of_busy {s : State} (h : StatusInv s) (hp : s.work.phase ≠ .idle) : FlagsClear s := by
  obtain ⟨he, hd⟩ := h.2.2 hp
  obtain ⟨hc, hi⟩ := h.1 he
  exact ⟨he, hd, hc, hi⟩

theorem FlagsClear.raises {s t : State} (hs : FlagsClear s) (h : Raises s t) : StatusInv t := by
  have raised : ∀ e c v r, StatusInv (raise e c v { s with reader := r }) := fun e c v r =>
    ⟨nofun, fun _ => ⟨(errorCode_bounds e).1, (errorCode_bounds e).2, hs.done⟩, fun hp => absurd rfl hp⟩
  cases h with
  | error e c v => exact raised e c v s.reader
  | exhausted => exact raised _ _ _ _

/-- The end of a command leaves the flags consistent (R220). -/
theorem FlagsClear.ends {s t : State} (hs : FlagsClear s) (h : Ends s t) : StatusInv t := by
  cases h with
  | raises h => exact hs.raises h
  | completes v =>
    exact ⟨fun _ => ⟨hs.errcode, hs.errinfo⟩, fun he => by simp [hs.error] at he, fun hp => absurd rfl hp⟩

theorem statusInv_exec_command {i : Instr} {s t : State} (hi : i.isCommand = true) (h : exec i s = .next t)
    (hs : StatusInv s) : StatusInv t := by
  by_cases hreset : i = .resetCtx
  · subst hreset
    cases h
    exact ⟨fun _ => ⟨rfl, rfl⟩, nofun, fun hp => absurd rfl hp⟩
  · obtain ⟨-, rfl⟩ | ⟨herr, w, u, hu, ht⟩ := exec_command_outcome (kept := true) hi hreset (fun _ => rfl) t h
    · exact hs
    · have hclear : FlagsClear (accepted w s) := ⟨herr, rfl, (hs.1 herr).1, (hs.1 herr).2⟩
      exact (hclear.moves hu).ends ht

theorem statusInv_exec_streamOp {i : Instr} {s t : State} (hi : i.isCommand = false) (hs : FlagsClear s)
    (h : exec i s = .next t) : StatusInv t := by
  rw [exec_eq_execStreamOp hi] at h
  obtain ⟨u, hu, rfl | ht⟩ := execStreamOp_movesFrom (kept := true) .refl hi t h
  · exact (hs.moves hu).statusInv
  · exact (hs.moves hu).ends ht

/-- Settles O55, by the cases of a step: the flags are clear within a command, and each way to end it leaves them consistent. -/
theorem statusInvariantIsKept : Obligations.StatusInvariantIsKept := by
  intro s t hs h
  obtain ⟨-, -, rfl⟩ | ⟨a, rest, -, -, hm⟩ | ⟨a, rest, i, u, -, -, hm, hx⟩ | ⟨hp, hf⟩ | ⟨i, u, hp, hf, hx⟩ :=
    step_cases h
  · exact hs
  · obtain ⟨hwork, hstatus, herrinfo⟩ | rfl := hostMove_settled hm
    · rw [StatusInv, hwork, hstatus, herrinfo]
      exact hs
    · exact ⟨fun _ => ⟨rfl, rfl⟩, nofun, fun hp => absurd rfl hp⟩
  · obtain ⟨w, -, -, hi, -, rfl⟩ := hostMove_run hm
    exact statusInv_exec_command hi hx hs
  · obtain ⟨v, hv, hr⟩ := (fetchSymbol_movesFrom (kept := true) .refl hp).1 t hf
    exact ((statusInv_of_busy hs hp).moves hv).raises hr
  · have hmoves := (fetchSymbol_movesFrom (kept := true) .refl hp).2 i u hf
    exact statusInv_exec_streamOp (fetchSymbol_run_not_command hf) ((statusInv_of_busy hs hp).moves hmoves) hx

/-! ### The output -/

/-- The output side after `bytes` were emitted: OUT and OUT_COUNT have grown by them, and the window is the same at every address
that none of them went to (R58). -/
structure OutputGrows (w : Nat) (o : Output) (bytes : List Byte) (o' : Output) : Prop where
  out : o'.out = o.out ++ bytes
  outCount : o'.outCount.toNat = (o.outCount.toNat + bytes.length) % 2 ^ 32
  window : ∀ a, (∀ k, k < bytes.length → a ≠ (o.outCount.toNat + k) % 2 ^ 32 % w) →
    Memory.read a o'.win = Memory.read a o.win

theorem OutputGrows.refl (w : Nat) (o : Output) : OutputGrows w o [] o :=
  ⟨(List.append_nil _).symm, (Nat.mod_eq_of_lt o.outCount.isLt).symm, fun _ _ => rfl⟩

theorem OutputGrows.emitByte {w : Nat} {o o' : Output} {bytes : List Byte} (h : OutputGrows w o bytes o') (b : Byte) :
    OutputGrows w o (bytes ++ [b]) (emitByte w b o') where
  out := by simp [h.out]
  outCount := by
    rw [emitByte_outCount, toNat_add_one_of_mod h.outCount, List.length_append, List.length_singleton, Nat.add_assoc]
  window := fun a ha => by
    have hnew := ha bytes.length (by simp)
    rw [emitByte_win, h.outCount, Memory.read_write_other b _ hnew]
    exact h.window a fun k hk => ha k (by simp; omega)

/-- `t` has the same W as `s`, and has emitted some bytes more. -/
def HasEmitted (s t : State) : Prop :=
  t.params = s.params ∧ ∃ bytes, OutputGrows s.params.windowSize s.output bytes t.output

theorem HasEmitted.move {kept : Bool} {s t u : State} (h : HasEmitted s t) (hm : Move kept t u) : HasEmitted s u := by
  cases hm with
  | emit b =>
    obtain ⟨hp, bytes, hbytes⟩ := h
    exact ⟨hp, bytes ++ [b], hp ▸ hbytes.emitByte b⟩
  | read | work | hdr | lens | tables | blockCount | streamEnd => exact h

theorem HasEmitted.ends {s t u : State} (h : HasEmitted s t) (he : Ends t u) : HasEmitted s u := by
  obtain (_ | _) | _ := he <;> exact h

/-- No instruction but RESET_CTX takes a byte back. -/
theorem exec_hasEmitted {i : Instr} {s t : State} (hreset : i ≠ .resetCtx) (h : exec i s = .next t) : HasEmitted s t :=
  exec_keeps (kept := true) (P := HasEmitted s) (fun _ _ hx => hx.move) (fun _ _ hx => hx.ends) (fun _ hs => hs) hreset
    (fun _ => rfl) ⟨rfl, [], .refl _ _⟩ h

/-- Settles O50: only Emit writes the output side, and W divides 2^32, so that OUT_COUNT's wrap does not show in the addresses. -/
theorem outputOnlyGrows : Obligations.OutputOnlyGrows := by
  intro i s t hreset hlegal h
  obtain ⟨-, bytes, hout, hcount, hwin⟩ := exec_hasEmitted hreset h
  refine ⟨bytes, hout, hcount, fun a ha => hwin a fun k hk => ?_⟩
  rw [Nat.mod_mod_of_dvd _ (windowBounds_of_legal hlegal).dvd]
  exact ha k hk

/-- Settles O48: a command that raises has only moved before, which leaves RESULT and the cleared DONE as they are. -/
theorem errorsLeaveResultAndOutput : Obligations.ErrorsLeaveResultAndOutput := by
  intro i s t hi hs h ht
  by_cases hreset : i = .resetCtx
  · subst hreset
    cases h
    cases ht
  · obtain ⟨-, bytes, hout, -, -⟩ := exec_hasEmitted hreset h
    obtain ⟨herr, -⟩ | ⟨-, w, u, hu, hends⟩ := exec_command_outcome (kept := true) hi hreset (fun _ => rfl) t h
    · simp [hs] at herr
    · obtain ⟨he, hd, -, -, hr⟩ := hu.sameFlags
      cases hends with
      | raises hraise => cases hraise <;> exact ⟨hr, hd, bytes, hout⟩
      | completes v => exact absurd (ht.symm.trans (he.trans hs)) (by decide)

end Sys2Proof.Machine

/-! ## PROOF. The reader's bits: what a read takes from the stream, and what it leaves buffered (spec/10_state.md R23, R31,
spec/41_bitreader.md R142) -/

namespace Sys2Proof.Machine

/-! ### The bits still to be consumed -/

/-- Above the buffered bits the buffer is 0 (R143). -/
theorem bitbuf_getLsbD_of_le {r : Reader} (h : BufferInv r) {i : Nat} (hi : r.bitcnt.toNat ≤ i) : r.bitbuf.getLsbD i = false := by
  rw [← BitVec.testBit_toNat]
  exact Nat.testBit_lt_two_pow (h.2.trans_le (Nat.pow_le_pow_right (by decide) hi))

/-- A byte goes behind the buffered bits (R142). -/
theorem bufferedBits_pushByte {b : Byte} {r : Reader} (h : BufferInv r) (hr : r.bitcnt.toNat ≤ 31) :
    bufferedBits (pushByte b r) = bufferedBits r ++ byteBits b := by
  have hold : ∀ i < r.bitcnt.toNat, (pushByte b r).bitbuf.getLsbD i = r.bitbuf.getLsbD i := fun i hi => by
    simp [pushByte, hi]
  have hnew : ∀ j < 8, (pushByte b r).bitbuf.getLsbD (r.bitcnt.toNat + j) = b.getLsbD j := fun j hj => by
    have hfits : r.bitcnt.toNat + j < 40 := by omega
    have hzero : r.bitbuf[r.bitcnt.toNat + j] = false := bitbuf_getLsbD_of_le h (Nat.le_add_right _ _)
    simp [pushByte, hfits, hzero]
  unfold bufferedBits byteBits
  rw [(bufferInv_pushByte (b := b) h hr).2, List.range_add, List.map_append, List.map_map]
  exact congrArg₂ _ (List.map_congr_left fun i hi => hold i (List.mem_range.1 hi))
    (List.map_congr_left fun j hj => hnew j (List.mem_range.1 hj))

theorem dropBits_bitcnt_toNat {n : Nat} {r : Reader} (hn : n ≤ r.bitcnt.toNat) :
    (dropBits n r).bitcnt.toNat = r.bitcnt.toNat - n := by
  rw [dropBits_bitcnt, BitVec.toNat_sub, BitVec.toNat_ofNat]
  have := r.bitcnt.isLt
  omega

/-- The bits dropped are the oldest (R142). -/
theorem bufferedBits_dropBits {n : Nat} {r : Reader} (hn : n ≤ r.bitcnt.toNat) :
    bufferedBits (dropBits n r) = (bufferedBits r).drop n := by
  unfold bufferedBits
  rw [dropBits_bitcnt_toNat hn]
  exact List.ext_getElem (by simp) fun i _ _ => by simp

/-- A refill moves a byte from the input to the buffer: the bits still to be consumed are the same. -/
theorem readerBits_pushByte {input : List Byte} {r q : Reader} {b : Byte} (hlen : input.length < 2 ^ 32) (h : BufferInv r)
    (hr : r.bitcnt.toNat ≤ 31) (hb : inByte input r = some (b, q)) : readerBits input (pushByte b q) = readerBits input r := by
  obtain ⟨hlt, hcount, hcnt, hbuf⟩ := inByte_eq_some hlen hb
  have hbyte : input[r.inCount.toNat] = b := by
    have hget := List.getElem?_eq_getElem hlt
    simp only [inByte, hget, Option.some.injEq, Prod.mk.injEq] at hb
    exact hb.1
  have hq : bufferedBits q = bufferedBits r := by rw [bufferedBits, bufferedBits, hcnt, hbuf]
  unfold readerBits
  rw [bufferedBits_pushByte (by rwa [BufferInv, hcnt, hbuf]) (by rwa [hcnt]), pushByte_inCount, hq, hcount,
    List.drop_eq_getElem_cons hlt, hbyte, List.flatMap_cons, List.append_assoc]

theorem refill_readerBits {input : List Byte} (hlen : input.length < 2 ^ 32) {n : Nat} (hn : n ≤ 32) {fuel : Nat} {r : Reader}
    (h : BufferInv r) :
    (∀ q, refill input fuel n r = .ok q → readerBits input q = readerBits input r) ∧
      ∀ q, refill input fuel n r = .error q → readerBits input q = readerBits input r := by
  induction fuel generalizing r with
  | zero => exact ⟨fun q hq => by cases hq; rfl, nofun⟩
  | succ fuel ih =>
    unfold refill
    split_ifs with hc
    · exact ⟨fun q hq => by cases hq; rfl, nofun⟩
    · cases hb : inByte input r with
      | none => exact ⟨nofun, fun q hq => by cases hq; rfl⟩
      | some p =>
        have hr : r.bitcnt.toNat ≤ 31 := by omega
        have hbits := readerBits_pushByte hlen h hr hb
        obtain ⟨hok, herror⟩ := ih (readerMoves_pushByte hlen h hr hb).1.buffer
        exact ⟨fun q hq => (hok q hq).trans hbits, fun q hq => (herror q hq).trans hbits⟩

/-- ReadBits(n, keep) leaves what stands behind the n bits, or all of it if they are kept (R142). -/
theorem readerRead_readerBits {input : List Byte} (hlen : input.length < 2 ^ 32) {n : Nat} (hn : n ≤ 32) {keep : Bool}
    {r q : Reader} (h : BufferInv r) {v : Nat} (hq : readerRead input n keep r = .read v q) :
    readerBits input q = (readerBits input r).drop (if keep then 0 else n) := by
  obtain ⟨p, hp, -, rfl⟩ := readerRead_eq_read.1 hq
  have hbits := (refill_readerBits hlen hn h).1 p hp
  cases keep with
  | true => exact hbits
  | false =>
    have hcnt : n ≤ p.bitcnt.toNat := ((refill_moves hlen hn h).1 p hp).2 (by omega)
    have hdrop : readerBits input (dropBits n p) = (readerBits input p).drop n := by
      unfold readerBits
      rw [bufferedBits_dropBits hcnt, dropBits_inCount, List.drop_append_of_le_length (by simpa [bufferedBits] using hcnt)]
    simpa [hbits] using hdrop

/-- Where the input runs out no bit is consumed (R144). -/
theorem readerBits_of_exhausted {input : List Byte} (hlen : input.length < 2 ^ 32) {n : Nat} (hn : n ≤ 32) {keep : Bool}
    {r q : Reader} (h : BufferInv r) (hq : readerRead input n keep r = .exhausted q) :
    readerBits input q = readerBits input r := by
  unfold readerRead at hq
  cases hp : refill input 4 n r with
  | ok p => simp [hp] at hq
  | error p =>
    obtain rfl : p = q := by simpa [hp] using hq
    exact (refill_readerBits hlen hn h).2 p hp

/-- `t` has the INPUT of `s`, a well-formed buffer, and of the bits that `s` had to consume the last ones still to consume. -/
structure HasConsumed (s t : State) : Prop where
  input : t.input = s.input
  buffer : BufferInv t.reader
  streamBits : ∃ k, streamBits t = (streamBits s).drop k

theorem HasConsumed.withReader {s t : State} (h : HasConsumed s t) {r : Reader} (hr : BufferInv r) {n : Nat}
    (hbits : readerBits (inputBytes t) r = (Machine.streamBits t).drop n) : HasConsumed s { t with reader := r } := by
  obtain ⟨hinput, -, k, hk⟩ := h
  refine ⟨hinput, hr, k + n, ?_⟩
  rw [← List.drop_drop, ← hk]
  exact hbits

theorem HasConsumed.inputBytes_lt {s t : State} (h : HasConsumed s t) (hs : InputBounded s) : (inputBytes t).length < 2 ^ 32 := by
  rw [inputBytes, h.input]
  exact Nat.lt_of_le_of_lt hs (by decide)

theorem HasConsumed.move {kept : Bool} {s t u : State} (hs : InputBounded s) (h : HasConsumed s t) (hm : Move kept t u) :
    HasConsumed s u := by
  have hlen := h.inputBytes_lt hs
  cases hm with
  | read hn hk hr => exact h.withReader (readerMoves_of_read hlen hn h.buffer hr).buffer (readerRead_readerBits hlen hn h.buffer hr)
  | work | hdr | lens | tables | blockCount | streamEnd | emit => exact ⟨h.input, h.buffer, h.streamBits⟩

theorem HasConsumed.ends {s t u : State} (hs : InputBounded s) (h : HasConsumed s t) (he : Ends t u) : HasConsumed s u := by
  have hlen := h.inputBytes_lt hs
  obtain (_ | ⟨hn, hr⟩) | _ := he
  · exact ⟨h.input, h.buffer, h.streamBits⟩
  · obtain ⟨hinput, hbuffer, hbits⟩ := h.withReader (n := 0) (readerMoves_of_exhausted hlen hn h.buffer hr).buffer
      (readerBits_of_exhausted hlen hn h.buffer hr)
    exact ⟨hinput, hbuffer, hbits⟩
  · exact ⟨h.input, h.buffer, h.streamBits⟩

/-- Settles O23: only reads move the stream position, and a read takes bits off the front, or none. -/
theorem streamPositionNeverGoesBack : Obligations.StreamPositionNeverGoesBack := by
  intro i s t hreset hbuffer hinput h
  have hstart : HasConsumed s s := ⟨rfl, hbuffer, 0, rfl⟩
  exact (exec_keeps (kept := true) (P := HasConsumed s) (fun _ _ hx => hx.move hinput) (fun _ _ hx => hx.ends hinput)
    (fun _ _ => ⟨rfl, hbuffer, 0, rfl⟩) hreset (fun _ => rfl) hstart h).streamBits

/-! ### At most 7 bits left over -/

/-- InByte does not touch the buffer, even where IN_COUNT wraps. -/
theorem inByte_bitcnt {input : List Byte} {r q : Reader} {b : Byte} (h : inByte input r = some (b, q)) :
    q.bitcnt = r.bitcnt := by
  unfold inByte at h
  split at h <;> cases h
  rfl

/-- A refill stops within 8 bits of what it was asked for, and with refills enough it reaches it. -/
theorem refill_bitcnt {input : List Byte} {n fuel : Nat} (hn : n ≤ 32) {r q : Reader} (h : refill input fuel n r = .ok q)
    (hr : r.bitcnt.toNat ≤ n + 7) :
    q.bitcnt.toNat ≤ n + 7 ∧ (n ≤ r.bitcnt.toNat + 8 * fuel → n ≤ q.bitcnt.toNat) := by
  induction fuel generalizing r with
  | zero =>
    cases h
    exact ⟨hr, id⟩
  | succ fuel ih =>
    unfold refill at h
    split_ifs at h with hc
    · cases h
      exact ⟨hr, fun _ => hc⟩
    · cases hb : inByte input r with
      | none => simp [hb] at h
      | some p =>
        obtain ⟨b, p⟩ := p
        have hpush : (pushByte b p).bitcnt.toNat = r.bitcnt.toNat + 8 := by
          rw [pushByte_bitcnt, BitVec.toNat_add, inByte_bitcnt hb, show (8 : BitVec 6).toNat = 8 from rfl]
          omega
        obtain ⟨hle, hreach⟩ := ih (r := pushByte b p) (by simpa [hb] using h) (by omega)
        exact ⟨hle, fun hf => hreach (by omega)⟩

/-- A read that consumes its bits leaves at most 7 of the byte that it fetched last (R31). -/
theorem readerRead_bitcnt {input : List Byte} {n v : Nat} (hn : n ≤ 32) {r q : Reader}
    (h : readerRead input n false r = .read v q) (hr : r.bitcnt.toNat ≤ 7) : q.bitcnt.toNat ≤ 7 := by
  obtain ⟨p, hp, -, rfl⟩ := readerRead_eq_read.1 h
  obtain ⟨hle, hreach⟩ := refill_bitcnt hn hp (by omega)
  have hcnt : n ≤ p.bitcnt.toNat := hreach (by omega)
  show (dropBits n p).bitcnt.toNat ≤ 7
  rw [dropBits_bitcnt_toNat hcnt]
  omega

/-- At most 7 bits are buffered, unless an error ended the command (R31, R144). -/
def FewBitsLeft (s : State) : Prop := s.status.error = false → s.reader.bitcnt.toNat ≤ 7

theorem FewBitsLeft.move {s t : State} (h : FewBitsLeft s) (hm : Move false s t) : FewBitsLeft t := by
  cases hm with
  | @read n v keep r hn hk hr =>
    obtain rfl : keep = false := Bool.eq_false_iff.2 fun hkeep => nomatch hk hkeep
    exact fun he => readerRead_bitcnt hn hr (h he)
  | work | hdr | lens | tables | blockCount | streamEnd | emit => exact h

theorem FewBitsLeft.ends {s t : State} (h : FewBitsLeft s) (he : Ends s t) : FewBitsLeft t := by
  obtain (_ | _) | _ := he
  · exact nofun
  · exact nofun
  · exact h

/-- Settles O22: every read but a kept one leaves at most 7 bits, and nothing else touches the buffer. -/
theorem atMostSevenBitsAreLeftOver : Obligations.AtMostSevenBitsAreLeftOver := by
  intro i s t hi hkeep hs h herr
  by_cases hreset : i = .resetCtx
  · subst hreset
    cases h
    exact Nat.zero_le 7
  · exact exec_keeps (kept := false) (P := FewBitsLeft) (fun _ _ hx => hx.move) (fun _ _ hx => hx.ends) (fun _ hx => hx) hreset
      (fun ⟨n, hn⟩ => absurd hn (hkeep n)) (fun _ => hs) h herr

end Sys2Proof.Machine

/-! ## PROOF. Canonical codes fit CODE_DATA's field (spec/42_canonical_builder.md R151, R154; spec/10_state.md R39) -/

namespace Sys2Proof.Machine

/-- The loop of R151 b, begun at code(l), goes on with code(l + 1), code(l + 2), ... -/
theorem firstCodesFrom_firstCodeOf (lens : List (BitVec 4)) (m l : Nat) :
    firstCodesFrom (firstCodeOf lens l) ((List.range' l m).map (lengthCount lens)) =
      (List.range' (l + 1) m).map (firstCodeOf lens) := by
  induction m generalizing l with
  | zero => rfl
  | succ m ih =>
    have hstep : (firstCodeOf lens l + lengthCount lens l) <<< 1 = firstCodeOf lens (l + 1) := by
      rw [Nat.shiftLeft_eq, pow_one, Nat.mul_comm, firstCodeOf]
    simp only [List.range'_succ, List.map_cons, firstCodesFrom, hstep, ih]

/-- next[L] before any assignment is code(L) (R151 b). -/
theorem firstCodes_getD (lens : List (BitVec 4)) (l : BitVec 4) :
    (firstCodes lens).getD l.toNat 0 = firstCodeOf lens l.toNat := by
  have hcodes : firstCodes lens = (List.range' 0 16).map (firstCodeOf lens) := by
    rw [List.range'_succ, List.map_cons, ← firstCodesFrom_firstCodeOf, firstCodes, List.range_eq_range']
    rfl
  rw [hcodes, List.getD_eq_getElem _ _ (by simp [l.isLt]), List.getElem_map, List.getElem_range']
  simp

/-- A code is its length's first code plus the number of symbols of that length before it (R151 c), so it stays below the first
code plus their number. -/
theorem assignCodes_lt {next : List Nat} {lens : List (BitVec 4)} {sym c : Nat} {l : BitVec 4}
    (hl : lens[sym]? = some l) (hc : (assignCodes next lens)[sym]? = some c) (hl0 : l.toNat ≠ 0) :
    c < next.getD l.toNat 0 + lengthCount lens l.toNat := by
  induction lens generalizing next sym with
  | nil => simp at hl
  | cons x rest ih =>
    have hcount : lengthCount (x :: rest) l.toNat = lengthCount rest l.toNat + if x.toNat = l.toNat then 1 else 0 := by
      simp only [lengthCount, if_neg hl0, List.filter_cons, decide_eq_true_eq]
      split <;> simp
    rw [hcount]
    cases sym with
    | zero =>
      obtain rfl : x = l := by simpa using hl
      obtain rfl : next.getD x.toNat 0 = c := by simpa [assignCodes, hl0] using hc
      simp
    | succ sym =>
      have hl : rest[sym]? = some l := by simpa using hl
      by_cases hx : x.toNat = 0
      · exact (ih hl (by simpa [assignCodes, hx] using hc)).trans_le (by omega)
      · have hlt := ih hl (next := next.modify x.toNat (· + 1)) (by simpa [assignCodes, hx] using hc)
        have hnext : (next.modify x.toNat (· + 1)).getD l.toNat 0 ≤
            next.getD l.toNat 0 + if x.toNat = l.toNat then 1 else 0 := by
          simp only [List.getD_eq_getElem?_getD, List.getElem?_modify]
          cases next[l.toNat]? <;> split <;> simp
        omega

theorem lengthCount_pos {lens : List (BitVec 4)} {sym : Nat} {l : BitVec 4} (hl : lens[sym]? = some l) (hl0 : l.toNat ≠ 0) :
    0 < lengthCount lens l.toNat := by
  rw [lengthCount, if_neg hl0]
  exact List.length_pos_of_mem (List.mem_filter.2 ⟨List.mem_of_getElem? hl, by simp⟩)

/-- The symbols with a length of 1 to `l`. -/
def symbolsUpTo (lens : List (BitVec 4)) (l : Nat) : Nat := lens.countP fun x => decide (1 ≤ x.toNat ∧ x.toNat ≤ l)

theorem symbolsUpTo_succ (lens : List (BitVec 4)) (l : Nat) :
    symbolsUpTo lens (l + 1) = symbolsUpTo lens l + lengthCount lens (l + 1) := by
  simp only [symbolsUpTo, lengthCount, if_neg (Nat.succ_ne_zero l), ← List.countP_eq_length_filter]
  induction lens with
  | nil => rfl
  | cons x rest ih =>
    simp only [List.countP_cons, ih, decide_eq_true_eq]
    split_ifs <;> omega

/-- code(L) counts each shorter symbol at most 2^(L-1) times. -/
theorem firstCodeOf_succ_le (lens : List (BitVec 4)) (l : Nat) : firstCodeOf lens (l + 1) ≤ symbolsUpTo lens l * 2 ^ l := by
  induction l with
  | zero => simp [firstCodeOf, lengthCount]
  | succ l ih =>
    calc firstCodeOf lens (l + 2) = 2 * (firstCodeOf lens (l + 1) + lengthCount lens (l + 1)) := rfl
      _ ≤ 2 * (symbolsUpTo lens l * 2 ^ l + lengthCount lens (l + 1) * 2 ^ l) := by
        have := Nat.le_mul_of_pos_right (lengthCount lens (l + 1)) (Nat.two_pow_pos l)
        omega
      _ = symbolsUpTo lens (l + 1) * 2 ^ (l + 1) := by
        rw [symbolsUpTo_succ, Nat.pow_succ]
        ring

/-- A symbol's entry in the code table: its length, and for a nonzero length its code, at most (N - 1) * 2^14 (R154). -/
theorem codeTable_getElem?_bounds {d : DecodeTable} {sym len code : Nat} (h : (codeTable d)[sym]? = some (len, code))
    (h0 : len ≠ 0) : len < 16 ∧ code ≤ (d.lens.length - 1) * 2 ^ 14 := by
  obtain ⟨hlen, hcode⟩ := List.getElem?_zip_eq_some.1 h
  rw [List.getElem?_map, Option.map_eq_some_iff] at hlen
  obtain ⟨l, hl, rfl⟩ := hlen
  obtain ⟨k, hk : l.toNat = k + 1⟩ := Nat.exists_eq_succ_of_ne_zero h0
  have hlt := assignCodes_lt hl hcode h0
  rw [firstCodes_getD, hk] at hlt
  have hk14 : k ≤ 14 := by omega
  have hfirst := firstCodeOf_succ_le d.lens k
  have hcount : symbolsUpTo d.lens k + lengthCount d.lens (k + 1) ≤ d.lens.length :=
    symbolsUpTo_succ d.lens k ▸ List.countP_le_length
  obtain ⟨c, hc : lengthCount d.lens (k + 1) = c + 1⟩ := Nat.exists_eq_succ_of_ne_zero (hk ▸ (lengthCount_pos hl h0).ne')
  refine ⟨l.isLt, ?_⟩
  calc code ≤ symbolsUpTo d.lens k * 2 ^ k + c := by omega
    _ ≤ symbolsUpTo d.lens k * 2 ^ k + c * 2 ^ k := Nat.add_le_add_left (Nat.le_mul_of_pos_right _ (Nat.two_pow_pos k)) _
    _ = (symbolsUpTo d.lens k + c) * 2 ^ k := (Nat.add_mul _ _ _).symm
    _ ≤ (d.lens.length - 1) * 2 ^ 14 := Nat.mul_le_mul (by omega) (Nat.pow_le_pow_right (by decide) hk14)

end Sys2Proof.Machine

/-! ## PROOF. The host's side of the register file, ATTACH and reset (spec/10_state.md R25 to R49; spec/20_memory.md R62 to R64) -/

namespace Sys2Proof.Machine

/-! ### Host accesses -/

/-- The address of an offset reaches the register there, if the access is one that R62 allows. -/
theorem reachedOffset_regBase (p : Params) (width offset : Nat) :
    reachedOffset p width (p.regBase + offset) =
      if width = 32 ∧ offset % 4 = 0 ∧ offset ≤ 0x40 then some offset else none := by
  simp [reachedOffset]

section
variable {s : State} {rest : List HostAccess} (hidle : s.work.phase = .idle)
include hidle

theorem step_write_unreached {width address : Nat} {v : Word} (h : s.host.pending = .write width address v :: rest)
    (hreach : reachedOffset s.params width address = none) :
    step s = .next { s with host := { s.host with pending := rest } } := by
  rw [step_host hidle h]
  simp only [hostMove, hreach]

theorem step_write_register {width address offset : Nat} {v : Word} (h : s.host.pending = .write width address v :: rest)
    (hreach : reachedOffset s.params width address = some offset) (hctrl : offset ≠ 0) :
    step s = .next (writeRegister offset v { s with host := { s.host with pending := rest } }) := by
  rw [step_host hidle h]
  simp only [hostMove, hreach, if_neg hctrl]

theorem step_read {width address : Nat} (h : s.host.pending = .read width address :: rest) :
    step s = .next { s with host := { s.host with
      pending := rest, readData := hostRead { s with host := { s.host with pending := rest } } width address } } := by
  rw [step_host hidle h]
  rfl

theorem step_attach {bytes : List Byte} (h : s.host.pending = .attach bytes :: rest) (hle : bytes.length ≤ s.params.inputMax) :
    step s = .next { s with
      input := some bytes,
      host := { s.host with pending := rest, duty := dutyAfterAttach (decide (s.input ≠ some bytes)) s.host.duty } } := by
  rw [step_host hidle h]
  simp only [hostMove, attachInput, if_neg (Nat.not_lt.2 hle)]

theorem step_attach_tooLarge {bytes : List Byte} (h : s.host.pending = .attach bytes :: rest)
    (hlt : s.params.inputMax < bytes.length) : step s = .refused .inputTooLarge := by
  rw [step_host hidle h]
  simp only [hostMove, attachInput, if_pos hlt]

theorem step_hardwareReset (h : s.host.pending = .hardwareReset :: rest) :
    step s = .next { State.reset with
      host := { pending := rest, readData := s.host.readData, duty := .fresh }, params := s.params } := by
  rw [step_host hidle h]
  rfl

end

/-- A write to a register that is no command and stores nothing (R25, R62). -/
theorem writeRegister_readOnly {offset : Nat} (v : Word) (s : State) (h1 : offset ≠ 0x2C) (h2 : offset ≠ 0x30) :
    writeRegister offset v s = s := by
  unfold writeRegister
  split
  · exact absurd rfl h1
  · exact absurd rfl h2
  · rfl

/-- Settles O7, access by access, by the register that each reaches. -/
theorem hostAccesses : Obligations.HostAccesses := by
  intro s width offset below w bytes rest hidle
  refine ⟨fun h => ?_, fun h hno => ?_, fun hbelow => ⟨fun h => ?_, fun h => ?_⟩, fun h hle => ?_, fun h hlt => ?_,
    fun h => ?_⟩
  · rw [step_read hidle h, hostRead, reachedOffset_regBase]
    split_ifs <;> rfl
  · have hreach := reachedOffset_regBase s.params width offset
    by_cases hc : width = 32 ∧ offset % 4 = 0 ∧ offset ≤ 0x40
    · obtain ⟨h0, h2c, h30⟩ := hno.resolve_left (not_not_intro hc)
      rw [if_pos hc] at hreach
      rw [step_write_register hidle h hreach h0, writeRegister_readOnly w _ h2c h30]
    · rw [if_neg hc] at hreach
      exact step_write_unreached hidle h hreach
  · rw [step_read hidle h, hostRead, reachedOffset_below (by exact hbelow)]
  · exact step_write_unreached hidle h (reachedOffset_below hbelow)
  · exact step_attach hidle h hle
  · exact step_attach_tooLarge hidle h hlt
  · exact step_nothing_pending hidle h

/-! ### TBL_ADDR, LEN_DATA and CODE_DATA -/

theorem tableOfTsel_eq_none {tsel : BitVec 2} (h : tsel = 3) : tableOfTsel tsel = none := by subst h; rfl

theorem tableOfTsel_eq_some {tsel : BitVec 2} {t : TableId}
    (h : (tsel = 0 ∧ t = .cl) ∨ (tsel = 1 ∧ t = .lit) ∨ (tsel = 2 ∧ t = .dist)) : tableOfTsel tsel = some t := by
  obtain ⟨rfl, rfl⟩ | ⟨rfl, rfl⟩ | ⟨rfl, rfl⟩ := h <;> rfl

theorem toList_setIfInBounds_getElem? {α : Type} {n : Nat} (xs : Vector α n) (i j : Nat) (v : α) :
    (xs.setIfInBounds i v).toList[j]? = if j = i ∧ j < n then some v else xs.toList[j]? := by
  simp only [Vector.getElem?_toList, Vector.getElem?_setIfInBounds]
  grind

/-- A write to LEN_DATA stores at most in the array that TSEL selects (R38). -/
theorem writeLenData_eq (v : Word) (s : State) : ∃ l : Lens, writeLenData v s = { s with lens := l } ∧
    (∀ j, l.cl.toList[j]? = if s.tblAddr.tsel = 0 ∧ j = s.tblAddr.index.toNat ∧ j < 19
      then some (v.extractLsb' 0 3) else s.lens.cl.toList[j]?) ∧
    (∀ j, l.lit.toList[j]? = if s.tblAddr.tsel = 1 ∧ j = s.tblAddr.index.toNat ∧ j < 288
      then some (v.extractLsb' 0 4) else s.lens.lit.toList[j]?) ∧
    (∀ j, l.dist.toList[j]? = if s.tblAddr.tsel = 2 ∧ j = s.tblAddr.index.toNat ∧ j < 32
      then some (v.extractLsb' 0 4) else s.lens.dist.toList[j]?) := by
  have hlow : (v.extractLsb' 0 4).setWidth 3 = v.extractLsb' 0 3 := by
    ext i hi
    simp
    omega
  unfold writeLenData
  obtain h | h | h | h : s.tblAddr.tsel = 0 ∨ s.tblAddr.tsel = 1 ∨ s.tblAddr.tsel = 2 ∨ s.tblAddr.tsel = 3 := by
    generalize s.tblAddr.tsel = t
    revert t
    decide
  · rw [tableOfTsel_eq_some (.inl ⟨h, rfl⟩)]
    exact ⟨_, rfl, fun j => (toList_setIfInBounds_getElem? ..).trans (by simp [hlow, h]), fun j => by simp [setLen, h],
      fun j => by simp [setLen, h]⟩
  · rw [tableOfTsel_eq_some (.inr (.inl ⟨h, rfl⟩))]
    exact ⟨_, rfl, fun j => by simp [setLen, h], fun j => (toList_setIfInBounds_getElem? ..).trans (by simp [h]),
      fun j => by simp [setLen, h]⟩
  · rw [tableOfTsel_eq_some (.inr (.inr ⟨h, rfl⟩))]
    exact ⟨_, rfl, fun j => by simp [setLen, h], fun j => by simp [setLen, h],
      fun j => (toList_setIfInBounds_getElem? ..).trans (by simp [h])⟩
  · rw [tableOfTsel_eq_none h]
    exact ⟨s.lens, rfl, fun j => by simp [h], fun j => by simp [h], fun j => by simp [h]⟩

/-- Settles O8, by TSEL: a write to LEN_DATA stores in the one array it selects, and in none for 3. -/
theorem tableRegisterWrites : Obligations.TableRegisterWrites := by
  refine ⟨fun s w rest hidle h => ?_, fun s w rest hidle h => ?_⟩
  · have hreach := (reachedOffset_regBase s.params 32 0x2C).trans (if_pos (by decide))
    exact step_write_register hidle h hreach (by decide)
  · have hreach := (reachedOffset_regBase s.params 32 0x30).trans (if_pos (by decide))
    obtain ⟨l, hl, hentries⟩ := writeLenData_eq w { s with host := { s.host with pending := rest } }
    exact ⟨l, (step_write_register hidle h hreach (by decide)).trans (congrArg _ hl), hentries⟩

/-- A symbol that has no code reads 0 (R39). -/
theorem codeDataOf_eq_zero {d : DecodeTable} {sym : Nat} (h : (codeOf d sym).1 = 0) : codeDataOf d sym = 0 := by
  unfold codeOf at h
  unfold codeDataOf
  cases he : (codeTable d)[sym]? with
  | none => rfl
  | some e => exact if_pos (by simpa [he] using h)

/-- A symbol that has a code reads its length and its code: the table's lengths have 4 bits, and its codes 24 (R39, R154). -/
theorem codeDataOf_eq {d : DecodeTable} {sym : Nat} (h : (codeOf d sym).1 ≠ 0) (hd : d.lens.length ≤ 288) :
    ∃ (code : BitVec 24) (len : BitVec 4), codeDataOf d sym = code ++ 0#4 ++ len ∧ len.toNat = (codeOf d sym).1 ∧
      code.toNat = (codeOf d sym).2 := by
  unfold codeOf at h ⊢
  unfold codeDataOf
  cases he : (codeTable d)[sym]? with
  | none => simp [he] at h
  | some e =>
    obtain ⟨len, code⟩ := e
    have hne : len ≠ 0 := by simpa [he] using h
    obtain ⟨hlen, hcode⟩ := codeTable_getElem?_bounds he hne
    refine ⟨BitVec.ofNat 24 code, BitVec.ofNat 4 len, if_neg hne, ?_, ?_⟩
    · exact Nat.mod_eq_of_lt hlen
    · exact Nat.mod_eq_of_lt (show code < 2 ^ 24 by omega)

/-- Settles O10: LEN_DATA by the definition of the read, CODE_DATA by the bounds of lengths and codes. -/
theorem tableRegisterReads : Obligations.TableRegisterReads := by
  refine ⟨fun s t ht => ?_, fun s h => ?_⟩
  · have hsel := tableOfTsel_eq_some ht
    have hcode : readRegister s 0x34 = codeDataOf (getTable s.tables t) s.tblAddr.index.toNat := by
      rw [readRegister, codeDataWord, hsel]
    refine ⟨?_, fun h0 => hcode.trans (codeDataOf_eq_zero h0), fun h0 hd => ?_⟩
    · rw [readRegister, lenDataWord, hsel, BitVec.toNat_setWidth]
      exact Nat.mod_eq_of_lt ((BitVec.isLt _).trans (by decide))
    · obtain ⟨code, len, he, hlen, hval⟩ := codeDataOf_eq h0 hd
      rw [hcode, he, ← hlen, ← hval]
      exact ⟨congrArg _ BitVec.extractLsb'_append_eq_right,
        (BitVec.extractLsb'_append_eq_of_le (by decide)).trans BitVec.extractLsb'_append_eq_right,
        congrArg _ ((BitVec.extractLsb'_append_eq_of_le (by decide)).trans BitVec.extractLsb'_append_eq_left)⟩
  · have hsel := tableOfTsel_eq_none h
    exact ⟨by rw [readRegister, lenDataWord, hsel], by rw [readRegister, codeDataWord, hsel]⟩

/-! ### Fields of the register words -/

/-- A field of a word, bit by bit. -/
theorem extractLsb'_eq_of_getLsbD {n start len : Nat} {word : BitVec n} {field : BitVec len}
    (h : ∀ i < len, word.getLsbD (start + i) = field.getLsbD i) : word.extractLsb' start len = field := by
  ext i hi
  rw [BitVec.getElem_extractLsb', h i hi, BitVec.getLsbD_eq_getElem]

/-- Above a zero-extended field every bit is 0. -/
theorem extractLsb'_setWidth_above {n m len : Nat} (field : BitVec n) : (field.setWidth m).extractLsb' n len = 0 :=
  extractLsb'_eq_of_getLsbD fun i _ => by simp

theorem statusWord_fields {s : State} (hidle : s.work.phase = .idle) :
    (statusWord s).getLsbD 0 = false ∧ (statusWord s).getLsbD 1 = s.status.done ∧ (statusWord s).getLsbD 2 = s.status.error ∧
      (statusWord s).getLsbD 3 = s.status.streamEnd ∧ (statusWord s).extractLsb' 4 4 = 0 ∧
      (statusWord s).extractLsb' 8 4 = s.status.errcode ∧ (statusWord s).extractLsb' 12 20 = 0 := by
  have hbusy : s.busy = false := by simp [State.busy, hidle]
  refine ⟨?_, ?_, ?_, ?_, extractLsb'_eq_of_getLsbD fun i hi => ?_, extractLsb'_eq_of_getLsbD fun i hi => ?_,
    extractLsb'_eq_of_getLsbD fun i hi => ?_⟩ <;> simp only [statusWord, hbusy, BitVec.getLsbD_append] <;> grind

theorem bitbufWords_fields (s : State) :
    (bitcntWord s).extractLsb' 0 6 = s.reader.bitcnt ∧ (bitcntWord s).extractLsb' 6 26 = 0 ∧
      (bitbufHiWord s).extractLsb' 0 8 ++ bitbufLoWord s = s.reader.bitbuf ∧ (bitbufHiWord s).extractLsb' 8 24 = 0 := by
  have hlow : (bitbufHiWord s).extractLsb' 0 8 = s.reader.bitbuf.extractLsb' 32 8 :=
    (BitVec.extractLsb'_setWidth_of_le (by decide)).trans BitVec.extractLsb'_eq_self
  refine ⟨(BitVec.extractLsb'_setWidth_of_le (by decide)).trans BitVec.extractLsb'_eq_self, extractLsb'_setWidth_above _, ?_,
    extractLsb'_setWidth_above _⟩
  rw [hlow]
  exact (BitVec.extractLsb'_append_extractLsb'_eq_extractLsb' rfl).trans BitVec.extractLsb'_eq_self

theorem hdrWord_fields (h : Hdr) :
    (hdrWord h).extractLsb' 0 1 = h.bfinal ∧ (hdrWord h).extractLsb' 1 2 = h.btype ∧ (hdrWord h).extractLsb' 3 5 = h.hlit ∧
      (hdrWord h).extractLsb' 8 5 = h.hdist ∧ (hdrWord h).extractLsb' 13 4 = h.hclen ∧ (hdrWord h).extractLsb' 17 15 = 0 := by
  refine ⟨?_, ?_, ?_, ?_, ?_, ?_⟩ <;> refine extractLsb'_eq_of_getLsbD fun i hi => ?_ <;>
    simp only [hdrWord, BitVec.getLsbD_append] <;> grind

theorem errinfoWord_fields (e : ErrInfo) :
    (errinfoWord e).extractLsb' 0 8 = e.subcause ∧ (errinfoWord e).extractLsb' 8 8 = 0 ∧
      (errinfoWord e).extractLsb' 16 16 = e.value := by
  refine ⟨?_, ?_, ?_⟩ <;> refine extractLsb'_eq_of_getLsbD fun i hi => ?_ <;>
    simp only [errinfoWord, BitVec.getLsbD_append] <;> grind

theorem tblAddrWord_fields (a : TblAddr) :
    (tblAddrWord a).extractLsb' 0 9 = a.index ∧ (tblAddrWord a).extractLsb' 9 3 = 0 ∧
      (tblAddrWord a).extractLsb' 12 2 = a.tsel ∧ (tblAddrWord a).extractLsb' 14 18 = 0 := by
  refine ⟨?_, ?_, ?_, ?_⟩ <;> refine extractLsb'_eq_of_getLsbD fun i hi => ?_ <;>
    simp only [tblAddrWord, BitVec.getLsbD_append] <;> grind

theorem maxlenWord_fields (ts : Tables) :
    (maxlenWord ts).extractLsb' 0 4 = BitVec.ofNat 4 (maxLen ts.cl) ∧
      (maxlenWord ts).extractLsb' 8 4 = BitVec.ofNat 4 (maxLen ts.lit) ∧
      (maxlenWord ts).extractLsb' 16 4 = BitVec.ofNat 4 (maxLen ts.dist) ∧
      (maxlenWord ts).extractLsb' 4 4 = 0 ∧ (maxlenWord ts).extractLsb' 12 4 = 0 ∧ (maxlenWord ts).extractLsb' 20 12 = 0 := by
  refine ⟨?_, ?_, ?_, ?_, ?_, ?_⟩ <;> refine extractLsb'_eq_of_getLsbD fun i hi => ?_ <;>
    simp only [maxlenWord, BitVec.getLsbD_append] <;> grind

theorem tblNWord_fields (ts : Tables) :
    (tblNWord ts).extractLsb' 0 5 = BitVec.ofNat 5 ts.cl.lens.length ∧
      (tblNWord ts).extractLsb' 8 9 = BitVec.ofNat 9 ts.lit.lens.length ∧
      (tblNWord ts).extractLsb' 24 6 = BitVec.ofNat 6 ts.dist.lens.length ∧
      (tblNWord ts).extractLsb' 5 3 = 0 ∧ (tblNWord ts).extractLsb' 17 7 = 0 ∧ (tblNWord ts).extractLsb' 30 2 = 0 := by
  refine ⟨?_, ?_, ?_, ?_, ?_, ?_⟩ <;> refine extractLsb'_eq_of_getLsbD fun i hi => ?_ <;>
    simp only [tblNWord, BitVec.getLsbD_append] <;> grind

/-- Settles O9, word by word. -/
theorem registerWordsHoldTheirFields : Obligations.RegisterWordsHoldTheirFields := fun s hidle =>
  ⟨⟨rfl, rfl, rfl, rfl, rfl, rfl⟩, statusWord_fields hidle, bitbufWords_fields s, hdrWord_fields s.hdr,
    errinfoWord_fields s.errinfo, tblAddrWord_fields s.tblAddr, maxlenWord_fields s.tables, tblNWord_fields s.tables⟩

/-! ### Reset -/

/-- Settles O11: every part of the state after reset has its reset value, and a hardware reset leads there. -/
theorem hardwareResetState_isReset : Obligations.HardwareResetState := by
  refine ⟨⟨fun offset => ?_, rfl, rfl, ?_, ?_, ?_, rfl, rfl, rfl⟩, fun s rest hidle h => step_hardwareReset hidle h⟩
  · unfold readRegister
    split <;> rfl
  all_goals exact fun v hv => (Vector.mem_replicate.1 (Vector.mem_toList_iff.1 hv)).2

/-- Settles O57: the state after reset is what a hardware reset of it leaves. -/
theorem machineInvariantHoldsAtReset : Obligations.MachineInvariantHoldsAtReset :=
  machineInv_hardwareResetState (s := State.reset) ⟨⟨15, by decide⟩, le_rfl⟩

end Sys2Proof.Machine

/-! ## PROOF. Every step keeps the window in step with OUT; LIT emits its byte (spec/20_memory.md R58, R59; spec/45_block_decoder.md
R188, R203) -/

namespace Sys2Proof.Machine

/-! ### The history invariant along a step -/

section
variable {kept : Bool} {s t : State}

/-- Emit is the one move that writes the output side, and it keeps the window in step with OUT (R58, R59). -/
theorem historyInv_move (h : HistoryInv s) (hm : Move kept s t) : HistoryInv t := by
  cases hm with
  | emit b =>
    obtain ⟨hlegal, htracks⟩ := historyInv_iff.1 h
    exact historyInv_iff.2 ⟨hlegal, htracks.emitByte (windowBounds_of_legal hlegal) b⟩
  | read | work | hdr | lens | tables | blockCount | streamEnd => exact h

/-- An error leaves what was emitted before it as it is (R221). -/
theorem historyInv_raises (h : HistoryInv s) (hr : Raises s t) : HistoryInv t := by
  cases hr with
  | error | exhausted => exact h

theorem historyInv_ends (h : HistoryInv s) (he : Ends s t) : HistoryInv t := by
  cases he with
  | raises hr => exact historyInv_raises h hr
  | completes v => exact h

/-- RESET_CTX empties OUT and HIST_COUNT together (R134); every other instruction is made of moves and an end. -/
theorem historyInv_exec {i : Instr} (h : HistoryInv s) (hx : exec i s = .next t) : HistoryInv t := by
  by_cases hreset : i = .resetCtx
  · subst hreset
    cases hx
    exact historyInv_newContext h
  · exact exec_keeps (kept := true) (fun _ _ => historyInv_move) (fun _ _ => historyInv_ends) (fun _ hs => hs) hreset
      (fun _ => rfl) h hx

/-- A write to TBL_ADDR or LEN_DATA touches no output (R37, R38). -/
theorem historyInv_writeRegister (h : HistoryInv s) (offset : Nat) (v : Word) : HistoryInv (writeRegister offset v s) := by
  unfold writeRegister
  split
  · exact h
  · obtain ⟨l, hl, -⟩ := writeLenData_eq v s
    rw [hl]
    exact h
  · exact h

/-- A host's access that is no command leaves the output side alone, or is a hardware reset, which empties it (R49). -/
theorem historyInv_hostMove {a : HostAccess} (h : HistoryInv s) (hm : hostMove a s = .settled t) : HistoryInv t := by
  cases a with
  | write width address v =>
    simp only [hostMove] at hm
    split at hm
    · exact Fetched.settled.inj hm ▸ h
    · split at hm
      · simp only [fetchCommand] at hm
        split at hm <;> cases hm
      · exact Fetched.settled.inj hm ▸ historyInv_writeRegister h _ v
  | read width address => exact Fetched.settled.inj hm ▸ h
  | attach bytes =>
    simp only [hostMove, attachInput] at hm
    split at hm
    · cases hm
    · exact Fetched.settled.inj hm ▸ h
  | hardwareReset => exact Fetched.settled.inj hm ▸ historyInv_iff.2 ⟨h.1, .empty ⟨.nil, nofun⟩⟩

end

/-- Settles O54, by the cases of a step: only Emit, RESET_CTX and hardware reset write the output side, and each keeps the
invariant. -/
theorem historyInvariantIsKept : Obligations.HistoryInvariantIsKept := by
  intro s t h ht
  obtain ⟨-, -, rfl⟩ | ⟨a, rest, -, -, hm⟩ | ⟨a, rest, i, u, -, -, hm, hx⟩ | ⟨hp, hf⟩ | ⟨i, u, hp, hf, hx⟩ :=
    step_cases ht
  · exact h
  · exact historyInv_hostMove (s := { s with host := { s.host with pending := rest } }) h hm
  · obtain ⟨w, -, -, -, -, rfl⟩ := hostMove_run hm
    exact historyInv_exec (by exact h) hx
  · obtain ⟨u, hmoves, hr⟩ := (fetchSymbol_movesFrom (kept := true) .refl hp).1 t hf
    exact historyInv_raises (hmoves.keeps (fun _ _ => historyInv_move) h) hr
  · have hmoves := (fetchSymbol_movesFrom (kept := true) .refl hp).2 i u hf
    exact historyInv_exec (hmoves.keeps (fun _ _ => historyInv_move) h) hx

/-! ### LIT -/

/-- HIST_COUNT after Emit: W fits its 32 bits, so it saturates at W and does not wrap (R45, R58). -/
theorem emitByte_histCount_toNat {w : Nat} (hw : WindowBounds w) (b : Byte) (o : Output) :
    (emitByte w b o).histCount.toNat = min (o.histCount.toNat + 1) w := by
  have := hw.greatest
  rw [emitByte_histCount, BitVec.toNat_ofNat, Nat.mod_eq_of_lt]
  omega

/-- The window after Emit: the byte at OUT_COUNT mod W, and every other address as it was (R58). -/
theorem read_emitByte (w a : Nat) (b : Byte) (o : Output) :
    Memory.read a (emitByte w b o).win = if a = o.outCount.toNat % w then some b else Memory.read a o.win := by
  rw [emitByte_win]
  split
  next h => rw [h, Memory.read_write_same]
  next h => exact Memory.read_write_other b o.win h

/-- Settles O39: LIT is one Emit, whose four effects are the statement's (R58, R188). -/
theorem literalIsEmitted : Obligations.LiteralIsEmitted := by
  intro s b hlegal _
  exact ⟨emitByte s.params.windowSize b s.output, rfl, emitByte_out .., BitVec.toNat_add ..,
    emitByte_histCount_toNat (windowBounds_of_legal hlegal) b s.output, fun a => read_emitByte _ a b s.output⟩

end Sys2Proof.Machine

/-! ## PROOF. The encoder and the decoder, and the symbol that a step runs (spec/30_encoding.md R80 to R103) -/

namespace Sys2Proof.Machine

/-! ### Command words -/

/-- An OP of 8 to 15 is a reserved command (R81). -/
theorem decodeCtrl_of_reserved {w : Word} (h : 8 ≤ (ctrlOp w).toNat) : decodeCtrl w = .reservedOp (ctrlOp w) := by
  unfold decodeCtrl
  split
  case h_9 => rfl
  all_goals omega

/-- The command depends on OP and on the fields that OP's command uses, and on no other bit (R83). -/
theorem decodeCtrl_congr {w w' : Word} (hop : ctrlOp w = ctrlOp w')
    (hread : ctrlOp w = 2 → ctrlNbits w = ctrlNbits w' ∧ ctrlKeep w = ctrlKeep w')
    (hbuild : ctrlOp w = 3 → ctrlTsel w = ctrlTsel w' ∧ ctrlNsym w = ctrlNsym w')
    (hsymbol : ctrlOp w = 4 → ctrlTsel w = ctrlTsel w') : decodeCtrl w = decodeCtrl w' := by
  unfold decodeCtrl
  rw [← hop]
  split
  case h_3 h =>
    obtain ⟨hn, hk⟩ := hread (BitVec.eq_of_toNat_eq h)
    rw [hn, hk]
  case h_4 h =>
    obtain ⟨ht, hn⟩ := hbuild (BitVec.eq_of_toNat_eq h)
    rw [ht, hn]
  case h_5 h => rw [hsymbol (BitVec.eq_of_toNat_eq h)]
  all_goals rfl

theorem encode_readBits_fields (nbits : BitVec 6) (keep : Bool) :
    ctrlOp (encode (.readBits nbits keep)) = 2 ∧ ctrlNbits (encode (.readBits nbits keep)) = nbits ∧
      ctrlKeep (encode (.readBits nbits keep)) = keep := by
  refine ⟨extractLsb'_eq_of_getLsbD fun i hi => ?_, extractLsb'_eq_of_getLsbD fun i hi => ?_, ?_⟩ <;>
    simp only [encode, ctrlKeep, BitVec.getLsbD_append] <;> grind

theorem encode_buildTable_fields (tsel : BitVec 2) (nsym : BitVec 9) :
    ctrlOp (encode (.buildTable tsel nsym)) = 3 ∧ ctrlTsel (encode (.buildTable tsel nsym)) = tsel ∧
      ctrlNsym (encode (.buildTable tsel nsym)) = nsym := by
  refine ⟨?_, ?_, ?_⟩ <;> refine extractLsb'_eq_of_getLsbD fun i hi => ?_ <;>
    simp only [encode, BitVec.getLsbD_append] <;> grind

theorem encode_decodeSymbol_fields (tsel : BitVec 2) :
    ctrlOp (encode (.decodeSymbol tsel)) = 4 ∧ ctrlTsel (encode (.decodeSymbol tsel)) = tsel := by
  refine ⟨?_, ?_⟩ <;> refine extractLsb'_eq_of_getLsbD fun i hi => ?_ <;>
    simp only [encode, BitVec.getLsbD_append] <;> grind

theorem ctrlOp_encode_reservedOp (op : BitVec 4) : ctrlOp (encode (.reservedOp op)) = op :=
  (BitVec.extractLsb'_setWidth_of_le (by decide)).trans BitVec.extractLsb'_eq_self

/-- Every command is read back from its word; a reserved one where its OP is reserved. -/
theorem decodeCtrl_encode {i : Instr} (hcommand : i.isCommand = true) (hwf : i.wellFormed = true) :
    decodeCtrl (encode i) = i := by
  cases i
  case readBits nbits keep =>
    obtain ⟨hop, hn, hk⟩ := encode_readBits_fields nbits keep
    simp [decodeCtrl, hop, hn, hk]
  case buildTable tsel nsym =>
    obtain ⟨hop, ht, hn⟩ := encode_buildTable_fields tsel nsym
    simp [decodeCtrl, hop, ht, hn]
  case decodeSymbol tsel =>
    obtain ⟨hop, ht⟩ := encode_decodeSymbol_fields tsel
    simp [decodeCtrl, hop, ht]
  case reservedOp op =>
    have hop := ctrlOp_encode_reservedOp op
    have hle : 8 ≤ op.toNat := of_decide_eq_true hwf
    rw [decodeCtrl_of_reserved (by rwa [hop]), hop]
  case nop | resetCtx | decodeHeader | decodeBlock | decodeStream => rfl
  all_goals cases hcommand

/-- A register word is made of its four bytes (R63). -/
theorem wordOfBytes_bytesOfWord (w : Word) :
    wordOfBytes (w.extractLsb' 0 8) (w.extractLsb' 8 8) (w.extractLsb' 16 8) (w.extractLsb' 24 8) = w := by
  refine BitVec.eq_of_getLsbD_eq fun i hi => ?_
  simp only [wordOfBytes, BitVec.getLsbD_append, BitVec.getLsbD_extractLsb']
  grind

/-- The bytes of a word, whatever follows them, hold the command of the word (R63, R80). -/
theorem decodeCtrlBytes_bytesOfWord (w : Word) (rest : List Byte) :
    decodeCtrlBytes (bytesOfWord w ++ rest) = .ok (decodeCtrl w, rest) := by
  simp only [bytesOfWord, List.cons_append, List.nil_append, decodeCtrlBytes, wordOfBytes_bytesOfWord]

/-! ### Stream keys -/

theorem decode_encode_clLen (len : BitVec 4) : decode .clSym (encode (.clLen len)) = .ok (.clLen len) := by
  have hle : len.toNat ≤ 15 := Nat.le_of_lt_succ len.isLt
  have hkey : (encode (.clLen len)).toNat = len.toNat := BitVec.toNat_setWidth_of_le (by decide)
  simp only [decode, hkey, decodeClSym, if_pos hle, BitVec.ofNat_toNat, BitVec.setWidth_eq]

theorem decode_encode_lit (byte : Byte) : decode .litSym (encode (.lit byte)) = .ok (.lit byte) := by
  have hle : byte.toNat ≤ 255 := Nat.le_of_lt_succ byte.isLt
  have hkey : (encode (.lit byte)).toNat = byte.toNat := BitVec.toNat_setWidth_of_le (by decide)
  rw [decode, hkey, decodeLitSym, if_pos hle, BitVec.ofNat_toNat, BitVec.setWidth_eq]

/-- Every instruction is read back from its word or key, in its own format. -/
theorem decode_encode {i : Instr} (hwf : i.wellFormed = true) : decode i.format (encode i) = .ok i := by
  cases hcommand : i.isCommand with
  | true =>
    have hformat : i.format = .ctrl := of_decide_eq_true (isCommand_eq i ▸ hcommand)
    rw [hformat, decode, decodeCtrl_encode hcommand hwf]
  | false =>
    cases i
    case nop | resetCtx | readBits | buildTable | decodeSymbol | decodeHeader | decodeBlock | decodeStream |
      reservedOp => cases hcommand
    case btype0Stored bfinal | btype1Fixed bfinal | btype2Dynamic bfinal | btype3Reserved bfinal =>
      cases bfinal <;> rfl
    case clLen len => exact decode_encode_clLen len
    case lit byte => exact decode_encode_lit byte
    case litReserved sym =>
      obtain h | h : sym.toNat = 286 ∨ sym.toNat = 287 := of_decide_eq_true hwf
      · exact BitVec.eq_of_toNat_eq (y := 286#9) h ▸ rfl
      · exact BitVec.eq_of_toNat_eq (y := 287#9) h ▸ rfl
    case distReserved sym =>
      obtain h | h : sym.toNat = 30 ∨ sym.toNat = 31 := of_decide_eq_true hwf
      · exact BitVec.eq_of_toNat_eq (y := 30#5) h ▸ rfl
      · exact BitVec.eq_of_toNat_eq (y := 31#5) h ▸ rfl
    -- The symbols without an operand each have one key.
    all_goals rfl

/-- Settles O1, by the instruction's cases: its fields stand in its word where the decoder reads them. -/
theorem decodeOfEncodeIsTheInstruction : Obligations.DecodeOfEncodeIsTheInstruction := by
  intro i hwf
  refine ⟨decode_encode hwf, fun hcommand rest => ?_⟩
  rw [decodeCtrlBytes_bytesOfWord, decodeCtrl_encode hcommand hwf]

/-- Settles O3: the four fields are all that the decoder reads, and bits 10:4 hold both NBITS and KEEP. -/
theorem reservedBitsAndUnusedFieldsAreIgnored : Obligations.ReservedBitsAndUnusedFieldsAreIgnored := by
  intro w w' hop hread hbuild hsymbol
  refine congrArg Except.ok (decodeCtrl_congr hop (fun h => ?_) hbuild hsymbol)
  have hbits : ∀ i < 7, w.getLsbD (4 + i) = w'.getLsbD (4 + i) := fun i hi => by
    simpa [hi] using congrArg (·.getLsbD i) (hread h)
  exact ⟨extractLsb'_eq_of_getLsbD fun i hi => by simpa [ctrlNbits, hi] using hbits i (by omega), hbits 6 (by decide)⟩

/-- An instruction's word, both ways. -/
theorem decode_and_encode {i : Instr} {w : Word} (hwf : i.wellFormed = true) (hw : encode i = w) :
    decode i.format w = .ok i ∧ encode i = w :=
  ⟨hw ▸ decode_encode hwf, hw⟩

/-- Settles O2: each word is the encoding of its command, and so decodes to it. -/
theorem exampleCommandWordsDecodeAndEncode : Obligations.ExampleCommandWordsDecodeAndEncode :=
  ⟨decode_and_encode (i := .readBits 3 false) rfl rfl, decode_and_encode (i := .readBits 7 true) rfl rfl,
    decode_and_encode (i := .readBits 32 false) rfl rfl, decode_and_encode (i := .buildTable 1 8) rfl rfl,
    decode_and_encode (i := .buildTable 0 19) rfl rfl, decode_and_encode (i := .decodeSymbol 2) rfl rfl,
    decode_and_encode (i := .resetCtx) rfl rfl, decode_and_encode (i := .decodeStream) rfl rfl⟩

/-- Settles O4, by running the decoder on each key. -/
theorem streamKeysDecodeByFormat : Obligations.StreamKeysDecodeByFormat := by
  unfold Obligations.StreamKeysDecodeByFormat
  decide

/-! ### The symbol a step runs -/

/-- Within a command a step runs the operation of the key that the phase's decoder gives. -/
theorem step_of_fetchedKey {s t : State} {f : Format} {x : Res Nat} {key : Nat} {i : Instr} (hp : s.work.phase ≠ .idle)
    (hfetch : fetchSymbol s = fetchedKey f x) (hx : x = .ok key t) (hi : decode f (BitVec.ofNat 32 key) = .ok i) :
    step s = exec i t := by
  have hrun : fetchSymbol s = .run i t := by rw [hfetch, hx]; simp only [fetchedKey, hi]
  rw [step_symbol hp, hrun]

/-- Settles O6, by the phase: each has its own decoder and its own format (R174, R186). -/
theorem stepRunsTheDecodedSymbol : Obligations.StepRunsTheDecodedSymbol := by
  intro s t key i
  refine ⟨?_, ?_, ?_, ?_⟩ <;> intro hp hx hi <;>
    exact step_of_fetchedKey (by simp [hp]) (by simp only [fetchSymbol, hp]) hx hi

end Sys2Proof.Machine

/-! ## PROOF. The errors of the stream formats' operations, symbol by symbol (spec/60_exceptions.md R214, R215) -/

namespace Sys2Proof.Machine

/-- The errors, each with its sub-cause, of decoding a key of the format and of running the key's operation. -/
def symbolErrors : Format → List (ErrorKind × BitVec 8)
  | .ctrl => []
  | .blockHdr => [(.inputExhausted, 0), (.unsupportedBlockType, 0)]
  | .clSym => [(.inputExhausted, 0), (.invalidCode, 0), (.invalidSymbol, 3), (.invalidSymbol, 4)]
  | .litSym => [(.inputExhausted, 0), (.invalidCode, 1), (.invalidSymbol, 1)]
  | .distSym => [(.inputExhausted, 0), (.invalidCode, 2), (.invalidSymbol, 2), (.invalidDistance, 0)]

/-- What an error writes: ERROR, ERRCODE and ERRINFO (R220). -/
def errorOf (s : State) : Bool × BitVec 4 × ErrInfo := (s.status.error, s.status.errcode, s.errinfo)

/-- ERRCODE and SUBCAUSE are those of an error in the list. -/
def RaisedIn (errors : List (ErrorKind × BitVec 8)) (t : State) : Prop :=
  ∃ e, (e, t.errinfo.subcause) ∈ errors ∧ t.status.errcode = errorCode e

/-- No error has been raised from `s` to `t`: ERROR, ERRCODE and ERRINFO are as they were. -/
def SameError (s t : State) : Prop := errorOf t = errorOf s

/-- A primitive run since `s` has raised no error but one of the list. -/
def Res.RaisesIn {α : Type} (errors : List (ErrorKind × BitVec 8)) (s : State) : Res α → Prop
  | .ok _ t => SameError s t
  | .raised t => RaisedIn errors t

/-- An operation run since `s` has raised no error but one of the list, where it answers a next state. -/
def OutcomeRaisesIn (errors : List (ErrorKind × BitVec 8)) (s : State) (o : StepOutcome) : Prop :=
  ∀ t, o = .next t → SameError s t ∨ RaisedIn errors t

section
variable {errors : List (ErrorKind × BitVec 8)} {s t : State} {α β : Type}

theorem SameError.refl (s : State) : SameError s s := rfl

theorem SameError.trans {u : State} (h : SameError s t) (ht : SameError t u) : SameError s u := Eq.trans ht h

theorem SameError.errcode_eq (h : SameError s t) : t.status.errcode = s.status.errcode := congrArg (fun p => p.2.1) h

theorem SameError.errinfo_eq (h : SameError s t) : t.errinfo = s.errinfo := congrArg (fun p => p.2.2) h

theorem RaisedIn.of_sameError (h : RaisedIn errors s) (ht : SameError s t) : RaisedIn errors t := by
  rwa [RaisedIn, ht.errinfo_eq, ht.errcode_eq]

theorem raisedIn_raise {e : ErrorKind} {c : BitVec 8} (h : (e, c) ∈ errors) (v : BitVec 16) (s : State) :
    RaisedIn errors (raise e c v s) := ⟨e, h, rfl⟩

theorem Res.RaisesIn.andThen {x : Res α} {f : α → State → Res β} (h : x.RaisesIn errors s)
    (hf : ∀ a t, SameError s t → (f a t).RaisesIn errors s) : (x.andThen f).RaisesIn errors s := by
  cases x with
  | ok a t => exact hf a t h
  | raised t => exact h

theorem Res.RaisesIn.toOutcome {x : Res α} {f : α → State → StepOutcome} (h : x.RaisesIn errors s)
    (hf : ∀ a t, SameError s t → OutcomeRaisesIn errors s (f a t)) : OutcomeRaisesIn errors s (x.toOutcome f) := by
  cases x with
  | ok a t => exact hf a t h
  | raised t =>
    rintro _ ⟨⟩
    exact .inr h

theorem OutcomeRaisesIn.next (h : SameError s t) : OutcomeRaisesIn errors s (.next t) := by
  rintro _ ⟨⟩
  exact .inl h

theorem OutcomeRaisesIn.raise {e : ErrorKind} {c : BitVec 8} (h : (e, c) ∈ errors) (v : BitVec 16) :
    OutcomeRaisesIn errors s (.next (raise e c v t)) := by
  rintro _ ⟨⟩
  exact .inr (raisedIn_raise h v t)

/-! ### Operations that can only run out of input -/

section
variable (hinput : (ErrorKind.inputExhausted, 0) ∈ errors)
include hinput

theorem readBits_raisesIn (h : SameError s t) (n : Nat) (keep : Bool) : (readBits n keep t).RaisesIn errors s := by
  cases hx : readBits n keep t with
  | ok v u =>
    obtain ⟨r, -, rfl⟩ := readBits_eq_ok.1 hx
    exact h
  | raised u =>
    obtain ⟨r, -, rfl⟩ := readBits_eq_raised.1 hx
    exact raisedIn_raise hinput 0 _

theorem readExtra_raisesIn (h : SameError s t) (n : Nat) : (readExtra n t).RaisesIn errors s := by
  obtain rfl | hpos := eq_or_ne n 0
  · exact h
  · rw [readExtra_pos hpos]
    exact readBits_raisesIn hinput h n false

theorem readClLens_raisesIn (h : SameError s t) (syms : List Nat) : (readClLens syms t).RaisesIn errors s := by
  induction syms generalizing t with
  | nil => exact h
  | cons sym rest ih => exact (readBits_raisesIn hinput h 3 false).andThen fun _ _ hu => ih hu

theorem beginHeader_raisesIn (h : SameError s t) : (beginHeader t).RaisesIn errors s := by
  unfold beginHeader
  refine (readBits_raisesIn hinput h 5 false).andThen fun hlit t1 h1 => ?_
  refine (readBits_raisesIn hinput (by exact h1) 5 false).andThen fun hdist t2 h2 => ?_
  refine (readBits_raisesIn hinput (by exact h2) 4 false).andThen fun hclen t3 h3 => ?_
  exact (readClLens_raisesIn hinput (by exact h3) _).andThen fun _ _ h4 => h4

theorem fetchBlockHdr_raisesIn (h : SameError s t) : (fetchBlockHdr t).RaisesIn errors s :=
  (readBits_raisesIn hinput h 1 false).andThen fun _ _ h1 =>
    (readBits_raisesIn hinput (by exact h1) 2 false).andThen fun _ _ h2 => h2

theorem lengthCode_raisesIn (base extra : Nat) : OutcomeRaisesIn errors s (lengthCode base extra s) :=
  (readExtra_raisesIn hinput (.refl s) extra).toOutcome fun _ _ hu => .next hu

end

/-! ### Operations with errors of their own -/

theorem decodeSym_raisesIn {tbl : TableId} (hinput : (ErrorKind.inputExhausted, 0) ∈ errors)
    (hcode : (ErrorKind.invalidCode, tableNumber tbl) ∈ errors) : (decodeSym tbl s).RaisesIn errors s := by
  cases hx : decodeSym tbl s with
  | ok sym u =>
    obtain ⟨d, r, -, rfl⟩ := decodeSym_eq_ok.1 hx
    exact .refl s
  | raised u =>
    obtain ⟨r, rfl | rfl⟩ := decodeSym_eq_raised hx
    · exact raisedIn_raise hcode 0 _
    · exact raisedIn_raise hinput 0 _

theorem sameError_endHeader (s : State) : SameError s (endHeader s) := by
  unfold endHeader
  cases s.work.cmd <;> exact .refl s

theorem sameError_storeLens (r : Nat) (v : BitVec 4) (s : State) : SameError s (storeLens r v s) := by
  obtain ⟨-, he⟩ | ⟨-, he⟩ := storeLens_cases r v s <;> rw [he]
  · exact .refl s
  · exact sameError_endHeader (storedRun r v s)

theorem lengthRun_raisesIn (m : BitVec 16) (base extra : Nat) (v : BitVec 4) :
    OutcomeRaisesIn (symbolErrors .clSym) s (lengthRun m base extra v s) := by
  refine (readBits_raisesIn (by decide) (.refl s) extra false).toOutcome fun e u hu => ?_
  split
  · exact .raise (by decide) m
  · exact .next (hu.trans (sameError_storeLens (base + e) v u))

theorem execClRepeatPrev_raisesIn : OutcomeRaisesIn (symbolErrors .clSym) s (execClRepeatPrev s) := by
  unfold execClRepeatPrev
  split
  · exact .raise (by decide) 16
  · exact lengthRun_raisesIn 16 3 2 _

theorem execEob_raisesIn : OutcomeRaisesIn errors s (execEob s) := by
  unfold execEob
  dsimp only
  split <;> refine .next ?_ <;> cases s.work.bfinal <;> exact .refl s

theorem distanceCode_raisesIn (base extra : Nat) : OutcomeRaisesIn (symbolErrors .distSym) s (distanceCode base extra s) := by
  refine (readExtra_raisesIn (by decide) (.refl s) extra).toOutcome fun e u hu => ?_
  split
  · exact .raise (by decide) _
  · unfold copyMatch
    split
    · exact fun _ ht => nomatch ht
    · exact .next hu

/-- A stream operation raises no error but those of its format. -/
theorem execStreamOp_raisesIn {i : Instr} (hi : i.isCommand = false) :
    OutcomeRaisesIn (symbolErrors i.format) s (execStreamOp i s) := by
  by_cases hlength : i ∈ lengthCodes
  · obtain ⟨p, -, he⟩ := execStreamOp_of_mem_lengthCodes hlength
    rw [lengthCodes_format i hlength, ← he]
    exact lengthCode_raisesIn (by decide) p.1 p.2
  by_cases hdistance : i ∈ distanceCodes
  · obtain ⟨p, -, he⟩ := execStreamOp_of_mem_distanceCodes hdistance
    rw [distanceCodes_format i hdistance, ← he]
    exact distanceCode_raisesIn p.1 p.2
  have hcode : i ∉ lengthCodes ++ distanceCodes := by simp [hlength, hdistance]
  cases i
  case nop | resetCtx | readBits | buildTable | decodeSymbol | decodeHeader | decodeBlock | decodeStream | reservedOp =>
    cases hi
  case btype0Stored | btype1Fixed | btype3Reserved | litReserved | distReserved =>
    exact .raise (by simp [symbolErrors, Instr.format]) _
  case btype2Dynamic bfinal =>
    exact Res.RaisesIn.toOutcome (beginHeader_raisesIn (errors := symbolErrors .blockHdr) (by decide) (.refl s))
      fun _ _ hu => .next hu
  case clLen len => exact .next (sameError_storeLens 1 len s)
  case clRepeatPrev => exact execClRepeatPrev_raisesIn
  case clZeroShort => exact lengthRun_raisesIn 17 3 3 0
  case clZeroLong => exact lengthRun_raisesIn 18 11 7 0
  case lit byte => exact .next (.refl s)
  case eob => exact execEob_raisesIn
  all_goals exact absurd (by decide) hcode

/-! ### The symbol fetch and the sequencer -/

/-- A fetch from `s` has raised an error of the list, or goes on with an operation. -/
def FetchRaisesIn (errors : List (ErrorKind × BitVec 8)) (s : State) : Fetched → Prop
  | .run _ t => SameError s t
  | .settled t => RaisedIn errors t
  | .fault _ | .refused _ => True

theorem fetchedKey_raisesIn {f : Format} {x : Res Nat} (h : x.RaisesIn errors s) : FetchRaisesIn errors s (fetchedKey f x) := by
  obtain ⟨u, rfl, he⟩ | ⟨key, u, i, rfl, -, he⟩ | ⟨key, u, e, rfl, -, he⟩ := fetchedKey_cases f x <;> rw [he]
  · exact h
  · exact h
  · trivial

theorem fetchSymbol_raisesIn (hp : s.work.phase ≠ .idle) : ∃ f, FetchRaisesIn (symbolErrors f) s (fetchSymbol s) := by
  unfold fetchSymbol
  cases ht : s.work.phase with
  | idle => exact absurd ht hp
  | blockHdr => exact ⟨.blockHdr, fetchedKey_raisesIn (fetchBlockHdr_raisesIn (by decide) (.refl s))⟩
  | clSym => exact ⟨.clSym, fetchedKey_raisesIn (decodeSym_raisesIn (tbl := .cl) (by decide) (by decide))⟩
  | litSym => exact ⟨.litSym, fetchedKey_raisesIn (decodeSym_raisesIn (tbl := .lit) (by decide) (by decide))⟩
  | distSym => exact ⟨.distSym, fetchedKey_raisesIn (decodeSym_raisesIn (tbl := .dist) (by decide) (by decide))⟩

/-- Since `s` no error has been raised but one of a symbol. -/
def SymbolErrorsOnly (s t : State) : Prop := SameError s t ∨ ∃ f, RaisedIn (symbolErrors f) t

theorem SymbolErrorsOnly.trans {u : State} (h : SymbolErrorsOnly s t) (ht : SymbolErrorsOnly t u) : SymbolErrorsOnly s u := by
  obtain ht | ht := ht
  · exact h.imp (·.trans ht) fun ⟨f, h⟩ => ⟨f, h.of_sameError ht⟩
  · exact .inr ht

theorem symbolErrorsOnly_of_ran {u : State} {i : Instr} (hp : s.work.phase ≠ .idle) (hf : fetchSymbol s = .run i t)
    (hx : execStreamOp i t = .next u) : SymbolErrorsOnly s u := by
  obtain ⟨f, hfetch⟩ := fetchSymbol_raisesIn hp
  rw [hf] at hfetch
  exact SymbolErrorsOnly.trans (.inl hfetch)
    ((execStreamOp_raisesIn (fetchSymbol_run_not_command hf) u hx).imp_right fun h => ⟨i.format, h⟩)

/-- A command's run of symbols raises no error but those of a symbol. -/
theorem runSequencer_symbolErrorsOnly {fuel : Nat} (hp : s.work.phase ≠ .idle) (h : runSequencer fuel s = .next t) :
    SymbolErrorsOnly s t := by
  refine runSequencer_induction (P := fun u => u.work.phase ≠ .idle ∧ SymbolErrorsOnly s u) (Q := SymbolErrorsOnly s)
    ?_ ?_ ?_ ⟨hp, .inl (.refl s)⟩ h
  · rintro u v ⟨hu, -⟩ hf
    obtain ⟨f, hfetch⟩ := fetchSymbol_raisesIn hu
    rw [hf] at hfetch
    exact .inr ⟨f, hfetch⟩
  · exact fun u i v w hu hf hx _ => hu.2.trans (symbolErrorsOnly_of_ran hu.1 hf hx)
  · exact fun u i v w hu hf hx hbusy => ⟨hbusy, hu.2.trans (symbolErrorsOnly_of_ran hu.1 hf hx)⟩

end

end Sys2Proof.Machine

/-! ## PROOF. The commands at their acceptance: what they ignore, and that each of them ends (spec/40_control.md R130 to R136) -/

namespace Sys2Proof.Machine

/-! ### The working state before a command -/

/-- `f` does not look at the working state, which is immaterial between commands (spec/10_state.md R48). -/
def IgnoresWork {α : Type} (f : State → α) : Prop := ∀ (s : State) (w : Work), f { s with work := w } = f s

theorem ignoresWork_readBits (nbits : Nat) (keep : Bool) :
    IgnoresWork fun s => (readBits nbits keep s).toOutcome fun v s => .next (completeWith v s) := by
  intro s w
  dsimp only [readBits, inputBytes]
  cases readerRead (s.input.getD []) nbits keep s.reader <;> rfl

theorem ignoresWork_decodeSym (t : TableId) :
    IgnoresWork fun s => (decodeSym t s).toOutcome fun sym s => .next (completeWith sym s) := by
  intro s w
  dsimp only [decodeSym, inputBytes]
  cases traverse (s.input.getD []) (codeTable (getTable s.tables t)) (maxLen (getTable s.tables t))
    { acc := 0, k := 0 } s.reader <;> rfl

/-! ### Every command as one acceptance -/

/-- An illegal command in a usable context is turned down (R132). -/
theorem acceptCommand_illegal {op : BitVec 4} {sub : BitVec 8} {perform : State → StepOutcome} {s : State}
    (h : s.status.error = false) :
    acceptCommand op (some sub) perform s = .next (withIllegalCommand sub (op.setWidth 16) s) := by
  simp only [acceptCommand, h]
  rfl

theorem exec_buildTable_of_none {tsel : BitVec 2} {nsym : BitVec 9} (h : buildTableOperands tsel nsym = none) (s : State) :
    exec (.buildTable tsel nsym) s = acceptCommand 3 (some 2) .next s := by
  simp only [exec, execBuildTable, h]

theorem exec_buildTable_of_some {tsel : BitVec 2} {nsym : BitVec 9} {t : TableId} {n : Nat}
    (h : buildTableOperands tsel nsym = some (t, n)) (s : State) :
    exec (.buildTable tsel nsym) s = acceptCommand 3 none
      (fun s => .next (completeWith (usedSymbols (snapshot s.lens t n).lens) (buildTable t n s))) s := by
  simp only [exec, execBuildTable, h]

theorem exec_decodeSymbol_of_none {tsel : BitVec 2} (h : tableOfTsel tsel = none) (s : State) :
    exec (.decodeSymbol tsel) s = acceptCommand 4 (some 2) .next s := by
  simp only [exec, execDecodeSymbol, h]

theorem exec_decodeSymbol_of_some {tsel : BitVec 2} {t : TableId} (h : tableOfTsel tsel = some t) (s : State) :
    exec (.decodeSymbol tsel) s =
      acceptCommand 4 none (fun s => (decodeSym t s).toOutcome fun sym s => .next (completeWith sym s)) s := by
  simp only [exec, execDecodeSymbol, h]

/-- Every command but RESET_CTX is one acceptance (R130), which tests STATUS and its operands, and what it then performs does not
look at the working state. A command that is always turned down performs nothing: `complete` stands in there. -/
theorem exec_eq_acceptCommand {i : Instr} (hi : i.isCommand = true) (hreset : i ≠ .resetCtx) :
    ∃ (op : BitVec 4) (illegal : Status → Option (BitVec 8)) (perform : State → StepOutcome),
      (∀ s, exec i s = acceptCommand op (illegal s.status) perform s) ∧ IgnoresWork perform := by
  cases i
  case nop => exact ⟨0, fun _ => none, fun s => .next (complete s), fun _ => rfl, fun _ _ => rfl⟩
  case resetCtx => exact absurd rfl hreset
  case readBits nbits keep =>
    exact ⟨2, fun _ => if readBitsLegal nbits then none else some 2, _, fun _ => rfl, ignoresWork_readBits nbits.toNat keep⟩
  case buildTable tsel nsym =>
    cases ho : buildTableOperands tsel nsym with
    | none => exact ⟨3, fun _ => some 2, fun s => .next (complete s), exec_buildTable_of_none ho, fun _ _ => rfl⟩
    | some p => exact ⟨3, fun _ => none, _, exec_buildTable_of_some ho, fun _ _ => rfl⟩
  case decodeSymbol tsel =>
    cases ht : tableOfTsel tsel with
    | none => exact ⟨4, fun _ => some 2, fun s => .next (complete s), exec_decodeSymbol_of_none ht, fun _ _ => rfl⟩
    | some t => exact ⟨4, fun _ => none, _, exec_decodeSymbol_of_some ht, ignoresWork_decodeSym t⟩
  case decodeHeader =>
    exact ⟨5, fun _ => none, fun s => (beginHeader { s with work := { Work.idle with cmd := .header } }).toOutcome
      fun _ s => runCommand s, fun _ => rfl, fun _ _ => rfl⟩
  case decodeBlock =>
    exact ⟨6, fun st => if st.streamEnd then some 3 else none, fun s => runCommand (startBlocks .block s), fun _ => rfl,
      fun _ _ => rfl⟩
  case decodeStream =>
    exact ⟨7, fun st => if st.streamEnd then some 3 else none, fun s => runCommand (startBlocks .stream s), fun _ => rfl,
      fun _ _ => rfl⟩
  case reservedOp op => exact ⟨op, fun _ => some 1, fun s => .next (complete s), fun _ => rfl, fun _ _ => rfl⟩
  all_goals cases hi

/-- An accepted command does the same from every working state (R48). -/
theorem exec_command_withWork {i : Instr} {s : State} (hi : i.isCommand = true) (herr : s.status.error = false) (w : Work) :
    exec i { s with work := w } = exec i s := by
  by_cases hreset : i = .resetCtx
  · subst hreset
    rfl
  · obtain ⟨op, illegal, perform, hexec, hwork⟩ := exec_eq_acceptCommand hi hreset
    rw [hexec, hexec]
    cases hl : illegal s.status with
    | none =>
      rw [acceptCommand_performs herr, acceptCommand_performs (by exact herr)]
      exact hwork (clearDone s) w
    | some sub =>
      rw [acceptCommand_illegal herr, acceptCommand_illegal (by exact herr)]
      rfl

/-- Settles O14: an acceptance tests ERROR before anything else. -/
theorem commandsAreIgnoredWhileError : Obligations.CommandsAreIgnoredWhileError := by
  intro i s hi hreset herr
  obtain ⟨op, illegal, perform, hexec, -⟩ := exec_eq_acceptCommand hi hreset
  rw [hexec]
  exact acceptCommand_error herr

/-- Settles O58: between commands this is what keeps the invariants (by induction over a command's symbols, on the stream bits
left); in a state within a command ERROR is 0, and there the command does the same as from the idle sequencer. -/
theorem everyCommandEnds : Obligations.EveryCommandEnds := by
  intro i s hi hinv
  obtain ⟨hsound, -⟩ := machineInv_iff.1 hinv
  by_cases hp : s.work.phase = .idle
  · obtain ⟨t, ht, hended⟩ := exec_command_answers hsound hp hi
    exact ⟨t, ht, hended.idle⟩
  · have hrunning := hsound.running_of_busy hp
    obtain ⟨t, ht, hended⟩ := exec_command_answers (hrunning.withWork (w := .idle) nofun nofun).sound rfl hi
    exact ⟨t, exec_command_withWork hi hrunning.noError .idle ▸ ht, hended.idle⟩

end Sys2Proof.Machine

/-! ## PROOF. NOP, RESET_CTX, reserved and illegal commands, and a write to CTRL (spec/40_control.md R130 to R135) -/

namespace Sys2Proof.Machine

/-! ### NOP, RESET_CTX and the reserved commands -/

theorem exec_nop_of_noError {s : State} (h : s.status.error = false) : exec .nop s = .next (complete (clearDone s)) :=
  acceptCommand_performs (op := 0) (perform := fun s => .next (complete s)) h

/-- Settles O13, by the two answers of its acceptance. -/
theorem nopSetsDoneOnly : Obligations.NopSetsDoneOnly :=
  ⟨rfl, fun _ h => ⟨_, exec_nop_of_noError h, rfl⟩, fun _ h => commandsAreIgnoredWhileError .nop _ rfl nofun h,
    _, exec_nop_of_noError rfl, rfl⟩

/-- STATUS in a new context is DONE alone (R27, R134). -/
theorem statusWord_complete_newContext (s : State) : statusWord (complete (newContext s)) = 0x00000002 :=
  calc statusWord (complete (newContext s))
    _ = statusWord (complete State.reset) := rfl
    _ = 0x00000002 := rfl

/-- Settles O12: RESET_CTX is the start of a new context and DONE. -/
theorem resetCtxStartsANewContext : Obligations.ResetCtxStartsANewContext :=
  fun s => ⟨complete (newContext s), rfl, rfl, statusWord_complete_newContext s, rfl, rfl⟩

theorem exec_reservedOp_of_noError (op : BitVec 4) {s : State} (h : s.status.error = false) :
    exec (.reservedOp op) s = .next (withIllegalCommand 1 (op.setWidth 16) s) :=
  acceptCommand_illegal (perform := .next) h

/-- Settles O15: an acceptance whose test no state passes. -/
theorem reservedCommandsRaise : Obligations.ReservedCommandsRaise := by
  refine ⟨fun w hw => congrArg Except.ok (decodeCtrl_of_reserved hw), fun op s h => ⟨_, exec_reservedOp_of_noError op h, ?_⟩,
    fun op s h => commandsAreIgnoredWhileError _ s rfl nofun h, _, exec_reservedOp_of_noError 0xF rfl, rfl, rfl⟩
  rw [withIllegalCommand, withError]

/-! ### A write to CTRL -/

/-- CTRL stands at REG_BASE (R64). -/
theorem hostMove_ctrl (w : Word) (s : State) : hostMove (.write 32 s.params.regBase w) s = fetchCommand w s := by
  have hreach : reachedOffset s.params 32 s.params.regBase = some 0 := reachedOffset_regBase s.params 32 0
  simp only [hostMove, hreach, if_pos]

theorem fetchCommand_run {w : Word} {s : State} (h : ¬(s.host.duty = .replaced ∧ callsInByte (decodeCtrl w) s = true)) :
    fetchCommand w s =
      .run (decodeCtrl w) { s with host := { s.host with duty := dutyAfterCommand (decodeCtrl w) s.host.duty } } :=
  if_neg h

theorem fetchCommand_refused {w : Word} {s : State} (hduty : s.host.duty = .replaced)
    (hcalls : callsInByte (decodeCtrl w) s = true) : fetchCommand w s = .refused .inputReplacedInContext :=
  if_pos ⟨hduty, hcalls⟩

/-- Settles O5: a write to CTRL is a command's fetch, which runs it or refuses it. -/
theorem stepRunsTheCommandWritten : Obligations.StepRunsTheCommandWritten := by
  intro s w rest i hidle hpending hi
  obtain rfl : decodeCtrl w = i := Except.ok.inj hi
  have hmove := hostMove_ctrl w { s with host := { s.host with pending := rest } }
  refine ⟨fun hruns => ?_, fun hduty hcalls => ?_⟩ <;> rw [step_host hidle hpending, hmove]
  · rw [fetchCommand_run (by exact hruns)]
  · rw [fetchCommand_refused (by exact hduty) hcalls]

/-! ### Legal operands -/

theorem readBitsLegal_iff (nbits : BitVec 6) : readBitsLegal nbits = true ↔ 1 ≤ nbits.toNat ∧ nbits.toNat ≤ 32 :=
  decide_eq_true_iff

/-- TSEL selects a table unless it is 3 (R26). -/
theorem tableOfTsel_isSome_iff (tsel : BitVec 2) : (tableOfTsel tsel).isSome = true ↔ tsel.toNat ≤ 2 := by
  revert tsel
  decide

/-- The size of the table that TSEL selects (R132). -/
theorem tableSize_of_tableOfTsel {tsel : BitVec 2} {t : TableId} (h : tableOfTsel tsel = some t) :
    tableSize t = ([19, 288, 32][tsel.toNat]?).getD 0 := by
  unfold tableOfTsel at h
  split at h <;> cases h <;> simp_all [tableSize]

/-- operands_legal of BUILD_TABLE (R132). -/
theorem buildTableOperands_isSome_iff (tsel : BitVec 2) (nsym : BitVec 9) :
    (buildTableOperands tsel nsym).isSome = true ↔
      tsel.toNat ≤ 2 ∧ 1 ≤ nsym.toNat ∧ nsym.toNat ≤ ([19, 288, 32][tsel.toNat]?).getD 0 := by
  unfold buildTableOperands
  rw [← tableOfTsel_isSome_iff]
  cases ht : tableOfTsel tsel with
  | none => simp
  | some t =>
    rw [← tableSize_of_tableOfTsel ht]
    dsimp only
    split <;> simp_all

/-! ### Commands that pass the tests -/

theorem errorCode_eq_seven_iff (e : ErrorKind) : errorCode e = 7 ↔ e = .illegalCommand := by
  cases e <;> decide

/-- An error of a list without ILLEGAL_COMMAND has another ERRCODE. -/
theorem RaisedIn.errcode_ne {errors : List (ErrorKind × BitVec 8)} {t : State} (h : RaisedIn errors t)
    (hlegal : ∀ p ∈ errors, p.1 ≠ .illegalCommand) : t.status.errcode ≠ 7 := by
  obtain ⟨e, he, hcode⟩ := h
  rw [hcode, Ne, errorCode_eq_seven_iff]
  exact hlegal _ he

theorem symbolErrors_ne_illegalCommand (f : Format) : ∀ p ∈ symbolErrors f, p.1 ≠ .illegalCommand := by
  cases f <;> decide

section
variable {s t : State} (hcode : s.status.errcode = 0)
include hcode

theorem SameError.errcode_ne (h : SameError s t) : t.status.errcode ≠ 7 := by
  rw [h.errcode_eq, hcode]
  decide

theorem OutcomeRaisesIn.errcode_ne {errors : List (ErrorKind × BitVec 8)} {o : StepOutcome} (h : OutcomeRaisesIn errors s o)
    (hlegal : ∀ p ∈ errors, p.1 ≠ .illegalCommand) (ho : o = .next t) : t.status.errcode ≠ 7 :=
  (h t ho).elim (SameError.errcode_ne hcode) fun ht => ht.errcode_ne hlegal

theorem SymbolErrorsOnly.errcode_ne (h : SymbolErrorsOnly s t) : t.status.errcode ≠ 7 :=
  h.elim (SameError.errcode_ne hcode) fun ⟨f, hf⟩ => hf.errcode_ne (symbolErrors_ne_illegalCommand f)

end

section
variable {s t : State} (herr : s.status.error = false)
include herr

theorem exec_readBits_of_illegal {nbits : BitVec 6} (hillegal : readBitsLegal nbits = false) (keep : Bool) :
    exec (.readBits nbits keep) s = .next (withIllegalCommand 2 2 s) := by
  simp only [exec, execReadBits, hillegal, Bool.false_eq_true, if_false, acceptCommand_illegal herr]
  rfl

theorem exec_readBits_raisesIn {nbits : BitVec 6} (hlegal : readBitsLegal nbits = true) (keep : Bool) :
    OutcomeRaisesIn [(.inputExhausted, 0)] s (exec (.readBits nbits keep) s) := by
  show OutcomeRaisesIn _ s (execReadBits nbits keep s)
  rw [execReadBits, if_pos hlegal, acceptCommand_performs herr]
  have haccepted : SameError s (clearDone s) := .refl s
  exact (readBits_raisesIn (by decide) haccepted nbits.toNat keep).toOutcome fun _ _ hu => .next hu

theorem exec_buildTable_raisesIn {tsel : BitVec 2} {nsym : BitVec 9} {p : TableId × Nat}
    (hlegal : buildTableOperands tsel nsym = some p) : OutcomeRaisesIn [] s (exec (.buildTable tsel nsym) s) := by
  rw [exec_buildTable_of_some hlegal, acceptCommand_performs herr]
  exact .next (.refl s)

theorem exec_decodeSymbol_raisesIn {tsel : BitVec 2} {tbl : TableId} (hlegal : tableOfTsel tsel = some tbl) :
    OutcomeRaisesIn [(.inputExhausted, 0), (.invalidCode, tableNumber tbl)] s (exec (.decodeSymbol tsel) s) := by
  rw [exec_decodeSymbol_of_some hlegal, acceptCommand_performs herr]
  have haccepted : SameError s (clearDone s) := .refl s
  exact (decodeSym_raisesIn (s := clearDone s) (by simp) (by simp)).toOutcome fun _ _ hu => .next (haccepted.trans hu)

theorem exec_decodeHeader_of_noError :
    exec .decodeHeader s = (beginHeader { clearDone s with work := { Work.idle with cmd := .header } }).toOutcome
      fun _ s => runCommand s :=
  (acceptCommand_performs herr : execDecodeHeader s = _)

theorem exec_decodeHeader_symbolErrorsOnly (h : exec .decodeHeader s = .next t) : SymbolErrorsOnly s t := by
  rw [exec_decodeHeader_of_noError herr] at h
  have haccepted : SameError s { clearDone s with work := { Work.idle with cmd := .header } } := .refl s
  have hbegin := beginHeader_raisesIn (errors := symbolErrors .clSym) (by decide) haccepted
  obtain hraised | ⟨a, u, hok, hrun⟩ := Res.toOutcome_eq_next.1 h
  · rw [hraised] at hbegin
    exact .inr ⟨.clSym, hbegin⟩
  · rw [hok] at hbegin
    refine SymbolErrorsOnly.trans (.inl hbegin) (runSequencer_symbolErrorsOnly ?_ hrun)
    rw [beginHeader_phase hok]
    decide

/-- DECODE_BLOCK and DECODE_STREAM after the stream has ended (R132). -/
theorem exec_blocks_of_ended (hend : s.status.streamEnd = true) :
    exec .decodeBlock s = .next (withIllegalCommand 3 6 s) ∧ exec .decodeStream s = .next (withIllegalCommand 3 7 s) := by
  have hillegal : afterStreamEnd s = some 3 := if_pos hend
  simp only [exec, execDecodeBlock, execDecodeStream, hillegal, acceptCommand_illegal herr]
  exact ⟨rfl, rfl⟩

/-- DECODE_BLOCK and DECODE_STREAM before it (R206, R208). -/
theorem exec_blocks_of_not_ended (hend : s.status.streamEnd = false) :
    exec .decodeBlock s = runCommand (startBlocks .block (clearDone s)) ∧
      exec .decodeStream s = runCommand (startBlocks .stream (clearDone s)) := by
  have hlegal : afterStreamEnd s = none := if_neg (by simp [hend])
  simp only [exec, execDecodeBlock, execDecodeStream, hlegal, acceptCommand_performs herr, and_self]

end

theorem runBlocks_symbolErrorsOnly {c : Cmd} {s t : State} (h : runCommand (startBlocks c (clearDone s)) = .next t) :
    SymbolErrorsOnly s t :=
  runSequencer_symbolErrorsOnly (s := startBlocks c (clearDone s)) nofun h

/-- Settles O16: the tests of each acceptance are those of R132, and what follows them raises only the errors of reading INPUT
and of symbols. -/
theorem illegalOperandsAndEndedStreamsRaise : Obligations.IllegalOperandsAndEndedStreamsRaise := by
  intro s herr hcode
  refine ⟨fun nbits keep => ⟨fun hn => ?_, fun hn t ht => ?_⟩, fun tsel nsym => ⟨fun hn => ?_, fun hn t ht => ?_⟩,
    fun tsel => ⟨fun hn => ?_, fun hn t ht => ?_⟩, exec_blocks_of_ended herr, ?_, fun hend => ?_⟩
  · exact exec_readBits_of_illegal herr (by rwa [← Bool.not_eq_true, readBitsLegal_iff]) keep
  · exact (exec_readBits_raisesIn herr ((readBitsLegal_iff nbits).2 hn) keep).errcode_ne hcode (by decide) ht
  · rw [← buildTableOperands_isSome_iff, Option.not_isSome_iff_eq_none] at hn
    rw [exec_buildTable_of_none hn, acceptCommand_illegal herr]
    rfl
  · obtain ⟨p, hp⟩ := Option.isSome_iff_exists.1 ((buildTableOperands_isSome_iff tsel nsym).2 hn)
    exact (exec_buildTable_raisesIn herr hp).errcode_ne hcode nofun ht
  · rw [← tableOfTsel_isSome_iff, Option.not_isSome_iff_eq_none] at hn
    rw [exec_decodeSymbol_of_none hn, acceptCommand_illegal herr]
    rfl
  · obtain ⟨tbl, htbl⟩ := Option.isSome_iff_exists.1 ((tableOfTsel_isSome_iff tsel).2 hn)
    exact (exec_decodeSymbol_raisesIn herr htbl).errcode_ne hcode (by simp) ht
  · rintro i (rfl | rfl | rfl) t ht
    · rw [exec_nop_of_noError herr] at ht
      cases ht
      exact SameError.errcode_ne hcode (.refl s)
    · cases ht
      exact (by decide : (0 : BitVec 4) ≠ 7)
    · exact (exec_decodeHeader_symbolErrorsOnly herr ht).errcode_ne hcode
  · obtain ⟨hblock, hstream⟩ := exec_blocks_of_not_ended herr hend
    rintro i (rfl | rfl) t ht
    · exact (runBlocks_symbolErrorsOnly (hblock ▸ ht)).errcode_ne hcode
    · exact (runBlocks_symbolErrorsOnly (hstream ▸ ht)).errcode_ne hcode

end Sys2Proof.Machine

/-! ## PROOF. Every step keeps the bit buffer well formed, whatever the input's length (spec/41_bitreader.md R143) -/

namespace Sys2Proof.Machine

section
variable {input : List Byte} {r q : Reader}

/-- InByte does not touch the buffer. -/
theorem bufferInv_inByte {b : Byte} (h : BufferInv r) (hb : inByte input r = some (b, q)) : BufferInv q := by
  unfold inByte at hb
  split at hb <;> cases hb
  exact h

/-- The refill loop only puts bytes above fewer than 32 bits, and with refills enough it ends with the bits asked for. -/
theorem bufferInv_refill {n fuel : Nat} (hn : n ≤ 32) (h : BufferInv r) :
    (∀ q, refill input fuel n r = .ok q → BufferInv q ∧ (n ≤ r.bitcnt.toNat + 8 * fuel → n ≤ q.bitcnt.toNat)) ∧
      ∀ q, refill input fuel n r = .error q → BufferInv q := by
  induction fuel generalizing r with
  | zero => exact ⟨fun q hq => by cases hq; exact ⟨h, id⟩, nofun⟩
  | succ fuel ih =>
    unfold refill
    split_ifs with hc
    · exact ⟨fun q hq => by cases hq; exact ⟨h, fun _ => hc⟩, nofun⟩
    · cases hb : inByte input r with
      | none => exact ⟨nofun, fun q hq => by cases hq; exact h⟩
      | some p =>
        obtain ⟨b, p⟩ := p
        have hcnt := inByte_bitcnt hb
        obtain ⟨hpush, hpushed⟩ := bufferInv_pushByte (b := b) (bufferInv_inByte h hb) (by rw [hcnt]; omega)
        obtain ⟨hok, herror⟩ := ih hpush
        rw [hpushed, hcnt] at hok
        exact ⟨fun q hq => ⟨(hok q hq).1, fun hle => (hok q hq).2 (by omega)⟩, herror⟩

/-- Dropping bits that are there leaves no bit above the others. -/
theorem bufferInv_dropBits {n : Nat} (h : BufferInv r) (hn : n ≤ r.bitcnt.toNat) : BufferInv (dropBits n r) :=
  (readerMoves_dropBits (input := []) h hn).buffer

theorem bufferInv_of_read {n v : Nat} {keep : Bool} (hn : n ≤ 32) (h : BufferInv r)
    (hq : readerRead input n keep r = .read v q) : BufferInv q := by
  obtain ⟨p, hp, -, rfl⟩ := readerRead_eq_read.1 hq
  obtain ⟨hinv, hcnt⟩ := (bufferInv_refill hn h).1 p hp
  cases keep with
  | true => exact hinv
  | false => exact bufferInv_dropBits hinv (hcnt (by omega))

theorem bufferInv_of_exhausted {n : Nat} {keep : Bool} (hn : n ≤ 32) (h : BufferInv r)
    (hq : readerRead input n keep r = .exhausted q) : BufferInv q := by
  unfold readerRead at hq
  cases hp : refill input 4 n r with
  | ok p => simp [hp] at hq
  | error p =>
    obtain rfl : p = q := by simpa [hp] using hq
    exact (bufferInv_refill hn h).2 p hp

end

section
variable {kept : Bool} {s t : State}

/-- Of the moves only a read touches the reader. -/
theorem bufferInv_move (h : BufferInv s.reader) (hm : Move kept s t) : BufferInv t.reader := by
  cases hm with
  | read hn _ hr => exact bufferInv_of_read hn h hr
  | work | hdr | lens | tables | blockCount | streamEnd | emit => exact h

/-- An error leaves the reader where it was, or where the input ran out (R144). -/
theorem bufferInv_raises (h : BufferInv s.reader) (hr : Raises s t) : BufferInv t.reader := by
  cases hr with
  | error => exact h
  | exhausted hn hr => exact bufferInv_of_exhausted hn h hr

theorem bufferInv_ends (h : BufferInv s.reader) (he : Ends s t) : BufferInv t.reader := by
  cases he with
  | raises hr => exact bufferInv_raises h hr
  | completes v => exact h

/-- The empty buffer after reset (R49). -/
theorem bufferInv_reset : BufferInv Reader.reset := by decide

/-- RESET_CTX empties the buffer (R134); every other instruction is made of moves and an end. -/
theorem bufferInv_exec {i : Instr} (h : BufferInv s.reader) (hx : exec i s = .next t) : BufferInv t.reader := by
  by_cases hreset : i = .resetCtx
  · subst hreset
    cases hx
    exact bufferInv_reset
  · exact exec_keeps (kept := true) (P := fun s => BufferInv s.reader) (fun _ _ => bufferInv_move) (fun _ _ => bufferInv_ends)
      (fun _ hs => hs) hreset (fun _ => rfl) h hx

/-- A host's access that is no command leaves the reader alone, or is a hardware reset (R49). -/
theorem hostMove_settled_reader {a : HostAccess} (hm : hostMove a s = .settled t) :
    t.reader = s.reader ∨ t.reader = Reader.reset := by
  cases a with
  | write width address v =>
    simp only [hostMove] at hm
    split at hm
    · exact .inl (Fetched.settled.inj hm ▸ rfl)
    · split at hm
      · simp only [fetchCommand] at hm
        split at hm <;> cases hm
      · rename_i offset _ _
        rw [← Fetched.settled.inj hm]
        obtain ⟨l, hl, -⟩ := writeLenData_eq v s
        unfold writeRegister
        split
        · exact .inl rfl
        · exact .inl (hl ▸ rfl)
        · exact .inl rfl
  | read width address => exact .inl (Fetched.settled.inj hm ▸ rfl)
  | attach bytes =>
    simp only [hostMove, attachInput] at hm
    split at hm
    · cases hm
    · exact .inl (Fetched.settled.inj hm ▸ rfl)
  | hardwareReset => exact .inr (Fetched.settled.inj hm ▸ rfl)

end

/-- Settles O21, by the cases of a step: only reads, RESET_CTX and hardware reset write the buffer, and each leaves it well formed. -/
theorem bufferInvariantIsKept : Obligations.BufferInvariantIsKept := by
  refine ⟨bufferInv_reset, fun s t h ht => ?_⟩
  have move : ∀ x y, BufferInv x.reader → Move true x y → BufferInv y.reader := fun _ _ => bufferInv_move
  obtain ⟨-, -, rfl⟩ | ⟨a, rest, -, -, hm⟩ | ⟨a, rest, i, u, -, -, hm, hx⟩ | ⟨hp, hf⟩ | ⟨i, u, hp, hf, hx⟩ :=
    step_cases ht
  · exact h
  · obtain he | he := hostMove_settled_reader hm <;> rw [he]
    · exact h
    · exact bufferInv_reset
  · obtain ⟨w, -, -, -, -, rfl⟩ := hostMove_run hm
    exact bufferInv_exec (by exact h) hx
  · obtain ⟨u, hmoves, hr⟩ := (fetchSymbol_movesFrom (kept := true) .refl hp).1 t hf
    exact bufferInv_raises (hmoves.keeps move h) hr
  · have hmoves := (fetchSymbol_movesFrom (kept := true) .refl hp).2 i u hf
    exact bufferInv_exec (hmoves.keeps move h) hx

end Sys2Proof.Machine

/-! ## PROOF. ReadBits on the stream's bits: what it gives with bits enough, and what it leaves without (spec/41_bitreader.md R142 to
R147) -/

namespace Sys2Proof.Machine

/-! ### Fields and the bits that spell them -/

theorem fieldValue_append (xs ys : List Bool) : fieldValue (xs ++ ys) = fieldValue xs + 2 ^ xs.length * fieldValue ys := by
  induction xs with
  | nil => simp [fieldValue]
  | cons b xs ih =>
    simp only [List.cons_append, fieldValue, ih, List.length_cons, Nat.pow_succ']
    ring

theorem fieldValue_lt (bits : List Bool) : fieldValue bits < 2 ^ bits.length := by
  induction bits with
  | nil => decide
  | cons b rest ih =>
    rw [fieldValue, List.length_cons, Nat.pow_succ]
    have := b.toNat_lt
    omega

/-- The bits of a field spell its value again (R85). -/
theorem fieldValue_fieldBits (n v : Nat) : fieldValue (fieldBits n v) = v % 2 ^ n := by
  unfold fieldBits
  induction n generalizing v with
  | zero => simp [fieldValue, Nat.mod_one]
  | succ n ih =>
    have hrest : v.testBit ∘ Nat.succ = (v / 2).testBit := funext fun i => Nat.testBit_succ v i
    rw [List.range_succ_eq_map, List.map_cons, List.map_map, hrest, fieldValue, ih, Nat.pow_succ', Nat.mod_mul, Nat.testBit_zero]
    obtain h | h := Nat.mod_two_eq_zero_or_one v <;> simp [h]

/-- The low bits of the buffer are the field that the oldest buffered bits spell (R142). -/
theorem peekBits_eq {n : Nat} {r : Reader} (hn : n ≤ r.bitcnt.toNat) : peekBits n r = fieldValue ((bufferedBits r).take n) := by
  have hfield : (bufferedBits r).take n = fieldBits n r.bitbuf.toNat := by
    rw [bufferedBits, ← List.map_take, List.take_range, Nat.min_eq_left hn]
    rfl
  rw [hfield, fieldValue_fieldBits, peekBits, BitVec.extractLsb'_toNat, Nat.shiftRight_zero]

@[simp] theorem bufferedBits_length (r : Reader) : (bufferedBits r).length = r.bitcnt.toNat := by simp [bufferedBits]

/-- The bits of the bytes not yet taken are eight for each (R56). -/
theorem readerBits_length (input : List Byte) (r : Reader) : (readerBits input r).length = bitsLeft input r := by
  have hbyte : ∀ b ∈ input.drop r.inCount.toNat, (byteBits b).length = 8 := fun b _ => by simp [byteBits]
  rw [readerBits, List.length_append, List.length_flatMap, List.map_congr_left hbyte]
  simp [bitsLeft]
  ring

theorem bitcnt_le_readerBits_length (input : List Byte) (r : Reader) : r.bitcnt.toNat ≤ (readerBits input r).length := by
  rw [readerBits_length]
  exact Nat.le_add_left _ _

/-- At the end of the input only the buffered bits are left (R144). -/
theorem readerBits_of_end {input : List Byte} {r : Reader} (h : input.length ≤ r.inCount.toNat) :
    readerBits input r = bufferedBits r := by
  simp [readerBits, List.drop_of_length_le h]

theorem inByte_eq_none_iff {input : List Byte} {r : Reader} : inByte input r = none ↔ input.length ≤ r.inCount.toNat := by
  rw [← List.getElem?_eq_none_iff]
  unfold inByte
  split <;> simp [*]

/-! ### The reader -/

/-- A read of `n` bits has moved the reader from `r` to `q`: the whole bytes that were lacking are fetched, and the bits are consumed
unless they are kept (R142). -/
structure ReadsField (input : List Byte) (n : Nat) (keep : Bool) (r q : Reader) : Prop where
  buffer : BufferInv q
  bits : readerBits input q = if keep then readerBits input r else (readerBits input r).drop n
  inCount : q.inCount.toNat = r.inCount.toNat + (n - r.bitcnt.toNat + 7) / 8
  bitcnt : q.bitcnt.toNat + (if keep then 0 else n) = r.bitcnt.toNat + 8 * ((n - r.bitcnt.toNat + 7) / 8)

/-- A read has run out of input: no bit is consumed, and every byte taken is buffered and counted (R144). -/
structure RunsOut (input : List Byte) (r q : Reader) : Prop where
  buffer : BufferInv q
  buffered : bufferedBits q = readerBits input r
  inCount : q.inCount.toNat = max r.inCount.toNat input.length

section
variable {input : List Byte} {n : Nat} {r : Reader}

/-- With bits enough the refill loop fetches the whole bytes that are lacking. -/
theorem refill_of_le (hlen : input.length < 2 ^ 32) (hn : n ≤ 32) {fuel : Nat} (h : BufferInv r)
    (hfuel : n ≤ r.bitcnt.toNat + 8 * fuel) (hle : n ≤ (readerBits input r).length) :
    ∃ q, refill input fuel n r = .ok q ∧ q.inCount.toNat = r.inCount.toNat + (n - r.bitcnt.toNat + 7) / 8 ∧
      q.bitcnt.toNat = r.bitcnt.toNat + 8 * ((n - r.bitcnt.toNat + 7) / 8) := by
  induction fuel generalizing r with
  | zero => exact ⟨r, rfl, by omega, by omega⟩
  | succ fuel ih =>
    by_cases hc : n ≤ r.bitcnt.toNat
    · exact ⟨r, refill_enough hc, by omega, by omega⟩
    · cases hb : inByte input r with
      | none =>
        rw [readerBits_of_end (inByte_eq_none_iff.1 hb), bufferedBits_length] at hle
        exact absurd hle hc
      | some p =>
        obtain ⟨b, p⟩ := p
        have hr : r.bitcnt.toNat ≤ 31 := by omega
        obtain ⟨hmove, hcnt⟩ := readerMoves_pushByte hlen h hr hb
        have hcount : (pushByte b p).inCount.toNat = r.inCount.toNat + 1 := (inByte_eq_some hlen hb).2.1
        obtain ⟨q, hq, hqcount, hqcnt⟩ := ih hmove.buffer (by omega) (by rwa [readerBits_pushByte hlen h hr hb])
        exact ⟨q, by simpa [refill, hc, hb] using hq, by omega, by omega⟩

/-- With too few bits the refill loop takes every byte there is. -/
theorem refill_of_lt (hlen : input.length < 2 ^ 32) (hn : n ≤ 32) {fuel : Nat} (h : BufferInv r)
    (hfuel : n ≤ r.bitcnt.toNat + 8 * fuel) (hlt : (readerBits input r).length < n) :
    ∃ q, refill input fuel n r = .error q ∧ q.inCount.toNat = max r.inCount.toNat input.length := by
  have hc : r.bitcnt.toNat < n := (bitcnt_le_readerBits_length input r).trans_lt hlt
  induction fuel generalizing r with
  | zero => omega
  | succ fuel ih =>
    cases hb : inByte input r with
    | none => exact ⟨r, by simp [refill, hc.not_ge, hb], (max_eq_left (inByte_eq_none_iff.1 hb)).symm⟩
    | some p =>
      obtain ⟨b, p⟩ := p
      have hr : r.bitcnt.toNat ≤ 31 := by omega
      obtain ⟨hmove, hcnt⟩ := readerMoves_pushByte hlen h hr hb
      obtain ⟨hin, hcount, -, -⟩ := inByte_eq_some hlen hb
      have hbits := readerBits_pushByte hlen h hr hb
      obtain ⟨q, hq, hqcount⟩ := ih hmove.buffer (by omega) (by rwa [hbits])
        ((bitcnt_le_readerBits_length input _).trans_lt (by rwa [hbits]))
      rw [pushByte_inCount, hcount] at hqcount
      exact ⟨q, by simpa [refill, hc.not_ge, hb] using hq, by omega⟩

/-- ReadBits(n, keep) with n bits left (R142). -/
theorem readerRead_of_le (hlen : input.length < 2 ^ 32) (hn : n ≤ 32) (h : BufferInv r) (keep : Bool)
    (hle : n ≤ (readerBits input r).length) :
    ∃ q, readerRead input n keep r = .read (fieldValue ((readerBits input r).take n)) q ∧ ReadsField input n keep r q := by
  obtain ⟨p, hp, hcount, hcnt⟩ := refill_of_le hlen hn (fuel := 4) h (by omega) hle
  have hpn : n ≤ p.bitcnt.toNat := ((refill_moves hlen hn h).1 p hp).2 (by omega)
  have hvalue : peekBits n p = fieldValue ((readerBits input r).take n) := by
    rw [peekBits_eq hpn, ← (refill_readerBits hlen hn h).1 p hp, readerBits, List.take_append_of_le_length (by simpa using hpn)]
  have hread : readerRead input n keep r = .read (fieldValue ((readerBits input r).take n)) (if keep then p else dropBits n p) :=
    readerRead_eq_read.2 ⟨p, hp, hvalue.symm, rfl⟩
  refine ⟨_, hread, (readerMoves_of_read hlen hn h hread).buffer, ?_, ?_, ?_⟩
  · rw [readerRead_readerBits hlen hn h hread]
    cases keep <;> rfl
  · cases keep <;> exact hcount
  · cases keep with
    | true => exact hcnt
    | false =>
      have := dropBits_bitcnt_toNat hpn
      simp only [Bool.false_eq_true, if_false]
      omega

/-- ReadBits(n, keep) with fewer than n bits left (R144). -/
theorem readerRead_of_lt (hlen : input.length < 2 ^ 32) (hn : n ≤ 32) (h : BufferInv r) (keep : Bool)
    (hlt : (readerBits input r).length < n) : ∃ q, readerRead input n keep r = .exhausted q ∧ RunsOut input r q := by
  obtain ⟨q, hq, hcount⟩ := refill_of_lt hlen hn (fuel := 4) h (by omega) hlt
  have hread : readerRead input n keep r = .exhausted q := by simp [readerRead, hq]
  refine ⟨q, hread, (readerMoves_of_exhausted hlen hn h hread).buffer, ?_, hcount⟩
  rw [← readerBits_of_end (hcount ▸ le_max_right _ _), readerBits_of_exhausted hlen hn h hread]

end

/-! ### ReadBits on a state -/

section
variable {s : State} {n : Nat}

theorem InputBounded.lt (h : InputBounded s) : (inputBytes s).length < 2 ^ 32 := Nat.lt_of_le_of_lt h (by decide)

theorem readBits_of_le (hinput : InputBounded s) (hn : n ≤ 32) (h : BufferInv s.reader) (keep : Bool)
    (hle : n ≤ (streamBits s).length) :
    ∃ r, readBits n keep s = .ok (fieldValue ((streamBits s).take n)) { s with reader := r } ∧
      ReadsField (inputBytes s) n keep s.reader r := by
  obtain ⟨r, hr, hfield⟩ := readerRead_of_le hinput.lt hn h keep hle
  exact ⟨r, readBits_eq_ok.2 ⟨r, hr, rfl⟩, hfield⟩

theorem readBits_of_lt (hinput : InputBounded s) (hn : n ≤ 32) (h : BufferInv s.reader) (keep : Bool)
    (hlt : (streamBits s).length < n) :
    ∃ r, readBits n keep s = .raised (withError 5 0 0 { s with reader := r }) ∧ RunsOut (inputBytes s) s.reader r := by
  obtain ⟨r, hr, hout⟩ := readerRead_of_lt hinput.lt hn h keep hlt
  exact ⟨r, readBits_eq_raised.2 ⟨r, hr, rfl⟩, hout⟩

/-- A read that gives a value has found its bits, and the value is what they spell. -/
theorem readBits_ok_spec (hinput : InputBounded s) (hn : n ≤ 32) (h : BufferInv s.reader) {keep : Bool} {v : Nat} {t : State}
    (hr : readBits n keep s = .ok v t) :
    n ≤ (streamBits s).length ∧ v = fieldValue ((streamBits s).take n) ∧
      ∃ r, t = { s with reader := r } ∧ ReadsField (inputBytes s) n keep s.reader r := by
  obtain hle | hlt := le_or_gt n (streamBits s).length
  · obtain ⟨r, hok, hfield⟩ := readBits_of_le hinput hn h keep hle
    rw [hok] at hr
    cases hr
    exact ⟨hle, rfl, r, rfl, hfield⟩
  · obtain ⟨r, hraised, -⟩ := readBits_of_lt hinput hn h keep hlt
    rw [hraised] at hr
    cases hr

end

/-- Settles O17, by whether the refill loop finds its bytes. -/
theorem readBitsOnTheStream : Obligations.ReadBitsOnTheStream := by
  intro s n keep _ hn h hinput
  refine ⟨fun hle => ?_, fun hlt => ?_⟩
  · obtain ⟨r, hr, hbuffer, hbits, hcount, hcnt⟩ := readBits_of_le hinput hn h keep hle
    exact ⟨r, hr, hbuffer, hbits, hcount, hcnt⟩
  · obtain ⟨r, hr, hbuffer, hbuffered, hcount⟩ := readBits_of_lt hinput hn h keep hlt
    exact ⟨r, hr, hbuffer, hbuffered, hcount⟩

/-- Settles O18: a legal READ_BITS is one ReadBits after its acceptance. -/
theorem readBitsCommandCompletes : Obligations.ReadBitsCommandCompletes := by
  intro s nbits keep herr h hinput h1 hn hle
  obtain ⟨r, hr, hfield⟩ := readBits_of_le (s := clearDone s) hinput hn h keep hle
  have hlegal : readBitsLegal nbits = true := (readBitsLegal_iff nbits).2 ⟨h1, hn⟩
  refine ⟨r, ?_, hfield.bits⟩
  show execReadBits nbits keep s = _
  rw [execReadBits, if_pos hlegal, acceptCommand_performs herr, hr]
  rfl

/-- Settles O19: the two values are the two parts of what the a + b bits spell. -/
theorem successiveReadsConcatenate : Obligations.SuccessiveReadsConcatenate := by
  intro s s1 s2 a b v1 v2 _ _ hab h hinput hread1 hread2
  obtain ⟨hle1, rfl, r1, rfl, hfield1⟩ := readBits_ok_spec hinput (by omega) h hread1
  obtain ⟨hle2, rfl, r2, rfl, hfield2⟩ := readBits_ok_spec (by exact hinput) (by omega) hfield1.buffer hread2
  have hbits1 : streamBits { s with reader := r1 } = (streamBits s).drop a := hfield1.bits
  have hbits2 : streamBits { s with reader := r2 } = (streamBits { s with reader := r1 }).drop b := hfield2.bits
  rw [hbits1, List.length_drop] at hle2
  obtain ⟨r, hr, hfield⟩ := readBits_of_le hinput hab h false (by omega)
  have hbits : streamBits { s with reader := r } = (streamBits s).drop (a + b) := hfield.bits
  have hvalue : fieldValue ((streamBits s).take (a + b)) =
      fieldValue ((streamBits s).take a) + fieldValue (((streamBits s).drop a).take b) <<< a := by
    rw [List.take_add, fieldValue_append, List.length_take, Nat.min_eq_left hle1, Nat.shiftLeft_eq, Nat.mul_comm]
  exact ⟨_, by rw [hr, hvalue, hbits1], by rw [hbits, hbits2, hbits1, List.drop_drop]⟩

/-- Settles O20: after a kept read the bits are all buffered, so that the same read fetches nothing. -/
theorem keptReadIsLookAhead : Obligations.KeptReadIsLookAhead := by
  intro s s1 n v _ hn h hinput hread
  obtain ⟨hle, rfl, r1, rfl, hbuffer, hbits, -, hcnt⟩ := readBits_ok_spec hinput hn h hread
  have hbits1 : streamBits { s with reader := r1 } = streamBits s := hbits
  obtain ⟨r2, hr2, hfield2⟩ := readBits_of_le (s := { s with reader := r1 }) hinput hn hbuffer false (by rwa [hbits1])
  rw [hbits1] at hr2
  refine ⟨hbits1, _, hr2, BitVec.eq_of_toNat_eq ?_, hfield2.bits.trans (congrArg (List.drop n) hbits1)⟩
  have hbuffered : n ≤ r1.bitcnt.toNat := by
    simp only [if_true] at hcnt
    omega
  have hcount : r2.inCount.toNat = r1.inCount.toNat + (n - r1.bitcnt.toNat + 7) / 8 := hfield2.inCount
  show r2.inCount.toNat = r1.inCount.toNat
  omega

end Sys2Proof.Machine

/-! ## PROOF. What the instructions that read the stream may change (spec/41_bitreader.md R142, R145; spec/44_header_decoder.md R180;
spec/45_block_decoder.md R190, R197; spec/60_exceptions.md R220) -/

namespace Sys2Proof.Machine

section
variable {s t : State}

/-! ### READ_BITS and DECODE_SYMBOL -/

/-- `t` is `s` but for what READ_BITS and DECODE_SYMBOL may change. -/
abbrev CommandFrame (s t : State) : Prop :=
  t = { s with
    reader := t.reader, result := t.result, errinfo := t.errinfo, work := t.work,
    status := { t.status with streamEnd := s.status.streamEnd } }

/-- A command is ignored or turned down within the frame, and performed it keeps the frame of what it performs. -/
theorem commandFrame_acceptCommand {op : BitVec 4} {illegal : Option (BitVec 8)} {perform : State → StepOutcome}
    (hperform : perform (clearDone s) = .next t → CommandFrame s t)
    (h : acceptCommand op illegal perform s = .next t) : CommandFrame s t := by
  obtain ⟨-, he⟩ | ⟨-, sub, -, he⟩ | ⟨-, -, he⟩ := acceptCommand_cases op illegal perform s <;> rw [he] at h
  · cases h
    rfl
  · cases h
    rfl
  · exact hperform h

theorem commandFrame_readBits {nbits : BitVec 6} {keep : Bool} (h : exec (.readBits nbits keep) s = .next t) :
    CommandFrame s t := by
  change execReadBits nbits keep s = .next t at h
  unfold execReadBits at h
  refine commandFrame_acceptCommand (fun hp => ?_) h
  obtain hraised | ⟨v, u, hok, hp⟩ := Res.toOutcome_eq_next.1 hp
  · obtain ⟨r, -, rfl⟩ := readBits_eq_raised.1 hraised
    rfl
  · obtain ⟨r, -, rfl⟩ := readBits_eq_ok.1 hok
    cases hp
    rfl

theorem commandFrame_decodeSymbol {tsel : BitVec 2} (h : exec (.decodeSymbol tsel) s = .next t) : CommandFrame s t := by
  cases htbl : tableOfTsel tsel with
  | none =>
    rw [exec_decodeSymbol_of_none htbl] at h
    refine commandFrame_acceptCommand (fun hp => ?_) h
    cases hp
    rfl
  | some tbl =>
    rw [exec_decodeSymbol_of_some htbl] at h
    refine commandFrame_acceptCommand (fun hp => ?_) h
    obtain hraised | ⟨sym, u, hok, hp⟩ := Res.toOutcome_eq_next.1 hp
    · obtain ⟨r, rfl | rfl⟩ := decodeSym_eq_raised hraised <;> rfl
    · obtain ⟨d, r, -, rfl⟩ := decodeSym_eq_ok.1 hok
      cases hp
      rfl

/-! ### Length and distance codes -/

/-- Extra bits move the reader only (R148). -/
theorem readExtra_eq_ok {n e : Nat} (h : readExtra n s = .ok e t) : ∃ r, t = { s with reader := r } := by
  obtain rfl | hpos := eq_or_ne n 0
  · cases h
    exact ⟨s.reader, rfl⟩
  · rw [readExtra_pos hpos] at h
    obtain ⟨r, -, rfl⟩ := readBits_eq_ok.1 h
    exact ⟨r, rfl⟩

theorem readExtra_eq_raised {n : Nat} (h : readExtra n s = .raised t) :
    ∃ r, t = raise .inputExhausted 0 0 { s with reader := r } := by
  obtain rfl | hpos := eq_or_ne n 0
  · cases h
  · rw [readExtra_pos hpos] at h
    obtain ⟨r, -, rfl⟩ := readBits_eq_raised.1 h
    exact ⟨r, rfl⟩

theorem lengthCode_frame {base extra : Nat} (h : lengthCode base extra s = .next t) :
    t = { s with
      reader := t.reader, errinfo := t.errinfo, work := t.work,
      status := { s.status with error := t.status.error, errcode := t.status.errcode } } := by
  obtain hraised | ⟨e, u, hok, rfl⟩ := lengthCode_cases h
  · obtain ⟨r, rfl⟩ := readExtra_eq_raised hraised
    rfl
  · obtain ⟨r, rfl⟩ := readExtra_eq_ok hok
    rfl

theorem distanceCode_frame {base extra : Nat} (h : distanceCode base extra s = .next t) :
    t = { s with
      reader := t.reader, output := t.output, errinfo := t.errinfo, work := t.work,
      status := { s.status with error := t.status.error, errcode := t.status.errcode } } := by
  obtain hraised | ⟨e, u, hok, ⟨-, rfl⟩ | ⟨-, o, -, rfl⟩⟩ := distanceCode_cases h
  · obtain ⟨r, rfl⟩ := readExtra_eq_raised hraised
    rfl
  all_goals
    obtain ⟨r, rfl⟩ := readExtra_eq_ok hok
    rfl

/-- Codes listed in the order of a table run the table's rows. -/
theorem exec_of_row {codes : List Instr} {table : List (Nat × Nat)} {op : Nat → Nat → State → StepOutcome}
    (hmap : codes.map execStreamOp = table.map fun p => op p.1 p.2) (hstream : ∀ i ∈ codes, i.isCommand = false)
    {n : Nat} {i : Instr} (hi : codes[n]? = some i) : exec i = op ((table[n]?).getD (0, 0)).1 ((table[n]?).getD (0, 0)).2 := by
  have hrow := congrArg (·[n]?) hmap
  simp only [List.getElem?_map, hi, Option.map_some] at hrow
  obtain ⟨p, hp, he⟩ := Option.map_eq_some_iff.1 hrow.symm
  rw [hp, Option.getD_some, he]
  exact funext (exec_eq_execStreamOp (hstream i (List.mem_of_getElem? hi)))

/-- A length code runs its row of R192's table. -/
theorem exec_lengthCode {c : Fin 29} {i : Instr} (hi : lengthCodes[c.val]? = some i) :
    exec i = lengthCode (lengthRow c).1 (lengthRow c).2 :=
  exec_of_row lengthCodes_map_execStreamOp (by decide) hi

/-- A distance code runs its row of R195's table. -/
theorem exec_distanceCode {c : Fin 30} {i : Instr} (hi : distanceCodes[c.val]? = some i) :
    exec i = distanceCode (distanceRow c).1 (distanceRow c).2 :=
  exec_of_row distanceCodes_map_execStreamOp (by decide) hi

/-! ### The code-length sequence -/

/-- `t` is `s` but for what an operation of the CL alphabet may change. -/
abbrev SequenceFrame (s t : State) : Prop :=
  t = { s with
    reader := t.reader, result := t.result, errinfo := t.errinfo, work := t.work,
    status := { t.status with streamEnd := s.status.streamEnd },
    lens := { t.lens with cl := s.lens.cl }, tables := { t.tables with cl := s.tables.cl } }

/-- A run is stored in LEN_LIT and LEN_DIST only (R174). -/
theorem putRun_cl (nlit r i : Nat) (v : BitVec 4) (l : Lens) : (putRun nlit r i v l).cl = l.cl := by
  induction r generalizing i l with
  | zero => rfl
  | succ r ih =>
    rw [putRun, ih, putLen]
    split <;> rfl

theorem sequenceFrame_storeLens (r : Reader) (n : Nat) (v : BitVec 4) :
    SequenceFrame s (storeLens n v { s with reader := r }) := by
  have hlens : putRun s.work.nlit n s.work.seqIndex v s.lens =
      { putRun s.work.nlit n s.work.seqIndex v s.lens with cl := s.lens.cl } := by
    rw [← putRun_cl s.work.nlit n s.work.seqIndex v s.lens]
  have hstored : storedRun n v { s with reader := r } = { s with
      reader := r, lens := { putRun s.work.nlit n s.work.seqIndex v s.lens with cl := s.lens.cl },
      work := { s.work with seqIndex := s.work.seqIndex + n } } := by
    rw [← hlens]
    rfl
  obtain ⟨-, he⟩ | ⟨-, he⟩ := storeLens_cases n v { s with reader := r } <;> rw [he, hstored]
  unfold endHeader
  dsimp only
  cases s.work.cmd <;> rfl

/-- The instructions of the CL alphabet (R91). -/
theorem format_eq_clSym {i : Instr} (h : i.format = .clSym) :
    (∃ v, i = .clLen v) ∨ i = .clRepeatPrev ∨ i = .clZeroShort ∨ i = .clZeroLong := by
  cases i
  case clLen v => exact .inl ⟨v, rfl⟩
  case clRepeatPrev => exact .inr (.inl rfl)
  case clZeroShort => exact .inr (.inr (.inl rfl))
  case clZeroLong => exact .inr (.inr (.inr rfl))
  all_goals cases h

/-- An operation has moved the reader at most, and then raised an error or stored a run of code lengths. -/
def RaisesOrStores (s t : State) : Prop :=
  ∃ r, (∃ e c v, t = raise e c v { s with reader := r }) ∨ ∃ n v, t = storeLens n v { s with reader := r }

theorem raisesOrStores_lengthRun {m : BitVec 16} {base extra : Nat} {v : BitVec 4}
    (h : lengthRun m base extra v s = .next t) : RaisesOrStores s t := by
  obtain hraised | ⟨e, u, hok, hu⟩ := lengthRun_cases h
  · obtain ⟨r, -, rfl⟩ := readBits_eq_raised.1 hraised
    exact ⟨r, .inl ⟨_, _, _, rfl⟩⟩
  · obtain ⟨r, -, rfl⟩ := readBits_eq_ok.1 hok
    obtain ⟨-, rfl⟩ | ⟨-, rfl⟩ := hu
    · exact ⟨r, .inl ⟨_, _, _, rfl⟩⟩
    · exact ⟨r, .inr ⟨_, _, rfl⟩⟩

/-- What an operation of the CL alphabet can do (R175 to R178). -/
theorem raisesOrStores_of_clSym {i : Instr} (hi : i.format = .clSym) (h : execStreamOp i s = .next t) : RaisesOrStores s t := by
  obtain ⟨v, rfl⟩ | rfl | rfl | rfl := format_eq_clSym hi
  · cases h
    exact ⟨s.reader, .inr ⟨1, v, rfl⟩⟩
  · by_cases hfirst : s.work.seqIndex = 0
    · obtain rfl : raise .invalidSymbol 3 16 s = t := Host.Outcome.next.inj ((if_pos hfirst).symm.trans h)
      exact ⟨s.reader, .inl ⟨_, _, _, rfl⟩⟩
    · exact raisesOrStores_lengthRun ((if_neg hfirst).symm.trans h)
  · exact raisesOrStores_lengthRun (h : lengthRun 17 3 3 0 s = _)
  · exact raisesOrStores_lengthRun (h : lengthRun 18 11 7 0 s = _)

theorem RaisesOrStores.sequenceFrame (h : RaisesOrStores s t) : SequenceFrame s t := by
  obtain ⟨r, ⟨e, c, v, rfl⟩ | ⟨n, v, rfl⟩⟩ := h
  · rfl
  · exact sequenceFrame_storeLens r n v

/-! ### DECODE_HEADER -/

/-- `s` with everything that DECODE_HEADER may change as in `t`. -/
def overHeader (s t : State) : State :=
  { s with
    reader := t.reader, result := t.result, errinfo := t.errinfo, work := t.work,
    status := { t.status with streamEnd := s.status.streamEnd }, lens := t.lens, tables := t.tables,
    hdr := { s.hdr with hlit := t.hdr.hlit, hdist := t.hdr.hdist, hclen := t.hdr.hclen } }

/-- `t` is `s` but for what DECODE_HEADER may change. -/
abbrev HeaderFrame (s t : State) : Prop := t = overHeader s t

theorem HeaderFrame.trans {u : State} (h : HeaderFrame s t) (h' : HeaderFrame t u) : HeaderFrame s u :=
  calc u = overHeader t u := h'
    _ = overHeader (overHeader s t) u := congrArg (overHeader · u) h
    _ = overHeader s u := rfl

theorem SequenceFrame.headerFrame (h : SequenceFrame s t) : HeaderFrame s t := by
  rw [h]
  rfl

/-- DECODE_HEADER is in progress, begun in `s`. -/
structure InHeader (s t : State) : Prop where
  frame : HeaderFrame s t
  cmd : t.work.cmd = .header

/-- A primitive of DECODE_HEADER goes on within its frame, or has raised an error within it. -/
def Res.InHeader {α : Type} (s : State) : Res α → Prop
  | .ok _ t => Machine.InHeader s t
  | .raised t => HeaderFrame s t

theorem Res.InHeader.andThen {α β : Type} {x : Res α} {f : α → State → Res β} (h : x.InHeader s)
    (hf : ∀ a t, Machine.InHeader s t → (f a t).InHeader s) : (x.andThen f).InHeader s := by
  cases x with
  | ok a t => exact hf a t h
  | raised t => exact h

theorem readBits_inHeader (h : InHeader s t) (n : Nat) : (readBits n false t).InHeader s := by
  cases hx : readBits n false t with
  | ok v u =>
    obtain ⟨r, -, rfl⟩ := readBits_eq_ok.1 hx
    exact ⟨h.frame.trans rfl, h.cmd⟩
  | raised u =>
    obtain ⟨r, -, rfl⟩ := readBits_eq_raised.1 hx
    exact h.frame.trans rfl

theorem readClLens_inHeader (syms : List Nat) (h : InHeader s t) : (readClLens syms t).InHeader s := by
  induction syms generalizing t with
  | nil => exact h
  | cons sym rest ih => exact (readBits_inHeader h 3).andThen fun _ _ hu => ih ⟨hu.frame.trans rfl, hu.cmd⟩

theorem beginHeader_inHeader (h : InHeader s t) : (beginHeader t).InHeader s := by
  unfold beginHeader
  refine (readBits_inHeader h 5).andThen fun _ _ h1 => ?_
  refine (readBits_inHeader (by exact ⟨h1.frame.trans rfl, h1.cmd⟩) 5).andThen fun _ _ h2 => ?_
  refine (readBits_inHeader (by exact ⟨h2.frame.trans rfl, h2.cmd⟩) 4).andThen fun _ _ h3 => ?_
  refine (readClLens_inHeader _ (by exact ⟨h3.frame.trans rfl, h3.cmd⟩)).andThen fun _ _ h4 => ?_
  exact ⟨h4.frame.trans rfl, h4.cmd⟩

/-- Within DECODE_HEADER an operation of the CL alphabet ends the command or goes on with the sequence. -/
theorem RaisesOrStores.phase (h : RaisesOrStores s t) (hcmd : s.work.cmd = .header) :
    t.work.phase = .idle ∨ t.work.phase = s.work.phase ∧ t.work.cmd = .header := by
  obtain ⟨r, ⟨e, c, v, rfl⟩ | ⟨n, v, rfl⟩⟩ := h
  · exact .inl rfl
  · obtain ⟨-, he⟩ | ⟨-, he⟩ := storeLens_cases n v { s with reader := r } <;> rw [he]
    · exact .inr ⟨rfl, hcmd⟩
    · have hheader : (storedRun n v { s with reader := r }).work.cmd = .header := hcmd
      rw [endHeader, hheader]
      exact .inl rfl

/-- A symbol of the sequence is one of the CL alphabet, and its decoding moves the reader and ACC and K only. -/
theorem fetchSymbol_run_clSym {i : Instr} (hp : s.work.phase = .clSym) (h : fetchSymbol s = .run i t) :
    i.format = .clSym ∧ ∃ d r, t = setDecoder d r s := by
  rw [fetchSymbol, hp] at h
  obtain ⟨u, -, he⟩ | ⟨key, u, j, hx, hd, he⟩ | ⟨key, u, e, -, -, he⟩ := fetchedKey_cases .clSym (decodeSym .cl s) <;>
    simp only [he] at h <;> cases h
  obtain ⟨d, r, -, rfl⟩ := decodeSym_eq_ok.1 hx
  exact ⟨decode_format hd, d, r, rfl⟩

theorem fetchSymbol_settled_clSym (hp : s.work.phase = .clSym) (h : fetchSymbol s = .settled t) :
    decodeSym .cl s = .raised t := by
  rw [fetchSymbol, hp] at h
  obtain ⟨u, hx, he⟩ | ⟨key, u, j, -, -, he⟩ | ⟨key, u, e, -, -, he⟩ := fetchedKey_cases .clSym (decodeSym .cl s) <;>
    simp only [he] at h <;> cases h
  exact hx

/-- The code-length sequence stays within the frame, symbol by symbol. -/
theorem headerFrame_runSequencer {fuel : Nat} {u : State} (h : InHeader s t) (hp : t.work.phase = .clSym)
    (hrun : runSequencer fuel t = .next u) : HeaderFrame s u := by
  have ran : ∀ t i x u, InHeader s t ∧ t.work.phase = .clSym → fetchSymbol t = .run i x → execStreamOp i x = .next u →
      HeaderFrame s u ∧ (u.work.phase = .idle ∨ u.work.phase = .clSym ∧ u.work.cmd = .header) := by
    rintro t i x u ⟨ht, hp⟩ hf hx
    obtain ⟨hi, d, r, rfl⟩ := fetchSymbol_run_clSym hp hf
    have hop := raisesOrStores_of_clSym hi hx
    have hfetched : HeaderFrame s (setDecoder d r t) := ht.frame.trans rfl
    exact ⟨hfetched.trans hop.sequenceFrame.headerFrame, (hop.phase ht.cmd).imp_right fun ⟨hq, hc⟩ => ⟨hq.trans hp, hc⟩⟩
  refine runSequencer_induction (P := fun t => InHeader s t ∧ t.work.phase = .clSym) (Q := HeaderFrame s) ?_ ?_ ?_ ⟨h, hp⟩ hrun
  · rintro t u ⟨ht, hp⟩ hf
    obtain ⟨r, rfl | rfl⟩ := decodeSym_eq_raised (fetchSymbol_settled_clSym hp hf) <;> exact ht.frame.trans rfl
  · exact fun t i x u ht hf hx _ => (ran t i x u ht hf hx).1
  · intro t i x u ht hf hx hbusy
    obtain ⟨hframe, hidle | ⟨hq, hc⟩⟩ := ran t i x u ht hf hx
    · exact absurd hidle hbusy
    · exact ⟨⟨hframe, hc⟩, hq⟩

theorem headerFrame_decodeHeader (h : exec .decodeHeader s = .next t) : HeaderFrame s t := by
  cases herr : s.status.error with
  | true =>
    have hignored : exec .decodeHeader s = .next s := (acceptCommand_error herr : execDecodeHeader s = _)
    obtain rfl : s = t := Host.Outcome.next.inj (hignored.symm.trans h)
    rfl
  | false =>
    rw [exec_decodeHeader_of_noError herr] at h
    have hbegin := beginHeader_inHeader (s := s) (t := { clearDone s with work := { Work.idle with cmd := .header } }) ⟨rfl, rfl⟩
    obtain hraised | ⟨a, u, hok, hrun⟩ := Res.toOutcome_eq_next.1 h
    · rwa [hraised] at hbegin
    · rw [hok] at hbegin
      exact headerFrame_runSequencer hbegin (beginHeader_phase hok) hrun

end

/-- Settles O52: each of them moves the reader, and then only raises, completes, or does what its own update names. -/
theorem framesOfStreamReaders : Obligations.FramesOfStreamReaders := by
  refine ⟨?_, fun s t => headerFrame_decodeHeader, fun i s t hi h => ?_, fun i s t hi h => ?_, fun i s t hi h => ?_⟩
  · rintro i s t (⟨n, k, rfl⟩ | ⟨tsel, rfl⟩) h
    · exact commandFrame_readBits h
    · exact commandFrame_decodeSymbol h
  · obtain ⟨c, hc, rfl⟩ := List.getElem_of_mem hi
    rw [exec_lengthCode (c := ⟨c, hc⟩) (List.getElem?_eq_getElem hc)] at h
    exact lengthCode_frame h
  · obtain ⟨c, hc, rfl⟩ := List.getElem_of_mem hi
    rw [exec_distanceCode (c := ⟨c, hc⟩) (List.getElem?_eq_getElem hc)] at h
    exact distanceCode_frame h
  · have hformat : i.format = .clSym := by obtain rfl | rfl | rfl := hi <;> rfl
    rw [exec_eq_execStreamOp (by rw [isCommand_eq, hformat]; rfl)] at h
    exact (raisesOrStores_of_clSym hformat h).sequenceFrame

end Sys2Proof.Machine

/-! ## PROOF. Input that ends inside a code or a field (spec/41_bitreader.md R144; spec/60_exceptions.md R221, R222) -/

namespace Sys2Proof.Machine

/-! ### Inside a code -/

theorem codeValue_append_singleton (bits : List Bool) (b : Bool) : codeValue (bits ++ [b]) = 2 * codeValue bits + b.toNat := by
  simp [codeValue]

theorem codeValue_lt (bits : List Bool) : codeValue bits < 2 ^ bits.length := by
  induction bits using List.reverseRecOn with
  | nil => decide
  | append_singleton bits b ih =>
    rw [codeValue_append_singleton, List.length_append, List.length_singleton, Nat.pow_succ]
    have := b.toNat_lt
    omega

/-- ACC and K after the given bits of a code (R161, R162). -/
def decoderAfter (bits : List Bool) : Decoder := { acc := BitVec.ofNat 15 (codeValue bits), k := BitVec.ofNat 4 bits.length }

theorem pushBit_decoderAfter (bits : List Bool) (b : Bool) :
    pushBit b.toNat (decoderAfter bits) = decoderAfter (bits ++ [b]) := by
  have hdisjoint : BitVec.ofNat 15 (codeValue bits) <<< 1 &&& BitVec.ofNat 15 b.toNat = 0#15 := by
    cases b
    · simp
    · ext i hi
      cases i <;> simp
  have hacc : BitVec.ofNat 15 (codeValue bits) <<< 1 ||| BitVec.ofNat 15 b.toNat = BitVec.ofNat 15 (codeValue (bits ++ [b])) := by
    rw [codeValue_append_singleton, ← BitVec.add_eq_or_of_and_eq_zero _ _ hdisjoint, BitVec.shiftLeft_eq_mul_twoPow]
    refine BitVec.eq_of_toNat_eq ?_
    simp
    omega
  simp [pushBit, decoderAfter, hacc, BitVec.ofNat_add]

/-- A code of at most 15 bits fits ACC and K. -/
theorem decoderAfter_toNat {bits : List Bool} (h : bits.length ≤ 15) :
    (decoderAfter bits).k.toNat = bits.length ∧ (decoderAfter bits).acc.toNat = codeValue bits := by
  have hfits : codeValue bits < 2 ^ 15 := (codeValue_lt bits).trans_le (Nat.pow_le_pow_right (by decide) h)
  exact ⟨Nat.mod_eq_of_lt (by omega), Nat.mod_eq_of_lt hfits⟩

/-- No code is longer than the 15 bits that a length of 4 bits can ask for (R41). -/
theorem maxLen_le (d : DecodeTable) : maxLen d ≤ 15 :=
  List.foldlRecOn (motive := (· ≤ 15)) d.lens _ (Nat.zero_le 15) fun _ hm l _ => max_le hm (Nat.le_of_lt_succ l.isLt)

/-- A traversal that has read `seen` and finds no code in the bits that are left, too few to reach MAXLEN, reads them all. -/
theorem traverse_of_lt {input : List Byte} (hlen : input.length < 2 ^ 32) {codes : List (Nat × Nat)} {left : Nat}
    {seen : List Bool} {r : Reader} (h : BufferInv r) (hfits : seen.length + left ≤ 15)
    (hlt : (readerBits input r).length < left)
    (hnone : ∀ k, seen.length < k → k ≤ seen.length + (readerBits input r).length →
      resolve codes k (codeValue ((seen ++ readerBits input r).take k)) = none) :
    ∃ d q, traverse input codes left (decoderAfter seen) r = .exhausted d q ∧ readerBits input q = [] := by
  induction left generalizing seen r with
  | zero => exact absurd hlt (Nat.not_lt_zero _)
  | succ left ih =>
    cases hbits : readerBits input r with
    | nil =>
      obtain ⟨q, hq, hout⟩ := readerRead_of_lt hlen (by decide) h false (n := 1) (by simp [hbits])
      refine ⟨decoderAfter seen, q, by simp [traverse, hq], ?_⟩
      rw [readerBits_of_exhausted hlen (by decide) h hq, hbits]
    | cons b rest =>
      obtain ⟨q, hq, hfield⟩ := readerRead_of_le hlen (by decide) h false (n := 1) (by simp [hbits])
      have hvalue : fieldValue ((readerBits input r).take 1) = b.toNat := by simp [hbits, fieldValue]
      have hrest : readerBits input q = rest := by simpa [hbits] using hfield.bits
      have hseen : (seen ++ [b]).length ≤ 15 := by simp; omega
      obtain ⟨hk, hacc⟩ := decoderAfter_toNat hseen
      simp only [hbits, List.length_cons] at hlt hnone
      have hsplit : seen ++ b :: rest = seen ++ [b] ++ rest := by simp
      have hfirst : resolve codes (seen ++ [b]).length (codeValue (seen ++ [b])) = none := by
        have := hnone (seen ++ [b]).length (by simp) (by simp)
        rwa [hsplit, List.take_left] at this
      obtain ⟨d, p, hp, hend⟩ := ih (seen := seen ++ [b]) hfield.buffer (by simp; omega) (by rw [hrest]; omega) (by
        rw [hrest, ← hsplit]
        exact fun k hk1 hk2 => hnone k (by simp at hk1; omega) (by simp at hk2; omega))
      refine ⟨d, p, ?_, hend⟩
      simp only [traverse, hq, hvalue, pushBit_decoderAfter, hk, hacc, hfirst, hp]

section
variable {s t : State}

theorem decodeSym_of_lt (hinput : InputBounded s) (h : BufferInv s.reader) {tbl : TableId}
    (hlt : (streamBits s).length < maxLen (getTable s.tables tbl))
    (hnone : ∀ k, 1 ≤ k → k ≤ (streamBits s).length →
      resolve (codeTable (getTable s.tables tbl)) k (codeValue ((streamBits s).take k)) = none) :
    ∃ r, decodeSym tbl s = .raised (withError 5 0 0 { s with reader := r }) ∧ readerBits (inputBytes s) r = [] := by
  obtain ⟨d, r, hr, hend⟩ := traverse_of_lt (seen := []) hinput.lt h (by simpa using maxLen_le _) hlt
    (by simpa [streamBits, Nat.succ_le_iff] using hnone)
  refine ⟨r, ?_, hend⟩
  unfold decodeSym
  rw [show ({ acc := 0, k := 0 } : Decoder) = decoderAfter [] from rfl, hr]
  rfl

/-! ### Inside the extra bits of an operation -/

/-- An operation that reads its extra bits first does nothing else when they are cut off. -/
theorem lengthRun_of_raised {m : BitVec 16} {base extra : Nat} {v : BitVec 4} (h : readBits extra false s = .raised t) :
    lengthRun m base extra v s = .next t := by
  rw [lengthRun, h, Res.toOutcome_raised]

theorem lengthCode_of_raised {base extra : Nat} (h : readExtra extra s = .raised t) : lengthCode base extra s = .next t := by
  rw [lengthCode, h, Res.toOutcome_raised]

theorem distanceCode_of_raised {base extra : Nat} (h : readExtra extra s = .raised t) :
    distanceCode base extra s = .next t := by
  rw [distanceCode, h, Res.toOutcome_raised]

/-- The instruction reads `width` extra bits before it does anything else (R176 to R178, R190, R197). -/
abbrev ReadsExtra (i : Instr) (width : Nat) (s : State) : Prop :=
  (i = .clRepeatPrev ∧ width = 2 ∧ 0 < s.work.seqIndex) ∨ (i = .clZeroShort ∧ width = 3) ∨ (i = .clZeroLong ∧ width = 7) ∨
    (∃ c : Fin 29, lengthCodes[c.val]? = some i ∧ width = (lengthRow c).2) ∨
    ∃ c : Fin 30, distanceCodes[c.val]? = some i ∧ width = (distanceRow c).2

theorem lengthRow_le (c : Fin 29) : (lengthRow c).2 ≤ 13 := by revert c; decide

theorem distanceRow_le (c : Fin 30) : (distanceRow c).2 ≤ 13 := by revert c; decide

theorem ReadsExtra.le {i : Instr} {width : Nat} (hi : ReadsExtra i width s) : width ≤ 13 := by
  obtain ⟨-, rfl, -⟩ | ⟨-, rfl⟩ | ⟨-, rfl⟩ | ⟨c, -, rfl⟩ | ⟨c, -, rfl⟩ := hi
  · decide
  · decide
  · decide
  · exact lengthRow_le c
  · exact distanceRow_le c

theorem ReadsExtra.exec_of_raised {i : Instr} {width : Nat} (hi : ReadsExtra i width s) (hpos : width ≠ 0)
    (h : readBits width false s = .raised t) : exec i s = .next t := by
  obtain ⟨rfl, rfl, hlater⟩ | ⟨rfl, rfl⟩ | ⟨rfl, rfl⟩ | ⟨c, hc, rfl⟩ | ⟨c, hc, rfl⟩ := hi
  · exact (if_neg hlater.ne').trans (lengthRun_of_raised h)
  · exact lengthRun_of_raised h
  · exact lengthRun_of_raised h
  · rw [exec_lengthCode hc]
    exact lengthCode_of_raised ((readExtra_pos hpos s).trans h)
  · rw [exec_distanceCode hc]
    exact distanceCode_of_raised ((readExtra_pos hpos s).trans h)

/-! ### Fields one after another -/

/-- The reader has moved from `r` to `q` and consumed the first `n` of the bits that were left. -/
structure Consumed (input : List Byte) (n : Nat) (r q : Reader) : Prop where
  buffer : BufferInv q
  bits : readerBits input q = (readerBits input r).drop n
  inCount : max q.inCount.toNat input.length = max r.inCount.toNat input.length

theorem Consumed.refl {input : List Byte} {r : Reader} (h : BufferInv r) : Consumed input 0 r r := ⟨h, rfl, rfl⟩

theorem Consumed.trans {input : List Byte} {m n : Nat} {r q p : Reader} (h : Consumed input m r q) (h' : Consumed input n q p) :
    Consumed input (m + n) r p :=
  ⟨h'.buffer, by rw [h'.bits, h.bits, List.drop_drop], h'.inCount.trans h.inCount⟩

/-- A read fetches no byte past the end of the input. -/
theorem ReadsField.consumed {input : List Byte} {n : Nat} {r q : Reader} (h : ReadsField input n false r q)
    (hle : n ≤ (readerBits input r).length) : Consumed input n r q := by
  obtain ⟨hbuffer, hbits, hcount, hcnt⟩ := h
  refine ⟨hbuffer, hbits, ?_⟩
  have hlength := congrArg List.length hbits
  simp only [Bool.false_eq_true, if_false, List.length_drop, readerBits_length, bitsLeft] at hle hlength hcnt
  omega

/-- A field whose bits are all there is read and consumed. -/
theorem readField_of_le (hinput : InputBounded s) (h : BufferInv s.reader) {n : Nat} (hn : n ≤ 32)
    (hle : n ≤ (streamBits s).length) :
    ∃ r, readBits n false s = .ok (fieldValue ((streamBits s).take n)) { s with reader := r } ∧
      Consumed (inputBytes s) n s.reader r := by
  obtain ⟨r, hr, hfield⟩ := readBits_of_le hinput hn h false hle
  exact ⟨r, hr, hfield.consumed hle⟩

/-- A field that stands next in the stream is read whole. -/
theorem readField_of_eq (hinput : InputBounded s) (h : BufferInv s.reader) {n v : Nat} (hn : n ≤ 32) (hv : v < 2 ^ n)
    {rest : List Bool} (hbits : streamBits s = fieldBits n v ++ rest) :
    ∃ r, readBits n false s = .ok v { s with reader := r } ∧ Consumed (inputBytes s) n s.reader r ∧
      readerBits (inputBytes s) r = rest := by
  have hwidth : (fieldBits n v).length = n := by simp [fieldBits]
  obtain ⟨r, hr, hconsumed⟩ := readField_of_le hinput h hn (by simp [hbits, hwidth])
  rw [hbits, List.take_left' hwidth, fieldValue_fieldBits, Nat.mod_eq_of_lt hv] at hr
  refine ⟨r, hr, hconsumed, ?_⟩
  rw [hconsumed.bits]
  exact (congrArg (List.drop n) hbits).trans (List.drop_left' hwidth)

/-! ### Inside the transmitted CL lengths -/

/-- LEN_CL with the 3-bit lengths that `bits` holds whole stored at the symbols, in order (R172). -/
def clLensOfBits : List Nat → List Bool → Vector (BitVec 3) 19 → Vector (BitVec 3) 19
  | [], _, cl => cl
  | sym :: rest, bits, cl =>
    if 3 ≤ bits.length then
      clLensOfBits rest (bits.drop 3) (cl.setIfInBounds sym (BitVec.ofNat 3 (fieldValue (bits.take 3))))
    else cl

theorem clLensOfBits_of_notMem {syms : List Nat} {bits : List Bool} {cl : Vector (BitVec 3) 19} {sym : Nat} (h : sym ∉ syms) :
    (clLensOfBits syms bits cl).toList[sym]? = cl.toList[sym]? := by
  induction syms generalizing bits cl with
  | nil => rfl
  | cons first rest ih =>
    simp only [List.mem_cons, not_or] at h
    obtain ⟨hne, hrest⟩ := h
    unfold clLensOfBits
    split
    · rw [ih hrest, toList_setIfInBounds_getElem?, if_neg fun he => hne he.1]
    · rfl

/-- Entry `i` in the order of transmission is the `i`-th length, or as it was where the bits do not reach. -/
theorem clLensOfBits_getElem? {syms : List Nat} (hnodup : syms.Nodup) (hlt : ∀ sym ∈ syms, sym < 19) {bits : List Bool}
    {cl : Vector (BitVec 3) 19} {i sym : Nat} (hi : syms[i]? = some sym) :
    (clLensOfBits syms bits cl).toList[sym]? =
      if 3 * (i + 1) ≤ bits.length then some (BitVec.ofNat 3 (fieldValue ((bits.drop (3 * i)).take 3))) else cl.toList[sym]? := by
  induction syms generalizing bits cl i with
  | nil => cases hi
  | cons first rest ih =>
    obtain ⟨hfirst, hnodup⟩ := List.nodup_cons.1 hnodup
    obtain ⟨hfirstLt, hlt⟩ := List.forall_mem_cons.1 hlt
    unfold clLensOfBits
    cases i with
    | zero =>
      obtain rfl : first = sym := by simpa using hi
      split_ifs with h3
      · rw [clLensOfBits_of_notMem hfirst, toList_setIfInBounds_getElem?, if_pos ⟨rfl, hfirstLt⟩]
        rfl
      · rfl
    | succ i =>
      have hi : rest[i]? = some sym := by simpa using hi
      have hne : sym ≠ first := fun he => hfirst (he ▸ List.mem_of_getElem? hi)
      by_cases h3 : 3 ≤ bits.length
      · have hindex : 3 * (i + 1) ≤ (bits.drop 3).length ↔ 3 * (i + 1 + 1) ≤ bits.length := by
          rw [List.length_drop]
          omega
        have hdrop : (bits.drop 3).drop (3 * i) = bits.drop (3 * (i + 1)) := by
          rw [List.drop_drop, Nat.mul_succ, Nat.add_comm]
        have hother : ¬(sym = first ∧ sym < 19) := fun he => hne he.1
        rw [if_pos h3, ih hnodup hlt hi, toList_setIfInBounds_getElem?, if_neg hother, hdrop]
        simp only [hindex]
      · rw [if_neg h3, if_neg (by omega)]

/-- The CL lengths that are there are stored; the one that is cut off is not (R172, R221). -/
theorem readClLens_of_lt {syms : List Nat} (more : List Nat) (hinput : InputBounded s) (h : BufferInv s.reader)
    (hlt : (streamBits s).length < 3 * syms.length) :
    ∃ q r, readClLens syms s = .raised (withError 5 0 0 { s with
        reader := r, lens := { s.lens with cl := clLensOfBits (syms ++ more) (streamBits s) s.lens.cl } }) ∧
      Consumed (inputBytes s) (3 * ((streamBits s).length / 3)) s.reader q ∧ RunsOut (inputBytes s) q r := by
  induction syms generalizing s with
  | nil => exact absurd hlt (Nat.not_lt_zero _)
  | cons sym rest ih =>
    rw [List.cons_append, clLensOfBits, readClLens]
    by_cases h3 : 3 ≤ (streamBits s).length
    · obtain ⟨p, hp, hconsumed⟩ := readField_of_le hinput h (by decide) h3
      have hsetLen : setLen .cl sym (BitVec.ofNat 4 (fieldValue ((streamBits s).take 3))) s.lens = { s.lens with
          cl := s.lens.cl.setIfInBounds sym (BitVec.ofNat 3 (fieldValue ((streamBits s).take 3))) } := by
        rw [setLen, BitVec.setWidth_ofNat_of_le (by decide)]
      rw [if_pos h3, hp, Res.andThen_ok, hsetLen]
      generalize s.lens.cl.setIfInBounds sym (BitVec.ofNat 3 (fieldValue ((streamBits s).take 3))) = cl
      have hbits : streamBits { s with reader := p, lens := { s.lens with cl := cl } } = (streamBits s).drop 3 := hconsumed.bits
      have hcut : ((streamBits s).drop 3).length < 3 * rest.length := by
        rw [List.length_drop]
        rw [List.length_cons] at hlt
        omega
      obtain ⟨q, r, hr, hq, hout⟩ := ih (s := { s with reader := p, lens := { s.lens with cl := cl } }) hinput
        hconsumed.buffer (by rwa [hbits])
      rw [hbits] at hr hq
      have hcount : 3 * ((streamBits s).length / 3) = 3 + 3 * (((streamBits s).drop 3).length / 3) := by
        rw [List.length_drop]
        omega
      exact ⟨q, r, hr, hcount ▸ hconsumed.trans hq, hout⟩
    · obtain ⟨r, hr, hout⟩ := readBits_of_lt hinput (by decide) h false (Nat.lt_of_not_le h3)
      refine ⟨s.reader, r, ?_, ?_, hout⟩
      · rw [if_neg h3, hr]
        rfl
      · rw [Nat.div_eq_of_lt (Nat.lt_of_not_le h3)]
        exact .refl h

/-! ### Inside the header's fields -/

section
variable {u : State} {p n : Nat}

/-- The field at position `p` of the stream, once the bits before it are consumed. -/
theorem readNext_of_le (hinput : InputBounded s) (hu : u.input = s.input) (hp : Consumed (inputBytes s) p s.reader u.reader)
    (hn : n ≤ 32) (hle : p + n ≤ (streamBits s).length) :
    ∃ r, readBits n false u = .ok (fieldValue (((streamBits s).drop p).take n)) { u with reader := r } ∧
      Consumed (inputBytes s) (p + n) s.reader r := by
  have hbytes : inputBytes u = inputBytes s := by rw [inputBytes, hu, inputBytes]
  have hbits : streamBits u = (streamBits s).drop p := by rw [streamBits, hbytes, hp.bits, streamBits]
  obtain ⟨r, hr, hconsumed⟩ := readField_of_le (s := u) (n := n) (by rwa [InputBounded, hbytes]) hp.buffer hn
    (by rw [hbits, List.length_drop]; omega)
  rw [hbits] at hr
  exact ⟨r, hr, hp.trans (hbytes ▸ hconsumed)⟩

/-- The field at position `p` of the stream, where the input ends inside it. -/
theorem readNext_of_lt (hinput : InputBounded s) (hu : u.input = s.input) (hp : Consumed (inputBytes s) p s.reader u.reader)
    (hn : n ≤ 32) (hle : p ≤ (streamBits s).length) (hlt : (streamBits s).length < p + n) :
    ∃ r, readBits n false u = .raised (withError 5 0 0 { u with reader := r }) ∧ RunsOut (inputBytes s) u.reader r := by
  have hbytes : inputBytes u = inputBytes s := by rw [inputBytes, hu, inputBytes]
  have hbits : streamBits u = (streamBits s).drop p := by rw [streamBits, hbytes, hp.bits, streamBits]
  obtain ⟨r, hr, hout⟩ := readBits_of_lt (s := u) (n := n) (by rwa [InputBounded, hbytes]) hn hp.buffer false
    (by rw [hbits, List.length_drop]; omega)
  exact ⟨r, hr, hbytes ▸ hout⟩

end

/-- The input has ended inside the field that the consumed bits stand before. -/
theorem headerCut_of_runsOut {q r : Reader} {hdr : Hdr} {cl : Vector (BitVec 3) 19}
    (hq : Consumed (inputBytes s) (cutFieldStart (streamBits s).length) s.reader q) (hr : RunsOut (inputBytes s) q r)
    (hhdr : hdr = hdrOfBits (streamBits s) s.hdr) (hkept : (streamBits s).length < 14 → cl = s.lens.cl)
    (hread : 14 ≤ (streamBits s).length → ∀ i sym, clPermutation[i]? = some sym → cl.toList[sym]? = some
      (if 14 + 3 * (i + 1) ≤ (streamBits s).length then
        BitVec.ofNat 3 (fieldValue (((streamBits s).drop (14 + 3 * i)).take 3)) else 0)) :
    HeaderCut (streamBits s) s
      (withError 5 0 0 { s with reader := r, hdr := hdr, lens := { s.lens with cl := cl } }) where
  raised := by
    rw [hhdr]
    rfl
  clKept := hkept
  clRead := hread
  buffered := ⟨hr.buffer, hr.buffered.trans hq.bits, hr.inCount.trans hq.inCount⟩

/-- HLIT, HDIST or HCLEN is cut off, or all three are read and stored, and the CL lengths follow (R171). -/
theorem beginHeader_fields (hinput : InputBounded s) (h : BufferInv s.reader) :
    ((streamBits s).length < 14 ∧ ∃ t, beginHeader s = .raised t ∧ HeaderCut (streamBits s) s t) ∨
    (14 ≤ (streamBits s).length ∧ ∃ r hlit hdist, Consumed (inputBytes s) 14 s.reader r ∧ beginHeader s =
      (readClArray (fieldValue (((streamBits s).drop 10).take 4))
        { s with reader := r, hdr := hdrOfBits (streamBits s) s.hdr }).andThen
          fun _ t => .ok () (enterLengths hlit hdist (buildTable .cl 19 t))) := by
  have cut : ∀ {p : Nat} {q r : Reader} {hdr : Hdr}, (streamBits s).length < 14 → cutFieldStart (streamBits s).length = p →
      Consumed (inputBytes s) p s.reader q → RunsOut (inputBytes s) q r → hdr = hdrOfBits (streamBits s) s.hdr →
      HeaderCut (streamBits s) s (withError 5 0 0 { s with reader := r, hdr := hdr }) :=
    fun hlt hstart hq hr hhdr =>
      headerCut_of_runsOut (hstart.symm ▸ hq) hr hhdr (fun _ => rfl) fun hle => absurd hlt hle.not_gt
  unfold beginHeader
  by_cases h5 : (streamBits s).length < 5
  · obtain ⟨r, hr, hout⟩ := readBits_of_lt hinput (by decide) h false h5
    refine .inl ⟨by omega, _, by rw [hr, Res.andThen_raised], cut (by omega) (if_pos h5) (.refl h) hout ?_⟩
    simp (disch := omega) only [hdrOfBits, if_neg]
  obtain ⟨r1, hr1, h1⟩ := readField_of_le hinput h (n := 5) (by decide) (by omega)
  rw [hr1, Res.andThen_ok]
  generalize hhlit : fieldValue ((streamBits s).take 5) = hlit
  by_cases h10 : (streamBits s).length < 10
  · obtain ⟨r, hr, hout⟩ := readNext_of_lt (u := { s with reader := r1, hdr := { s.hdr with hlit := BitVec.ofNat 5 hlit } })
      hinput rfl h1 (n := 5) (by decide) (by omega) h10
    refine .inl ⟨by omega, _, by rw [hr, Res.andThen_raised], cut (by omega) ?_ h1 hout ?_⟩
    · simp (disch := omega) only [cutFieldStart, if_neg, if_pos]
    · simp (disch := omega) only [hdrOfBits, if_pos, if_neg, hhlit]
  obtain ⟨r2, hr2, h2⟩ := readNext_of_le (u := { s with reader := r1, hdr := { s.hdr with hlit := BitVec.ofNat 5 hlit } })
    hinput rfl h1 (n := 5) (by decide) (by omega)
  rw [hr2, Res.andThen_ok]
  generalize hhdist : fieldValue (((streamBits s).drop 5).take 5) = hdist
  by_cases h14 : (streamBits s).length < 14
  · obtain ⟨r, hr, hout⟩ := readNext_of_lt (u := { s with
      reader := r2, hdr := { s.hdr with hlit := BitVec.ofNat 5 hlit, hdist := BitVec.ofNat 5 hdist } })
      hinput rfl h2 (n := 4) (by decide) (by omega) h14
    refine .inl ⟨h14, _, by rw [hr, Res.andThen_raised], cut h14 ?_ h2 hout ?_⟩
    · simp (disch := omega) only [cutFieldStart, if_neg, if_pos]
    · simp (disch := omega) only [hdrOfBits, if_pos, if_neg, hhlit, hhdist]
  · obtain ⟨r3, hr3, h3⟩ := readNext_of_le (u := { s with
      reader := r2, hdr := { s.hdr with hlit := BitVec.ofNat 5 hlit, hdist := BitVec.ofNat 5 hdist } })
      hinput rfl h2 (n := 4) (by decide) (by omega)
    rw [hr3, Res.andThen_ok]
    refine .inr ⟨by omega, r3, hlit, hdist, h3, ?_⟩
    simp (disch := omega) only [hdrOfBits, if_pos, hhlit, hhdist]

theorem clPermutation_length : clPermutation.length = 19 := rfl

theorem clPermutation_nodup : clPermutation.Nodup := by decide

theorem clPermutation_lt : ∀ sym ∈ clPermutation, sym < 19 := by decide

theorem replicate_toList_getElem? {sym : Nat} (h : sym < 19) :
    (Vector.replicate 19 (0 : BitVec 3)).toList[sym]? = some 0 := by
  rw [Vector.getElem?_toList, Vector.getElem?_replicate, if_pos h]

/-- The input that ends inside a header's fields raises there (R171, R172, R221). -/
theorem beginHeader_of_cut (hinput : InputBounded s) (h : BufferInv s.reader) (hcut : endsInHeaderFields (streamBits s)) :
    ∃ t, beginHeader s = .raised t ∧ HeaderCut (streamBits s) s t := by
  obtain ⟨-, hraised⟩ | ⟨hle, p, hlit, hdist, hp, hbegin⟩ := beginHeader_fields hinput h
  · exact hraised
  have hlt := hcut.resolve_left hle.not_gt
  have hclenLt : fieldValue (((streamBits s).drop 10).take 4) < 2 ^ 4 :=
    (fieldValue_lt _).trans_le (Nat.pow_le_pow_right (by decide) (List.length_take_le 4 _))
  generalize fieldValue (((streamBits s).drop 10).take 4) = hclen at hlt hbegin hclenLt
  have hbits : streamBits { s with
      reader := p, hdr := hdrOfBits (streamBits s) s.hdr, lens := { s.lens with cl := Vector.replicate 19 0 } } =
      (streamBits s).drop 14 := hp.bits
  have hfew : ((streamBits s).drop 14).length < 3 * (clPermutation.take (hclen + 4)).length := by
    rw [List.length_take, List.length_drop, clPermutation_length]
    omega
  obtain ⟨q, r, hr, hq, hout⟩ := readClLens_of_lt (s := { s with
    reader := p, hdr := hdrOfBits (streamBits s) s.hdr, lens := { s.lens with cl := Vector.replicate 19 0 } })
    (clPermutation.drop (hclen + 4)) hinput hp.buffer (by rwa [hbits])
  rw [hbits, List.take_append_drop] at hr
  rw [hbits] at hq
  refine ⟨_, hbegin.trans (congrArg (Res.andThen · _) hr), headerCut_of_runsOut ?_ hout rfl
    (fun hshort => absurd hle hshort.not_ge) fun _ i sym hi => ?_⟩
  · have hstart : cutFieldStart (streamBits s).length = 14 + 3 * (((streamBits s).drop 14).length / 3) := by
      simp (disch := omega) only [cutFieldStart, if_neg, List.length_drop]
    exact hstart ▸ hp.trans hq
  · have hindex : 3 * (i + 1) ≤ ((streamBits s).drop 14).length ↔ 14 + 3 * (i + 1) ≤ (streamBits s).length := by
      rw [List.length_drop]
      omega
    rw [clLensOfBits_getElem? clPermutation_nodup clPermutation_lt hi, List.drop_drop,
      replicate_toList_getElem? (clPermutation_lt sym (List.mem_of_getElem? hi))]
    simp only [hindex]
    split <;> rfl

/-- An error clears the working state, so what the command had there does not show; nor does how much of INPUT it had taken. -/
theorem HeaderCut.of_started {bits : List Bool} {w : Work} {r : Reader} (h : HeaderCut bits { s with reader := r, work := w } t)
    (hr : max r.inCount.toNat (inputBytes s).length = max s.reader.inCount.toNat (inputBytes s).length) : HeaderCut bits s t :=
  have ⟨hbuffer, hbuffered, hcount⟩ := h.buffered
  ⟨h.raised, h.clKept, h.clRead, hbuffer, hbuffered, hcount.trans hr⟩

theorem HeaderCut.idle {bits : List Bool} (h : HeaderCut bits s t) : t.work.phase = .idle := by
  rw [h.raised]
  rfl

theorem exec_btype2Dynamic_of_cut (hinput : InputBounded s) (h : BufferInv s.reader) {bits : List Bool}
    (hbits : streamBits s = bits) (hcut : endsInHeaderFields bits) (bfinal : Bool) :
    ∃ t, exec (.btype2Dynamic bfinal) s = .next t ∧ HeaderCut bits s t := by
  subst hbits
  obtain ⟨t, ht, hheader⟩ := beginHeader_of_cut (s := { s with work := { s.work with bfinal := bfinal } }) hinput h hcut
  refine ⟨t, ?_, hheader.of_started rfl⟩
  show execBtype2Dynamic bfinal s = _
  rw [execBtype2Dynamic, ht, Res.toOutcome_raised]

theorem exec_decodeHeader_of_cut (hinput : InputBounded s) (h : BufferInv s.reader)
    (hcut : endsInHeaderFields (streamBits s)) (herr : s.status.error = false) :
    ∃ t, exec .decodeHeader s = .next t ∧
      HeaderCut (streamBits s) { s with status := { s.status with done := false } } t := by
  obtain ⟨t, ht, hheader⟩ := beginHeader_of_cut (s := { clearDone s with work := { Work.idle with cmd := .header } })
    hinput h hcut
  refine ⟨t, ?_, hheader.of_started (s := clearDone s) rfl⟩
  rw [exec_decodeHeader_of_noError herr, ht, Res.toOutcome_raised]

/-! ### Inside the block header -/

theorem ofNat_toNat_eq_ofBool (b : Bool) : BitVec.ofNat 1 b.toNat = BitVec.ofBool b := by cases b <;> rfl

/-- BFINAL and BTYPE that stand next in the stream are read and stored (R186). -/
theorem fetchBlockHdr_of_eq (hinput : InputBounded s) (h : BufferInv s.reader) {bfinal : Bool} {btype : Nat} (hb : btype < 4)
    {rest : List Bool} (hbits : streamBits s = fieldBits 1 bfinal.toNat ++ fieldBits 2 btype ++ rest) :
    ∃ r, fetchBlockHdr s = .ok (bfinal.toNat + 2 * btype) { s with
        reader := r, hdr := { s.hdr with bfinal := BitVec.ofBool bfinal, btype := BitVec.ofNat 2 btype } } ∧
      Consumed (inputBytes s) 3 s.reader r ∧ readerBits (inputBytes s) r = rest := by
  rw [List.append_assoc] at hbits
  obtain ⟨r1, hr1, h1, hrest1⟩ := readField_of_eq hinput h (by decide) bfinal.toNat_lt hbits
  obtain ⟨r2, hr2, h2, hrest2⟩ := readField_of_eq (s := { s with
    reader := r1, hdr := { s.hdr with bfinal := BitVec.ofBool bfinal } }) hinput h1.buffer (by decide) hb hrest1
  refine ⟨r2, ?_, h1.trans h2, hrest2⟩
  rw [fetchBlockHdr, hr1, Res.andThen_ok, ofNat_toNat_eq_ofBool, hr2, Res.andThen_ok]

/-- With no bit left BFINAL is cut off. -/
theorem fetchBlockHdr_of_nil (hinput : InputBounded s) (h : BufferInv s.reader) (hbits : streamBits s = []) :
    ∃ r, fetchBlockHdr s = .raised (withError 5 0 0 { s with reader := r }) ∧ BufferInv r ∧ bufferedBits r = [] := by
  obtain ⟨r, hr, hout⟩ := readBits_of_lt hinput (n := 1) (by decide) h false (by simp [hbits])
  exact ⟨r, by rw [fetchBlockHdr, hr, Res.andThen_raised], hout.buffer, hout.buffered.trans hbits⟩

/-- With one bit or two left BTYPE is cut off, and BFINAL stays stored (R221). -/
theorem fetchBlockHdr_of_cons (hinput : InputBounded s) (h : BufferInv s.reader) {b : Bool} {rest : List Bool}
    (hbits : streamBits s = b :: rest) (hlt : rest.length < 2) :
    ∃ r, fetchBlockHdr s = .raised (withError 5 0 0 { s with
        reader := r, hdr := { s.hdr with bfinal := BitVec.ofBool b } }) ∧ BufferInv r ∧ bufferedBits r = rest := by
  have hfield : streamBits s = fieldBits 1 b.toNat ++ rest := by
    rw [hbits]
    cases b <;> rfl
  obtain ⟨r1, hr1, h1, hrest⟩ := readField_of_eq hinput h (by decide) b.toNat_lt hfield
  obtain ⟨r, hr, hout⟩ := readNext_of_lt (u := { s with reader := r1, hdr := { s.hdr with bfinal := BitVec.ofBool b } })
    hinput rfl h1 (n := 2) (by decide) (by simp [hbits]) (by simp [hbits]; omega)
  refine ⟨r, ?_, hout.buffer, hout.buffered.trans hrest⟩
  rw [fetchBlockHdr, hr1, Res.andThen_ok, ofNat_toNat_eq_ofBool, hr, Res.andThen_raised]

/-- An accepted DECODE_BLOCK or DECODE_STREAM runs its blocks (R206, R208). -/
theorem exec_blocks {i : Instr} (hi : i = .decodeBlock ∨ i = .decodeStream) (herr : s.status.error = false)
    (hend : s.status.streamEnd = false) : ∃ c, exec i s = runCommand (startBlocks c (clearDone s)) := by
  obtain ⟨hblock, hstream⟩ := exec_blocks_of_not_ended herr hend
  obtain rfl | rfl := hi
  · exact ⟨.block, hblock⟩
  · exact ⟨.stream, hstream⟩

/-- A block header that raises ends the command. -/
theorem runCommand_of_raised {c : Cmd} (h : fetchBlockHdr (startBlocks c s) = .raised t) :
    runCommand (startBlocks c s) = .next t := by
  rw [runCommand, runSequencer_succ, fetchSymbol, startBlocks_work, h]
  rfl

/-- A dynamic block whose header raises ends the command. -/
theorem runCommand_of_dynamic {c : Cmd} {bfinal : Bool} {u : State}
    (h : fetchBlockHdr (startBlocks c s) = .ok (bfinal.toNat + 2 * 2) u) (hrun : exec (.btype2Dynamic bfinal) u = .next t)
    (hidle : t.work.phase = .idle) : runCommand (startBlocks c s) = .next t := by
  have hkey : decode .blockHdr (BitVec.ofNat 32 (bfinal.toNat + 2 * 2)) = .ok (.btype2Dynamic bfinal) := by
    cases bfinal <;> rfl
  have hfetch : fetchSymbol (startBlocks c s) = .run (.btype2Dynamic bfinal) u := by
    rw [fetchSymbol, startBlocks_work, h]
    simp only [fetchedKey, hkey]
  rw [exec_eq_execStreamOp rfl] at hrun
  rw [runCommand, runSequencer_succ, hfetch]
  simp only [hrun, hidle, if_true]

theorem exec_blocks_of_headerCut {i : Instr} (hi : i = .decodeBlock ∨ i = .decodeStream) (herr : s.status.error = false)
    (hend : s.status.streamEnd = false) (hinput : InputBounded s) (h : BufferInv s.reader) {bfinal : Bool} {rest : List Bool}
    (hbits : streamBits s = fieldBits 1 bfinal.toNat ++ fieldBits 2 2 ++ rest) (hcut : endsInHeaderFields rest) :
    ∃ t, exec i s = .next t ∧ HeaderCut rest { s with
      status := { s.status with done := false },
      hdr := { s.hdr with bfinal := BitVec.ofBool bfinal, btype := 2 } } t := by
  obtain ⟨c, hexec⟩ := exec_blocks hi herr hend
  obtain ⟨r, hr, hconsumed, hrest⟩ := fetchBlockHdr_of_eq (s := startBlocks c (clearDone s)) hinput h (by decide) hbits
  obtain ⟨t, ht, hheader⟩ := exec_btype2Dynamic_of_cut (s := { startBlocks c (clearDone s) with
    reader := r, hdr := { s.hdr with bfinal := BitVec.ofBool bfinal, btype := 2 } }) hinput hconsumed.buffer hrest hcut bfinal
  exact ⟨t, hexec.trans (runCommand_of_dynamic hr ht hheader.idle), hheader.of_started (s := { clearDone s with
    hdr := { s.hdr with bfinal := BitVec.ofBool bfinal, btype := 2 } }) hconsumed.inCount⟩

theorem exec_blocks_of_nil {i : Instr} (hi : i = .decodeBlock ∨ i = .decodeStream) (herr : s.status.error = false)
    (hend : s.status.streamEnd = false) (hinput : InputBounded s) (h : BufferInv s.reader) (hbits : streamBits s = []) :
    ∃ r, exec i s = .next (withError 5 0 0 { s with status := { s.status with done := false }, reader := r }) ∧
      BufferInv r ∧ bufferedBits r = [] := by
  obtain ⟨c, hexec⟩ := exec_blocks hi herr hend
  obtain ⟨r, hr, hbuffer, hbuffered⟩ := fetchBlockHdr_of_nil (s := startBlocks c (clearDone s)) hinput h hbits
  exact ⟨r, hexec.trans (runCommand_of_raised hr), hbuffer, hbuffered⟩

theorem exec_blocks_of_cons {i : Instr} (hi : i = .decodeBlock ∨ i = .decodeStream) (herr : s.status.error = false)
    (hend : s.status.streamEnd = false) (hinput : InputBounded s) (h : BufferInv s.reader) {b : Bool} {rest : List Bool}
    (hbits : streamBits s = b :: rest) (hlt : rest.length < 2) :
    ∃ r, exec i s = .next (withError 5 0 0 { s with
        status := { s.status with done := false }, reader := r, hdr := { s.hdr with bfinal := BitVec.ofBool b } }) ∧
      BufferInv r ∧ bufferedBits r = rest := by
  obtain ⟨c, hexec⟩ := exec_blocks hi herr hend
  obtain ⟨r, hr, hbuffer, hbuffered⟩ := fetchBlockHdr_of_cons (s := startBlocks c (clearDone s)) hinput h hbits hlt
  exact ⟨r, hexec.trans (runCommand_of_raised hr), hbuffer, hbuffered⟩

end

/-- Settles O31, by what the input ends inside: a code, an operation's extra bits, the header's fields, or the block header. -/
theorem inputEndsInsideACodeOrField : Obligations.InputEndsInsideACodeOrField := by
  refine ⟨fun s tbl h hinput => decodeSym_of_lt hinput h, fun i width s h hinput hi hlt => ?_,
    fun s h hinput hcut => ⟨exec_btype2Dynamic_of_cut hinput h rfl hcut, exec_decodeHeader_of_cut hinput h hcut⟩,
    fun i s hi herr hend h hinput => ⟨fun bfinal rest => exec_blocks_of_headerCut hi herr hend hinput h, fun hlt => ?_⟩⟩
  · have hreads : ReadsExtra i width s := hi
    obtain ⟨r, hr, hout⟩ := readBits_of_lt hinput (hreads.le.trans (by decide)) h false hlt
    exact ⟨r, hreads.exec_of_raised (Nat.ne_zero_of_lt hlt) hr, hout.buffer, hout.buffered⟩
  · cases hbits : streamBits s with
    | nil => exact exec_blocks_of_nil hi herr hend hinput h hbits
    | cons b rest =>
      have hshort : rest.length < 2 := by
        rw [hbits, List.length_cons] at hlt
        omega
      exact exec_blocks_of_cons hi herr hend hinput h hbits hshort

end Sys2Proof.Machine

/-! ## PROOF. The codes that Build assigns (spec/42_canonical_builder.md R151 to R155) -/

namespace Sys2Proof.Machine

/-! ### A symbol's code, by its length and its place -/

/-- The walk of R151 c gives a symbol its length's entry of `next`, raised by one for each earlier symbol of that length. -/
theorem assignCodes_getElem? {next : List Nat} {lens : List (BitVec 4)} {sym : Nat} {l : BitVec 4} (hl : lens[sym]? = some l)
    (hl0 : l.toNat ≠ 0) (hnext : l.toNat < next.length) :
    (assignCodes next lens)[sym]? = some (next.getD l.toNat 0 + (lens.take sym).count l) := by
  induction lens generalizing next sym with
  | nil => simp at hl
  | cons x rest ih =>
    cases sym with
    | zero =>
      obtain rfl : x = l := by simpa using hl
      simp [assignCodes, hl0]
    | succ sym =>
      have hl : rest[sym]? = some l := by simpa using hl
      by_cases hx : x.toNat = 0
      · have hxl : x ≠ l := fun h => hl0 (h ▸ hx)
        simp [assignCodes, hx, ih hl hnext, hxl]
      · have hraised : (next.modify x.toNat (· + 1)).getD l.toNat 0 = next.getD l.toNat 0 + if x = l then 1 else 0 := by
          simp only [List.getD_eq_getElem?_getD, List.getElem?_modify, List.getElem?_eq_getElem hnext, BitVec.toNat_inj]
          split <;> simp
        simp only [assignCodes, if_neg hx, List.getElem?_cons_succ, ih hl (next := next.modify x.toNat (· + 1)) (by simpa),
          hraised, List.take_succ_cons, List.count_cons, beq_iff_eq]
        congr 1
        omega

/-- The walk leaves 0 in the place of a symbol that has no code. -/
theorem assignCodes_getElem?_of_zero {next : List Nat} {lens : List (BitVec 4)} {sym : Nat} {l : BitVec 4}
    (hl : lens[sym]? = some l) (hl0 : l.toNat = 0) : (assignCodes next lens)[sym]? = some 0 := by
  induction lens generalizing next sym with
  | nil => simp at hl
  | cons x rest ih =>
    cases sym with
    | zero =>
      obtain rfl : x = l := by simpa using hl
      simp [assignCodes, hl0]
    | succ sym =>
      have hl : rest[sym]? = some l := by simpa using hl
      simp only [assignCodes]
      split <;> exact ih hl

@[simp] theorem firstCodes_length (lens : List (BitVec 4)) : (firstCodes lens).length = 16 := rfl

/-- CODE_t[s] is code(L) and the number of earlier symbols of the length L (R151). -/
theorem canonicalCodes_getElem? {lens : List (BitVec 4)} {sym : Nat} {l : BitVec 4} (hl : lens[sym]? = some l)
    (hl0 : l.toNat ≠ 0) : (canonicalCodes lens)[sym]? = some (firstCodeOf lens l.toNat + (lens.take sym).count l) := by
  rw [canonicalCodes, assignCodes_getElem? hl hl0 (by simp [l.isLt]), firstCodes_getD]

theorem codeOf_eq_of_codeTable {d : DecodeTable} {sym len code : Nat} (h : (codeTable d)[sym]? = some (len, code)) :
    codeOf d sym = (len, code) := by
  rw [codeOf, h, Option.getD_some]

section
variable {d : DecodeTable} {sym : Nat}

theorem codeTable_getElem?_of_length {l : BitVec 4} (hl : d.lens[sym]? = some l) (hl0 : l.toNat ≠ 0) :
    (codeTable d)[sym]? = some (l.toNat, firstCodeOf d.lens l.toNat + (d.lens.take sym).count l) :=
  List.getElem?_zip_eq_some.2 ⟨by simp [hl], canonicalCodes_getElem? hl hl0⟩

theorem codeOf_of_length {l : BitVec 4} (hl : d.lens[sym]? = some l) (hl0 : l.toNat ≠ 0) :
    codeOf d sym = (l.toNat, firstCodeOf d.lens l.toNat + (d.lens.take sym).count l) :=
  codeOf_eq_of_codeTable (codeTable_getElem?_of_length hl hl0)

/-- A symbol of length 0, or none of the table's, has no code. -/
theorem codeOf_of_no_length (hl0 : ∀ l, d.lens[sym]? = some l → l.toNat = 0) : codeOf d sym = (0, 0) := by
  cases hl : d.lens[sym]? with
  | none => rw [codeOf, List.getElem?_eq_none (by simpa using hl), Option.getD_none]
  | some l =>
    have hzero := hl0 l hl
    exact codeOf_eq_of_codeTable
      (List.getElem?_zip_eq_some.2 ⟨by simp [hl, hzero], assignCodes_getElem?_of_zero hl hzero⟩)

/-- A symbol that has a code is one of the table's with a nonzero length. -/
theorem exists_length_of_codeOf (h : (codeOf d sym).1 ≠ 0) : ∃ l, d.lens[sym]? = some l ∧ l.toNat ≠ 0 := by
  by_contra hnone
  refine h (congrArg Prod.fst (codeOf_of_no_length fun l hl => ?_))
  by_contra hl0
  exact hnone ⟨l, hl, hl0⟩

/-- The codes of a length L are from code(L) on, as many as there are symbols of that length. -/
theorem codeOf_bounds (h : (codeOf d sym).1 ≠ 0) :
    firstCodeOf d.lens (codeOf d sym).1 ≤ (codeOf d sym).2 ∧
      (codeOf d sym).2 < firstCodeOf d.lens (codeOf d sym).1 + lengthCount d.lens (codeOf d sym).1 := by
  obtain ⟨l, hl, hl0⟩ := exists_length_of_codeOf h
  have hlt := assignCodes_lt hl (canonicalCodes_getElem? hl hl0) hl0
  rw [firstCodes_getD] at hlt
  rw [codeOf_of_length hl hl0]
  exact ⟨Nat.le_add_right _ _, hlt⟩

end

/-- An entry is counted once more in every longer start of the list. -/
theorem count_take_lt {α : Type} [BEq α] [LawfulBEq α] {xs : List α} {x : α} {a b : Nat} (hx : xs[a]? = some x) (hab : a < b) :
    (xs.take a).count x < (xs.take b).count x := by
  calc (xs.take a).count x < (xs.take (a + 1)).count x := by simp [List.take_add_one, hx, List.count_append]
    _ ≤ (xs.take b).count x := (List.take_sublist_take_left hab).count_le x

/-- Codes of one length rise with the symbol, in every table (R153, R154). -/
theorem codeOf_lt_of_lt {d : DecodeTable} {a b : Nat} (hab : a < b) (ha : (codeOf d a).1 ≠ 0)
    (hlen : (codeOf d a).1 = (codeOf d b).1) : (codeOf d a).2 < (codeOf d b).2 := by
  obtain ⟨l, hl, hl0⟩ := exists_length_of_codeOf ha
  obtain ⟨m, hm, hm0⟩ := exists_length_of_codeOf (hlen ▸ ha)
  rw [codeOf_of_length hl hl0, codeOf_of_length hm hm0] at hlen ⊢
  obtain rfl : l = m := BitVec.eq_of_toNat_eq hlen
  exact Nat.add_lt_add_left (count_take_lt hl hab) _

/-! ### The longest length and the number of symbols -/

/-- MAXLEN bounds the lengths, and is one of them unless it is 0. -/
theorem maxLen_spec (d : DecodeTable) :
    (∀ l ∈ d.lens, l.toNat ≤ maxLen d) ∧ (maxLen d = 0 ∨ ∃ l ∈ d.lens, l.toNat = maxLen d) := by
  constructor
  · have hmax : maxLen d = (d.lens.map BitVec.toNat).foldr max 0 := List.foldl_map.symm.trans (List.foldl_eq_foldr ..)
    exact fun l hl => hmax ▸ List.le_max_of_le (List.mem_map_of_mem hl) le_rfl
  · refine List.foldlRecOn (motive := fun m => m = 0 ∨ ∃ l ∈ d.lens, l.toNat = m) d.lens _ (.inl rfl) fun m hm l hl => ?_
    obtain hmax | hmax := max_choice m l.toNat
    · exact hmax.symm ▸ hm
    · exact .inr ⟨l, hl, hmax.symm⟩

theorem usedSymbols_eq (lens : List (BitVec 4)) : usedSymbols lens = (lens.filter fun x => x.toNat != 0).length :=
  congrArg List.length (List.filter_congr fun x _ => by rw [Bool.eq_iff_iff]; simp)

/-- Settles O24: the loops of R151 are the recurrence code(L) and a count of the earlier symbols. -/
theorem buildAssignsCanonicalCodes : Obligations.BuildAssignsCanonicalCodes := by
  refine ⟨fun t n s => ⟨_, rfl, ?_, fun u hu => getTable_setTable_other _ _ hu⟩, fun lens sym l hl hl0 => ?_, maxLen_spec,
    usedSymbols_eq⟩
  · rw [getTable_setTable_same, snapshot]
  · rw [canonicalCodes_getElem? hl hl0, List.count_eq_length_filter]

/-! ### BUILD_TABLE -/

theorem buildTableOperands_of_legal {tsel : BitVec 2} {nsym : BitVec 9} {t : TableId} (ht : tableOfTsel tsel = some t)
    (hpos : 1 ≤ nsym.toNat) (hle : nsym.toNat ≤ tableSize t) : buildTableOperands tsel nsym = some (t, nsym.toNat) := by
  simp [buildTableOperands, ht, hpos, hle]

/-- Settles O25: with legal operands the acceptance performs Build and completes with its count. -/
theorem buildTableCommandCompletes : Obligations.BuildTableCommandCompletes := by
  intro s tsel nsym t herr hsel hpos
  obtain ⟨ht, hle⟩ : tableOfTsel tsel = some t ∧ nsym.toNat ≤ tableSize t := by
    obtain ⟨rfl, rfl, hle⟩ | ⟨rfl, rfl, hle⟩ | ⟨rfl, rfl, hle⟩ := hsel <;> exact ⟨rfl, hle⟩
  rw [exec_buildTable_of_some (buildTableOperands_of_legal ht hpos hle), acceptCommand_performs herr, usedSymbols_eq]
  rfl

/-! ### Tables that are not over-subscribed -/

/-- The first code of a longer length is past all codes of a shorter one, lengthened by zeros. -/
theorem codes_shifted_le_firstCodeOf (lens : List (BitVec 4)) (l k : Nat) :
    (firstCodeOf lens l + lengthCount lens l) * 2 ^ (k + 1) ≤ firstCodeOf lens (l + (k + 1)) := by
  induction k with
  | zero => exact (Nat.mul_comm _ _).le
  | succ k ih =>
    calc (firstCodeOf lens l + lengthCount lens l) * 2 ^ (k + 2)
        = 2 * ((firstCodeOf lens l + lengthCount lens l) * 2 ^ (k + 1)) := by ring
      _ ≤ 2 * (firstCodeOf lens (l + (k + 1)) + lengthCount lens (l + (k + 1))) := by omega
      _ = firstCodeOf lens (l + (k + 2)) := rfl

/-- The lengths of at most `l`. -/
def lengthsUpTo (lens : List (BitVec 4)) (l : Nat) : List (BitVec 4) := lens.filter fun x => decide (x.toNat ≤ l)

theorem kraftSum_lengthsUpTo_cons (x : BitVec 4) (rest : List (BitVec 4)) (l : Nat) :
    kraftSum (lengthsUpTo (x :: rest) l) =
      (if x.toNat = 0 ∨ l < x.toNat then 0 else 2 ^ (15 - x.toNat)) + kraftSum (lengthsUpTo rest l) := by
  by_cases hx : x.toNat ≤ l
  · simp [lengthsUpTo, kraftSum, hx, Nat.not_lt.2 hx]
  · simp [lengthsUpTo, kraftSum, hx, Nat.lt_of_not_le hx]

theorem lengthCount_succ_cons (x : BitVec 4) (rest : List (BitVec 4)) (l : Nat) :
    lengthCount (x :: rest) (l + 1) = (if x.toNat = l + 1 then 1 else 0) + lengthCount rest (l + 1) := by
  by_cases hx : x.toNat = l + 1
  · simp [lengthCount, hx, Nat.add_comm]
  · simp [lengthCount, hx]

theorem kraftSum_lengthsUpTo_succ (lens : List (BitVec 4)) (l : Nat) :
    kraftSum (lengthsUpTo lens (l + 1)) = kraftSum (lengthsUpTo lens l) + lengthCount lens (l + 1) * 2 ^ (15 - (l + 1)) := by
  induction lens with
  | nil => simp [lengthsUpTo, lengthCount]
  | cons x rest ih =>
    rw [kraftSum_lengthsUpTo_cons, kraftSum_lengthsUpTo_cons, lengthCount_succ_cons, ih, Nat.add_mul]
    obtain hlt | heq | hgt := Nat.lt_trichotomy x.toNat (l + 1)
    · simp [hlt.ne, Nat.not_lt.2 hlt.le, Nat.not_lt.2 (Nat.le_of_lt_succ hlt), Nat.add_assoc]
    · simp [heq, Nat.add_left_comm]
    · simp [hgt.ne', hgt, Nat.lt_of_succ_lt hgt]

/-- The codes of length `l` end where the Kraft sum of the lengths up to `l` says. -/
theorem kraftSum_lengthsUpTo (lens : List (BitVec 4)) {l : Nat} (hl : l ≤ 15) :
    kraftSum (lengthsUpTo lens l) = (firstCodeOf lens l + lengthCount lens l) * 2 ^ (15 - l) := by
  induction l with
  | zero =>
    have hzero : kraftSum (lengthsUpTo lens 0) = 0 := by simp +contextual [kraftSum, lengthsUpTo, List.sum_eq_zero_iff]
    simp [hzero, lengthCount, firstCodeOf]
  | succ l ih =>
    rw [kraftSum_lengthsUpTo_succ, ih (by omega), firstCodeOf, show 15 - l = 15 - (l + 1) + 1 by omega]
    ring

theorem kraftSum_lengthsUpTo_le (lens : List (BitVec 4)) (l : Nat) : kraftSum (lengthsUpTo lens l) ≤ kraftSum lens :=
  (List.filter_sublist.map _).sum_le_sum (by simp)

section
variable {d : DecodeTable}

/-- A code of a table that is not over-subscribed fits its length (R153). -/
theorem codeOf_fits (hkraft : kraftSum d.lens ≤ 2 ^ 15) {a : Nat} (ha : (codeOf d a).1 ≠ 0) :
    (codeOf d a).2 < 2 ^ (codeOf d a).1 := by
  obtain ⟨l, hl, hl0⟩ := exists_length_of_codeOf ha
  have hlen : (codeOf d a).1 = l.toNat := congrArg Prod.fst (codeOf_of_length hl hl0)
  have hle : (codeOf d a).1 ≤ 15 := hlen ▸ Nat.le_of_lt_succ l.isLt
  refine (codeOf_bounds ha).2.trans_le (Nat.le_of_mul_le_mul_right (c := 2 ^ (15 - (codeOf d a).1)) ?_ (Nat.two_pow_pos _))
  calc _ = kraftSum (lengthsUpTo d.lens (codeOf d a).1) := (kraftSum_lengthsUpTo _ hle).symm
    _ ≤ 2 ^ 15 := (kraftSum_lengthsUpTo_le _ _).trans hkraft
    _ = 2 ^ (codeOf d a).1 * 2 ^ (15 - (codeOf d a).1) := by rw [← Nat.pow_add, Nat.add_sub_cancel' hle]

@[simp] theorem codeBits_length (d : DecodeTable) (sym : Nat) : (codeBits d sym).length = (codeOf d sym).1 := by
  simp [codeBits]

theorem codeBits_getElem {sym j : Nat} (hj : j < (codeBits d sym).length) :
    (codeBits d sym)[j] = (codeOf d sym).2.testBit ((codeOf d sym).1 - 1 - j) := by
  simp [codeBits]

/-- A code whose bits begin another's is that one's high bits. -/
theorem codeOf_of_isPrefix {a b : Nat} (hprefix : (codeBits d a).IsPrefix (codeBits d b))
    (ha : (codeOf d a).2 < 2 ^ (codeOf d a).1) (hb : (codeOf d b).2 < 2 ^ (codeOf d b).1) :
    (codeOf d a).1 ≤ (codeOf d b).1 ∧ (codeOf d a).2 = (codeOf d b).2 >>> ((codeOf d b).1 - (codeOf d a).1) := by
  have hle : (codeOf d a).1 ≤ (codeOf d b).1 := by simpa using hprefix.length_le
  refine ⟨hle, Nat.eq_of_testBit_eq fun i => ?_⟩
  rw [Nat.testBit_shiftRight]
  by_cases hi : i < (codeOf d a).1
  · have hbit := hprefix.getElem (i := (codeOf d a).1 - 1 - i) (by simp; omega)
    rw [codeBits_getElem, codeBits_getElem] at hbit
    convert hbit using 2 <;> omega
  · rw [Nat.testBit_lt_two_pow (ha.trans_le (Nat.pow_le_pow_right (by decide) (by omega))),
      Nat.testBit_lt_two_pow (hb.trans_le (Nat.pow_le_pow_right (by decide) (by omega)))]

/-- No code of a table that is not over-subscribed begins another one (R153). -/
theorem codeBits_not_isPrefix (hkraft : kraftSum d.lens ≤ 2 ^ 15) {a b : Nat} (hab : a ≠ b) (ha : (codeOf d a).1 ≠ 0)
    (hb : (codeOf d b).1 ≠ 0) : ¬(codeBits d a).IsPrefix (codeBits d b) := by
  intro hprefix
  obtain ⟨hle, hcode⟩ := codeOf_of_isPrefix hprefix (codeOf_fits hkraft ha) (codeOf_fits hkraft hb)
  obtain hlen | hlen := hle.eq_or_lt
  · have hcode : (codeOf d a).2 = (codeOf d b).2 := by simpa [hlen] using hcode
    obtain hlt | hlt := hab.lt_or_gt
    · exact (codeOf_lt_of_lt hlt ha hlen).ne hcode
    · exact (codeOf_lt_of_lt hlt hb hlen.symm).ne' hcode
  · obtain ⟨k, hk⟩ := Nat.exists_eq_add_of_lt hlen
    have hpast : (firstCodeOf d.lens (codeOf d a).1 + lengthCount d.lens (codeOf d a).1) * 2 ^ (k + 1) ≤ (codeOf d b).2 :=
      (codes_shifted_le_firstCodeOf _ _ _).trans (hk ▸ (codeOf_bounds hb).1)
    rw [Nat.shiftRight_eq_div_pow, show (codeOf d b).1 - (codeOf d a).1 = k + 1 by omega] at hcode
    have := (Nat.le_div_iff_mul_le (Nat.two_pow_pos _)).2 hpast
    have := (codeOf_bounds ha).2
    omega

end

/-- Settles O26: the Kraft sum bounds the codes of each length, and the codes of a longer length are past all shorter ones. -/
theorem canonicalCodesArePrefixFree : Obligations.CanonicalCodesArePrefixFree := fun _ hkraft =>
  ⟨fun _ _ => codeOf_fits hkraft, fun _ _ hab _ => codeOf_lt_of_lt hab, fun _ _ _ _ => codeBits_not_isPrefix hkraft⟩

/-! ### Every table -/

/-- A code of a table of N symbols is at most (N - 1) * 2^14 (R154). -/
theorem codeOf_le (d : DecodeTable) (sym : Nat) : (codeOf d sym).2 ≤ (d.lens.length - 1) * 2 ^ 14 := by
  by_cases h : ∀ l, d.lens[sym]? = some l → l.toNat = 0
  · rw [codeOf_of_no_length h]
    exact Nat.zero_le _
  · push Not at h
    obtain ⟨l, hl, hl0⟩ := h
    rw [codeOf_of_length hl hl0]
    exact (codeTable_getElem?_bounds (codeTable_getElem?_of_length hl hl0) hl0).2

/-- The bound of R154 is reached: after n codes of one bit, the code of length 15 is n * 2^14. -/
theorem codeOf_replicate_append_fifteen (n : Nat) : codeOf { lens := List.replicate n 1 ++ [15] } n = (15, n * 2 ^ 14) := by
  have hfirst : firstCodeOf (List.replicate n 1 ++ [15]) 15 = n * 2 ^ 14 := by
    simp [firstCodeOf, lengthCount]
    ring
  have hearlier : ((List.replicate n 1#4 ++ [15]).take n).count 15 = 0 := by simp [List.count_replicate]
  refine (codeOf_of_length (l := 15) (by simp) (by decide)).trans (congrArg (Prod.mk 15) ?_)
  show firstCodeOf (List.replicate n 1 ++ [15]) 15 + ((List.replicate n 1#4 ++ [15]).take n).count 15 = _
  rw [hfirst, hearlier, Nat.add_zero]

theorem peekBits_one (r : Reader) : peekBits 1 r = (r.bitbuf.getLsbD 0).toNat := by
  rw [peekBits, BitVec.extractLsb'_toNat, BitVec.getLsbD, Nat.toNat_testBit, Nat.shiftRight_zero, pow_zero, Nat.div_one, pow_one]

/-- A symbol that the traversal resolves has bits that spell its code, those that were read. -/
theorem traverse_resolved_spells {input : List Byte} {codes : List (Nat × Nat)} {left sym : Nat} {seen : List Bool} {d : Decoder}
    {r q : Reader} (hfits : seen.length + left ≤ 15)
    (h : traverse input codes left (decoderAfter seen) r = .resolved sym d q) :
    ∃ bits : List Bool, codes[sym]? = some (bits.length, codeValue bits) := by
  induction left generalizing seen r with
  | zero => cases h
  | succ left ih =>
    simp only [traverse] at h
    split at h
    · cases h
    · rename_i v p hread
      obtain ⟨p', -, rfl, -⟩ := readerRead_eq_read.1 hread
      rw [peekBits_one, pushBit_decoderAfter] at h
      have hlen : (seen ++ [p'.bitbuf.getLsbD 0]).length + left ≤ 15 := by simp; omega
      obtain ⟨hk, hacc⟩ := decoderAfter_toNat (Nat.le_of_add_right_le hlen)
      split at h
      · rename_i hres
        injection h with hsym
        rw [hk, hacc, hsym] at hres
        exact ⟨_, (resolve_spec hres).2⟩
      · exact ih hlen h

/-- A decoded symbol's code fits its length (R165). -/
theorem codeOf_fits_of_decodeSym {t : TableId} {s u : State} {sym : Nat} (h : decodeSym t s = .ok sym u) :
    (codeOf (getTable s.tables t) sym).2 < 2 ^ (codeOf (getTable s.tables t) sym).1 := by
  obtain ⟨d, r, ht, -⟩ := decodeSym_eq_ok.1 h
  obtain ⟨bits, hbits⟩ := traverse_resolved_spells (seen := []) (by simpa using maxLen_le _) ht
  rw [codeOf_eq_of_codeTable hbits]
  exact codeValue_lt bits

/-- Settles O27: the order of the codes of one length needs no Kraft sum, and what the traversal resolves is spelled by the
bits read, which a code that does not fit its length cannot be. -/
theorem overSubscribedTablesAreBuilt : Obligations.OverSubscribedTablesAreBuilt := by
  refine ⟨fun d a b hab _ => codeOf_lt_of_lt hab, fun d a hd => (codeOf_le d a).trans ?_, by decide, ?_,
    fun s u t sym hlarge h => (codeOf_fits_of_decodeSym h).not_ge hlarge⟩
  · exact Nat.mul_le_mul_right _ (by omega)
  · exact codeOf_replicate_append_fifteen 287

end Sys2Proof.Machine

/-! ## PROOF. The resolution map and the traversal (spec/43_huffman_decoder.md R160 to R166) -/

namespace Sys2Proof.Machine

/-! ### The resolution map -/

/-- No two symbols share a length and a code, so that the first entry of a key is the only one (R160). -/
theorem resolve_codeTable_eq_some_iff {d : DecodeTable} {k c sym : Nat} :
    resolve (codeTable d) k c = some sym ↔ k ≠ 0 ∧ (codeTable d)[sym]? = some (k, c) := by
  refine ⟨resolve_spec, fun ⟨hk, hentry⟩ => ?_⟩
  obtain ⟨hlt, hget⟩ := List.getElem?_eq_some_iff.1 hentry
  rw [resolve, if_neg hk, List.findIdx?_eq_some_iff_getElem]
  refine ⟨hlt, by simp [hget], fun a ha hkey => ?_⟩
  have hsame : (codeTable d)[a]? = some (k, c) := by
    rw [List.getElem?_eq_getElem (ha.trans hlt)]
    exact congrArg some (Prod.ext_iff.2 (of_decide_eq_true hkey))
  have hrises := codeOf_lt_of_lt (d := d) ha
  rw [codeOf_eq_of_codeTable hsame, codeOf_eq_of_codeTable hentry] at hrises
  exact (hrises hk rfl).false

/-- Settles O28: an entry of the code table is a symbol's length beside its code. -/
theorem resolutionMapIsExact : Obligations.ResolutionMapIsExact := by
  intro d k c sym
  rw [resolve_codeTable_eq_some_iff, codeTable, List.getElem?_zip_eq_some]
  refine ⟨fun ⟨hk, hlen, hcode⟩ => ⟨?_, hk, hlen, hcode⟩, fun ⟨_, hk, hlen, hcode⟩ => ⟨hk, hlen, hcode⟩⟩
  simpa using (List.getElem?_eq_some_iff.1 hcode).1

/-! ### A symbol's code as bits -/

section
variable {d : DecodeTable} {sym : Nat}

/-- A symbol that has a code is what its length and code resolve to. -/
theorem resolve_codeOf (h : (codeOf d sym).1 ≠ 0) : resolve (codeTable d) (codeOf d sym).1 (codeOf d sym).2 = some sym := by
  obtain ⟨l, hl, hl0⟩ := exists_length_of_codeOf h
  refine resolve_codeTable_eq_some_iff.2 ⟨h, ?_⟩
  rw [codeOf_of_length hl hl0]
  exact codeTable_getElem?_of_length hl hl0

theorem codeOf_fst_le_maxLen (h : (codeOf d sym).1 ≠ 0) : (codeOf d sym).1 ≤ maxLen d := by
  obtain ⟨l, hl, hl0⟩ := exists_length_of_codeOf h
  rw [codeOf_of_length hl hl0]
  exact (maxLen_spec d).1 l (List.mem_of_getElem? hl)

/-- The first `k` bits of a code that fits its length spell its high bits (R86). -/
theorem codeValue_take_codeBits (hfits : (codeOf d sym).2 < 2 ^ (codeOf d sym).1) {k : Nat} (hk : k ≤ (codeOf d sym).1) :
    codeValue ((codeBits d sym).take k) = (codeOf d sym).2 >>> ((codeOf d sym).1 - k) := by
  rw [codeBits, ← List.map_take, List.take_range, Nat.min_eq_left hk]
  induction k with
  | zero =>
    rw [Nat.sub_zero, Nat.shiftRight_eq_div_pow, Nat.div_eq_of_lt hfits]
    rfl
  | succ k ih =>
    obtain ⟨m, hm⟩ : ∃ m, (codeOf d sym).1 = k + 1 + m := Nat.exists_eq_add_of_le hk
    rw [List.range_succ, List.map_append, List.map_singleton, codeValue_append_singleton, ih (Nat.le_of_succ_le hk),
      show (codeOf d sym).1 - k = m + 1 by omega, show (codeOf d sym).1 - 1 - k = m by omega,
      show (codeOf d sym).1 - (k + 1) = m by omega, Nat.shiftRight_succ, Nat.toNat_testBit, ← Nat.shiftRight_eq_div_pow]
    exact Nat.div_add_mod _ 2

end

/-! ### The traversal -/

section
variable {input : List Byte} {codes : List (Nat × Nat)} {left : Nat} {seen : List Bool} {r : Reader}

/-- One bit of the traversal: with the bits read so far it is a code, which resolves, or the traversal goes on (R161, R162). -/
theorem traverse_succ_of_cons (hlen : input.length < 2 ^ 32) (h : BufferInv r) (hseen : seen.length < 15) {b : Bool}
    {rest : List Bool} (hbits : readerBits input r = b :: rest) :
    ∃ q, BufferInv q ∧ readerBits input q = rest ∧
      (∀ sym, resolve codes (seen.length + 1) (codeValue (seen ++ [b])) = some sym →
        traverse input codes (left + 1) (decoderAfter seen) r = .resolved sym (decoderAfter (seen ++ [b])) q) ∧
      (resolve codes (seen.length + 1) (codeValue (seen ++ [b])) = none →
        traverse input codes (left + 1) (decoderAfter seen) r = traverse input codes left (decoderAfter (seen ++ [b])) q) := by
  obtain ⟨q, hq, hfield⟩ := readerRead_of_le hlen (by decide) h false (n := 1) (by simp [hbits])
  have hvalue : fieldValue ((readerBits input r).take 1) = b.toNat := by simp [hbits, fieldValue]
  obtain ⟨hk, hacc⟩ := decoderAfter_toNat (bits := seen ++ [b]) (by simpa using hseen)
  rw [List.length_append, List.length_singleton] at hk
  refine ⟨q, hfield.buffer, by simpa [hbits] using hfield.bits, fun sym hsome => ?_, fun hnone => ?_⟩
  · simp only [traverse, hq, hvalue, pushBit_decoderAfter, hk, hacc, hsome]
  · simp only [traverse, hq, hvalue, pushBit_decoderAfter, hk, hacc, hnone]

/-- The traversal reads on through bits none of whose starts is a code. -/
theorem traverse_through (hlen : input.length < 2 ^ 32) {bits rest : List Bool} (h : BufferInv r)
    (hfits : seen.length + bits.length ≤ 15) (hbits : readerBits input r = bits ++ rest)
    (hnone : ∀ k, seen.length < k → k ≤ seen.length + bits.length → resolve codes k (codeValue ((seen ++ bits).take k)) = none) :
    ∃ q, BufferInv q ∧ readerBits input q = rest ∧
      traverse input codes (bits.length + left) (decoderAfter seen) r = traverse input codes left (decoderAfter (seen ++ bits)) q := by
  induction bits generalizing seen r with
  | nil => exact ⟨r, h, hbits, by simp⟩
  | cons b bits ih =>
    rw [List.length_cons] at hfits hnone
    have hsplit : seen ++ b :: bits = seen ++ [b] ++ bits := by simp
    obtain ⟨p, hp, hpbits, -, hstep⟩ :=
      traverse_succ_of_cons (codes := codes) (left := bits.length + left) hlen h (seen := seen) (by omega) hbits
    obtain ⟨q, hq, hqbits, hrun⟩ := ih (seen := seen ++ [b]) hp (by simp; omega) hpbits (by
      rw [← hsplit]
      exact fun k hk1 hk2 => hnone k (by simp at hk1; omega) (by simp at hk2; omega))
    have hfirst : resolve codes (seen.length + 1) (codeValue (seen ++ [b])) = none := by
      have := hnone (seen.length + 1) (by omega) (by omega)
      rwa [hsplit, List.take_left' (by simp)] at this
    refine ⟨q, hq, hqbits, ?_⟩
    rw [List.length_cons, Nat.add_right_comm, hstep hfirst, hrun, ← hsplit]

/-- The traversal resolves at the last bit of a code none of whose shorter starts is one. -/
theorem traverse_resolves (hlen : input.length < 2 ^ 32) (h : BufferInv r) {code rest : List Bool} {sym : Nat}
    (hfits : code.length ≤ 15) (hbits : readerBits input r = code ++ rest)
    (hnone : ∀ k < code.length, resolve codes k (codeValue (code.take k)) = none)
    (hsome : resolve codes code.length (codeValue code) = some sym) :
    ∃ d q, traverse input codes (code.length + left) (decoderAfter []) r = .resolved sym d q ∧ readerBits input q = rest := by
  obtain rfl | ⟨bits, b, rfl⟩ := List.eq_nil_or_concat' code
  · exact absurd rfl (resolve_spec hsome).1
  · rw [List.length_append, List.length_singleton] at hfits hnone hsome ⊢
    rw [List.append_assoc, List.singleton_append] at hbits
    obtain ⟨p, hp, hpbits, hthrough⟩ := traverse_through (codes := codes) (left := left + 1) (seen := []) hlen h
      (by simp; omega) hbits fun k _ hk => by
        have hk : k ≤ bits.length := by simpa using hk
        rw [List.nil_append, ← List.take_append_of_le_length hk]
        exact hnone k (Nat.lt_succ_of_le hk)
    obtain ⟨q, -, hqbits, hresolve, -⟩ := traverse_succ_of_cons (codes := codes) (left := left) hlen hp hfits hpbits
    refine ⟨decoderAfter (bits ++ [b]), q, ?_, hqbits⟩
    rw [Nat.add_right_comm, Nat.add_assoc, hthrough]
    exact hresolve sym hsome

end

section
variable {s : State} {t : TableId}

/-- DecodeSym resolves a usable symbol at the last bit of its code (R163, R165). -/
theorem decodeSym_of_usable (hinput : InputBounded s) (h : BufferInv s.reader) {sym : Nat} {rest : List Bool}
    (husable : usable (getTable s.tables t) sym) (hbits : streamBits s = codeBits (getTable s.tables t) sym ++ rest) :
    ∃ d r, decodeSym t s = .ok sym (setDecoder d r s) ∧ readerBits (inputBytes s) r = rest := by
  obtain ⟨hpos, hfits, hshorter⟩ := husable
  obtain ⟨left, hleft⟩ := Nat.exists_eq_add_of_le (codeOf_fst_le_maxLen hpos)
  have hwidth := codeBits_length (getTable s.tables t) sym
  have hwhole : codeValue (codeBits (getTable s.tables t) sym) = (codeOf (getTable s.tables t) sym).2 := by
    simpa [List.take_of_length_le hwidth.le] using codeValue_take_codeBits hfits le_rfl
  obtain ⟨d, q, hrun, hrest⟩ := traverse_resolves (codes := codeTable (getTable s.tables t)) (left := left) (sym := sym)
    hinput.lt h (hwidth ▸ (codeOf_fst_le_maxLen hpos).trans (maxLen_le _)) hbits
    (fun k hk => by
      rw [hwidth] at hk
      rw [codeValue_take_codeBits hfits hk.le]
      exact hshorter k hk)
    (by rw [hwidth, hwhole]; exact resolve_codeOf hpos)
  rw [hwidth, ← hleft] at hrun
  exact ⟨d, q, decodeSym_eq_ok.2 ⟨d, q, hrun, rfl⟩, hrest⟩

/-- A traversal that ends invalid raises INVALID_CODE with the table's number (R164). -/
theorem decodeSym_of_invalid {d : Decoder} {r : Reader}
    (h : traverse (inputBytes s) (codeTable (getTable s.tables t)) (maxLen (getTable s.tables t)) (decoderAfter []) s.reader =
      .invalid d r) : decodeSym t s = .raised (withError 3 (tableNumber t) 0 { s with reader := r }) := by
  unfold decodeSym
  rw [show ({ acc := 0, k := 0 } : Decoder) = decoderAfter [] from rfl, h]
  rfl

theorem decodeSym_of_no_code (hinput : InputBounded s) (h : BufferInv s.reader)
    (hle : maxLen (getTable s.tables t) ≤ (streamBits s).length)
    (hnone : ∀ k, 1 ≤ k → k ≤ maxLen (getTable s.tables t) →
      resolve (codeTable (getTable s.tables t)) k (codeValue ((streamBits s).take k)) = none) :
    ∃ r, decodeSym t s = .raised (withError 3 (tableNumber t) 0 { s with reader := r }) ∧
      readerBits (inputBytes s) r = (streamBits s).drop (maxLen (getTable s.tables t)) := by
  have hwidth : ((streamBits s).take (maxLen (getTable s.tables t))).length = maxLen (getTable s.tables t) :=
    List.length_take_of_le hle
  obtain ⟨q, -, hqbits, hthrough⟩ := traverse_through (codes := codeTable (getTable s.tables t)) (left := 0) (seen := [])
    (bits := (streamBits s).take (maxLen (getTable s.tables t))) hinput.lt h (by simpa [hwidth] using maxLen_le _)
    (List.take_append_drop _ (streamBits s)).symm fun k hpos hk => by
      have hk : k ≤ maxLen (getTable s.tables t) := by simpa [hwidth] using hk
      rw [List.nil_append, List.take_take, Nat.min_eq_left hk]
      exact hnone k hpos hk
  rw [hwidth, Nat.add_zero] at hthrough
  exact ⟨q, decodeSym_of_invalid hthrough, hqbits⟩

/-- A table with no code is invalid before a bit is read (R164). -/
theorem decodeSym_of_maxLen_eq_zero (h : maxLen (getTable s.tables t) = 0) :
    decodeSym t s = .raised (withError 3 (tableNumber t) 0 s) :=
  decodeSym_of_invalid (r := s.reader) (d := decoderAfter []) (by rw [h, traverse])

end

/-- Settles O29: a legal DECODE_SYMBOL is one DecodeSym after its acceptance. -/
theorem decodeSymbolCommandCompletes : Obligations.DecodeSymbolCommandCompletes := by
  intro s tsel t sym rest herr h hinput hsel husable hbits
  have ht : tableOfTsel tsel = some t := by
    obtain ⟨rfl, rfl⟩ | ⟨rfl, rfl⟩ | ⟨rfl, rfl⟩ := hsel <;> rfl
  obtain ⟨d, r, hr, hrest⟩ := decodeSym_of_usable (s := clearDone s) hinput h husable hbits
  refine ⟨r, ?_, hrest⟩
  rw [exec_decodeSymbol_of_some ht, acceptCommand_performs herr, hr]
  rfl

/-- Settles O30: the traversal passes MAXLEN bits of which no start is a code, none at all in an empty table. -/
theorem noMatchingCodeIsInvalidCode : Obligations.NoMatchingCodeIsInvalidCode :=
  fun _ _ h hinput => ⟨decodeSym_of_no_code hinput h, decodeSym_of_maxLen_eq_zero⟩

end Sys2Proof.Machine

/-! ## PROOF. A stream-decoding command is the run of its symbols (spec/44_header_decoder.md R174, R180; spec/45_block_decoder.md R186, R206,
R208): each symbol uses up a stream bit, so the sequencer's budget suffices, whatever the buffer holds -/

namespace Sys2Proof.Machine

/-! ### Stream bits used up -/

section
variable {input : List Byte} {n v : Nat} {r q : Reader}

/-- A refill uses up no stream bit, and with refills enough it ends with the bits asked for. -/
theorem refill_bitsLeft (hlen : input.length < 2 ^ 32) (hn : n ≤ 32) {fuel : Nat} (h : refill input fuel n r = .ok q) :
    bitsLeft input q = bitsLeft input r ∧ (n ≤ r.bitcnt.toNat + 8 * fuel → n ≤ q.bitcnt.toNat) := by
  induction fuel generalizing r with
  | zero =>
    cases h
    exact ⟨rfl, id⟩
  | succ fuel ih =>
    unfold refill at h
    split_ifs at h with hc
    · cases h
      exact ⟨rfl, fun _ => hc⟩
    · cases hb : inByte input r with
      | none => simp [hb] at h
      | some p =>
        obtain ⟨b, p⟩ := p
        obtain ⟨hlt, hcount, hcnt, -⟩ := inByte_eq_some hlen hb
        have hpush : (pushByte b p).bitcnt.toNat = r.bitcnt.toNat + 8 := by
          rw [pushByte_bitcnt, BitVec.toNat_add, hcnt, show (8 : BitVec 6).toNat = 8 from rfl]
          omega
        obtain ⟨hleft, hreach⟩ := ih (r := pushByte b p) (by simpa [hb] using h)
        refine ⟨hleft.trans ?_, fun hf => hreach (by omega)⟩
        rw [bitsLeft, bitsLeft, hpush, pushByte_inCount]
        omega

/-- A read uses its bits up unless it keeps them. -/
theorem readerRead_bitsLeft (hlen : input.length < 2 ^ 32) (hn : n ≤ 32) {keep : Bool} (h : readerRead input n keep r = .read v q) :
    bitsLeft input q + (if keep then 0 else n) = bitsLeft input r := by
  obtain ⟨p, hp, -, rfl⟩ := readerRead_eq_read.1 h
  obtain ⟨hleft, hreach⟩ := refill_bitsLeft hlen hn hp
  rw [← hleft]
  cases keep with
  | true => rfl
  | false =>
    have hcnt : n ≤ p.bitcnt.toNat := hreach (by omega)
    have hdrop := dropBits_bitcnt_toNat hcnt
    simp only [Bool.false_eq_true, if_false, bitsLeft, dropBits_inCount]
    omega

/-- A symbol's decoding uses up a bit at least. -/
theorem traverse_resolved_bitsLeft (hlen : input.length < 2 ^ 32) {codes : List (Nat × Nat)} {left sym : Nat} {d d' : Decoder}
    (h : traverse input codes left d r = .resolved sym d' q) : bitsLeft input q < bitsLeft input r := by
  induction left generalizing d r with
  | zero => cases h
  | succ left ih =>
    unfold traverse at h
    cases hp : readerRead input 1 false r with
    | exhausted p => simp [hp] at h
    | read b p =>
      have hread : bitsLeft input p + 1 = bitsLeft input r := readerRead_bitsLeft hlen (by decide) hp
      cases hr : resolve codes (pushBit b d).k.toNat (pushBit b d).acc.toNat with
      | some found =>
        obtain ⟨-, -, rfl⟩ : found = sym ∧ pushBit b d = d' ∧ p = q := by simpa [hp, hr] using h
        omega
      | none =>
        have hrest := ih (by simpa [hp, hr] using h)
        omega

end

section
variable {s t u : State}

/-- `t` comes after `s` within a command: the same INPUT, and no more stream bits left. -/
structure UsesUp (s t : State) : Prop where
  input : t.input = s.input
  left : streamLeft t ≤ streamLeft s

theorem UsesUp.trans (h : UsesUp s t) (h' : UsesUp t u) : UsesUp s u := ⟨h'.input.trans h.input, h'.left.trans h.left⟩

theorem inputBytes_congr (h : t.input = s.input) : inputBytes t = inputBytes s := congrArg (Option.getD · []) h

theorem UsesUp.inputBounded (h : UsesUp s t) (hs : InputBounded s) : InputBounded t := by
  rwa [InputBounded, inputBytes_congr h.input]

theorem UsesUp.move {kept : Bool} (hs : InputBounded s) (hm : Move kept s t) : UsesUp s t := by
  cases hm with
  | read hn _ h => exact ⟨rfl, Nat.le.intro (readerRead_bitsLeft hs.lt hn h)⟩
  | _ => exact ⟨rfl, le_rfl⟩

theorem UsesUp.moves {kept : Bool} (hs : InputBounded s) (h : Moves kept s t) : UsesUp s t :=
  h.keeps (fun _ _ hx hm => hx.trans (.move (hx.inputBounded hs) hm)) ⟨rfl, le_rfl⟩

theorem beginHeader_usesUp {a : Unit} (hs : InputBounded s) (h : beginHeader s = .ok a t) : UsesUp s t := by
  have hmoves := beginHeader_movesFrom (kept := false) (s := s) .refl
  rw [h] at hmoves
  exact .moves hs hmoves

/-- The fetch of a block header uses up its bits. -/
theorem fetchBlockHdr_streamLeft {key : Nat} (hs : InputBounded s) (h : fetchBlockHdr s = .ok key t) :
    streamLeft t < streamLeft s := by
  obtain ⟨bfinal, btype, u, v, h1, h2, -, rfl⟩ := fetchBlockHdr_eq_ok h
  obtain ⟨r1, hr1, rfl⟩ := readBits_eq_ok.1 h1
  obtain ⟨r2, hr2, rfl⟩ := readBits_eq_ok.1 h2
  have hfirst : bitsLeft (inputBytes s) r1 + 1 = streamLeft s := readerRead_bitsLeft hs.lt (by decide) hr1
  have hsecond : bitsLeft (inputBytes s) r2 + 2 = bitsLeft (inputBytes s) r1 := readerRead_bitsLeft hs.lt (by decide) hr2
  show bitsLeft (inputBytes s) r2 < _
  omega

theorem decodeSym_streamLeft {tbl : TableId} {sym : Nat} (hs : InputBounded s) (h : decodeSym tbl s = .ok sym t) :
    streamLeft t < streamLeft s := by
  obtain ⟨d, r, hr, rfl⟩ := decodeSym_eq_ok.1 h
  exact traverse_resolved_bitsLeft hs.lt hr

theorem fetchedKey_eq_run {f : Format} {x : Res Nat} {i : Instr} (h : fetchedKey f x = .run i t) : ∃ key, x = .ok key t := by
  obtain ⟨u, -, he⟩ | ⟨key, u, j, hx, -, he⟩ | ⟨key, u, e, -, -, he⟩ := fetchedKey_cases f x <;> rw [he] at h <;> cases h
  exact ⟨key, hx⟩

/-- Every symbol uses up a stream bit (spec/40_control.md R136). -/
theorem fetchSymbol_streamLeft {i : Instr} (hs : InputBounded s) (h : fetchSymbol s = .run i t) :
    streamLeft t < streamLeft s := by
  unfold fetchSymbol at h
  split at h
  · cases h
  · obtain ⟨key, hx⟩ := fetchedKey_eq_run h
    exact fetchBlockHdr_streamLeft hs hx
  all_goals
    obtain ⟨key, hx⟩ := fetchedKey_eq_run h
    exact decodeSym_streamLeft hs hx

/-! ### The run of symbols -/

theorem SymbolRun.eq_of_idle (h : SymbolRun s t) (hs : s.work.phase = .idle) : t = s := by
  cases h with
  | stop => rfl
  | step busy _ _ => exact absurd hs busy

/-- An operation after which the command goes on has used up its symbol's bits. -/
theorem symbol_usesUp {i : Instr} {x : State} (hs : InputBounded s) (hp : s.work.phase ≠ .idle) (hf : fetchSymbol s = .run i x)
    (hx : execStreamOp i x = .next t) (ht : t.work.phase ≠ .idle) : UsesUp s t ∧ streamLeft t < streamLeft s := by
  have hfetch : UsesUp s x := .moves hs ((fetchSymbol_movesFrom (kept := false) .refl hp).2 i x hf)
  obtain ⟨u, hu, rfl | he⟩ := execStreamOp_movesFrom (kept := false) .refl (fetchSymbol_run_not_command hf) t hx
  · have hop := UsesUp.moves (hfetch.inputBounded hs) hu
    exact ⟨hfetch.trans hop, hop.left.trans_lt (fetchSymbol_streamLeft hs hf)⟩
  · exact absurd he.idle ht

/-- The sequencer reaches the idle state that the run of symbols leads to. -/
theorem runSequencer_of_symbolRun (h : SymbolRun s t) (ht : t.work.phase = .idle) (hp : s.work.phase ≠ .idle)
    (hs : InputBounded s) {fuel : Nat} (hfuel : streamLeft s < fuel) : runSequencer fuel s = .next t := by
  induction h generalizing fuel with
  | stop => exact absurd ht hp
  | @step s x t busy first rest ih =>
    obtain ⟨fuel, rfl⟩ := Nat.exists_eq_succ_of_ne_zero (Nat.ne_zero_of_lt hfuel)
    rw [runSequencer_succ]
    cases first with
    | op fetched ran =>
      simp only [fetched, ran]
      split_ifs with hidle
      · rw [rest.eq_of_idle hidle]
      · obtain ⟨huses, hless⟩ := symbol_usesUp hs busy fetched ran hidle
        exact ih ht hidle (huses.inputBounded hs) (by omega)
    | error _ raised =>
      obtain ⟨v, -, hraises⟩ := (fetchSymbol_movesFrom (kept := false) .refl busy).1 x raised
      rw [raised, rest.eq_of_idle (Ends.raises hraises).idle]

theorem runCommand_of_symbolRun (h : SymbolRun s t) (ht : t.work.phase = .idle) (hp : s.work.phase ≠ .idle)
    (hs : InputBounded s) : runCommand s = .next t :=
  runSequencer_of_symbolRun h ht hp hs (Nat.lt_succ_self _)

end

/-- Settles O46: DECODE_HEADER begins at its code-length sequence, the block commands at a block header, and the sequencer reaches what
the run of symbols leads to. -/
theorem streamCommandsRunTheirSymbols : Obligations.StreamCommandsRunTheirSymbols := by
  intro s t herr hinput ht
  refine ⟨fun s1 hbegin hrun => ?_, fun hraised => ?_, fun hend hrun => ?_, fun hend hrun => ?_⟩
  · have hbusy : s1.work.phase ≠ .idle := by
      rw [beginHeader_phase hbegin]
      decide
    rw [exec_decodeHeader_of_noError herr, hbegin]
    exact runCommand_of_symbolRun hrun ht hbusy ((beginHeader_usesUp (by exact hinput) hbegin).inputBounded hinput)
  · rw [exec_decodeHeader_of_noError herr, hraised, Res.toOutcome_raised]
  · exact (exec_blocks_of_not_ended herr hend).1.trans (runCommand_of_symbolRun hrun ht nofun hinput)
  · exact (exec_blocks_of_not_ended herr hend).2.trans (runCommand_of_symbolRun hrun ht nofun hinput)

end Sys2Proof.Machine

/-! ## PROOF. The operations of the CL alphabet store their runs (spec/44_header_decoder.md R174 to R178) -/

namespace Sys2Proof.Machine

/-! ### The arrays after a run -/

/-- Put stores in LEN_LIT below nlit (R174). -/
theorem putLen_lit (nlit i : Nat) (v : BitVec 4) (l : Lens) (j : Nat) :
    (putLen nlit i v l).lit.toList[j]? = if j = i ∧ j < nlit ∧ j < 288 then some v else l.lit.toList[j]? := by
  unfold putLen
  split_ifs with hi h h
  · exact (toList_setIfInBounds_getElem? _ _ _ _).trans (if_pos ⟨h.1, h.2.2⟩)
  · exact (toList_setIfInBounds_getElem? _ _ _ _).trans (if_neg (by omega))
  · omega
  · rfl

/-- Put stores in LEN_DIST from nlit on. -/
theorem putLen_dist (nlit i : Nat) (v : BitVec 4) (l : Lens) (j : Nat) :
    (putLen nlit i v l).dist.toList[j]? = if nlit + j = i ∧ j < 32 then some v else l.dist.toList[j]? := by
  unfold putLen
  split_ifs with hi h h
  · omega
  · rfl
  · exact (toList_setIfInBounds_getElem? _ _ _ _).trans (if_pos (by omega))
  · exact (toList_setIfInBounds_getElem? _ _ _ _).trans (if_neg (by omega))

theorem putRun_lit (nlit r i : Nat) (v : BitVec 4) (l : Lens) (j : Nat) :
    (putRun nlit r i v l).lit.toList[j]? =
      if (i ≤ j ∧ j < i + r) ∧ j < nlit ∧ j < 288 then some v else l.lit.toList[j]? := by
  induction r generalizing i l with
  | zero => exact (if_neg (by omega)).symm
  | succ r ih =>
    rw [putRun, ih, putLen_lit, ← ite_or]
    exact if_congr (by omega) rfl rfl

theorem putRun_dist (nlit r i : Nat) (v : BitVec 4) (l : Lens) (j : Nat) :
    (putRun nlit r i v l).dist.toList[j]? =
      if (i ≤ nlit + j ∧ nlit + j < i + r) ∧ j < 32 then some v else l.dist.toList[j]? := by
  induction r generalizing i l with
  | zero => exact (if_neg (by omega)).symm
  | succ r ih =>
    rw [putRun, ih, putLen_dist, ← ite_or]
    exact if_congr (by omega) rfl rfl

/-- Of the sequence exactly the run's entries have changed. -/
theorem seqEntry_putRun {w : Work} (hw : SequenceBounds w) (r : Nat) (v : BitVec 4) (l : Lens) {j : Nat} (hj : j < headerTotal w) :
    seqEntry w.nlit (putRun w.nlit r w.seqIndex v l) j =
      if w.seqIndex ≤ j ∧ j < w.seqIndex + r then v else seqEntry w.nlit l j := by
  obtain ⟨-, -, hlit, -, hdist⟩ := hw
  unfold headerTotal at hj
  unfold seqEntry
  by_cases hlow : j < w.nlit
  · have hbound : j < 288 := by omega
    simp only [hlow, hbound, if_true, and_true, putRun_lit]
    split_ifs <;> rfl
  · have hbound : j - w.nlit < 32 := by omega
    simp only [hlow, hbound, if_false, and_true, putRun_dist, Nat.add_sub_cancel' (Nat.le_of_not_lt hlow)]
    split_ifs <;> rfl

theorem take_eq_map_getD {α : Type} (xs : List α) (a : α) {n : Nat} (hn : n ≤ xs.length) :
    xs.take n = (List.range n).map fun j => (xs[j]?).getD a := by
  refine List.ext_getElem (by simpa using hn) fun j hj _ => ?_
  have hj : j < xs.length := by simp at hj; omega
  simp [hj]

/-- Step 7 builds T_LIT and T_DIST of the sequence's two parts (R174, R179). -/
theorem snapshot_sequence {w : Work} (hw : SequenceBounds w) (l : Lens) :
    (snapshot l .lit w.nlit).lens = (List.range w.nlit).map (seqEntry w.nlit l) ∧
      (snapshot l .dist w.ndist).lens = (List.range w.ndist).map fun j => seqEntry w.nlit l (w.nlit + j) := by
  obtain ⟨-, -, hlit, -, hdist⟩ := hw
  refine ⟨?_, ?_⟩
  · refine (take_eq_map_getD _ 0 (by simpa [lenArray] using hlit)).trans (List.map_congr_left fun j hj => ?_)
    simp only [seqEntry, List.mem_range.1 hj, if_true, lenArray]
  · refine (take_eq_map_getD _ 0 (by simpa [lenArray] using hdist)).trans (List.map_congr_left fun j _ => ?_)
    simp [seqEntry, lenArray]

/-! ### A run within the total -/

section
variable {s : State}

/-- The run that reaches the total ends the header: step 7 builds the two tables, and DECODE_HEADER completes or the LIT symbols follow
(R174, R180). -/
theorem endHeader_eq (s : State) :
    (s.work.cmd = .header ∧ endHeader s = completeWith (headerTotal s.work)
      (buildTable .dist s.work.ndist (buildTable .lit s.work.nlit s))) ∨
    (s.work.cmd ≠ .header ∧ endHeader s = { buildTable .dist s.work.ndist (buildTable .lit s.work.nlit s) with
      work := { s.work with phase := .litSym } }) := by
  unfold endHeader
  cases s.work.cmd <;> simp

theorem storedRun_storeLens (hs : SequenceBounds s.work) (r : Reader) {n : Nat} (v : BitVec 4)
    (hn : s.work.seqIndex + n ≤ headerTotal s.work) : StoredRun s r n v (storeLens n v { s with reader := r }) := by
  have hentries := fun j hj => seqEntry_putRun hs n v s.lens (j := j) hj
  have hpast : (∀ j, s.work.nlit ≤ j →
        (putRun s.work.nlit n s.work.seqIndex v s.lens).lit.toList[j]? = s.lens.lit.toList[j]?) ∧
      ∀ j, s.work.ndist ≤ j → (putRun s.work.nlit n s.work.seqIndex v s.lens).dist.toList[j]? = s.lens.dist.toList[j]? := by
    unfold headerTotal at hn
    exact ⟨fun j hj => by rw [putRun_lit, if_neg (by omega)], fun j hj => by rw [putRun_dist, if_neg (by omega)]⟩
  have hcl := putRun_cl s.work.nlit n s.work.seqIndex v s.lens
  have hbuilt := snapshot_sequence hs (putRun s.work.nlit n s.work.seqIndex v s.lens)
  obtain ⟨hlt, he⟩ | ⟨hge, he⟩ := storeLens_cases n v { s with reader := r } <;> rw [he]
  · have hlt : s.work.seqIndex + n < headerTotal s.work := hlt
    exact {
      reader := rfl, entries := hentries, pastTotalKept := hpast, clKept := hcl
      kept := ⟨rfl, rfl, rfl, rfl, rfl, rfl, rfl, rfl, rfl, rfl, rfl, rfl⟩
      goesOn := fun _ => ⟨rfl, rfl, rfl, rfl⟩
      builds := fun h => absurd h hlt.ne
      endsHeader := fun h => absurd h hlt.ne
      entersData := fun h => absurd h hlt.ne }
  · have hge : headerTotal s.work ≤ s.work.seqIndex + n := hge
    obtain ⟨hcmd, he⟩ | ⟨hcmd, he⟩ := endHeader_eq (storedRun n v { s with reader := r }) <;> rw [he]
    · exact {
        reader := rfl, entries := hentries, pastTotalKept := hpast, clKept := hcl
        kept := ⟨rfl, rfl, rfl, rfl, rfl, rfl, rfl, rfl, rfl, rfl, rfl, rfl⟩
        goesOn := fun h => absurd h hge.not_gt
        builds := fun _ => hbuilt
        endsHeader := fun _ _ => ⟨rfl, rfl, rfl⟩
        entersData := fun _ h => absurd hcmd h }
    · exact {
        reader := rfl, entries := hentries, pastTotalKept := hpast, clKept := hcl
        kept := ⟨rfl, rfl, rfl, rfl, rfl, rfl, rfl, rfl, rfl, rfl, rfl, rfl⟩
        goesOn := fun h => absurd h hge.not_gt
        builds := fun _ => hbuilt
        endsHeader := fun _ h => absurd h hcmd
        entersData := fun _ _ => ⟨rfl, rfl, rfl⟩ }

/-- A run meta-symbol whose extra bits stand next: the run is stored, or it would pass the total and raises (R174, D12). -/
theorem lengthRun_of_eq (hinput : InputBounded s) (h : BufferInv s.reader) (m : BitVec 16) (base : Nat) {extra e : Nat}
    (hextra : extra ≤ 32) (he : e < 2 ^ extra) (v : BitVec 4) {rest : List Bool} (hbits : streamBits s = fieldBits extra e ++ rest) :
    ∃ r, BufferInv r ∧ readerBits (inputBytes s) r = rest ∧
      (s.work.seqIndex + (base + e) ≤ headerTotal s.work →
        lengthRun m base extra v s = .next (storeLens (base + e) v { s with reader := r })) ∧
      (headerTotal s.work < s.work.seqIndex + (base + e) →
        lengthRun m base extra v s = .next (withError 4 4 m { s with reader := r })) := by
  obtain ⟨r, hr, hconsumed, hrest⟩ := readField_of_eq hinput h hextra he hbits
  refine ⟨r, hconsumed.buffer, hrest, fun hfits => ?_, fun hpasses => ?_⟩ <;> rw [lengthRun, hr, Res.toOutcome_ok]
  · exact if_neg hfits.not_gt
  · exact if_pos hpasses

/-- A meta-symbol's run, stored or raised, as the claims state it. -/
theorem lengthRun_stores_or_raises (hs : SequenceBounds s.work) (hinput : InputBounded s) (h : BufferInv s.reader) (m : BitVec 16)
    (base : Nat) {extra e : Nat} (hextra : extra ≤ 32) (he : e < 2 ^ extra) (v : BitVec 4) {rest : List Bool}
    (hbits : streamBits s = fieldBits extra e ++ rest) :
    ∃ r, readerBits (inputBytes s) r = rest ∧
      (s.work.seqIndex + (base + e) ≤ headerTotal s.work →
        ∃ t, lengthRun m base extra v s = .next t ∧ StoredRun s r (base + e) v t) ∧
      (headerTotal s.work < s.work.seqIndex + (base + e) →
        lengthRun m base extra v s = .next (withError 4 4 m { s with reader := r })) := by
  obtain ⟨r, -, hrest, hstores, hraises⟩ := lengthRun_of_eq hinput h m base hextra he v hbits
  exact ⟨r, hrest, fun hfits => ⟨_, hstores hfits, storedRun_storeLens hs r v hfits⟩, hraises⟩

/-- Past position 0 CL_REPEAT_PREV is a run of the previous length (R176). -/
theorem execClRepeatPrev_of_pos (h : 0 < s.work.seqIndex) :
    execClRepeatPrev s = lengthRun 16 3 2 (seqEntry s.work.nlit s.lens (s.work.seqIndex - 1)) s := if_neg h.ne'

end

/-- Settles O33: one length always fits below the total. -/
theorem literalLengthIsStored : Obligations.LiteralLengthIsStored :=
  fun s v hs => ⟨_, rfl, storedRun_storeLens hs s.reader v hs.1⟩

/-- Settles O34: position 0 raises before any read; past it the run is of the entry before the position. -/
theorem repeatPreviousLength : Obligations.RepeatPreviousLength := by
  refine ⟨fun s hfirst => if_pos hfirst, fun s e rest hs h hinput hpos hbits => ?_⟩
  rw [show exec .clRepeatPrev s = _ from execClRepeatPrev_of_pos hpos]
  exact lengthRun_stores_or_raises hs hinput h 16 3 (by decide) e.isLt _ hbits

/-- Settles O35: both are runs of the length 0, from any position. -/
theorem zeroRunsAreStored : Obligations.ZeroRunsAreStored := fun _ _ hs h hinput =>
  ⟨fun e hbits => lengthRun_stores_or_raises hs hinput h 17 3 (by decide) e.isLt 0 hbits,
    fun e hbits => lengthRun_stores_or_raises hs hinput h 18 11 (by decide) e.isLt 0 hbits⟩

end Sys2Proof.Machine

/-! ## PROOF. The dynamic header's fields and CL lengths (spec/44_header_decoder.md R171 to R174; spec/45_block_decoder.md R186) -/

namespace Sys2Proof.Machine

/-! ### The CL lengths in the order of transmission -/

section
variable {s : State}

/-- The CL lengths whose bits are all there are stored, and their bits consumed (R172). -/
theorem readClLens_of_le {syms : List Nat} (hinput : InputBounded s) (h : BufferInv s.reader)
    (hle : 3 * syms.length ≤ (streamBits s).length) :
    ∃ r, readClLens syms s = .ok () { s with
        reader := r, lens := { s.lens with cl := clLensOfBits syms (streamBits s) s.lens.cl } } ∧
      Consumed (inputBytes s) (3 * syms.length) s.reader r := by
  induction syms generalizing s with
  | nil => exact ⟨s.reader, rfl, .refl h⟩
  | cons sym rest ih =>
    rw [List.length_cons] at hle
    obtain ⟨p, hp, hconsumed⟩ := readField_of_le hinput h (n := 3) (by decide) (by omega)
    have hsetLen : setLen .cl sym (BitVec.ofNat 4 (fieldValue ((streamBits s).take 3))) s.lens = { s.lens with
        cl := s.lens.cl.setIfInBounds sym (BitVec.ofNat 3 (fieldValue ((streamBits s).take 3))) } := by
      rw [setLen, BitVec.setWidth_ofNat_of_le (by decide)]
    rw [readClLens, hp, Res.andThen_ok, hsetLen, clLensOfBits, if_pos (by omega)]
    generalize s.lens.cl.setIfInBounds sym (BitVec.ofNat 3 (fieldValue ((streamBits s).take 3))) = cl
    have hbits : streamBits { s with reader := p, lens := { s.lens with cl := cl } } = (streamBits s).drop 3 := hconsumed.bits
    obtain ⟨r, hr, hrest⟩ := ih (s := { s with reader := p, lens := { s.lens with cl := cl } }) hinput hconsumed.buffer
      (by rw [hbits, List.length_drop]; omega)
    rw [hbits] at hr
    refine ⟨r, hr, ?_⟩
    rw [List.length_cons, Nat.mul_succ, Nat.add_comm]
    exact hconsumed.trans hrest

end

@[simp] theorem fieldBits_length (n v : Nat) : (fieldBits n v).length = n := by simp [fieldBits]

theorem clLenBits_length (clLens : List (BitVec 3)) : (clLens.flatMap fun l => fieldBits 3 l.toNat).length = 3 * clLens.length := by
  simp [Nat.mul_comm]

/-- The `i`-th transmitted length's bits. -/
theorem clLenBits_take {clLens : List (BitVec 3)} {i : Nat} {l : BitVec 3} (hl : clLens[i]? = some l) (rest : List Bool) :
    (((clLens.flatMap fun l => fieldBits 3 l.toNat) ++ rest).drop (3 * i)).take 3 = fieldBits 3 l.toNat := by
  obtain ⟨hi, rfl⟩ := List.getElem?_eq_some_iff.1 hl
  have hsplit : clLens.flatMap (fun l => fieldBits 3 l.toNat) = (clLens.take i).flatMap (fun l => fieldBits 3 l.toNat) ++
      (fieldBits 3 clLens[i].toNat ++ (clLens.drop (i + 1)).flatMap fun l => fieldBits 3 l.toNat) := by
    conv_lhs => rw [← List.take_append_drop i clLens, List.drop_eq_getElem_cons hi, List.flatMap_append, List.flatMap_cons]
  rw [hsplit, List.append_assoc, List.drop_left' (by rw [clLenBits_length, List.length_take_of_le hi.le]), List.append_assoc,
    List.take_left' (fieldBits_length _ _)]

/-- A CL length that was transmitted stands at its symbol; the others are 0 (R172). -/
theorem clLensOfBits_eq {clLens : List (BitVec 3)} (rest : List Bool) {sym : Nat} (hsym : sym < 19) :
    (clLensOfBits (clPermutation.take clLens.length) ((clLens.flatMap fun l => fieldBits 3 l.toNat) ++ rest)
      (Vector.replicate 19 0)).toList[sym]? = some ((clLens[clPermutation.idxOf sym]?).getD 0) := by
  have hmem : sym ∈ clPermutation := by
    revert sym
    decide
  have htake := List.mem_take_iff_idxOf_lt (n := clLens.length) hmem
  cases hl : clLens[clPermutation.idxOf sym]? with
  | none =>
    rw [clLensOfBits_of_notMem (mt htake.1 (List.getElem?_eq_none_iff.1 hl).not_gt), replicate_toList_getElem? hsym]
    rfl
  | some l =>
    obtain ⟨hlt, -⟩ := List.getElem?_eq_some_iff.1 hl
    have hentry : (clPermutation.take clLens.length)[clPermutation.idxOf sym]? = some sym := by
      rw [List.getElem?_take_of_lt hlt, List.getElem?_idxOf hmem]
    have hnodup : (clPermutation.take clLens.length).Nodup := clPermutation_nodup.sublist (List.take_sublist _ _)
    rw [clLensOfBits_getElem? hnodup (fun x hx => clPermutation_lt x (List.mem_of_mem_take hx)) hentry, clLenBits_take hl,
      if_pos (by rw [List.length_append, clLenBits_length]; omega), fieldValue_fieldBits, Nat.mod_eq_of_lt l.isLt,
      BitVec.ofNat_toNat, BitVec.setWidth_eq]
    rfl

/-- LEN_CL then is the CL table's (R173). -/
theorem lenArray_clLensOfBits {clLens : List (BitVec 3)} (rest : List Bool) {l : Lens}
    (hl : l.cl = clLensOfBits (clPermutation.take clLens.length) ((clLens.flatMap fun l => fieldBits 3 l.toNat) ++ rest)
      (Vector.replicate 19 0)) : lenArray l .cl = (clTableOf clLens).lens := by
  refine List.ext_getElem? fun sym => ?_
  simp only [lenArray, clTableOf, List.getElem?_map, hl]
  obtain hsym | hsym := Nat.lt_or_ge sym 19
  · rw [clLensOfBits_eq rest hsym, List.getElem?_range hsym]
    rfl
  · rw [List.getElem?_eq_none (by simpa using hsym), List.getElem?_eq_none (by simpa using hsym)]
    rfl

/-- The transmitted CL lengths that stand next are read into LEN_CL (R172). -/
theorem readClArray_of_eq {s : State} (hinput : InputBounded s) (h : BufferInv s.reader) {clLens : List (BitVec 3)} {hclen : Nat}
    (hlen : clLens.length = hclen + 4) (hle : clLens.length ≤ 19) {rest : List Bool}
    (hbits : streamBits s = (clLens.flatMap fun l => fieldBits 3 l.toNat) ++ rest) :
    ∃ r cl, readClArray hclen s = .ok () { s with reader := r, lens := { s.lens with cl := cl } } ∧ BufferInv r ∧
      readerBits (inputBytes s) r = rest ∧ lenArray { s.lens with cl := cl } .cl = (clTableOf clLens).lens := by
  have hsyms : (clPermutation.take clLens.length).length = clLens.length :=
    List.length_take_of_le (by rwa [clPermutation_length])
  have hcleared : streamBits { s with lens := { s.lens with cl := Vector.replicate 19 0 } } = _ := hbits
  obtain ⟨r, hr, hconsumed⟩ := readClLens_of_le (syms := clPermutation.take clLens.length)
    (s := { s with lens := { s.lens with cl := Vector.replicate 19 0 } }) hinput h
    (by rw [hcleared, hsyms, List.length_append, clLenBits_length]; exact Nat.le_add_right _ _)
  rw [hcleared] at hr
  rw [hsyms] at hconsumed
  refine ⟨r, _, by rw [readClArray, ← hlen, hr], hconsumed.buffer, hconsumed.bits.trans ?_, lenArray_clLensOfBits rest rfl⟩
  exact (congrArg (List.drop _) hbits).trans (List.drop_left' (clLenBits_length _))

/-! ### The header up to its code-length sequence -/

/-- HLIT, HDIST, HCLEN and the CL lengths that stand next are read and stored, T_CL is built, and the sequence begins (R171 to R174). -/
theorem beginHeader_of_eq {s : State} (hinput : InputBounded s) (h : BufferInv s.reader) {b : BlockText} {rest : List Bool}
    (hlen : b.clLens.length = b.hclen.toNat + 4)
    (hbits : streamBits s = fieldBits 5 b.hlit.toNat ++ fieldBits 5 b.hdist.toNat ++ fieldBits 4 b.hclen.toNat
      ++ b.clLens.flatMap (fun l => fieldBits 3 l.toNat) ++ rest) :
    ∃ (r : Reader) (l : Lens), beginHeader s = .ok () { s with
        reader := r, lens := l,
        hdr := { s.hdr with hlit := b.hlit, hdist := b.hdist, hclen := b.hclen },
        tables := { s.tables with cl := clTableOf b.clLens },
        work := { s.work with phase := .clSym, seqIndex := 0, nlit := b.hlit.toNat + 257, ndist := b.hdist.toNat + 1 } } ∧
      BufferInv r ∧ readerBits (inputBytes s) r = rest ∧ lenArray l .cl = (clTableOf b.clLens).lens ∧
      l.lit = Vector.replicate 288 0 ∧ l.dist = Vector.replicate 32 0 := by
  simp only [List.append_assoc] at hbits
  obtain ⟨r1, hr1, h1, hrest1⟩ := readField_of_eq hinput h (by decide) b.hlit.isLt hbits
  obtain ⟨r2, hr2, h2, hrest2⟩ := readField_of_eq (s := { s with reader := r1, hdr := { s.hdr with hlit := b.hlit } })
    hinput h1.buffer (by decide) b.hdist.isLt hrest1
  obtain ⟨r3, hr3, h3, hrest3⟩ := readField_of_eq (s := { s with
    reader := r2, hdr := { s.hdr with hlit := b.hlit, hdist := b.hdist } }) hinput h2.buffer (by decide) b.hclen.isLt hrest2
  have hclen := b.hclen.isLt
  obtain ⟨r, cl, hr, hbuffer, hrest, hcl⟩ := readClArray_of_eq (s := { s with
    reader := r3, hdr := { s.hdr with hlit := b.hlit, hdist := b.hdist, hclen := b.hclen } }) hinput h3.buffer hlen (by omega) hrest3
  have hwhole : (clTableOf b.clLens).lens.take 19 = (clTableOf b.clLens).lens := List.take_of_length_le (by simp [clTableOf])
  have hsnapshot : snapshot { s.lens with cl := cl } .cl 19 = clTableOf b.clLens :=
    congrArg DecodeTable.mk ((congrArg (List.take 19) hcl).trans hwhole)
  refine ⟨r, { cl := cl, lit := Vector.replicate 288 0, dist := Vector.replicate 32 0 }, ?_, hbuffer, hrest, hcl, rfl, rfl⟩
  simp only [beginHeader, hr1, hr2, hr3, hr, Res.andThen_ok, BitVec.ofNat_toNat, BitVec.setWidth_eq, buildTable, hsnapshot]
  rfl

/-- Settles O32: BTYPE2_DYNAMIC keeps the block's BFINAL and begins the header. -/
theorem dynamicHeaderFieldsAreRead : Obligations.DynamicHeaderFieldsAreRead := by
  intro s bfinal b rest h hinput hlen hbits
  obtain ⟨r, l, hbegin, -, hrest, hcl, hlit, hdist⟩ :=
    beginHeader_of_eq (s := { s with work := { s.work with bfinal := bfinal } }) hinput h hlen hbits
  refine ⟨r, l, ?_, hrest, hcl, hlit, hdist⟩
  show execBtype2Dynamic bfinal s = _
  rw [execBtype2Dynamic, hbegin, Res.toOutcome_ok]

end Sys2Proof.Machine

/-! ## PROOF. DECODE_HEADER reads a header: its code-length sequence, meta-symbol by meta-symbol (spec/44_header_decoder.md R174 to R180) -/

namespace Sys2Proof.Machine

/-! ### Meta-symbols and the runs they store -/

/-- The operation of a meta-symbol (spec/30_encoding.md R91). -/
def MetaItem.instr : MetaItem → Instr
  | .len v => .clLen v
  | .repeatPrev _ => .clRepeatPrev
  | .zeroShort _ => .clZeroShort
  | .zeroLong _ => .clZeroLong

/-- The run that a meta-symbol stores after those lengths: how many copies, and of what; none where a repeat has no previous length
(R175 to R178). -/
def MetaItem.run (stored : List (BitVec 4)) : MetaItem → Option (Nat × BitVec 4)
  | .len v => some (1, v)
  | .repeatPrev e => stored.getLast?.map fun v => (3 + e.toNat, v)
  | .zeroShort e => some (3 + e.toNat, 0)
  | .zeroLong e => some (11 + e.toNat, 0)

/-- A meta-symbol's key decodes to its operation. -/
theorem MetaItem.decode_key (m : MetaItem) : decode .clSym (BitVec.ofNat 32 m.parts.1) = .ok m.instr := by
  cases m with
  | len v =>
    rw [MetaItem.parts, BitVec.ofNat_toNat]
    exact decode_encode_clLen v
  | repeatPrev e => rfl
  | zeroShort e => rfl
  | zeroLong e => rfl

section
variable {stored all : List (BitVec 4)} {m : MetaItem} {metas : List MetaItem}

/-- The sequence grows by one meta-symbol's run after another. -/
theorem expandMetas_cons (stored : List (BitVec 4)) (m : MetaItem) (metas : List MetaItem) :
    expandMetas stored (m :: metas) = (m.run stored).bind fun p => expandMetas (stored ++ List.replicate p.1 p.2) metas := by
  cases m with
  | repeatPrev e =>
    rw [expandMetas, MetaItem.run]
    cases stored.getLast? <;> rfl
  | _ => rfl

theorem MetaItem.run_pos {p : Nat × BitVec 4} (h : m.run stored = some p) : 1 ≤ p.1 := by
  cases m with
  | repeatPrev e =>
    obtain ⟨v, -, rfl⟩ := Option.map_eq_some_iff.1 h
    omega
  | len _ | zeroShort _ | zeroLong _ =>
    cases h
    omega

/-- Every meta-symbol stores a length at least. -/
theorem expandMetas_length (h : expandMetas stored metas = some all) : stored.length + metas.length ≤ all.length := by
  induction metas generalizing stored with
  | nil =>
    cases h
    exact le_rfl
  | cons m metas ih =>
    rw [expandMetas_cons] at h
    obtain ⟨p, hp, hrest⟩ := Option.bind_eq_some_iff.1 h
    have hpos := MetaItem.run_pos hp
    have hlen := ih hrest
    rw [List.length_append, List.length_replicate] at hlen
    rw [List.length_cons]
    omega

end

/-! ### The arrays that hold a sequence -/

/-- LEN_LIT and LEN_DIST hold the lengths stored so far, LIT then DIST, and 0 elsewhere (R174, R179). -/
structure SequenceHeld (nlit : Nat) (stored : List (BitVec 4)) (l : Lens) : Prop where
  lit : ∀ j < 288, l.lit.toList[j]? = some (if j < nlit then (stored[j]?).getD 0 else 0)
  dist : ∀ j < 32, l.dist.toList[j]? = some ((stored[nlit + j]?).getD 0)

section
variable {nlit : Nat} {stored all : List (BitVec 4)} {l : Lens}

theorem SequenceHeld.empty (hlit : l.lit = Vector.replicate 288 0) (hdist : l.dist = Vector.replicate 32 0) :
    SequenceHeld nlit [] l where
  lit j hj := by
    rw [hlit, Vector.getElem?_toList, Vector.getElem?_replicate, if_pos hj, List.getElem?_nil, Option.getD_none, ite_self]
  dist j hj := by
    rw [hdist, Vector.getElem?_toList, Vector.getElem?_replicate, if_pos hj, List.getElem?_nil, Option.getD_none]

theorem getD_append_replicate (stored : List (BitVec 4)) (r : Nat) (v : BitVec 4) (j : Nat) :
    ((stored ++ List.replicate r v)[j]?).getD 0 =
      if stored.length ≤ j ∧ j < stored.length + r then v else (stored[j]?).getD 0 := by
  obtain hj | hj := Nat.lt_or_ge j stored.length
  · rw [List.getElem?_append_left hj, if_neg (by omega)]
  · have hrun : j - stored.length < r ↔ stored.length ≤ j ∧ j < stored.length + r := by omega
    rw [List.getElem?_append_right hj, List.getElem?_replicate, List.getElem?_eq_none hj]
    simp only [hrun]
    split_ifs <;> rfl

theorem SequenceHeld.putRun (h : SequenceHeld nlit stored l) (r : Nat) (v : BitVec 4) :
    SequenceHeld nlit (stored ++ List.replicate r v) (putRun nlit r stored.length v l) where
  lit j hj := by
    rw [putRun_lit, h.lit j hj, getD_append_replicate]
    by_cases hlow : j < nlit
    · simp only [hlow, hj, and_true, if_true]
      split_ifs <;> rfl
    · simp only [hlow, false_and, and_false, if_false]
  dist j hj := by
    rw [putRun_dist, h.dist j hj, getD_append_replicate]
    simp only [hj, and_true]
    split_ifs <;> rfl

/-- Get reads the stored lengths (R174). -/
theorem SequenceHeld.seqEntry (h : SequenceHeld nlit stored l) (hnlit : nlit ≤ 288) {j : Nat} (hj : j < nlit + 32) :
    seqEntry nlit l j = (stored[j]?).getD 0 := by
  unfold Machine.seqEntry
  split_ifs with hlow
  · rw [h.lit j (by omega), if_pos hlow, Option.getD_some]
  · rw [h.dist (j - nlit) (by omega), Nat.add_sub_cancel' (Nat.le_of_not_lt hlow), Option.getD_some]

theorem eq_append_replicate {xs ys : List (BitVec 4)} {n k : Nat} (hlen : xs.length = n) (hk : ys.length + k = n)
    (h : ∀ j < n, xs[j]? = some ((ys[j]?).getD 0)) : xs = ys ++ List.replicate k 0 := by
  have hlength : xs.length = (ys ++ List.replicate k 0).length := by simp [hlen, hk]
  refine List.ext_getElem? fun j => ?_
  obtain hj | hj := Nat.lt_or_ge j n
  · obtain ⟨x, hx⟩ : ∃ x, (ys ++ List.replicate k 0)[j]? = some x := ⟨_, List.getElem?_eq_getElem (by omega)⟩
    have hpadded := getD_append_replicate ys k 0 j
    rw [hx, Option.getD_some] at hpadded
    rw [h j hj, hx, hpadded]
    split_ifs with hlow
    · rw [List.getElem?_eq_none hlow.1, Option.getD_none]
    · rfl
  · rw [List.getElem?_eq_none (by omega), List.getElem?_eq_none (by omega)]

/-- The arrays that hold a header's whole sequence are the block's (R174, R179). -/
theorem SequenceHeld.lensHeld {b : BlockText} (h : SequenceHeld (b.hlit.toNat + 257) b.lengths l)
    (hlen : b.lengths.length = b.hlit.toNat + 257 + (b.hdist.toNat + 1)) (hcl : lenArray l .cl = (clTableOf b.clLens).lens) :
    b.LensHeld l where
  cl := hcl
  lit := by
    have hlit := b.hlit.isLt
    refine eq_append_replicate (n := 288) (by simp) (by simp [BlockText.litTable]; omega) fun j hj => ?_
    rw [h.lit j hj, BlockText.litTable, List.getElem?_take]
    split_ifs <;> rfl
  dist := by
    have hdist := b.hdist.isLt
    refine eq_append_replicate (n := 32) (by simp) (by simp [BlockText.distTable]; omega) fun j hj => ?_
    rw [h.dist j hj, BlockText.distTable, List.getElem?_drop]

/-- Step 7 builds the block's tables of them (R174). -/
theorem BlockText.LensHeld.snapshots {b : BlockText} (h : b.LensHeld l)
    (hlen : b.lengths.length = b.hlit.toNat + 257 + (b.hdist.toNat + 1)) :
    snapshot l .lit (b.hlit.toNat + 257) = b.litTable ∧ snapshot l .dist (b.hdist.toNat + 1) = b.distTable := by
  refine ⟨congrArg DecodeTable.mk ?_, congrArg DecodeTable.mk ?_⟩
  · rw [lenArray, h.lit, List.take_left' (by simp [BlockText.litTable]; omega)]
    rfl
  · rw [lenArray, h.dist, List.take_left' (by simp [BlockText.distTable]; omega)]
    rfl

end

/-! ### One meta-symbol -/

section
variable {s : State} {stored all : List (BitVec 4)} {m : MetaItem} {metas : List MetaItem} {rest : List Bool}

/-- The fetch resolves a usable meta-symbol's code and gives its operation (R163, R174). -/
theorem fetchSymbol_of_meta (hinput : InputBounded s) (h : BufferInv s.reader) (hp : s.work.phase = .clSym)
    (husable : usable s.tables.cl m.parts.1) (hbits : streamBits s = codeBits s.tables.cl m.parts.1 ++ rest) :
    ∃ d r, fetchSymbol s = .run m.instr (setDecoder d r s) ∧ BufferInv r ∧ readerBits (inputBytes s) r = rest := by
  obtain ⟨d, r, hr, hrest⟩ := decodeSym_of_usable (t := .cl) hinput h husable hbits
  obtain ⟨d', r', hresolved, he⟩ := decodeSym_eq_ok.1 hr
  obtain rfl : r = r' := congrArg State.reader he
  refine ⟨d, r, ?_, (readerMoves_of_resolved hinput.lt h hresolved).buffer, hrest⟩
  rw [fetchSymbol, hp]
  simp only [fetchedKey, hr, m.decode_key]

/-- A run that fits is stored. -/
theorem lengthRun_stores (hinput : InputBounded s) (h : BufferInv s.reader) (k : BitVec 16) (base : Nat) {extra e : Nat}
    (hextra : extra ≤ 32) (he : e < 2 ^ extra) (v : BitVec 4) (hfits : s.work.seqIndex + (base + e) ≤ headerTotal s.work)
    (hbits : streamBits s = fieldBits extra e ++ rest) :
    ∃ r, lengthRun k base extra v s = .next (storeLens (base + e) v { s with reader := r }) ∧ BufferInv r ∧
      readerBits (inputBytes s) r = rest := by
  obtain ⟨r, hr, hrest, hstores, -⟩ := lengthRun_of_eq hinput h k base hextra he v hbits
  exact ⟨r, hstores hfits, hr, hrest⟩

/-- A meta-symbol whose extra bits stand next stores its run where the run fits (R175 to R178). -/
theorem execStreamOp_of_meta (hinput : InputBounded s) (h : BufferInv s.reader) (hnlit : s.work.nlit ≤ 288)
    (hdist : s.work.ndist ≤ 32) (hheld : SequenceHeld s.work.nlit stored s.lens) (hindex : s.work.seqIndex = stored.length)
    {n : Nat} {v : BitVec 4} (hrun : m.run stored = some (n, v)) (hfits : stored.length + n ≤ headerTotal s.work)
    (hbits : streamBits s = fieldBits m.parts.2.1 m.parts.2.2 ++ rest) :
    ∃ r, execStreamOp m.instr s = .next (storeLens n v { s with reader := r }) ∧ BufferInv r ∧
      readerBits (inputBytes s) r = rest := by
  cases m with
  | len x =>
    cases hrun
    exact ⟨s.reader, rfl, h, hbits⟩
  | repeatPrev e =>
    obtain ⟨x, hlast, hx⟩ := Option.map_eq_some_iff.1 hrun
    obtain ⟨hn, rfl⟩ := Prod.ext_iff.1 hx
    have hpos : 0 < stored.length := List.length_pos_iff.2 fun hnil => by simp [hnil] at hlast
    have hprev : seqEntry s.work.nlit s.lens (s.work.seqIndex - 1) = x := by
      unfold headerTotal at hfits
      rw [hheld.seqEntry hnlit (by omega), hindex, ← List.getLast?_eq_getElem?, hlast, Option.getD_some]
    show ∃ r, execClRepeatPrev s = _ ∧ _
    rw [execClRepeatPrev_of_pos (by omega), hprev]
    subst hn
    exact lengthRun_stores hinput h 16 3 (by decide) e.isLt x (by rwa [hindex]) hbits
  | zeroShort e =>
    cases hrun
    exact lengthRun_stores hinput h 17 3 (by decide) e.isLt 0 (by rwa [hindex]) hbits
  | zeroLong e =>
    cases hrun
    exact lengthRun_stores hinput h 18 11 (by decide) e.isLt 0 (by rwa [hindex]) hbits

/-! ### The whole sequence -/

/-- The state within a code-length sequence with these lengths stored. -/
structure InSequence (s : State) (stored : List (BitVec 4)) : Prop where
  input : InputBounded s
  buffer : BufferInv s.reader
  phase : s.work.phase = .clSym
  nlit : s.work.nlit ≤ 288
  ndist : s.work.ndist ≤ 32
  index : s.work.seqIndex = stored.length
  held : SequenceHeld s.work.nlit stored s.lens

/-- One meta-symbol of the sequence: its code, its extra bits, and its run. -/
theorem InSequence.symbolStep (h : InSequence s stored) (husable : usable s.tables.cl m.parts.1)
    {n : Nat} {v : BitVec 4} (hrun : m.run stored = some (n, v)) (hfits : stored.length + n ≤ headerTotal s.work)
    (hbits : streamBits s = metaBits s.tables.cl m ++ rest) :
    ∃ d r, SymbolStep s (storeLens n v { setDecoder d r s with reader := r }) ∧ BufferInv r ∧
      readerBits (inputBytes s) r = rest := by
  rw [metaBits, List.append_assoc] at hbits
  obtain ⟨d, q, hfetch, hq, hqbits⟩ := fetchSymbol_of_meta h.input h.buffer h.phase husable hbits
  obtain ⟨r, hexec, hr, hrest⟩ := execStreamOp_of_meta (s := setDecoder d q s) h.input hq h.nlit h.ndist h.held h.index hrun hfits
    hqbits
  exact ⟨d, r, .op hfetch hexec, hr, hrest⟩

/-- The meta-symbols of a header, one after another, lead to its end with the whole sequence stored (R174, R179). -/
theorem InSequence.symbolRun (h : InSequence s stored) (husable : ∀ m ∈ metas, usable s.tables.cl m.parts.1)
    (hexpand : expandMetas stored metas = some all) (hall : all.length = headerTotal s.work)
    (hmore : stored.length < headerTotal s.work) (hbits : streamBits s = metas.flatMap (metaBits s.tables.cl) ++ rest) :
    ∃ d r l, SymbolRun s (endHeader { s with
        reader := r, lens := l, work := { s.work with dec := d, seqIndex := headerTotal s.work } }) ∧
      BufferInv r ∧ readerBits (inputBytes s) r = rest ∧ SequenceHeld s.work.nlit all l ∧ l.cl = s.lens.cl := by
  induction metas generalizing s stored with
  | nil =>
    cases hexpand
    omega
  | cons m metas ih =>
    have hbusy : s.work.phase ≠ .idle := by
      rw [h.phase]
      decide
    obtain ⟨hm, hmetas⟩ := List.forall_mem_cons.1 husable
    rw [expandMetas_cons] at hexpand
    obtain ⟨⟨n, v⟩, hrun, hexpand⟩ := Option.bind_eq_some_iff.1 hexpand
    have hlen := expandMetas_length hexpand
    rw [List.length_append, List.length_replicate] at hlen
    rw [List.flatMap_cons, List.append_assoc] at hbits
    obtain ⟨d, r, hstep, hbuffer, hrest⟩ := h.symbolStep hm hrun (by omega) hbits
    have hheld := h.held.putRun n v
    have hcl := putRun_cl s.work.nlit n stored.length v s.lens
    rw [← h.index] at hheld hcl
    obtain ⟨hlt, he⟩ | ⟨hge, he⟩ := storeLens_cases n v { setDecoder d r s with reader := r } <;> rw [he] at hstep
    · have hindex : (storedRun n v { setDecoder d r s with reader := r }).work.seqIndex =
          (stored ++ List.replicate n v).length := by
        rw [List.length_append, List.length_replicate, ← h.index]
        rfl
      obtain ⟨d, r, l, hrun, hbuffer, hrest, hheld, hcl'⟩ := ih (s := storedRun n v { setDecoder d r s with reader := r })
        { h with buffer := hbuffer, index := hindex, held := hheld } hmetas hexpand hall (hindex ▸ hlt) hrest
      exact ⟨d, r, l, .step hbusy hstep hrun, hbuffer, hrest, hheld, hcl'.trans hcl⟩
    · have hge : headerTotal s.work ≤ s.work.seqIndex + n := hge
      rw [h.index] at hge
      obtain rfl : metas = [] := List.length_eq_zero_iff.1 (by omega)
      cases hexpand
      have hend : s.work.seqIndex + n = headerTotal s.work := by
        rw [h.index]
        omega
      refine ⟨d, r, _, .step hbusy hstep ?_, hbuffer, hrest, hheld, hcl⟩
      rw [← hend]
      exact .stop _

end

/-! ### The whole header -/

theorem expandMetas_of_isSome {b : BlockText} (h : (expandMetas [] b.metas).isSome = true) :
    expandMetas [] b.metas = some b.lengths :=
  (Option.eq_some_of_isSome h).trans (congrArg some (Option.get_eq_getD _))

/-- On the bits of a header the fields and CL lengths are read, and the run of the meta-symbols leads to the header's end with the arrays
holding its lengths (R170 to R179). -/
theorem symbolRun_of_header {s : State} (hinput : InputBounded s) (h : BufferInv s.reader) {b : BlockText} (hvalid : b.headerValid)
    {rest : List Bool} (hbits : streamBits s = b.headerBits ++ rest) :
    ∃ u d r l, beginHeader s = .ok () u ∧ SymbolRun u (endHeader { s with
        reader := r, lens := l,
        hdr := { s.hdr with hlit := b.hlit, hdist := b.hdist, hclen := b.hclen },
        tables := { s.tables with cl := clTableOf b.clLens },
        work := { s.work with
          phase := .clSym, dec := d, seqIndex := b.hlit.toNat + 257 + (b.hdist.toNat + 1), nlit := b.hlit.toNat + 257,
          ndist := b.hdist.toNat + 1 } }) ∧
      BufferInv r ∧ readerBits (inputBytes s) r = rest ∧ b.LensHeld l := by
  obtain ⟨hclLens, husable, hexpands, hlen⟩ := hvalid
  rw [BlockText.headerBits, List.append_assoc] at hbits
  obtain ⟨q, cleared, hbegin, hq, hqbits, hcl, hlit, hdist⟩ := beginHeader_of_eq hinput h hclLens hbits
  have hlitLt := b.hlit.isLt
  have hdistLt := b.hdist.isLt
  have hstart : InSequence { s with
      reader := q, lens := cleared,
      hdr := { s.hdr with hlit := b.hlit, hdist := b.hdist, hclen := b.hclen },
      tables := { s.tables with cl := clTableOf b.clLens },
      work := { s.work with
        phase := .clSym, seqIndex := 0, nlit := b.hlit.toNat + 257, ndist := b.hdist.toNat + 1 } } [] :=
    { input := hinput, buffer := hq, phase := rfl, index := rfl, held := .empty hlit hdist
      nlit := by dsimp only; omega
      ndist := by dsimp only; omega }
  obtain ⟨d, r, l, hrun, hr, hrest, hheld, hkept⟩ :=
    hstart.symbolRun husable (expandMetas_of_isSome hexpands) hlen (Nat.succ_pos _) hqbits
  exact ⟨_, d, r, l, hbegin, hrun, hr, hrest, hheld.lensHeld hlen (by rw [lenArray, hkept]; exact hcl)⟩

/-- Settles O36: the run of the header's symbols ends the command, as step 7 builds the block's tables. -/
theorem decodeHeaderReadsAHeader : Obligations.DecodeHeaderReadsAHeader := by
  intro s b rest herr h hinput hvalid hbits
  obtain ⟨u, d, r, l, hbegin, hrun, -, hrest, hlens⟩ :=
    symbolRun_of_header (s := { clearDone s with work := { Work.idle with cmd := .header } }) hinput h hvalid hbits
  have ⟨_, _, _, hlen⟩ := hvalid
  obtain ⟨hlitTable, hdistTable⟩ := hlens.snapshots hlen
  refine ⟨r, l, ?_, hrest, hlens⟩
  rw [(streamCommandsRunTheirSymbols s _ herr hinput rfl).1 u hbegin hrun, ← hlitTable, ← hdistTable]
  rfl

end Sys2Proof.Machine

/-! ## PROOF. The operations of a block: block types, end of block, lengths, distances and their copies (spec/45_block_decoder.md R187 to
R201) -/

namespace Sys2Proof.Machine

/-! ### Operations that read nothing -/

/-- Settles O38: each of these operations is the raising of its error. -/
theorem unsupportedAndReservedSymbolsRaise : Obligations.UnsupportedAndReservedSymbolsRaise := fun _ =>
  ⟨fun _ => ⟨rfl, rfl, rfl⟩, fun _ => rfl, fun _ => rfl⟩

/-- Settles O40: the test of EOB is whether DECODE_STREAM has met a block that is not the last. -/
theorem endOfBlock : Obligations.EndOfBlock := by
  refine fun s => ⟨fun hcmd hbfinal => ?_, fun hends => ?_⟩ <;> show execEob s = _ <;> unfold execEob
  · rw [if_pos ⟨hcmd, hbfinal⟩, hbfinal]
    rfl
  · have hlast : ¬(s.work.cmd = .stream ∧ s.work.bfinal = false) := fun ⟨hcmd, hbfinal⟩ =>
      hends.elim (absurd hcmd) fun htrue => Bool.false_ne_true (hbfinal.symm.trans htrue)
    rw [if_neg hlast]
    cases s.work.bfinal
    · rw [Bool.or_false]
      rfl
    · rw [Bool.or_true]
      rfl

section
variable {s : State} {rest : List Bool}

/-! ### Block types -/

/-- The block header's key selects its operation at the start of a block (R186). -/
theorem fetchSymbol_of_blockHdr {key : Nat} {u : State} {i : Instr} (hp : s.work.phase = .blockHdr)
    (h : fetchBlockHdr s = .ok key u) (hkey : decode .blockHdr (BitVec.ofNat 32 key) = .ok i) : fetchSymbol s = .run i u := by
  rw [fetchSymbol, hp]
  simp only [fetchedKey, h, hkey]

/-- The operation of a block type other than 2 raises UNSUPPORTED_BLOCK_TYPE with the type (R187). -/
theorem exists_unsupportedBlockType (bfinal : Bool) {btype : BitVec 2} (h : btype ≠ 2) :
    ∃ i, decode .blockHdr (BitVec.ofNat 32 (bfinal.toNat + 2 * btype.toNat)) = .ok i ∧
      ∀ s, execStreamOp i s = .next (withError 2 0 (btype.setWidth 16) s) := by
  obtain rfl | rfl | rfl : btype = 0 ∨ btype = 1 ∨ btype = 3 := by
    revert btype
    decide
  · exact ⟨.btype0Stored bfinal, by cases bfinal <;> rfl, fun _ => rfl⟩
  · exact ⟨.btype1Fixed bfinal, by cases bfinal <;> rfl, fun _ => rfl⟩
  · exact ⟨.btype3Reserved bfinal, by cases bfinal <;> rfl, fun _ => rfl⟩

/-! ### Length codes -/

/-- The extra bits that stand next are read; a width of 0 reads nothing (R148). -/
theorem readExtra_of_eq (hinput : InputBounded s) (h : BufferInv s.reader) {n v : Nat} (hn : n ≤ 32) (hv : v < 2 ^ n)
    (hbits : streamBits s = fieldBits n v ++ rest) :
    ∃ r, readExtra n s = .ok v { s with reader := r } ∧ BufferInv r ∧ readerBits (inputBytes s) r = rest ∧
      (n = 0 → r = s.reader) := by
  obtain rfl | hpos := eq_or_ne n 0
  · obtain rfl : v = 0 := Nat.lt_one_iff.1 hv
    exact ⟨s.reader, rfl, h, hbits, fun _ => rfl⟩
  · obtain ⟨r, hr, hconsumed, hrest⟩ := readField_of_eq hinput h hn hv hbits
    exact ⟨r, (readExtra_pos hpos s).trans hr, hconsumed.buffer, hrest, fun hzero => absurd hzero hpos⟩

/-- A length code whose extra bits stand next (R190). -/
theorem exec_lengthCode_of_eq (hinput : InputBounded s) (h : BufferInv s.reader) {c : Fin 29} {i : Instr}
    (hi : lengthCodes[c.val]? = some i) {e : Nat} (he : e < 2 ^ (lengthRow c).2)
    (hbits : streamBits s = fieldBits (lengthRow c).2 e ++ rest) :
    ∃ r, exec i s = .next { s with
        reader := r, work := { s.work with copyLen := (lengthRow c).1 + e, phase := .distSym } } ∧
      BufferInv r ∧ readerBits (inputBytes s) r = rest ∧ ((lengthRow c).2 = 0 → r = s.reader) := by
  obtain ⟨r, hr, hread⟩ := readExtra_of_eq hinput h ((lengthRow_le c).trans (by decide)) he hbits
  exact ⟨r, by rw [exec_lengthCode hi, lengthCode, hr, Res.toOutcome_ok], hread⟩

/-! ### Distance codes and the copy -/

/-- A distance code whose extra bits stand next raises where the distance is beyond HIST_COUNT, and else copies (R197, R198). -/
theorem exec_distanceCode_of_eq (hinput : InputBounded s) (h : BufferInv s.reader) {c : Fin 30} {i : Instr}
    (hi : distanceCodes[c.val]? = some i) {e : Nat} (he : e < 2 ^ (distanceRow c).2)
    (hbits : streamBits s = fieldBits (distanceRow c).2 e ++ rest) :
    ∃ r, BufferInv r ∧ readerBits (inputBytes s) r = rest ∧
      (s.output.histCount.toNat < (distanceRow c).1 + e →
        exec i s = .next (withError 6 0 (BitVec.ofNat 16 ((distanceRow c).1 + e)) { s with reader := r })) ∧
      ((distanceRow c).1 + e ≤ s.output.histCount.toNat →
        exec i s = copyMatch ((distanceRow c).1 + e) { s with reader := r }) := by
  obtain ⟨r, hr, hbuffer, hrest, -⟩ := readExtra_of_eq hinput h ((distanceRow_le c).trans (by decide)) he hbits
  refine ⟨r, hbuffer, hrest, fun hfar => ?_, fun hnear => ?_⟩ <;> rw [exec_distanceCode hi, distanceCode, hr, Res.toOutcome_ok]
  · rw [if_pos hfar]
    exact congrArg _ (raise_eq_withError .invalidDistance _ _ _)
  · exact if_neg hnear.not_gt

/-- The distances of a code lie between 1 and 32768 (R195). -/
theorem distanceRow_bounds {c : Fin 30} {e : Nat} (he : e < 2 ^ (distanceRow c).2) :
    1 ≤ (distanceRow c).1 + e ∧ (distanceRow c).1 + e ≤ 32768 := by
  have hrow : 1 ≤ (distanceRow c).1 ∧ (distanceRow c).1 + 2 ^ (distanceRow c).2 ≤ 32769 := by
    clear he
    revert c
    decide
  omega

/-- A copy within HIST_COUNT does to OUT what the append-only copy does (R203). -/
theorem copyMatch_of_le (h : HistoryInv s) {dist : Nat} (h1 : 1 ≤ dist) (hdist : dist ≤ s.output.histCount.toNat) :
    ∃ o, copyMatch dist s = .next { s with
        output := o,
        work := { s.work with
          emitted := s.work.emitted + s.work.copyLen, copyLen := 0, copyDist := dist, phase := .litSym } } ∧
      TracksOut s.params.windowSize o ∧ o.out = appendCopy dist s.work.copyLen s.output.out := by
  obtain ⟨hlegal, htracks⟩ := historyInv_iff.1 h
  obtain ⟨o, hcopy, ho, hout⟩ := htracks.copyBytes (windowBounds_of_legal hlegal) h1 hdist s.work.copyLen
  exact ⟨o, by rw [copyMatch, hcopy], ho, hout⟩

/-- The append-only copy repeats the last `dist` bytes, from the first of them on (R201). -/
theorem appendCopy_eq {dist : Nat} (h1 : 1 ≤ dist) (len : Nat) {out : List Byte} (hdist : dist ≤ out.length) :
    appendCopy dist len out =
      out ++ (List.range len).map fun k => (out[out.length - dist + k % dist]?).getD 0 := by
  induction len generalizing out with
  | zero => simp [appendCopy]
  | succ len ih =>
    have hnext : ∀ k, ((out ++ [(out[out.length - dist]?).getD 0])[out.length + 1 - dist + k % dist]?).getD 0 =
        (out[out.length - dist + (k + 1) % dist]?).getD 0 := by
      intro k
      have hlt : k % dist < dist := Nat.mod_lt k h1
      obtain hwraps | hinside : k % dist + 1 = dist ∨ k % dist + 1 < dist := by omega
      · have hfirst : (k + 1) % dist = 0 := by rw [← Nat.mod_add_mod, hwraps, Nat.mod_self]
        have hend : out.length + 1 - dist + k % dist = out.length := by omega
        simp [hfirst, hend]
      · have hsucc : (k + 1) % dist = k % dist + 1 := by rw [← Nat.mod_add_mod, Nat.mod_eq_of_lt hinside]
        have hindex : out.length + 1 - dist + k % dist = out.length - dist + (k % dist + 1) := by omega
        rw [hsucc, hindex, List.getElem?_append_left (by omega)]
    rw [appendCopy, ih (by simp; omega), List.append_assoc, List.range_succ_eq_map]
    simp only [List.length_append, List.length_singleton, hnext, List.map_cons, List.map_map, Function.comp_def,
      Nat.zero_mod, Nat.add_zero, List.singleton_append, Nat.succ_eq_add_one]

end

/-- Settles O37: the operation that the three bits select raises, and the command ends there. -/
theorem otherBlockTypesAreUnsupported : Obligations.OtherBlockTypesAreUnsupported := by
  intro i s bfinal btype rest hi herr hend hbtype h hinput hbits
  obtain ⟨c, hexec⟩ := exec_blocks hi herr hend
  obtain ⟨r, hr, -, hrest⟩ := fetchBlockHdr_of_eq (s := startBlocks c (clearDone s)) hinput h btype.isLt hbits
  obtain ⟨op, hkey, hraises⟩ := exists_unsupportedBlockType bfinal hbtype
  rw [BitVec.ofNat_toNat, BitVec.setWidth_eq] at hr
  exact ⟨r, hexec.trans (runCommand_of_symbolRun
    (.step nofun (.op (fetchSymbol_of_blockHdr rfl hr hkey) (hraises _)) (.stop _)) rfl nofun hinput), hrest⟩

/-- Settles O41: each length code is its row of R192's table. -/
theorem lengthCodesGiveTheirLengths : Obligations.LengthCodesGiveTheirLengths := by
  intro c i s e rest hi h hinput he hbits
  obtain ⟨r, hexec, -, hread⟩ := exec_lengthCode_of_eq hinput h hi he hbits
  exact ⟨r, hexec, hread⟩

/-- Settles O42: the copy does to OUT what the append-only copy does, which repeats the last bytes; the counters count OUT, and the window's
frame is that of every instruction. -/
theorem distanceCodesCopyTheirMatch : Obligations.DistanceCodesCopyTheirMatch := by
  intro c i s e rest hi hhistory h hinput he hbits hnear
  obtain ⟨r, -, hrest, -, hcopies⟩ := exec_distanceCode_of_eq hinput h hi he hbits
  have hdist := (distanceRow_bounds he).1
  obtain ⟨o, hcopy, htracks, hout⟩ := copyMatch_of_le (s := { s with reader := r }) hhistory hdist hnear
  have hexec := (hcopies hnear).trans hcopy
  obtain ⟨hlegal, hbefore⟩ := historyInv_iff.1 hhistory
  have hstart := hbefore.histCount
  have hend : o.histCount.toNat = min o.out.length s.params.windowSize := htracks.histCount
  have happend := appendCopy_eq hdist s.work.copyLen (out := s.output.out) (by omega)
  have hreset : i ≠ .resetCtx := by
    rintro rfl
    exact absurd (distanceCodes_format _ (List.mem_of_getElem? hi)) (by decide)
  obtain ⟨bytes, hbytes, hcount, hwindow⟩ := outputOnlyGrows i s _ hreset hlegal hexec
  have hout' : o.out = s.output.out ++ bytes := hbytes
  have hlength : bytes.length = s.work.copyLen := by
    have := congrArg List.length (hout'.symm.trans (hout.trans happend))
    simp at this
    omega
  rw [hlength] at hcount hwindow
  refine ⟨r, o, hexec, hrest, hout.trans happend, hcount, ?_, hwindow⟩
  rw [hend, hstart, hout', List.length_append, hlength]
  omega

/-- Settles O43: the distance check comes first, and W is at least 32768. -/
theorem distanceBeyondHistoryRaises : Obligations.DistanceBeyondHistoryRaises := by
  refine ⟨fun c i s e rest hi h hinput he hbits hfar => ?_, fun s dist hhistory hdist => ?_⟩
  · obtain ⟨r, -, hrest, hraises, -⟩ := exec_distanceCode_of_eq hinput h hi he hbits
    exact ⟨r, hraises hfar, hrest⟩
  · obtain ⟨hlegal, htracks⟩ := historyInv_iff.1 hhistory
    simpa only [not_lt] using not_congr (htracks.histCount_lt_iff (windowBounds_of_legal hlegal) hdist)

end Sys2Proof.Machine

/-! ## PROOF. DECODE_BLOCK and DECODE_STREAM read blocks: a block item by item, a member block by block (spec/45_block_decoder.md R186, R203,
R206 to R209) -/

namespace Sys2Proof.Machine

/-! ### Runs of symbols -/

theorem SymbolRun.trans {s t u : State} (h : SymbolRun s t) (h' : SymbolRun t u) : SymbolRun s u := by
  induction h with
  | stop => exact h'
  | step busy first _ ih => exact .step busy first (ih h')

/-- The state at a phase within a command, its reader and history in order. -/
structure AtPhase (p : Phase) (s : State) : Prop where
  input : InputBounded s
  buffer : BufferInv s.reader
  history : HistoryInv s
  phase : s.work.phase = p

section
variable {p : Phase} {s t : State}

theorem AtPhase.busy (h : AtPhase p s) (hp : p ≠ .idle) : s.work.phase ≠ .idle := h.phase ▸ hp

/-- One operation of a symbol, and what follows. -/
theorem AtPhase.run_op (h : AtPhase p s) (hp : p ≠ .idle) {i : Instr} {x u : State} (hfetch : fetchSymbol s = .run i x)
    (hexec : execStreamOp i x = .next t) (hrest : SymbolRun t u) : SymbolRun s u :=
  .step (h.busy hp) (.op hfetch hexec) hrest

/-! ### The symbols of a block's data -/

theorem decode_lengthCode {c : Fin 29} {i : Instr} (hi : lengthCodes[c.val]? = some i) :
    decode .litSym (BitVec.ofNat 32 (c.val + 257)) = .ok i := by
  have hlt := c.isLt
  have hkey : (BitVec.ofNat 32 (c.val + 257)).toNat = c.val + 257 := Nat.mod_eq_of_lt (by omega)
  rw [decode, hkey, decodeLitSym, if_neg (by omega), if_neg (by omega), Nat.add_sub_cancel, hi]

theorem decode_distanceCode {c : Fin 30} {i : Instr} (hi : distanceCodes[c.val]? = some i) :
    decode .distSym (BitVec.ofNat 32 c.val) = .ok i := by
  have hkey : (BitVec.ofNat 32 c.val).toNat = c.val := Nat.mod_eq_of_lt (c.isLt.trans (by decide))
  rw [decode, hkey, decodeDistSym, hi]

theorem decode_literal (b : Byte) : decode .litSym (BitVec.ofNat 32 b.toNat) = .ok (.lit b) := by
  rw [BitVec.ofNat_toNat]
  exact decode_encode_lit b

theorem fetchSymbol_of_litSym (h : s.work.phase = .litSym) : fetchSymbol s = fetchedKey .litSym (decodeSym .lit s) := by
  rw [fetchSymbol, h]

theorem fetchSymbol_of_distSym (h : s.work.phase = .distSym) : fetchSymbol s = fetchedKey .distSym (decodeSym .dist s) := by
  rw [fetchSymbol, h]

/-- The fetch resolves the usable symbol whose code stands next, and gives its operation (R163, R186). -/
theorem AtPhase.fetch (h : AtPhase p s) {f : Format} {tbl : TableId} (hfetch : fetchSymbol s = fetchedKey f (decodeSym tbl s))
    {sym : Nat} {i : Instr} {rest : List Bool} (husable : usable (getTable s.tables tbl) sym)
    (hkey : decode f (BitVec.ofNat 32 sym) = .ok i) (hbits : streamBits s = codeBits (getTable s.tables tbl) sym ++ rest) :
    ∃ d r, fetchSymbol s = .run i (setDecoder d r s) ∧ AtPhase p (setDecoder d r s) ∧ streamBits (setDecoder d r s) = rest := by
  obtain ⟨d, r, hr, hrest⟩ := decodeSym_of_usable h.input h.buffer husable hbits
  obtain ⟨d', r', hresolved, he⟩ := decodeSym_eq_ok.1 hr
  obtain rfl : r = r' := congrArg State.reader he
  refine ⟨d, r, ?_, ⟨h.input, (readerMoves_of_resolved h.input.lt h.buffer hresolved).buffer, h.history, h.phase⟩, hrest⟩
  rw [hfetch, hr]
  simp only [fetchedKey, hkey]

theorem lengthCodes_not_command : ∀ i ∈ lengthCodes, i.isCommand = false := by decide

theorem distanceCodes_not_command : ∀ i ∈ distanceCodes, i.isCommand = false := by decide

/-- A length code and its extra bits: the length is pending, and a distance symbol is next (R190, R194). -/
theorem AtPhase.run_lengthCode (h : AtPhase .litSym s) {c : Fin 29} {e : Nat} {rest : List Bool}
    (husable : usable s.tables.lit (c.val + 257)) (he : e < 2 ^ (lengthRow c).2)
    (hbits : streamBits s = codeBits s.tables.lit (c.val + 257) ++ (fieldBits (lengthRow c).2 e ++ rest)) :
    ∃ d r, SymbolRun s { s with
        reader := r, work := { s.work with dec := d, copyLen := (lengthRow c).1 + e, phase := .distSym } } ∧
      BufferInv r ∧ readerBits (inputBytes s) r = rest := by
  obtain ⟨i, hi⟩ : ∃ i, lengthCodes[c.val]? = some i := ⟨_, List.getElem?_eq_getElem c.isLt⟩
  obtain ⟨d, q, hfetch, hq, hqbits⟩ :=
    h.fetch (tbl := .lit) (fetchSymbol_of_litSym h.phase) husable (decode_lengthCode hi) hbits
  obtain ⟨r, hexec, hr, hrest, -⟩ := exec_lengthCode_of_eq hq.input hq.buffer hi he hqbits
  rw [exec_eq_execStreamOp (lengthCodes_not_command i (List.mem_of_getElem? hi))] at hexec
  exact ⟨d, r, h.run_op nofun hfetch hexec (.stop _), hr, hrest⟩

/-- A distance code and its extra bits, where the distance is within OUT: the pending length is copied, and LIT symbols are next (R197,
R200, R203). -/
theorem AtPhase.run_distanceCode (h : AtPhase .distSym s) {c : Fin 30} {e : Nat} {rest : List Bool}
    (husable : usable s.tables.dist c.val) (he : e < 2 ^ (distanceRow c).2)
    (hnear : (distanceRow c).1 + e ≤ s.output.out.length)
    (hbits : streamBits s = codeBits s.tables.dist c.val ++ (fieldBits (distanceRow c).2 e ++ rest)) :
    ∃ d r o, SymbolRun s { s with
        reader := r, output := o,
        work := { s.work with
          dec := d, emitted := s.work.emitted + s.work.copyLen, copyLen := 0, copyDist := (distanceRow c).1 + e,
          phase := .litSym } } ∧
      BufferInv r ∧ readerBits (inputBytes s) r = rest ∧ TracksOut s.params.windowSize o ∧
      o.out = appendCopy ((distanceRow c).1 + e) s.work.copyLen s.output.out := by
  obtain ⟨i, hi⟩ : ∃ i, distanceCodes[c.val]? = some i := ⟨_, List.getElem?_eq_getElem c.isLt⟩
  obtain ⟨d, q, hfetch, hq, hqbits⟩ :=
    h.fetch (tbl := .dist) (fetchSymbol_of_distSym h.phase) husable (decode_distanceCode hi) hbits
  obtain ⟨r, hr, hrest, -, hcopies⟩ := exec_distanceCode_of_eq hq.input hq.buffer hi he hqbits
  obtain ⟨hpos, hle⟩ := distanceRow_bounds he
  obtain ⟨hlegal, htracks⟩ := historyInv_iff.1 h.history
  have hwithin : (distanceRow c).1 + e ≤ s.output.histCount.toNat :=
    Nat.le_of_not_lt fun hlt => hnear.not_gt ((htracks.histCount_lt_iff (windowBounds_of_legal hlegal) hle).1 hlt)
  obtain ⟨o, hcopy, ho, hout⟩ := copyMatch_of_le (s := { setDecoder d q s with reader := r }) h.history hpos hwithin
  have hexec := (hcopies hwithin).trans hcopy
  rw [exec_eq_execStreamOp (distanceCodes_not_command i (List.mem_of_getElem? hi))] at hexec
  exact ⟨d, r, o, h.run_op nofun hfetch hexec (.stop _), hr, hrest, ho, hout⟩

/-! ### A block's data -/

/-- A run of symbols from `s` to `t` within a block's data, which makes OUT `out` and leaves the bits `rest`: only the reader, the output
and the working state have moved, and the command's count rises with OUT. -/
structure DataRun (s : State) (out : List Byte) (rest : List Bool) (t : State) : Prop where
  run : SymbolRun s t
  atLit : AtPhase .litSym t
  kept : t = { s with reader := t.reader, output := t.output, work := t.work }
  bits : streamBits t = rest
  output : t.output.out = out
  cmd : t.work.cmd = s.work.cmd
  bfinal : t.work.bfinal = s.work.bfinal
  emitted : t.work.emitted + s.output.out.length = s.work.emitted + t.output.out.length

theorem DataRun.tables {out : List Byte} {rest : List Bool} (h : DataRun s out rest t) : t.tables = s.tables :=
  (congrArg State.tables h.kept :)

theorem DataRun.trans {out out' : List Byte} {rest rest' : List Bool} {u : State} (h : DataRun s out rest t)
    (h' : DataRun t out' rest' u) : DataRun s out' rest' u where
  run := h.run.trans h'.run
  atLit := h'.atLit
  kept := h'.kept.trans (congrArg (fun x => { x with reader := u.reader, output := u.output, work := u.work }) h.kept)
  bits := h'.bits
  output := h'.output
  cmd := h'.cmd.trans h.cmd
  bfinal := h'.bfinal.trans h.bfinal
  emitted := by
    have := h.emitted
    have := h'.emitted
    omega

/-- A literal: its code, and one byte emitted (R188). -/
theorem AtPhase.dataRun_lit (h : AtPhase .litSym s) {b : Byte} {rest : List Bool} (husable : usable s.tables.lit b.toNat)
    (hbits : streamBits s = codeBits s.tables.lit b.toNat ++ rest) : ∃ t, DataRun s (s.output.out ++ [b]) rest t := by
  obtain ⟨d, r, hfetch, hq, hrest⟩ := h.fetch (tbl := .lit) (fetchSymbol_of_litSym h.phase) husable (decode_literal b) hbits
  obtain ⟨hlegal, htracks⟩ := historyInv_iff.1 h.history
  exact ⟨_, {
    run := h.run_op nofun hfetch rfl (.stop _)
    atLit := ⟨h.input, hq.buffer, historyInv_iff.2 ⟨hlegal, htracks.emitByte (windowBounds_of_legal hlegal) b⟩, h.phase⟩
    kept := rfl
    bits := hrest
    output := rfl
    cmd := rfl
    bfinal := rfl
    emitted := by
      show s.work.emitted + 1 + s.output.out.length = s.work.emitted + (s.output.out ++ [b]).length
      rw [List.length_append, List.length_singleton]
      omega }⟩

theorem appendCopy_length (dist len : Nat) (out : List Byte) : (appendCopy dist len out).length = out.length + len := by
  induction len generalizing out with
  | zero => rfl
  | succ len ih =>
    rw [appendCopy, ih, List.length_append, List.length_singleton]
    omega

/-- A back-reference: the length's code and extra bits, then the distance's, then the copy (R190, R197, R200; spec/30_encoding.md R94). -/
theorem AtPhase.dataRun_copy (h : AtPhase .litSym s) {l : Fin 29} {d : Fin 30} {le de : Nat} {rest : List Bool}
    (hvalid : itemValid s.tables.lit s.tables.dist (.copy l le d de))
    (hnear : (distanceRow d).1 + de ≤ s.output.out.length)
    (hbits : streamBits s = itemBits s.tables.lit s.tables.dist (.copy l le d de) ++ rest) :
    ∃ t, DataRun s (appendCopy ((distanceRow d).1 + de) ((lengthRow l).1 + le) s.output.out) rest t := by
  obtain ⟨hlitUsable, hle, hdistUsable, hde⟩ := hvalid
  simp only [itemBits, List.append_assoc] at hbits
  obtain ⟨d1, q, hlength, hq, hqbits⟩ := h.run_lengthCode hlitUsable hle hbits
  obtain ⟨d2, r, o, hdistance, hr, hrest, ho, hout⟩ := AtPhase.run_distanceCode (s := { s with
    reader := q, work := { s.work with dec := d1, copyLen := (lengthRow l).1 + le, phase := .distSym } })
    ⟨h.input, hq, h.history, rfl⟩ hdistUsable hde hnear hqbits
  exact ⟨_, {
    run := hlength.trans hdistance
    atLit := ⟨h.input, hr, historyInv_iff.2 ⟨(historyInv_iff.1 h.history).1, ho⟩, rfl⟩
    kept := rfl
    bits := hrest
    output := hout
    cmd := rfl
    bfinal := rfl
    emitted := by
      have hlen := (congrArg List.length hout).trans (appendCopy_length _ ((lengthRow l).1 + le) s.output.out)
      show s.work.emitted + ((lengthRow l).1 + le) + s.output.out.length = s.work.emitted + o.out.length
      rw [hlen]
      omega }⟩

/-- One item of a block's data, and what the rest of the items append after it. -/
theorem AtPhase.dataRun_item (h : AtPhase .litSym s) {x : DataItem} {items : List DataItem} {out : List Byte} {rest : List Bool}
    (hvalid : itemValid s.tables.lit s.tables.dist x) (hexpand : expandItems s.output.out (x :: items) = some out)
    (hbits : streamBits s = itemBits s.tables.lit s.tables.dist x ++ rest) :
    ∃ mid t, DataRun s mid rest t ∧ expandItems mid items = some out := by
  cases x with
  | lit b =>
    obtain ⟨t, ht⟩ := h.dataRun_lit hvalid hbits
    exact ⟨_, t, ht, hexpand⟩
  | copy l le d de =>
    rw [expandItems, Option.ite_none_right_eq_some] at hexpand
    obtain ⟨hnear, hexpand⟩ := hexpand
    obtain ⟨t, ht⟩ := h.dataRun_copy hvalid hnear hbits
    exact ⟨_, t, ht, hexpand⟩

/-- The items of a block's data, one after another (R186). -/
theorem AtPhase.dataRun (h : AtPhase .litSym s) {items : List DataItem} {out : List Byte} {rest : List Bool}
    (hvalid : ∀ x ∈ items, itemValid s.tables.lit s.tables.dist x) (hexpand : expandItems s.output.out items = some out)
    (hbits : streamBits s = items.flatMap (itemBits s.tables.lit s.tables.dist) ++ rest) : ∃ t, DataRun s out rest t := by
  induction items generalizing s with
  | nil =>
    cases hexpand
    exact ⟨s, .stop s, h, rfl, hbits, rfl, rfl, rfl, rfl⟩
  | cons x items ih =>
    obtain ⟨hx, hitems⟩ := List.forall_mem_cons.1 hvalid
    rw [List.flatMap_cons, List.append_assoc] at hbits
    obtain ⟨mid, t, ht, hexpand⟩ := h.dataRun_item hx hexpand hbits
    rw [← ht.tables] at hitems
    rw [← ht.output] at hexpand
    obtain ⟨u, hu⟩ := ih ht.atLit hitems hexpand (by rw [ht.bits, ht.tables])
    exact ⟨u, ht.trans hu⟩

/-! ### A block -/

/-- HDR after a dynamic block's header (R186, R171). -/
def BlockText.hdr (b : BlockText) : Hdr :=
  { bfinal := BitVec.ofBool b.bfinal, btype := 2, hlit := b.hlit, hdist := b.hdist, hclen := b.hclen }

/-- The tables of a dynamic block. -/
def BlockText.tables (b : BlockText) : Tables := { cl := clTableOf b.clLens, lit := b.litTable, dist := b.distTable }

/-- `t` is `s`, at a block's header, after that header: the block's tables stand, and its data comes next, with the bits `rest`. -/
structure HeaderRun (s : State) (b : BlockText) (rest : List Bool) (t : State) : Prop where
  run : SymbolRun s t
  atLit : AtPhase .litSym t
  kept : t = { s with reader := t.reader, lens := t.lens, hdr := b.hdr, tables := b.tables, work := t.work }
  bits : streamBits t = rest
  lens : b.LensHeld t.lens
  cmd : t.work.cmd = s.work.cmd
  bfinal : t.work.bfinal = b.bfinal
  emitted : t.work.emitted = s.work.emitted

/-- In a block the LIT symbols follow step 7 of the header (R174, R185). -/
theorem endHeader_of_block (h : s.work.cmd ≠ .header) :
    endHeader s = { buildTable .dist s.work.ndist (buildTable .lit s.work.nlit s) with
      work := { s.work with phase := .litSym } } :=
  (endHeader_eq s).elim (fun hheader => absurd hheader.1 h) (·.2)

/-- The 3-bit block header and the dynamic header after it (R186). -/
theorem AtPhase.headerRun (h : AtPhase .blockHdr s) (hcmd : s.work.cmd ≠ .header) {b : BlockText} (hvalid : b.headerValid)
    {rest : List Bool} (hbits : streamBits s = fieldBits 1 b.bfinal.toNat ++ fieldBits 2 2 ++ (b.headerBits ++ rest)) :
    ∃ t, HeaderRun s b rest t := by
  obtain ⟨q, hfetch, hq, hqbits⟩ := fetchBlockHdr_of_eq h.input h.buffer (by decide) hbits
  obtain ⟨u, d, r, l, hbegin, hrun, hr, hrest, hlens⟩ := symbolRun_of_header (s := { s with
    reader := q, hdr := { s.hdr with bfinal := BitVec.ofBool b.bfinal, btype := 2 }, work := { s.work with bfinal := b.bfinal } })
    h.input hq.buffer hvalid hqbits
  have hkey : decode .blockHdr (BitVec.ofNat 32 (b.bfinal.toNat + 2 * 2)) = .ok (.btype2Dynamic b.bfinal) := by
    cases b.bfinal <;> rfl
  have hexec : execStreamOp (.btype2Dynamic b.bfinal) { s with
      reader := q, hdr := { s.hdr with bfinal := BitVec.ofBool b.bfinal, btype := 2 } } = .next u := by
    show execBtype2Dynamic _ _ = _
    rw [execBtype2Dynamic, hbegin, Res.toOutcome_ok]
  have ⟨_, _, _, hlen⟩ := hvalid
  obtain ⟨hlitTable, hdistTable⟩ := hlens.snapshots hlen
  rw [endHeader_of_block (by exact hcmd)] at hrun
  exact ⟨_, {
    run := h.run_op nofun (fetchSymbol_of_blockHdr h.phase hfetch hkey) hexec hrun
    atLit := ⟨h.input, hr, h.history, rfl⟩
    kept := by
      rw [BlockText.tables, ← hlitTable, ← hdistTable]
      rfl
    bits := hrest
    lens := hlens
    cmd := rfl
    bfinal := rfl
    emitted := rfl }⟩

/-- `t` is `s`, at a block's header, after that block but for the operation of its end-of-block symbol, which leads on. -/
structure BlockRun (s : State) (b : BlockText) (rest : List Bool) (t : State) : Prop where
  run : ∀ u, exec .eob t = .next u → SymbolRun s u
  atLit : AtPhase .litSym t
  kept : t = { s with
    reader := t.reader, lens := t.lens, output := t.output, hdr := b.hdr, tables := b.tables, work := t.work }
  bits : streamBits t = rest
  output : t.output.out = b.outputAfter s.output.out
  lens : b.LensHeld t.lens
  cmd : t.work.cmd = s.work.cmd
  bfinal : t.work.bfinal = b.bfinal
  emitted : t.work.emitted + s.output.out.length = s.work.emitted + t.output.out.length

/-- A whole block: its header, its data, and the code of its end (R186). -/
theorem AtPhase.blockRun (h : AtPhase .blockHdr s) (hcmd : s.work.cmd ≠ .header) {b : BlockText} (hvalid : b.valid s.output.out)
    {rest : List Bool} (hbits : streamBits s = b.bits ++ rest) : ∃ t, BlockRun s b rest t := by
  obtain ⟨hheader, hitems, heob, hexpands⟩ := hvalid
  obtain ⟨t, ht⟩ := h.headerRun hcmd hheader
    (rest := b.items.flatMap (itemBits b.litTable b.distTable) ++ (codeBits b.litTable 256 ++ rest))
    (by simp only [hbits, BlockText.bits, List.append_assoc])
  have htables : t.tables = b.tables := (congrArg State.tables ht.kept :)
  have houtput : t.output = s.output := (congrArg State.output ht.kept :)
  obtain ⟨u, hu⟩ := ht.atLit.dataRun (items := b.items) (out := b.outputAfter s.output.out) (by rw [htables]; exact hitems)
    (by rw [houtput, Option.eq_some_of_isSome hexpands, BlockText.outputAfter, Option.get_eq_getD])
    (by rw [ht.bits, htables]; rfl)
  have hutables : u.tables = b.tables := hu.tables.trans htables
  have hlens : u.lens = t.lens := (congrArg State.lens hu.kept :)
  have hkept : u = { s with
      reader := u.reader, lens := u.lens, output := u.output, hdr := b.hdr, tables := b.tables, work := u.work } := by
    rw [hlens]
    exact hu.kept.trans (congrArg (fun x => { x with reader := u.reader, output := u.output, work := u.work }) ht.kept)
  obtain ⟨d, r, hfetch, hnext, hrest⟩ := hu.atLit.fetch (tbl := .lit) (i := .eob) (sym := 256)
    (fetchSymbol_of_litSym hu.atLit.phase) (by rw [hutables]; exact heob) rfl (by rw [hu.bits, hutables]; rfl)
  exact ⟨_, {
    run := fun v hv => (ht.run.trans hu.run).trans (hu.atLit.run_op nofun hfetch hv (.stop _))
    atLit := hnext
    kept := (congrArg (setDecoder d r) hkept :)
    bits := hrest
    output := hu.output
    lens := hlens ▸ ht.lens
    cmd := hu.cmd.trans ht.cmd
    bfinal := hu.bfinal.trans ht.bfinal
    emitted := by
      have := hu.emitted
      rw [houtput, ht.emitted] at this
      exact this }⟩

end

/-- Settles O44: the command's run of symbols is the block's, and EOB completes it. -/
theorem decodeBlockReadsABlock : Obligations.DecodeBlockReadsABlock := by
  intro s b rest herr hend h hinput hhistory hvalid hbits
  have hstart : AtPhase .blockHdr (startBlocks .block (clearDone s)) := ⟨hinput, h, hhistory, rfl⟩
  obtain ⟨t, ht⟩ := hstart.blockRun nofun hvalid hbits
  have heob := (endOfBlock t).2 (.inl (by rw [ht.cmd]; nofun))
  have hbytes : inputBytes t = inputBytes s := inputBytes_congr (congrArg State.input ht.kept :)
  refine ⟨t.reader, t.lens, t.output, ?_, hbytes ▸ ht.bits, ht.output, ht.lens⟩
  rw [(exec_blocks_of_not_ended herr hend).1, runCommand_of_symbolRun (ht.run _ heob) rfl nofun hinput]
  have hemitted : t.work.emitted = t.output.out.length - s.output.out.length := by
    have : t.work.emitted + s.output.out.length = 0 + t.output.out.length := ht.emitted
    omega
  have hstatus : t.status = { s.status with done := false } := (congrArg State.status ht.kept :)
  rw [hemitted, ht.bfinal, hstatus, hend, Bool.false_or]
  have hended := congrArg (fun x : State => withResult (BitVec.ofNat 32 (t.output.out.length - s.output.out.length))
    { x with blockCount := x.blockCount + 1, status := { s.status with streamEnd := b.bfinal } }) ht.kept
  exact congrArg Host.Outcome.next hended

/-! ### A member -/

theorem memberValid_cons {out : List Byte} {b : BlockText} {bs : List BlockText} :
    memberValid out (b :: bs) ↔
      b.valid out ∧ (bs = [] ∧ b.bfinal = true ∨ b.bfinal = false ∧ memberValid (b.outputAfter out) bs) := by
  cases bs with
  | nil => simp [memberValid]
  | cons c bs => simp [memberValid]

/-- `t` is where DECODE_STREAM ends that stands at `s` before the header of a member's first block. -/
structure MemberRun (s : State) (bs : List BlockText) (rest : List Bool) (t : State) : Prop where
  run : SymbolRun s t
  idle : t.work.phase = .idle
  succeeded : runSucceeded t
  output : t.output.out = memberOutput s.output.out bs
  blockCount : t.blockCount = s.blockCount + BitVec.ofNat 32 bs.length
  bits : streamBits t = rest
  result : ∃ n, t.result = BitVec.ofNat 32 n ∧ n + s.output.out.length = s.work.emitted + t.output.out.length

/-- A member's blocks, one after another, until the one with BFINAL = 1 (R208). -/
theorem AtPhase.memberRun {s : State} (h : AtPhase .blockHdr s) (hcmd : s.work.cmd = .stream) (herr : s.status.error = false)
    {bs : List BlockText} (hvalid : memberValid s.output.out bs) {rest : List Bool}
    (hbits : streamBits s = bs.flatMap BlockText.bits ++ rest) : ∃ t, MemberRun s bs rest t := by
  induction bs generalizing s with
  | nil => exact hvalid.elim
  | cons b bs ih =>
    obtain ⟨hblock, hmore⟩ := memberValid_cons.1 hvalid
    rw [List.flatMap_cons, List.append_assoc] at hbits
    obtain ⟨t, ht⟩ := h.blockRun (by rw [hcmd]; decide) hblock hbits
    have hstatus : t.status = s.status := (congrArg State.status ht.kept :)
    have hcount : t.blockCount = s.blockCount := (congrArg State.blockCount ht.kept :)
    obtain ⟨rfl, hfinal⟩ | ⟨hfinal, hmore⟩ := hmore
    · have heob := (endOfBlock t).2 (.inr (ht.bfinal.trans hfinal))
      exact ⟨_, {
        run := ht.run _ heob
        idle := rfl
        succeeded := ⟨rfl, hstatus ▸ herr, by rw [ht.bfinal, hfinal, Bool.or_true]⟩
        output := ht.output
        blockCount := by rw [hcount]; rfl
        bits := ht.bits
        result := ⟨_, rfl, ht.emitted⟩ }⟩
    · have heob := (endOfBlock t).1 (ht.cmd.trans hcmd) (ht.bfinal.trans hfinal)
      obtain ⟨u, hu⟩ := ih (s := { t with blockCount := t.blockCount + 1, work := { t.work with phase := .blockHdr } })
        ⟨ht.atLit.input, ht.atLit.buffer, ht.atLit.history, rfl⟩ (ht.cmd.trans hcmd) (hstatus ▸ herr)
        (ht.output ▸ hmore) ht.bits
      obtain ⟨n, hresult, hn⟩ := hu.result
      exact ⟨u, {
        run := (ht.run _ heob).trans hu.run
        idle := hu.idle
        succeeded := hu.succeeded
        output := by
          rw [hu.output, memberOutput, ← ht.output]
        blockCount := by
          rw [hu.blockCount, hcount, List.length_cons, BitVec.ofNat_add, BitVec.add_assoc, BitVec.add_comm 1]
          rfl
        bits := hu.bits
        result := ⟨n, hresult, by
          have hn : n + t.output.out.length = t.work.emitted + u.output.out.length := hn
          have := ht.emitted
          omega⟩ }⟩

/-- Settles O45: the command's run of symbols is the member's, from no byte emitted. -/
theorem decodeStreamReadsAMember : Obligations.DecodeStreamReadsAMember := by
  intro s bs rest herr hend h hinput hhistory hvalid hbits
  have hstart : AtPhase .blockHdr (startBlocks .stream (clearDone s)) := ⟨hinput, h, hhistory, rfl⟩
  obtain ⟨t, ht⟩ := hstart.memberRun rfl herr hvalid hbits
  obtain ⟨n, hresult, hn⟩ := ht.result
  have hcount : n = t.output.out.length - s.output.out.length := by
    have hn : n + s.output.out.length = 0 + t.output.out.length := hn
    omega
  have hexec : exec .decodeStream s = .next t :=
    (exec_blocks_of_not_ended herr hend).2.trans (runCommand_of_symbolRun ht.run ht.idle nofun hinput)
  exact ⟨t, hexec, ht.succeeded, ht.output, hcount ▸ hresult, ht.blockCount, ht.bits⟩

end Sys2Proof.Machine

/-! ## PROOF. The errors each command can raise (spec/60_exceptions.md R215) -/

namespace Sys2Proof.Machine

/-- The errors a command can raise, each with its sub-cause, in the order in which the obligation lists R215's table. -/
def commandErrors : Instr → List (ErrorKind × BitVec 8)
  | .readBits _ _ => [(.illegalCommand, 2), (.inputExhausted, 0)]
  | .buildTable _ _ => [(.illegalCommand, 2)]
  | .decodeSymbol _ =>
    [(.illegalCommand, 2), (.invalidCode, 0), (.invalidCode, 1), (.invalidCode, 2), (.inputExhausted, 0)]
  | .decodeHeader => symbolErrors .clSym
  | .decodeBlock | .decodeStream =>
    [(.illegalCommand, 3), (.unsupportedBlockType, 0), (.inputExhausted, 0), (.invalidCode, 0), (.invalidCode, 1),
      (.invalidCode, 2), (.invalidSymbol, 1), (.invalidSymbol, 2), (.invalidSymbol, 3), (.invalidSymbol, 4),
      (.invalidDistance, 0)]
  | .reservedOp _ => [(.illegalCommand, 1)]
  | _ => []

/-- An error's ERRCODE and SUBCAUSE as numbers. -/
def errorPair (p : ErrorKind × BitVec 8) : Nat × Nat := ((errorCode p.1).toNat, p.2.toNat)

/-- From `s` to `t` no error has been raised but one of the list. -/
abbrev ErrorsOnly (errors : List (ErrorKind × BitVec 8)) (s t : State) : Prop := SameError s t ∨ RaisedIn errors t

section
variable {errors errors' : List (ErrorKind × BitVec 8)} {s t : State}

theorem RaisedIn.mono (h : RaisedIn errors t) (hsub : errors ⊆ errors') : RaisedIn errors' t := by
  obtain ⟨e, he, hcode⟩ := h
  exact ⟨e, hsub he, hcode⟩

theorem RaisedIn.errorPair_mem (h : RaisedIn errors t) :
    (t.status.errcode.toNat, t.errinfo.subcause.toNat) ∈ errors.map errorPair := by
  obtain ⟨e, he, hcode⟩ := h
  rw [hcode]
  exact List.mem_map_of_mem (f := errorPair) he

theorem ErrorsOnly.trans {u : State} (h : ErrorsOnly errors s t) (ht : ErrorsOnly errors t u) : ErrorsOnly errors s u := by
  obtain ht | ht := ht
  · exact h.imp (·.trans ht) (·.of_sameError ht)
  · exact .inr ht

theorem OutcomeRaisesIn.mono {o : StepOutcome} (h : OutcomeRaisesIn errors s o) (hsub : errors ⊆ errors') :
    OutcomeRaisesIn errors' s o :=
  fun t ht => (h t ht).imp_right (·.mono hsub)

theorem outcomeRaisesIn_illegalCommand {sub : BitVec 8} (h : (ErrorKind.illegalCommand, sub) ∈ errors) (op : BitVec 16) :
    OutcomeRaisesIn errors s (.next (withIllegalCommand sub op s)) := by
  rw [← raise_clearDone_eq]
  exact .raise h op

/-! ### DECODE_HEADER raises the errors of the CL alphabet alone -/

theorem fetchSymbol_raisesIn_clSym (hp : s.work.phase = .clSym) : FetchRaisesIn (symbolErrors .clSym) s (fetchSymbol s) := by
  simp only [fetchSymbol, hp]
  exact fetchedKey_raisesIn (decodeSym_raisesIn (tbl := .cl) (by decide) (by decide))

theorem errorsOnly_of_ran_clSym {u : State} {i : Instr} (hp : s.work.phase = .clSym) (hf : fetchSymbol s = .run i t)
    (hx : execStreamOp i t = .next u) : ErrorsOnly (symbolErrors .clSym) s u := by
  have hfetch := fetchSymbol_raisesIn_clSym hp
  have hop := execStreamOp_raisesIn (s := t) (fetchSymbol_run_not_command hf)
  rw [hf] at hfetch
  rw [(fetchSymbol_run_clSym hp hf).1] at hop
  exact ErrorsOnly.trans (.inl hfetch) (hop u hx)

/-- Within DECODE_HEADER a symbol ends the command or leaves it in the code-length sequence (R174). -/
theorem phase_of_ran_clSym {u : State} {i : Instr} (hp : s.work.phase = .clSym) (hcmd : s.work.cmd = .header)
    (hf : fetchSymbol s = .run i t) (hx : execStreamOp i t = .next u) :
    u.work.phase = .idle ∨ u.work.phase = .clSym ∧ u.work.cmd = .header := by
  obtain ⟨hformat, d, r, rfl⟩ := fetchSymbol_run_clSym hp hf
  exact ((raisesOrStores_of_clSym hformat hx).phase hcmd).imp_right fun ⟨hq, hc⟩ => ⟨hq.trans hp, hc⟩

/-- DECODE_HEADER from its code-length sequence on. -/
theorem runSequencer_raisesIn_clSym {fuel : Nat} (hp : s.work.phase = .clSym) (hcmd : s.work.cmd = .header) :
    OutcomeRaisesIn (symbolErrors .clSym) s (runSequencer fuel s) := by
  intro t hrun
  refine runSequencer_induction
    (P := fun u => u.work.phase = .clSym ∧ u.work.cmd = .header ∧ ErrorsOnly (symbolErrors .clSym) s u)
    (Q := ErrorsOnly (symbolErrors .clSym) s) ?_ ?_ ?_ ⟨hp, hcmd, .inl (.refl s)⟩ hrun
  · rintro u v ⟨hp, -, -⟩ hf
    have hfetch := fetchSymbol_raisesIn_clSym hp
    rw [hf] at hfetch
    exact .inr hfetch
  · rintro u i x v ⟨hp, -, herrors⟩ hf hx -
    exact herrors.trans (errorsOnly_of_ran_clSym hp hf hx)
  · rintro u i x v ⟨hp, hcmd, herrors⟩ hf hx hbusy
    obtain ⟨hq, hc⟩ := (phase_of_ran_clSym hp hcmd hf hx).resolve_left hbusy
    exact ⟨hq, hc, herrors.trans (errorsOnly_of_ran_clSym hp hf hx)⟩

theorem exec_decodeHeader_raisesIn (herr : s.status.error = false) :
    OutcomeRaisesIn (symbolErrors .clSym) s (exec .decodeHeader s) := by
  intro t h
  rw [exec_decodeHeader_of_noError herr] at h
  have hinside := beginHeader_inHeader (s := s) (t := { clearDone s with work := { Work.idle with cmd := .header } }) ⟨rfl, rfl⟩
  have hbegin := beginHeader_raisesIn (errors := symbolErrors .clSym) (s := s)
    (t := { clearDone s with work := { Work.idle with cmd := .header } }) (by decide) (.refl s)
  obtain hraised | ⟨a, u, hok, hrun⟩ := Res.toOutcome_eq_next.1 h
  · rw [hraised] at hbegin
    exact .inr hbegin
  · rw [hok] at hinside hbegin
    exact ErrorsOnly.trans (.inl hbegin) (runSequencer_raisesIn_clSym (beginHeader_phase hok) hinside.cmd t hrun)

/-! ### Every command -/

theorem symbolErrors_subset_decodeBlock (f : Format) : symbolErrors f ⊆ commandErrors .decodeBlock := by
  cases f <;> decide

theorem runBlocks_raisesIn (c : Cmd) :
    OutcomeRaisesIn (commandErrors .decodeBlock) s (runCommand (startBlocks c (clearDone s))) :=
  fun _ h => (runBlocks_symbolErrorsOnly h).imp_right fun ⟨f, hf⟩ => hf.mono (symbolErrors_subset_decodeBlock f)

/-- A command but RESET_CTX raises no error but those listed for it. -/
theorem exec_command_raisesIn {i : Instr} (hi : i.isCommand = true) (hreset : i ≠ .resetCtx) (herr : s.status.error = false) :
    OutcomeRaisesIn (commandErrors i) s (exec i s) := by
  cases i
  case nop =>
    rw [exec_nop_of_noError herr]
    exact .next (.refl s)
  case resetCtx => exact absurd rfl hreset
  case readBits nbits keep =>
    cases hlegal : readBitsLegal nbits with
    | false =>
      rw [exec_readBits_of_illegal herr hlegal]
      exact outcomeRaisesIn_illegalCommand (by simp [commandErrors]) 2
    | true => exact (exec_readBits_raisesIn herr hlegal keep).mono (by simp [commandErrors])
  case buildTable tsel nsym =>
    cases hlegal : buildTableOperands tsel nsym with
    | none =>
      rw [exec_buildTable_of_none hlegal, acceptCommand_illegal herr]
      exact outcomeRaisesIn_illegalCommand (by simp [commandErrors]) _
    | some p => exact (exec_buildTable_raisesIn herr hlegal).mono (List.nil_subset _)
  case decodeSymbol tsel =>
    cases hlegal : tableOfTsel tsel with
    | none =>
      rw [exec_decodeSymbol_of_none hlegal, acceptCommand_illegal herr]
      exact outcomeRaisesIn_illegalCommand (by simp [commandErrors]) _
    | some tbl =>
      refine (exec_decodeSymbol_raisesIn herr hlegal).mono ?_
      cases tbl <;> simp [commandErrors, tableNumber]
  case decodeHeader => exact exec_decodeHeader_raisesIn herr
  case decodeBlock =>
    cases hend : s.status.streamEnd with
    | true =>
      rw [(exec_blocks_of_ended herr hend).1]
      exact outcomeRaisesIn_illegalCommand (by simp [commandErrors]) 6
    | false =>
      rw [(exec_blocks_of_not_ended herr hend).1]
      exact runBlocks_raisesIn .block
  case decodeStream =>
    cases hend : s.status.streamEnd with
    | true =>
      rw [(exec_blocks_of_ended herr hend).2]
      exact outcomeRaisesIn_illegalCommand (by simp [commandErrors]) 7
    | false =>
      rw [(exec_blocks_of_not_ended herr hend).2]
      exact runBlocks_raisesIn .stream
  case reservedOp op =>
    rw [exec_reservedOp_of_noError op herr]
    exact outcomeRaisesIn_illegalCommand (by simp [commandErrors]) _
  all_goals cases hi

end

/-- RESET_CTX leaves no error (R134). -/
theorem ne_resetCtx_of_error {i : Instr} {s t : State} (h : exec i s = .next t) (ht : t.status.error = true) :
    i ≠ .resetCtx := by
  rintro rfl
  cases h
  cases ht

/-- Settles O47: where ERROR was 0 and is 1 the command has raised one of its errors, for RESET_CTX raises none. -/
theorem errorsOfEachCommand : Obligations.ErrorsOfEachCommand := by
  intro i s t hi herr h ht
  obtain hsame | hraised := exec_command_raisesIn hi (ne_resetCtx_of_error h ht) herr t h
  · have herror : t.status.error = s.status.error := congrArg Prod.fst hsame
    rw [herror, herr] at ht
    cases ht
  · -- The pairs of the command's errors are, command by command, the numbers that R215 lists.
    have hmem := hraised.errorPair_mem
    cases i <;> exact hmem

end Sys2Proof.Machine

/-! ## PROOF. Which instructions leave the decode tables and the code-length arrays alone (spec/10_state.md R41, R42, spec/20_memory.md
R69, spec/70_reset_and_hazards.md R253) -/

namespace Sys2Proof.Machine

/-- The two states have the same built tables and the same code-length arrays. -/
structure SameTables (s t : State) : Prop where
  tables : t.tables = s.tables
  lens : t.lens = s.lens

section
variable {s t : State} {i : Instr}

theorem SameTables.of_eq {u : State} (h : t = u) (hu : SameTables s u) : SameTables s t := h ▸ hu

theorem CommandFrame.sameTables (h : CommandFrame s t) : SameTables s t := .of_eq h ⟨rfl, rfl⟩

theorem exec_eob_sameTables (h : exec .eob s = .next t) : SameTables s t := by
  obtain ⟨hgoesOn, hends⟩ := endOfBlock s
  by_cases hnext : s.work.cmd = .stream ∧ s.work.bfinal = false
  · obtain ⟨hcmd, hbfinal⟩ := hnext
    obtain rfl := Host.Outcome.next.inj ((hgoesOn hcmd hbfinal).symm.trans h)
    exact ⟨rfl, rfl⟩
  · rw [not_and_or, Bool.not_eq_false] at hnext
    obtain rfl := Host.Outcome.next.inj ((hends hnext).symm.trans h)
    exact ⟨rfl, rfl⟩

/-- A command that neither builds a table nor decodes a header, nor resets the context. -/
theorem exec_command_sameTables (hi : i.isCommand = true) (hbuild : ∀ tsel nsym, i ≠ .buildTable tsel nsym)
    (hreset : i ≠ .resetCtx) (hheader : i ≠ .decodeHeader) (hblock : i ≠ .decodeBlock) (hstream : i ≠ .decodeStream)
    (h : exec i s = .next t) : SameTables s t := by
  cases i
  case nop =>
    change execNop s = .next t at h
    unfold execNop at h
    refine (commandFrame_acceptCommand (fun hp => ?_) h).sameTables
    obtain rfl := Host.Outcome.next.inj hp
    rfl
  case readBits nbits keep => exact (commandFrame_readBits h).sameTables
  case decodeSymbol tsel => exact (commandFrame_decodeSymbol h).sameTables
  case reservedOp op =>
    change execReservedOp op s = .next t at h
    unfold execReservedOp at h
    refine (commandFrame_acceptCommand (fun hp => ?_) h).sameTables
    obtain rfl := Host.Outcome.next.inj hp
    rfl
  case buildTable tsel nsym => exact absurd rfl (hbuild tsel nsym)
  case resetCtx => exact absurd rfl hreset
  case decodeHeader => exact absurd rfl hheader
  case decodeBlock => exact absurd rfl hblock
  case decodeStream => exact absurd rfl hstream
  all_goals cases hi

/-- A stream operation outside the dynamic header: lengths are written by BTYPE 2 and the CL alphabet only (R172, R174). -/
theorem exec_streamOp_sameTables (hi : i.isCommand = false) (hdynamic : ∀ bfinal, i ≠ .btype2Dynamic bfinal)
    (hsequence : i.format ≠ .clSym) (h : exec i s = .next t) : SameTables s t := by
  obtain ⟨-, -, hlength, hdistance, -⟩ := framesOfStreamReaders
  by_cases hlen : i ∈ lengthCodes
  · exact .of_eq (hlength i s t hlen h) ⟨rfl, rfl⟩
  by_cases hdist : i ∈ distanceCodes
  · exact .of_eq (hdistance i s t hdist h) ⟨rfl, rfl⟩
  have hcode : i ∉ lengthCodes ++ distanceCodes := by simp [hlen, hdist]
  cases i
  case nop | resetCtx | readBits | buildTable | decodeSymbol | decodeHeader | decodeBlock | decodeStream | reservedOp =>
    cases hi
  case btype0Stored | btype1Fixed | btype3Reserved | litReserved | distReserved | lit =>
    obtain rfl := Host.Outcome.next.inj h
    exact ⟨rfl, rfl⟩
  case eob => exact exec_eob_sameTables h
  case btype2Dynamic bfinal => exact absurd rfl (hdynamic bfinal)
  case clLen | clRepeatPrev | clZeroShort | clZeroLong => exact absurd rfl hsequence
  all_goals exact absurd (by decide) hcode

/-- BUILD_TABLE reads the code-length arrays, and writes none of them however it ends (R151, R155). -/
theorem exec_buildTable_lens {tsel : BitVec 2} {nsym : BitVec 9} (h : exec (.buildTable tsel nsym) s = .next t) :
    t.lens = s.lens := by
  cases hlegal : buildTableOperands tsel nsym with
  | none =>
    rw [exec_buildTable_of_none hlegal] at h
    exact (commandFrame_acceptCommand (fun hp => by cases hp; rfl) h).sameTables.lens
  | some p =>
    rw [exec_buildTable_of_some hlegal] at h
    obtain ⟨-, he⟩ | ⟨-, sub, hsub, -⟩ | ⟨-, -, he⟩ := acceptCommand_cases 3 none _ s
    · obtain rfl := Host.Outcome.next.inj (he.symm.trans h)
      rfl
    · cases hsub
    · obtain rfl := Host.Outcome.next.inj (he.symm.trans h)
      rfl

end

/-- Settles O51: apart from the exceptions, a command stays within the frame of READ_BITS and DECODE_SYMBOL, and a stream operation
lies outside the dynamic header. -/
theorem tablesChangeOnlyByBuilds : Obligations.TablesChangeOnlyByBuilds := by
  refine fun i s t h => ⟨fun hbuild hreset hheader hblock hstream hdynamic hlen hrepeat hshort hlong => ?_, ?_⟩
  · have hsame : SameTables s t := by
      cases hi : i.isCommand with
      | true => exact exec_command_sameTables hi hbuild hreset hheader hblock hstream h
      | false =>
        refine exec_streamOp_sameTables hi hdynamic (fun hformat => ?_) h
        obtain ⟨v, rfl⟩ | rfl | rfl | rfl := format_eq_clSym hformat
        · exact hlen v rfl
        · exact hrepeat rfl
        · exact hshort rfl
        · exact hlong rfl
    exact ⟨hsame.tables, hsame.lens⟩
  · rintro tsel nsym rfl
    exact exec_buildTable_lens h

end Sys2Proof.Machine
